-- ==== Sys2Proof/Word.lean ====
section
/-! DEFINITION. The word types of the ZYM core (00_scope.md R10). -/

namespace Sys2Proof

/-- One byte of a serialised word (20_memory.md R85). -/
abbrev Byte := BitVec 8

/-- A 32-bit word of a port, and the payload of one patch field (20_memory.md R87). -/
abbrev Word := BitVec 32

/-- A binary32 value, carried as its IEEE 754 bit pattern in one word (20_memory.md R85). -/
abbrev F32 := BitVec 32

/-- A `real` of the spec: an IEEE 754 binary64 value (00_scope.md R10).
It is a type of its own so that no bit-vector arithmetic applies to it by accident. -/
structure F64 where
  bits : BitVec 64
  deriving DecidableEq, Repr, Inhabited

end Sys2Proof
end

