-- ==== Sys2Proof/Config.lean ====
section
/-! DEFINITION. What an implementation fixes: the OPEN parameters of 00_scope.md R7 as one record that the
machine's operations take as an argument, and the constants with no body for what the spec leaves open.
The default of every parameter that has one is in Machine/Tables.lean, Machine/Hash.lean and Machine/Params.lean. -/

namespace Sys2Proof

/-- The OPEN parameters of 00_scope.md R7, which "are arguments of the model". -/
structure Params where
  /-- `FIR_COEFFS`, index 0 first; `FIR_TAPS` is its length (42_chip_process.md R174). -/
  firCoeffs : List F64
  /-- `DC_N`, at least 1 (42_chip_process.md R176). -/
  dcN : Nat
  /-- `DC_LEAK`, in [0, 1) (42_chip_process.md R176). -/
  dcLeak : F64
  /-- `NOISE_DIV`, 1 to 8 (42_chip_process.md R164). -/
  noiseDiv : Nat
  /-- `DAC_YM`, 32 entries (42_chip_process.md R171). -/
  dacYm : List F64
  /-- `DAC_AY`, 32 entries (42_chip_process.md R171). -/
  dacAy : List F64
  /-- `LNF_YM`, in Hz, above 0 (43_voice.md R217). -/
  lnfYm : F64
  /-- `LNF_AY`, in Hz, above 0 (43_voice.md R217). -/
  lnfAy : F64
  /-- `PORTA_K_MAX` (43_voice.md R214). -/
  portaKMax : F64
  /-- `PORTA_CC_MAX`, in seconds (43_voice.md R214). -/
  portaCcMax : F64
  /-- `HELD_CAP` (44_engine.md R261). -/
  heldCap : Nat
  /-- `HASH32` (00_scope.md R15). -/
  hash32 : Word → Word
  /-- `SIN` (92_eei_decisions.md D7). -/
  sin : F64 → F64
  /-- `COS` (92_eei_decisions.md D7). -/
  cos : F64 → F64
  /-- `EXP` (92_eei_decisions.md D7). -/
  exp : F64 → F64
  /-- `EXP2` (92_eei_decisions.md D7). -/
  exp2 : F64 → F64

/-- `FIR_TAPS` (00_scope.md R7). -/
def Params.firTaps (p : Params) : Nat := p.firCoeffs.length

namespace Config

/-- `SIN`: 92_eei_decisions.md D7 assumes only that it is deterministic (log entry 2). -/
opaque sin : F64 → F64

/-- `COS`: 92_eei_decisions.md D7 assumes only that it is deterministic (log entry 2). -/
opaque cos : F64 → F64

/-- `EXP`: 92_eei_decisions.md D7 assumes only that it is deterministic (log entry 2). -/
opaque exp : F64 → F64

/-- `EXP2`: 92_eei_decisions.md D7 assumes only that it is deterministic (log entry 2). -/
opaque exp2 : F64 → F64

/-- Sign and payload of a NaN that an operation on these operands gives, which IEEE 754 leaves open (log entry 3). -/
opaque nanBits : F64 → F64 → BitVec 64

/-- `floor` of a NaN or an infinity, which 00_scope.md R12 does not define (log entry 4). -/
opaque floorNonFinite : F64 → Int

/-- `roundh` of a NaN or an infinity, which 00_scope.md R12 does not define (log entry 4). -/
opaque roundNonFinite : F64 → Int

/-- What `arp_last_r`, 64 bits wide (10_state.md R50), holds after a random selection at a raw step that passes
2^64 - 1, which the spec does not state (log entry 27). -/
opaque wideStep : Nat → BitVec 64

/-- How many single steps a negative whole part of the ring-mod phase makes: 43_voice.md R224 says that the whole
part is at least 0, which a free `EXP2` does not give (log entry 19). -/
opaque negativeSteps : Int → Nat

end Config

end Sys2Proof
end

