-- ==== Sys2Proof/Machine/PatchTable.lean ====
section
/-! DEFINITION. The patch field table (10_state.md R40): every assigned id with its type, range and reset
payload. `lo` and `hi` of a real field are the integers the spec gives as its bounds (45_patch.md R300). -/

namespace Sys2Proof.Machine

/-- The type column of R40. -/
inductive FieldType where
  /-- F: a real carried as binary32. -/
  | real
  /-- I: a signed integer carried as i32. -/
  | int
  /-- E: an enumeration carried as i32. -/
  | enum
  /-- B: a boolean, stored as 0 or 1. -/
  | bool
  deriving DecidableEq, Repr

/-- A row of R40. -/
structure PatchField where
  id : Nat
  type : FieldType
  lo : Int
  hi : Int
  reset : Word
  deriving DecidableEq, Repr

/-! The field ids under the names the spec gives them; an indexed family is a function of its index. -/

namespace PatchId

/-- `play_mode` -/
def playMode : Nat := 0x000
/-- `tone.time` -/
def toneTime : Nat := 0x010
/-- `tone.detune` -/
def toneDetune : Nat := 0x011
/-- `tone.spread` -/
def toneSpread : Nat := 0x012
/-- `tone.phase` -/
def tonePhase : Nat := 0x013
/-- `tone.reset` -/
def toneReset : Nat := 0x014
/-- `noise.time` -/
def noiseTime : Nat := 0x020
/-- `noise.period` -/
def noisePeriod : Nat := 0x021
/-- `noise.attack_period` -/
def noiseAttackPeriod : Nat := 0x022
/-- `noise.attack_time` -/
def noiseAttackTime : Nat := 0x023
/-- `noise.pitch_sensitivity` -/
def noisePitchSensitivity : Nat := 0x024
/-- `env.attack_time` -/
def envAttackTime : Nat := 0x030
/-- `env.hold1_level` -/
def envHold1Level : Nat := 0x031
/-- `env.inter1_time` -/
def envInter1Time : Nat := 0x032
/-- `env.hold2_level` -/
def envHold2Level : Nat := 0x033
/-- `env.inter2_time` -/
def envInter2Time : Nat := 0x034
/-- `env.hold3_level` -/
def envHold3Level : Nat := 0x035
/-- `env.decay_time` -/
def envDecayTime : Nat := 0x036
/-- `env.sustain_level` -/
def envSustainLevel : Nat := 0x037
/-- `env.release` -/
def envRelease : Nat := 0x038
/-- `pitchenv.attack_pitch` -/
def pitchenvAttackPitch : Nat := 0x040
/-- `pitchenv.time` -/
def pitchenvTime : Nat := 0x041
/-- `ringmod.waveform[k]` -/
def ringmodWaveform (k : Nat) : Nat := 0x050 + k
/-- `ringmod.loop` -/
def ringmodLoop : Nat := 0x058
/-- `ringmod.sync` -/
def ringmodSync : Nat := 0x059
/-- `ringmod.phase` -/
def ringmodPhase : Nat := 0x05A
/-- `ringmod.reset` -/
def ringmodReset : Nat := 0x05B
/-- `ringmod.detune` -/
def ringmodDetune : Nat := 0x05C
/-- `ringmod.fixed_pitch` -/
def ringmodFixedPitch : Nat := 0x05D
/-- `ringmod.fixed_vs_relative` -/
def ringmodFixedVsRelative : Nat := 0x05E
/-- `ringmod.depth` -/
def ringmodDepth : Nat := 0x05F
/-- `ringmod.velocity_sensitivity` -/
def ringmodVelocitySensitivity : Nat := 0x060
/-- `buzzer.enabled` -/
def buzzerEnabled : Nat := 0x070
/-- `buzzer.time` -/
def buzzerTime : Nat := 0x071
/-- `buzzer.detune` -/
def buzzerDetune : Nat := 0x072
/-- `buzzer.shape` -/
def buzzerShape : Nat := 0x073
/-- `buzzer.phase` -/
def buzzerPhase : Nat := 0x074
/-- `buzzer.reset` -/
def buzzerReset : Nat := 0x075
/-- `seq.freq` -/
def seqFreq : Nat := 0x080
/-- `seq.host_sync` -/
def seqHostSync : Nat := 0x081
/-- `seq.loop` -/
def seqLoop : Nat := 0x082
/-- `seq.end` -/
def seqEnd : Nat := 0x083
/-- `seq.arp_repeat` -/
def seqArpRepeat : Nat := 0x084
/-- `seq.step[k].tone_pitch` -/
def seqStepTonePitch (k : Nat) : Nat := 0x090 + 4 * k
/-- `seq.step[k].noise_period` -/
def seqStepNoisePeriod (k : Nat) : Nat := 0x091 + 4 * k
/-- `seq.step[k].ringmod_depth` -/
def seqStepRingmodDepth (k : Nat) : Nat := 0x092 + 4 * k
/-- `seq.step[k].level` -/
def seqStepLevel (k : Nat) : Nat := 0x093 + 4 * k
/-- `lfo.shape` -/
def lfoShape : Nat := 0x0E0
/-- `lfo.freq` -/
def lfoFreq : Nat := 0x0E1
/-- `lfo.delay` -/
def lfoDelay : Nat := 0x0E2
/-- `lfo.depth` -/
def lfoDepth : Nat := 0x0E3
/-- `porta.time` -/
def portaTime : Nat := 0x0F0
/-- `porta.smoothness` -/
def portaSmoothness : Nat := 0x0F1
/-- `pan.channel[c]` -/
def panChannel (k : Nat) : Nat := 0x100 + k
/-- `pan.eqp` -/
def panEqp : Nat := 0x103
/-- `control.pitchwheel` -/
def controlPitchwheel : Nat := 0x110
/-- `control.velocity_sensitivity` -/
def controlVelocitySensitivity : Nat := 0x111
/-- `control.modwheel_depth` -/
def controlModwheelDepth : Nat := 0x112
/-- `host.bpm` -/
def hostBpm : Nat := 0x120

end PatchId

/-- Play mode, tone, noise, amplitude envelope and pitch envelope (R89: 0x000 to 0x041). -/
def fieldsVoice : List PatchField :=
  [⟨PatchId.playMode, .enum, 0, 4, 0⟩,
   ⟨PatchId.toneTime, .real, -1, 3600, 0xBF800000⟩,
   ⟨PatchId.toneDetune, .real, -96, 96, 0x00000000⟩,
   ⟨PatchId.toneSpread, .real, -96, 96, 0x00000000⟩,
   ⟨PatchId.tonePhase, .real, 0, 1, 0x00000000⟩,
   ⟨PatchId.toneReset, .bool, 0, 1, 1⟩,
   ⟨PatchId.noiseTime, .real, -1, 3600, 0x00000000⟩,
   ⟨PatchId.noisePeriod, .int, 0, 31, 0⟩,
   ⟨PatchId.noiseAttackPeriod, .int, 0, 31, 0⟩,
   ⟨PatchId.noiseAttackTime, .real, 0, 3600, 0x00000000⟩,
   ⟨PatchId.noisePitchSensitivity, .real, -32, 32, 0x00000000⟩,
   ⟨PatchId.envAttackTime, .real, 0, 3600, 0x00000000⟩,
   ⟨PatchId.envHold1Level, .real, 0, 15, 0x41700000⟩,
   ⟨PatchId.envInter1Time, .real, 0, 3600, 0x00000000⟩,
   ⟨PatchId.envHold2Level, .real, 0, 15, 0x41700000⟩,
   ⟨PatchId.envInter2Time, .real, 0, 3600, 0x00000000⟩,
   ⟨PatchId.envHold3Level, .real, 0, 15, 0x41700000⟩,
   ⟨PatchId.envDecayTime, .real, 0, 3600, 0x00000000⟩,
   ⟨PatchId.envSustainLevel, .real, 0, 15, 0x41700000⟩,
   ⟨PatchId.envRelease, .real, 0, 3600, 0x00000000⟩,
   ⟨PatchId.pitchenvAttackPitch, .real, -96, 96, 0x00000000⟩,
   ⟨PatchId.pitchenvTime, .real, 0, 3600, 0x00000000⟩]

/-- Ring modulation and buzzer, less the waveform (R89: 0x058 to 0x075). -/
def fieldsRing : List PatchField :=
  [⟨PatchId.ringmodLoop, .enum, 0, 2, 1⟩,
   ⟨PatchId.ringmodSync, .bool, 0, 1, 0⟩,
   ⟨PatchId.ringmodPhase, .real, 0, 1, 0x00000000⟩,
   ⟨PatchId.ringmodReset, .bool, 0, 1, 1⟩,
   ⟨PatchId.ringmodDetune, .real, -96, 96, 0x00000000⟩,
   ⟨PatchId.ringmodFixedPitch, .real, -96, 192, 0x00000000⟩,
   ⟨PatchId.ringmodFixedVsRelative, .real, 0, 1, 0x00000000⟩,
   ⟨PatchId.ringmodDepth, .real, 0, 1, 0x00000000⟩,
   ⟨PatchId.ringmodVelocitySensitivity, .real, 0, 1, 0x00000000⟩,
   ⟨PatchId.buzzerEnabled, .bool, 0, 1, 0⟩,
   ⟨PatchId.buzzerTime, .real, -1, 3600, 0xBF800000⟩,
   ⟨PatchId.buzzerDetune, .real, -96, 96, 0x00000000⟩,
   ⟨PatchId.buzzerShape, .int, 0, 15, 8⟩,
   ⟨PatchId.buzzerPhase, .real, 0, 1, 0x00000000⟩,
   ⟨PatchId.buzzerReset, .bool, 0, 1, 1⟩]

/-- Sequencer control, LFO, portamento, pan law, control and tempo (R89: 0x080 to 0x084, 0x0E0 to 0x120). -/
def fieldsMod : List PatchField :=
  [⟨PatchId.seqFreq, .real, 0, 1000, 0x00000000⟩,
   ⟨PatchId.seqHostSync, .bool, 0, 1, 0⟩,
   ⟨PatchId.seqLoop, .int, 0, 16, 0⟩,
   ⟨PatchId.seqEnd, .int, 0, 16, 0⟩,
   ⟨PatchId.seqArpRepeat, .int, 0, 255, 0⟩,
   ⟨PatchId.lfoShape, .enum, 0, 5, 0⟩,
   ⟨PatchId.lfoFreq, .real, 0, 1000, 0x00000000⟩,
   ⟨PatchId.lfoDelay, .real, 0, 3600, 0x00000000⟩,
   ⟨PatchId.lfoDepth, .real, -96, 96, 0x00000000⟩,
   ⟨PatchId.portaTime, .real, 0, 3600, 0x00000000⟩,
   ⟨PatchId.portaSmoothness, .real, 0, 1, 0x00000000⟩,
   ⟨PatchId.panEqp, .bool, 0, 1, 0⟩,
   ⟨PatchId.controlPitchwheel, .int, 0, 48, 2⟩,
   ⟨PatchId.controlVelocitySensitivity, .real, 0, 1, 0x00000000⟩,
   ⟨PatchId.controlModwheelDepth, .real, -96, 96, 0x00000000⟩,
   ⟨PatchId.hostBpm, .real, 1, 999, 0x42F00000⟩]

/-- The ring-mod waveform entries (R89: 0x050 to 0x057). -/
def fieldsWaveform : List PatchField := (List.range 8).map fun k => ⟨PatchId.ringmodWaveform k, .real, 0, 15, 0x41700000⟩

/-- The four fields of sequencer step k (R89: 0x090 to 0x0CF). -/
def fieldsStep (k : Nat) : List PatchField :=
  [⟨PatchId.seqStepTonePitch k, .real, -96, 96, 0x00000000⟩,
   ⟨PatchId.seqStepNoisePeriod k, .int, -31, 31, 0⟩,
   ⟨PatchId.seqStepRingmodDepth k, .real, -1, 1, 0x00000000⟩,
   ⟨PatchId.seqStepLevel k, .real, 0, 15, 0x41700000⟩]

/-- The pan value of each chip channel (R89: 0x100 to 0x102). -/
def fieldsPan : List PatchField := (List.range 3).map fun k => ⟨PatchId.panChannel k, .real, 0, 1, 0x3F000000⟩

/-- The whole table of R40. -/
def patchFields : List PatchField :=
  fieldsVoice ++ fieldsRing ++ fieldsMod ++ fieldsWaveform ++ fieldsPan ++ (List.range 16).flatMap fieldsStep

/-- The row of an id; none when the id is unassigned. -/
def fieldAt (id : Nat) : Option PatchField := patchFields.find? fun f => f.id == id

/-- Whether an id is assigned (20_memory.md R82). -/
def assigned (id : Nat) : Bool := (fieldAt id).isSome

/-- The payload an id holds at reset (R40); an unassigned id holds nothing and is never read (log entry 10). -/
def resetPayload (id : Nat) : Word :=
  match fieldAt id with
  | some f => f.reset
  | none => 0

end Sys2Proof.Machine
end

