-- ==== Sys2Proof/Machine/Hash.lean ====
section
/-! DEFINITION. The reproducible integer hash of 00_scope.md R15. -/

namespace Sys2Proof.Machine

/-- `hash32`, lowbias32 (R15): the default of the parameter `HASH32`. -/
def lowbias32 (x : Word) : Word :=
  let x := x ^^^ (x >>> 16)
  let x := x * 0x7feb352d#32
  let x := x ^^^ (x >>> 15)
  let x := x * 0x846ca68b#32
  x ^^^ (x >>> 16)

/-- The salts of R15, one for each use of the pseudo-random source. -/
inductive Salt where
  | lfo
  | arp
  | chan
  | tone
  | rm
  | buzz
  deriving DecidableEq, Repr

def Salt.word : Salt → Word
  | .lfo => 0x00000000#32
  | .arp => 0x9E3779B9#32
  | .chan => 0x85EBCA6B#32
  | .tone => 0xC2B2AE35#32
  | .rm => 0x27D4EB2F#32
  | .buzz => 0x165667B1#32

/-- `rnd(salt, n)` (R15). -/
def rnd (p : Params) (salt : Salt) (n : Word) : Word := p.hash32 (n + salt.word)

end Sys2Proof.Machine
end

