-- ==== Sys2Proof/Machine/Real.lean ====
section
/-! DEFINITION. Real arithmetic of the spec (00_scope.md R10 to R14): IEEE 754 binary64 with round to nearest
even, every operation computed exactly on rationals and then rounded once. -/

namespace Sys2Proof

/-- 2^n, written with the power function of the natural numbers itself so that evaluation stays direct. -/
abbrev pow2 (n : Nat) : Nat := Nat.pow 2 n

@[simp] theorem pow2_eq (n : Nat) : pow2 n = 2 ^ n := rfl

/-- The exponent of the smallest positive value of the format with `mb` fraction bits and `eb` exponent bits. -/
def fpMinExp (mb eb : Nat) : Int := 2 - (pow2 (eb - 1) : Nat) - mb

/-- The position of the highest bit of n, for n below 2^(2^k), by halving the number of bits. -/
def log2Upto : Nat → Nat → Nat
  | 0, _ => 0
  | k + 1, n =>
    let high := n / pow2 (pow2 k)
    if high = 0 then log2Upto k n else pow2 k + log2Upto k high

/-- The position of the highest bit of n, by blocks of 256 bits. -/
def topBitFrom : Nat → Nat → Nat
  | 0, n => n.log2
  | k + 1, n => if n < pow2 256 then log2Upto 8 n else 256 + topBitFrom k (n / pow2 256)

/-- The position of the highest bit of n: `Nat.log2`, in a form that evaluates in few steps
(Laws/Real.lean proves the two equal). -/
def topBit (n : Nat) : Nat := topBitFrom 16 n

/-- What a bit pattern of a binary format denotes; `fin neg m e` is (-1)^neg * m * 2^e. -/
inductive FpValue where
  | nan
  | inf (neg : Bool)
  | fin (neg : Bool) (m : Nat) (e : Int)
  deriving DecidableEq, Repr

/-- The value of the pattern `bits` in the IEEE 754 format with `mb` fraction bits and `eb` exponent bits. -/
def fpValue (mb eb : Nat) (bits : Nat) : FpValue :=
  let neg := bits.testBit (mb + eb)
  let frac := bits % pow2 mb
  let ef := bits / pow2 mb % pow2 eb
  if ef = pow2 eb - 1 then (if frac = 0 then .inf neg else .nan)
  else if ef = 0 then .fin neg frac (fpMinExp mb eb)
  else .fin neg (pow2 mb + frac) (ef - 1 + fpMinExp mb eb)

/-- The integer nearest to num / den, ties to even. -/
def roundDivEven (num den : Nat) : Nat :=
  let q := num / den
  let r := num % den
  if 2 * r < den then q else if den < 2 * r then q + 1 else q + q % 2

/-- The magnitude bits of num / den rounded to nearest even in the format with `mb` fraction bits and `eb`
exponent bits; a magnitude beyond the largest finite one gives infinity. -/
def fpRound (mb eb : Nat) (num den : Nat) : Nat :=
  if num = 0 then 0
  else
    let emin := fpMinExp mb eb
    let e0 : Int := (topBit num : Int) - (topBit den : Int)
    let e := if num * pow2 (-e0).toNat < den * pow2 e0.toNat then e0 - 1 else e0
    let q := max (e - mb) emin
    let n := roundDivEven (num * pow2 (-q).toNat) (den * pow2 q.toNat)
    min (n + (q - emin).toNat * pow2 mb) ((pow2 eb - 1) * pow2 mb)

/-- The largest r with r * r ≤ n, found from bit `k` of r downwards, given the bits above in `acc`. -/
def isqrtFrom (n : Nat) : Nat → Nat → Nat
  | 0, acc => acc
  | k + 1, acc => isqrtFrom n k (if (acc + pow2 k) * (acc + pow2 k) ≤ n then acc + pow2 k else acc)

/-- The integer square root. -/
def isqrt (n : Nat) : Nat := isqrtFrom n (topBit n / 2 + 1) 0

namespace F64

def value (x : F64) : FpValue := fpValue 52 11 x.bits.toNat

/-- A quiet NaN whose sign and payload are open (log entry 3). -/
def nan (a b : F64) : F64 :=
  ⟨(Config.nanBits a b &&& 0x8007FFFFFFFFFFFF#64) ||| 0x7FF8000000000000#64⟩

/-- Sign and magnitude bits put together. -/
def ofMag (neg : Bool) (mag : Nat) : F64 := ⟨BitVec.ofNat 64 (mag + if neg then pow2 63 else 0)⟩

def inf (neg : Bool) : F64 := ofMag neg 0x7FF0000000000000

/-- (-1)^neg * num / den, rounded. -/
def ofRatio (neg : Bool) (num den : Nat) : F64 := ofMag neg (fpRound 52 11 num den)

/-- (-1)^neg * m * 2^e, rounded. -/
def ofDyadic (neg : Bool) (m : Nat) (e : Int) : F64 := ofRatio neg (m * pow2 e.toNat) (pow2 (-e).toNat)

/-- `real(n)` for an integer (00_scope.md R10). -/
def ofInt (n : Int) : F64 := ofRatio (decide (n < 0)) n.natAbs 1

def ofNat (n : Nat) : F64 := ofInt n

/-- The decimal literal num / den of the spec: the binary64 nearest to it (42_chip_process.md R171). -/
def dec (num : Nat) (den : Nat := 1) : F64 := ofRatio false num den

def zero : F64 := ⟨0#64⟩
def one : F64 := ⟨0x3FF0000000000000#64⟩

def isNaN (x : F64) : Bool := decide (0x7FF0000000000000 < x.bits.toNat % pow2 63)

def isFinite (x : F64) : Bool := decide (x.bits.toNat % pow2 63 < 0x7FF0000000000000)

def sign (x : F64) : Bool := x.bits.msb

def neg (x : F64) : F64 := ⟨x.bits ^^^ 0x8000000000000000#64⟩

/-- A value with its sign as an exact integer multiple of 2^k, for k at most its exponent. -/
def scaled (neg : Bool) (m : Nat) (e k : Int) : Int :=
  let v : Int := (m * pow2 (e - k).toNat : Nat)
  if neg then -v else v

def add (a b : F64) : F64 :=
  match a.value, b.value with
  | .nan, _ => nan a b
  | _, .nan => nan a b
  | .inf s, .inf t => if s = t then inf s else nan a b
  | .inf s, .fin _ _ _ => inf s
  | .fin _ _ _, .inf t => inf t
  | .fin s m e, .fin t n f =>
    let k := min e f
    let v := scaled s m e k + scaled t n f k
    if v = 0 then ofMag (s && t) 0 else ofDyadic (decide (v < 0)) v.natAbs k

def sub (a b : F64) : F64 := if b.isNaN then nan a b else add a b.neg

def mul (a b : F64) : F64 :=
  match a.value, b.value with
  | .nan, _ => nan a b
  | _, .nan => nan a b
  | .inf s, .inf t => inf (xor s t)
  | .inf s, .fin t n _ => if n = 0 then nan a b else inf (xor s t)
  | .fin s m _, .inf t => if m = 0 then nan a b else inf (xor s t)
  | .fin s m e, .fin t n f => ofDyadic (xor s t) (m * n) (e + f)

def div (a b : F64) : F64 :=
  match a.value, b.value with
  | .nan, _ => nan a b
  | _, .nan => nan a b
  | .inf _, .inf _ => nan a b
  | .inf s, .fin t _ _ => inf (xor s t)
  | .fin s _ _, .inf t => ofMag (xor s t) 0
  | .fin s m e, .fin t n f =>
    if n = 0 then (if m = 0 then nan a b else inf (xor s t))
    else ofRatio (xor s t) (m * pow2 (e - f).toNat) (n * pow2 (f - e).toNat)

/-- The correctly rounded square root (92_eei_decisions.md D7).
The root is taken to more than 60 bits and a sticky bit put below them, so one rounding is exact. -/
def sqrt (a : F64) : F64 :=
  match a.value with
  | .nan => nan a a
  | .inf s => if s then nan a a else inf false
  | .fin s m e =>
    if m = 0 then a
    else if s then nan a a
    else
      let odd := (e % 2).toNat
      let n := m * pow2 (120 + odd)
      let r := isqrt n
      ofDyadic false (2 * r + if r * r = n then 0 else 1) ((e - 120 - odd) / 2 - 1)

/-- A number that orders the values that are no NaN; +0 and -0 have the same. -/
def key (x : F64) : Int :=
  let mag : Int := (x.bits.toNat % pow2 63 : Nat)
  if x.sign then -mag else mag

def lt (a b : F64) : Bool := !a.isNaN && !b.isNaN && decide (a.key < b.key)
def le (a b : F64) : Bool := !a.isNaN && !b.isNaN && decide (a.key ≤ b.key)
def eq (a b : F64) : Bool := !a.isNaN && !b.isNaN && decide (a.key = b.key)

def max (a b : F64) : F64 := if a.lt b then b else a
def min (a b : F64) : F64 := if b.lt a then b else a

/-- `clamp` (00_scope.md R12). -/
def clamp (x lo hi : F64) : F64 := min (max x lo) hi

/-- `floor` (00_scope.md R12). -/
def floor (x : F64) : Int :=
  match x.value with
  | .fin s m e => scaled s m (Max.max e 0) 0 / (pow2 (-e).toNat : Nat)
  | _ => Config.floorNonFinite x

/-- `roundh`: nearest integer, ties away from zero (00_scope.md R12). -/
def roundh (x : F64) : Int :=
  match x.value with
  | .fin s m e =>
    let d := pow2 (-e).toNat
    let v : Int := ((2 * (m * pow2 e.toNat) + d) / (2 * d) : Nat)
    if s then -v else v
  | _ => Config.roundNonFinite x

/-- `frac` (00_scope.md R12). -/
def frac (x : F64) : F64 := x.sub (ofInt x.floor)

/-- `f64(y)`: a binary32 pattern widened exactly (00_scope.md R10). -/
def ofF32 (w : F32) : F64 :=
  match fpValue 23 8 w.toNat with
  | .nan => nan ⟨w.setWidth 64⟩ ⟨w.setWidth 64⟩
  | .inf s => inf s
  | .fin s m e => ofDyadic s m e

/-- `f32(x)`: rounded to binary32, nearest even (00_scope.md R10). -/
def toF32 (x : F64) : F32 :=
  match x.value with
  | .nan => ((Config.nanBits x x).setWidth 32 &&& 0x803FFFFF#32) ||| 0x7FC00000#32
  | .inf s => if s then 0xFF800000#32 else 0x7F800000#32
  | .fin s m e =>
    BitVec.ofNat 32 (fpRound 23 8 (m * pow2 e.toNat) (pow2 (-e).toNat) + if s then pow2 31 else 0)

/-- `LERP` (00_scope.md R13). -/
def lerp (a b u : F64) : F64 := a.add ((b.sub a).mul u)

/-- `LERPSEG` (00_scope.md R13). -/
def lerpSeg (a b t t0 len : F64) : F64 :=
  if zero.lt len then lerp a b (clamp ((t.sub t0).div len) zero one)
  else (a.add b).div (dec 2)

/-- The logistic function, with the parameter `EXP` (00_scope.md R14). -/
def sigma (exp : F64 → F64) (x : F64) : F64 := one.div (one.add (exp x.neg))

/-- π: the binary64 nearest to π (43_voice.md R215). -/
def pi : F64 := ⟨0x400921FB54442D18#64⟩

end F64

/-- `clamp` on integers (00_scope.md R12). -/
def clampInt (x lo hi : Int) : Int := min (max x lo) hi

end Sys2Proof
end

