-- ==== Sys2Proof/Machine/Tables.lean ====
section
/-! DEFINITION. The default tables of the chip: the DAC tables of 42_chip_process.md R171 and the FIR
coefficients of R174, each entry the binary64 nearest to the decimal literal the spec prints
(Tests/Slice0.lean compares every entry with its literal), and the formula of R174. -/

namespace Sys2Proof.Machine

/-- `DAC_YM` (R171). -/
def dacYm : List F64 :=
  [⟨0x0000000000000000⟩, ⟨0x0000000000000000⟩, ⟨0x3F7310131013053A⟩, ⟨0x3F7FA01FA01FA761⟩,
   ⟨0x3F867016701630F8⟩, ⟨0x3F8C981C981CCB65⟩, ⟨0x3F916811681151C2⟩, ⟨0x3F9480148014A6B1⟩,
   ⟨0x3F98F418F418D8DE⟩, ⟨0x3F9E681E681E8881⟩, ⟨0x3FA1F411F411EF5B⟩, ⟨0x3FA4AE14AE14C72C⟩,
   ⟨0x3FA8DA18DA18DEFC⟩, ⟨0x3FADDE1DDE1DEEC5⟩, ⟨0x3FB16C116C1175A0⟩, ⟨0x3FB3E913E913F3DE⟩,
   ⟨0x3FB7AF17AF17B76C⟩, ⟨0x3FBC701C701C7E33⟩, ⟨0x3FC09B909B90D280⟩, ⟨0x3FC301930193245A⟩,
   ⟨0x3FC69D169D16A3F6⟩, ⟨0x3FCB141B141B305E⟩, ⟨0x3FCF899F899F8FA8⟩, ⟨0x3FD1FD91FD9201B0⟩,
   ⟨0x3FD55BD55BD574A5⟩, ⟨0x3FD9A099A0999909⟩, ⟨0x3FDDE99DE99DF6E3⟩, ⟨0x3FE11A111A111DBF⟩,
   ⟨0x3FE453545354575E⟩, ⟨0x3FE8419841983757⟩, ⟨0x3FEC285C285C2C06⟩, ⟨0x3FF0000000000000⟩]

/-- `DAC_AY` (R171). -/
def dacAy : List F64 :=
  [⟨0x0000000000000000⟩, ⟨0x0000000000000000⟩, ⟨0x3F847814781480BC⟩, ⟨0x3F847814781480BC⟩,
   ⟨0x3F8D981D981DD844⟩, ⟨0x3F8D981D981DD844⟩, ⟨0x3F959015901561DA⟩, ⟨0x3F959015901561DA⟩,
   ⟨0x3F9F701F701FA4D0⟩, ⟨0x3F9F701F701FA4D0⟩, ⟨0x3FA7521752173C3D⟩, ⟨0x3FA7521752173C3D⟩,
   ⟨0x3FB08310831078FF⟩, ⟨0x3FB08310831078FF⟩, ⟨0x3FBB7C1B7C1B5031⟩, ⟨0x3FBB7C1B7C1B5031⟩,
   ⟨0x3FC03410341034FA⟩, ⟨0x3FC03410341034FA⟩, ⟨0x3FCA3D1A3D1A1E2E⟩, ⟨0x3FCA3D1A3D1A1E2E⟩,
   ⟨0x3FD2B392B392C61E⟩, ⟨0x3FD2B392B392C61E⟩, ⟨0x3FD7DC97DC97E503⟩, ⟨0x3FD7DC97DC97E503⟩,
   ⟨0x3FDF859F859FA416⟩, ⟨0x3FDF859F859FA416⟩, ⟨0x3FE45494549459C7⟩, ⟨0x3FE45494549459C7⟩,
   ⟨0x3FE9C759C759C0A2⟩, ⟨0x3FE9C759C759C0A2⟩, ⟨0x3FF0000000000000⟩, ⟨0x3FF0000000000000⟩]

/-- h[0] to h[23]. -/
def firHalf0 : List F64 :=
  [⟨0x3BD501F70772C1F8⟩, ⟨0xBE8FA49176B2E9D9⟩, ⟨0xBEB4EB2E73EEBE1B⟩, ⟨0xBEC9CCCBD793242F⟩,
   ⟨0xBED57AA91499B517⟩, ⟨0xBEDA101C03F69D2C⟩, ⟨0xBED4A0786F033056⟩, ⟨0x3BF9B5D71594D983⟩,
   ⟨0x3EE2F4E2C4C72286⟩, ⟨0x3EF690D276D7874D⟩, ⟨0x3F028AE7A2B81076⟩, ⟨0x3F08C2DFC90A4B78⟩,
   ⟨0x3F0BC74A59C096B0⟩, ⟨0x3F097A0E1ECE7076⟩, ⟨0x3F00567C9B94E5A8⟩, ⟨0xBC0145794A3B136B⟩,
   ⟨0xBF0650F9721DAB26⟩, ⟨0xBF17D27E147C186D⟩, ⟨0xBF21DDD38A4755C6⟩, ⟨0xBF26133BEB315232⟩,
   ⟨0xBF27298660C833E8⟩, ⟨0xBF240A6C0BD3F399⟩, ⟨0xBF186B98FEA6F55F⟩, ⟨0x3C1633ECC92FA287⟩]

/-- h[24] to h[47]. -/
def firHalf1 : List F64 :=
  [⟨0x3F1E9BE2B2C3C44E⟩, ⟨0x3F2F810B218ADA83⟩, ⟨0x3F36DC49FB8CAB4E⟩, ⟨0x3F3B68C488768F33⟩,
   ⟨0x3F3BFA91B98F1BBA⟩, ⟨0x3F379A81A4DE690D⟩, ⟨0x3F2C18F485986425⟩, ⟨0xBC263883A9E95DE2⟩,
   ⟨0xBF30E31A80D33A35⟩, ⟨0xBF410E65BEE20D22⟩, ⟨0xBF4851C6A5274C0E⟩, ⟨0xBF4CAD80E076AF97⟩,
   ⟨0xBF4CD18529CC7EA5⟩, ⟨0xBF47F458FA38AF3D⟩, ⟨0xBF3C1E3B6226378B⟩, ⟨0x3C333341305AFBE0⟩,
   ⟨0x3F40776EBAC9B003⟩, ⟨0x3F506EB51EBD3D90⟩, ⟨0x3F5729AF2A07D848⟩, ⟨0x3F5B044757AF6BDA⟩,
   ⟨0x3F5ADE0681E45017⟩, ⟨0x3F561C72015943B5⟩, ⟨0x3F49B557D7C75A1C⟩, ⟨0xBC3DD249B1419915⟩]

/-- h[48] to h[71]. -/
def firHalf2 : List F64 :=
  [⟨0xBF4D94859F9E9538⟩, ⟨0xBF5D467E6A6CC049⟩, ⟨0xBF64787A0641906B⟩, ⟨0xBF67B2978C3C1A17⟩,
   ⟨0xBF67660BF8E73460⟩, ⟨0xBF6320539BB0CEDE⟩, ⟨0xBF561879C77F61D7⟩, ⟨0x3C453ADCAAF267E4⟩,
   ⟨0x3F59205D7EC8839F⟩, ⟨0x3F68BC4F77781960⟩, ⟨0x3F7135FE7946E173⟩, ⟨0x3F73D55CFF1B80BF⟩,
   ⟨0x3F7380792D82856C⟩, ⟨0x3F6FC3374F4023D5⟩, ⟨0x3F62492D47010086⟩, ⟨0xBC4C07B325433E2A⟩,
   ⟨0xBF64AF1D6EC06A0E⟩, ⟨0xBF7452B5352C2CC9⟩, ⟨0xBF7C3DDE6E9CAA26⟩, ⟨0xBF80423AB22DEB80⟩,
   ⟨0xBF7FF7390439EE9B⟩, ⟨0xBF7A0A9C2199D56A⟩, ⟨0xBF6E046362B6BBFC⟩, ⟨0x3C51496F15E3B634⟩]

/-- h[72] to h[95]. -/
def firHalf3 : List F64 :=
  [⟨0x3F710DEA6F8DC607⟩, ⟨0x3F80D1449C013F27⟩, ⟨0x3F877A98066D2B6D⟩, ⟨0x3F8B30C356CE0357⟩,
   ⟨0x3F8AEB43BC62EC76⟩, ⟨0x3F861E3AA9200367⟩, ⟨0x3F79C19C6CDFE223⟩, ⟨0xBC5404C124B2E9F0⟩,
   ⟨0xBF7E0D574DFC168D⟩, ⟨0xBF8E2435E71444E9⟩, ⟨0xBF9577619E600F76⟩, ⟨0xBF99751550B58851⟩,
   ⟨0xBF99ECEEAB558B71⟩, ⟨0xBF9608D437CE287F⟩, ⟨0xBF8ABA4EC14C4BFD⟩, ⟨0x3C55D59448DD5259⟩,
   ⟨0x3F916E698F352814⟩, ⟨0x3FA2E608C5A47441⟩, ⟨0x3FADC70023A5562D⟩, ⟨0x3FB439CC17F3699C⟩,
   ⟨0x3FB8FE471EA641DA⟩, ⟨0x3FBCC20956911997⟩, ⟨0x3FBF2B56908250E3⟩, ⟨0x3FBFFFD8CB443183⟩]

/-- The coefficients h[0] to h[95] that R174 lists. -/
def firHalf : List F64 := firHalf0 ++ firHalf1 ++ firHalf2 ++ firHalf3

/-- The 191 default coefficients: h[96] to h[190] mirror h[94] to h[0] (R174). -/
def firDefault : List F64 := firHalf ++ (firHalf.take 95).reverse

/-- s(n) of R174, the sinc at n / 8. -/
def firSinc (sin : F64 → F64) (n : Nat) : F64 :=
  if n = 0 then F64.one
  else
    let x := F64.pi.mul ((F64.ofNat n).div (F64.dec 8))
    (sin x).div x

/-- w(n) of R174, the Blackman window of half width M. -/
def firWindow (cos : F64 → F64) (m n : Nat) : F64 :=
  ((F64.dec 42 100).add ((F64.dec 1 2).mul (cos ((F64.pi.mul (F64.ofNat n)).div (F64.ofNat m))))).add
    ((F64.dec 8 100).mul (cos ((((F64.dec 2).mul F64.pi).mul (F64.ofNat n)).div (F64.ofNat m))))

/-- hraw[k] of R174, with n = |k - M|. -/
def firRaw (sin cos : F64 → F64) (m k : Nat) : F64 :=
  let n := ((k : Int) - m).natAbs
  (firSinc sin n).mul (firWindow cos m n)

/-- The formula of R174 for `FIR_TAPS` = 2 * m + 1: hraw[k] over the sum of hraw in index order. -/
def firDesign (sin cos : F64 → F64) (m : Nat) : List F64 :=
  let raw := (List.range (2 * m + 1)).map (firRaw sin cos m)
  let s := raw.foldl F64.add F64.zero
  raw.map (F64.div · s)

end Sys2Proof.Machine
end

