-- ==== Sys2Proof/Machine/Params.lean ====
section
/-! DEFINITION. The parameters of the machine: every OPEN parameter of 00_scope.md R7 at the default the spec
gives it, and the transcendental functions, which have none, at the constants of Config with no body. -/

namespace Sys2Proof.Machine

/-- The parameters that `exec` and `State.reset` use (R7; log entry 1). -/
def params : Params where
  firCoeffs := firDefault
  dcN := 1
  dcLeak := F64.dec 995 1000
  noiseDiv := 2
  dacYm := dacYm
  dacAy := dacAy
  lnfYm := F64.dec 8175798915643707 1000000000000000
  lnfAy := F64.dec 8175798915643707 1000000000000000
  portaKMax := F64.dec 12
  portaCcMax := F64.one
  heldCap := 256
  hash32 := lowbias32
  sin := Config.sin
  cos := Config.cos
  exp := Config.exp
  exp2 := Config.exp2

/-- `u01(x) = x / 2^32` (00_scope.md R15). -/
def u01 (x : Word) : F64 := (F64.ofNat x.toNat).div (F64.dec 4294967296)

end Sys2Proof.Machine
end

