-- ==== Sys2Proof/Syntax.lean ====
section
/-! DEFINITION. The commands of the ZYM core: one constructor per row of the opcode map (30_encoding.md R110),
with every operand the encoding carries (R103 to R109), the ones the block decodes and ignores among them. -/

namespace Sys2Proof

/-- The two chip modes (00_scope.md R2). -/
inductive ChipMode where
  | ym2149
  | ay8910
  deriving DecidableEq, Repr

/-- A command. `ch` is the channel field H[23:20] of format FC, `mch` the MIDI channel of format FE. -/
inductive Instr where
  | nop
  | reset
  | configure (mode : ChipMode) (sr : BitVec 18) (clock : Word)
  | rdStatus
  | setTone (ch : BitVec 4) (period : BitVec 12)
  | setMixer (ch : BitVec 4) (tOff nOff eOn : Bool)
  | setVolume (ch : BitVec 4) (vol : BitVec 4)
  | setPan (ch : BitVec 4) (eqp : Bool) (pan : F32)
  | setNoise (np : BitVec 5)
  | setEnvPeriod (ep : BitVec 16)
  | setEnvShape (shape : BitVec 4)
  | tonePhase (ch : BitVec 4) (phase : F32)
  | envSync
  | envLoad (seg : Bool) (level : BitVec 5) (counter : BitVec 16)
  | process
  | noteOn (mch : BitVec 4) (pitch vel : BitVec 7)
  | noteOff (mch : BitVec 4) (pitch rvel : BitVec 7)
  | allNotesOff (mch : BitVec 4)
  | pitchWheel (mch : BitVec 4) (wheel : BitVec 14)
  | control (mch : BitVec 4) (num val : BitVec 7)
  | patchWr (id : BitVec 12) (value : Word)
  | patchRd (id : BitVec 12)
  | render (n : BitVec 20)
  deriving DecidableEq, Repr

end Sys2Proof
end

