-- ==== Sys2Proof/Machine/State.lean ====
section
/-! DEFINITION. The state of the ZYM core (10_state.md R20 to R60): everything the spec gives the machine, as
plain data, with its value at power-on reset. -/

namespace Sys2Proof.Machine

/-- The block has no exceptions and no traps (60_exceptions.md R310), so no command and no step ends in a fault:
the type has no constructor (log entry 18). -/
inductive Fault where
  deriving DecidableEq, Repr

/-- Why a step can have no meaning. -/
inductive Refusal where
  /-- Raised only by an arm of `exec` whose instruction has no meaning yet; safe.
  No arm of this model raises it (log entry 18). -/
  | notModelled (mnemonic : String)
  deriving DecidableEq, Repr

/-- The stored part of STATUS: the sticky bits 2 to 4 (R21). -/
structure Errors where
  illegal : Bool := false
  unconfigured : Bool := false
  value : Bool := false
  deriving DecidableEq, Repr

/-- The configuration registers (R23). -/
structure Cfg where
  configured : Bool := false
  mode : ChipMode := .ym2149
  clock : BitVec 32 := 0
  sr : BitVec 18 := 0
  step : F64 := F64.zero
  deriving DecidableEq, Repr

/-- The record of one chip channel (R26). -/
structure ToneChannel where
  period : BitVec 12 := 0
  counter : BitVec 12 := 0
  bit : Bool := false
  tOff : Bool := false
  nOff : Bool := false
  eOn : Bool := false
  volume : BitVec 4 := 0
  panL : F64 := F64.zero
  panR : F64 := F64.zero
  deriving DecidableEq, Repr

/-- The three chip channels (00_scope.md R7: `CHANNELS` is 3). -/
structure Tones where
  c0 : ToneChannel := {}
  c1 : ToneChannel := {}
  c2 : ToneChannel := {}
  deriving DecidableEq, Repr

/-- The shared noise generator (R27). -/
structure NoiseGen where
  period : BitVec 5 := 0
  counter : BitVec 8 := 0
  lfsr : BitVec 17 := 1
  deriving DecidableEq, Repr

/-- The shared envelope generator (R28). -/
structure EnvGen where
  period : BitVec 16 := 0
  counter : BitVec 16 := 0
  segment : Bool := false
  level : BitVec 5 := 0
  shape : BitVec 4 := 0
  deriving DecidableEq, Repr

/-- The DC filter of one stereo side (R31): `x` holds the last `DC_N` inputs, newest first. -/
structure DcSide where
  x : List F64
  y : F64 := F64.zero
  deriving DecidableEq, Repr

/-- ChipState (R26 to R31). The histories hold `FIR_TAPS` sub-samples, newest first (R30). -/
structure Chip where
  tones : Tones := {}
  noise : NoiseGen := {}
  env : EnvGen := {}
  acc : F64 := F64.zero
  firL : List F64
  firR : List F64
  dcL : DcSide
  dcR : DcSide
  deriving DecidableEq, Repr

/-- The reset value of ChipState (R26 to R31). -/
def Chip.reset (p : Params) : Chip where
  firL := List.replicate p.firTaps F64.zero
  firR := List.replicate p.firTaps F64.zero
  dcL := { x := List.replicate p.dcN F64.zero }
  dcR := { x := List.replicate p.dcN F64.zero }

/-- The patch register file (R40): pairs of a field id and its payload, ids strictly rising.
An id that is not listed holds the reset payload of its field (Machine/Ops.lean, `memRead`; log entry 10). -/
abbrev Patch := List (Nat × Word)

/-- The direction of the ring-mod index (R50): +1 or -1. -/
inductive RmDir where
  | up
  | down
  deriving DecidableEq, Repr

/-- A voice record (R50). -/
structure Voice where
  serial : BitVec 32
  chan : Fin 3
  pitch : BitVec 7
  velocity : BitVec 7
  noteOn : Bool
  first : Bool
  onSmp : BitVec 64
  pitchSmp : BitVec 64
  envSmp : BitVec 64
  envLevel : F64
  relLevel : F64
  portaSrc : F64
  lastBit : Bool
  seqIdx : Option (Fin 16)
  arpSel : BitVec 7
  arpPrev : Option Nat
  arpLastR : Option (BitVec 64)
  rmIdx : Fin 8
  rmDir : RmDir
  rmPhase : F64
  lastShape : Option (BitVec 4)
  buzzPeriod : BitVec 16
  deriving DecidableEq, Repr

/-- Engine state (R55). `held` is a multiset, kept as an ascending list; `deferred` is in arrival order. -/
structure Engine where
  voices : List Voice := []
  held : List (BitVec 7) := []
  deferred : List (BitVec 7) := []
  sustain : Bool := false
  ccMod : BitVec 7 := 0
  ccPorta : BitVec 7 := 0
  ccVolume : BitVec 7 := 127
  ccPan : BitVec 7 := 64
  ccExpr : BitVec 7 := 127
  pw : BitVec 14 := 8192
  lastPitch : Option (BitVec 7) := none
  serialCtr : BitVec 32 := 0
  deriving DecidableEq, Repr

/-- The whole state of the block (R20). -/
structure State where
  /-- The command port, oldest word first (R24, R25). -/
  cmd : List Word
  /-- The response port, oldest word first (R25). -/
  resp : List Word
  /-- The output port, oldest pair (left, right) first (R25). -/
  out : List (F32 × F32)
  err : Errors
  cfg : Cfg
  chip : Chip
  patch : Patch
  eng : Engine
  deriving DecidableEq, Repr

/-- The machine right after power-on reset (R60, 70_reset_and_hazards.md R330), for any OPEN parameters. -/
def State.resetWith (p : Params) : State where
  cmd := []
  resp := []
  out := []
  err := {}
  cfg := {}
  chip := Chip.reset p
  patch := []
  eng := {}

/-- The machine right after power-on reset, with the defaults of the OPEN parameters (log entry 1). -/
def State.reset : State := State.resetWith params

end Sys2Proof.Machine
end

