-- ==== Sys2Proof/Machine/Ops.lean ====
section
/-! DEFINITION. The named operations over the state: taking a command from the port, the refusal primitive
`raise`, the two output ports, the patch field space, and the access to a chip channel (00_scope.md R9). -/

namespace Sys2Proof.Machine

/-! The command port (10_state.md R24, 20_memory.md R81). -/

/-- The oldest unread pair of words and the state with the port moved past it; none while fewer than two words
are present, when no command is started. -/
def State.fetch (s : State) : Option (Word × Word × State) :=
  match s.cmd with
  | h :: d :: rest => some (h, d, { s with cmd := rest })
  | _ => none

/-- The host appends words to the command port (20_memory.md R81). -/
def State.hostWrite (s : State) (ws : List Word) : State := { s with cmd := s.cmd ++ ws }

/-- The host takes every word of the response port (10_state.md R25: the block never reads it). -/
def State.hostTakeResponses (s : State) : List Word × State := (s.resp, { s with resp := [] })

/-- The host takes every pair of the output port (10_state.md R25: the block never reads it). -/
def State.hostTakeSamples (s : State) : List (F32 × F32) × State := (s.out, { s with out := [] })

/-! Refusals (60_exceptions.md R310, R311). The block has no trap: `raise` is what stands in its place. -/

/-- The causes of R311, each the STATUS bit that records it. -/
inductive ErrorBit where
  | illegal
  | unconfigured
  | value
  deriving DecidableEq, Repr

/-- A sticky bit set (R312: two errors of one kind set the bit once). -/
def Errors.set (e : Errors) : ErrorBit → Errors
  | .illegal => { e with illegal := true }
  | .unconfigured => { e with unconfigured := true }
  | .value => { e with value := true }

/-- `raise`: set the sticky bit and end the command with no other effect (00_scope.md R9). -/
def State.raise (s : State) (b : ErrorBit) : State := { s with err := s.err.set b }

/-! The response and output ports (20_memory.md R83, R84). -/

/-- `Respond(w)` (00_scope.md R9). -/
def State.respond (s : State) (w : Word) : State := { s with resp := s.resp ++ [w] }

/-- `Emit(l, r)` (00_scope.md R9). -/
def State.emit (s : State) (l r : F64) : State := { s with out := s.out ++ [(l.toF32, r.toF32)] }

/-! The patch field space (20_memory.md R82). -/

/-- The payload listed for an id. -/
def listed : Patch → Nat → Option Word
  | [], _ => none
  | (a, w) :: m, id => if a = id then some w else listed m id

/-- `MemRead(id, 4)`: an id that is not listed holds its reset payload. -/
def memRead (m : Patch) (id : Nat) : Word := (listed m id).getD (resetPayload id)

/-- An entry put at its place in the rising order of ids, in the stead of one with the same id. -/
def putEntry (id : Nat) (w : Word) : Patch → Patch
  | [] => [(id, w)]
  | (a, v) :: m =>
    if id < a then (id, w) :: (a, v) :: m
    else if id = a then (id, w) :: m
    else (a, v) :: putEntry id w m

/-- The entry of an id taken out. -/
def dropEntry (id : Nat) : Patch → Patch
  | [] => []
  | (a, v) :: m => if a = id then m else (a, v) :: dropEntry id m

/-- `MemWrite(id, 4, w)`: writing the reset payload takes the entry out, so equal contents are equal lists. -/
def memWrite (m : Patch) (id : Nat) (w : Word) : Patch :=
  if w = resetPayload id then dropEntry id m else putEntry id w m

/-- The ids of a list strictly rise. -/
def risingIds : Patch → Bool
  | [] => true
  | [_] => true
  | (a, _) :: (b, w) :: m => decide (a < b) && risingIds ((b, w) :: m)

/-- The canonical form of the patch field space: rising ids, every id assigned, no entry equal to the payload
its id holds when it is not listed. -/
def Memory.wf (m : Patch) : Bool :=
  risingIds m && m.all fun e => assigned e.1 && decide (e.2 ≠ resetPayload e.1)

/-! The chip channels (10_state.md R26). -/

/-- The record of channel c. -/
def Tones.get (t : Tones) (c : Fin 3) : ToneChannel :=
  match c with
  | 0 => t.c0
  | 1 => t.c1
  | 2 => t.c2

/-- The record of channel c replaced. -/
def Tones.set (t : Tones) (c : Fin 3) (x : ToneChannel) : Tones :=
  match c with
  | 0 => { t with c0 := x }
  | 1 => { t with c1 := x }
  | 2 => { t with c2 := x }

/-- One operation on every channel, in the order 0, 1, 2. -/
def Tones.map (t : Tones) (f : ToneChannel → ToneChannel) : Tones :=
  { c0 := f t.c0, c1 := f t.c1, c2 := f t.c2 }

/-- One operation on channel c of the chip. -/
def Chip.onTone (chip : Chip) (c : Fin 3) (f : ToneChannel → ToneChannel) : Chip :=
  { chip with tones := chip.tones.set c (f (chip.tones.get c)) }

end Sys2Proof.Machine
end

