-- ==== Sys2Proof/Machine/Operands.lean ====
section
/-! DEFINITION. How a command reads its operands: the channel field, a binary32 payload, the payload of a patch
write, and the typed reads of the patch fields (10_state.md R41). -/

namespace Sys2Proof.Machine

/-- CH of format FC (30_encoding.md R105); none above 2, where the command is illegal. -/
def chanOf (ch : BitVec 4) : Option (Fin 3) :=
  if h : ch.toNat < 3 then some ⟨ch.toNat, h⟩ else none

/-- A binary32 payload widened; none for a NaN or an infinity, which the command refuses (60_exceptions.md R311). -/
def realPayload (w : Word) : Option F64 :=
  let x := F64.ofF32 w
  if x.isFinite then some x else none

/-- `if x = 0 then x <- +0.0` (41_chip_setters.md R144, 45_patch.md R300). -/
def plusZero (x : F64) : F64 := if x.eq F64.zero then F64.zero else x

/-- What a PATCH_WR of field f stores for the payload v, after clamping; none when the payload is refused
(45_patch.md R300). -/
def storedPayload (f : PatchField) (v : Word) : Option Word :=
  match f.type with
  | .real => (realPayload v).map fun x => (plusZero (x.clamp (F64.ofInt f.lo) (F64.ofInt f.hi))).toF32
  | .int | .enum => some (BitVec.ofInt 32 (clampInt v.toInt f.lo f.hi))
  | .bool => some (if v = 0 then 0 else 1)

/-! Typed reads (R41). -/

/-- An F field as a real. -/
def real (m : Patch) (id : Nat) : F64 := F64.ofF32 (memRead m id)

/-- An I or E field as an integer. -/
def int (m : Patch) (id : Nat) : Int := (memRead m id).toInt

/-- A B field. -/
def flag (m : Patch) (id : Nat) : Bool := decide (memRead m id ≠ 0)

/-! Enumerations (R40). A payload outside the field's range, which no write stores, reads as the last value
(log entry 11). -/

inductive PlayMode where
  | mono
  | poly
  | arpUp
  | arpDown
  | arpRandom
  deriving DecidableEq, Repr

def playModeOf (n : Int) : PlayMode :=
  if n = 0 then .mono else if n = 1 then .poly else if n = 2 then .arpUp else if n = 3 then .arpDown else .arpRandom

/-- The patch field `play_mode`. -/
def playMode (m : Patch) : PlayMode := playModeOf (int m PatchId.playMode)

/-- Whether a play mode is one of the three arpeggio modes. -/
def PlayMode.isArp : PlayMode → Bool
  | .mono => false
  | .poly => false
  | .arpUp => true
  | .arpDown => true
  | .arpRandom => true

inductive RmLoop where
  | off
  | forward
  | pingPong
  deriving DecidableEq, Repr

/-- The patch field `ringmod.loop`. -/
def rmLoop (m : Patch) : RmLoop :=
  let n := int m PatchId.ringmodLoop
  if n = 0 then .off else if n = 1 then .forward else .pingPong

inductive LfoShape where
  | sine
  | triangle
  | downSaw
  | upSaw
  | square
  | random
  deriving DecidableEq, Repr

/-- The patch field `lfo.shape`. -/
def lfoShape (m : Patch) : LfoShape :=
  let n := int m PatchId.lfoShape
  if n = 0 then .sine else if n = 1 then .triangle else if n = 2 then .downSaw
  else if n = 3 then .upSaw else if n = 4 then .square else .random

end Sys2Proof.Machine
end

