-- ==== Sys2Proof/Machine/Setters.lean ====
section
/-! DEFINITION. The chip register setters (41_chip_setters.md R140 to R150). Each operation on the chip is
stated once and serves the command and the voice's own write alike (R140). -/

namespace Sys2Proof.Machine

/-! The envelope shapes (42_chip_process.md R166, R167). -/

/-- The action of an envelope slot (R166). -/
inductive EnvSlot where
  | up
  | down
  | holdTop
  | holdBottom
  deriving DecidableEq, Repr

/-- `Seg(shape, s)` (R166). -/
def envSeg (shape : BitVec 4) (slot : Bool) : EnvSlot :=
  match shape.toNat, slot with
  | 8, false => .down
  | 8, true => .down
  | 9, false => .down
  | 9, true => .holdBottom
  | 10, false => .down
  | 10, true => .up
  | 11, false => .down
  | 11, true => .holdTop
  | 12, false => .up
  | 12, true => .up
  | 13, false => .up
  | 13, true => .holdTop
  | 14, false => .up
  | 14, true => .down
  | 15, false => .up
  | 15, true => .holdBottom
  | n, false => if n < 4 then .down else .up
  | _, true => .holdBottom

/-- `StartLevel(shape, s)` (R167). -/
def startLevel (shape : BitVec 4) (slot : Bool) : BitVec 5 :=
  match envSeg shape slot with
  | .down => 31
  | .holdTop => 31
  | .up => 0
  | .holdBottom => 0

/-! Operations on one channel. -/

/-- R141. -/
def ToneChannel.setTone (t : ToneChannel) (period : BitVec 12) : ToneChannel := { t with period := period }

/-- R142. -/
def ToneChannel.setMixer (t : ToneChannel) (tOff nOff eOn : Bool) : ToneChannel :=
  { t with tOff := tOff, nOff := nOff, eOn := eOn }

/-- R143. -/
def ToneChannel.setVolume (t : ToneChannel) (vol : BitVec 4) : ToneChannel := { t with volume := vol }

/-- R144, for a finite pan value. -/
def ToneChannel.setPan (t : ToneChannel) (x : F64) (eqp : Bool) : ToneChannel :=
  let p := plusZero (x.clamp F64.zero F64.one)
  if eqp then { t with panL := (F64.one.sub p).sqrt, panR := p.sqrt }
  else { t with panL := F64.one.sub p, panR := p }

/-- The effective period, `max(tone_period, 1)` (10_state.md R26). -/
def ToneChannel.effPeriod (t : ToneChannel) : Nat := max t.period.toNat 1

/-- The tick position in one square period that a phase gives (R148). -/
def phasePosition (period : Nat) (phi : F64) : Nat :=
  min (phi.mul (F64.ofNat (2 * period))).floor.toNat (2 * period - 1)

/-- R148, for a finite phase. -/
def ToneChannel.setPhase (t : ToneChannel) (x : F64) : ToneChannel :=
  let p := t.effPeriod
  let pos := phasePosition p (x.clamp F64.zero F64.one)
  if pos < p then { t with bit := false, counter := BitVec.ofNat 12 pos }
  else { t with bit := true, counter := BitVec.ofNat 12 (pos - p) }

/-! Operations on the shared generators. -/

/-- R145. -/
def NoiseGen.setPeriod (n : NoiseGen) (np : BitVec 5) : NoiseGen := { n with period := np }

/-- R146. -/
def EnvGen.setPeriod (e : EnvGen) (ep : BitVec 16) : EnvGen := { e with period := ep }

/-- R147: a shape write always restarts the envelope. -/
def EnvGen.setShape (e : EnvGen) (shape : BitVec 4) : EnvGen :=
  { e with shape := shape, counter := 0, segment := false, level := startLevel shape false }

/-- R149. -/
def EnvGen.sync (e : EnvGen) : EnvGen := { e with counter := 0 }

/-- R150. -/
def EnvGen.load (e : EnvGen) (seg : Bool) (level : BitVec 5) (counter : BitVec 16) : EnvGen :=
  { e with segment := seg, level := level, counter := counter }

/-! The commands. A channel field above 2 makes the command illegal (30_encoding.md R105): decode never gives
one, and a term that holds one sets ERR_ILLEGAL as the block does (log entry 16). -/

/-- A command of format FC on a channel of the chip. -/
def State.onChannel (s : State) (ch : BitVec 4) (f : ToneChannel → ToneChannel) : State :=
  match chanOf ch with
  | some c => { s with chip := s.chip.onTone c f }
  | none => s.raise .illegal

/-- A command of format FC with a binary32 payload, refused when the payload is a NaN or an infinity. -/
def State.onChannelReal (s : State) (ch : BitVec 4) (w : F32) (f : F64 → ToneChannel → ToneChannel) : State :=
  match chanOf ch, realPayload w with
  | none, _ => s.raise .illegal
  | some _, none => s.raise .value
  | some c, some x => { s with chip := s.chip.onTone c (f x) }

/-- SET_TONE (R141). -/
def execSetTone (ch : BitVec 4) (period : BitVec 12) (s : State) : Host.Outcome State Fault Refusal :=
  .next (s.onChannel ch fun t => t.setTone period)

/-- SET_MIXER (R142). -/
def execSetMixer (ch : BitVec 4) (tOff nOff eOn : Bool) (s : State) : Host.Outcome State Fault Refusal :=
  .next (s.onChannel ch fun t => t.setMixer tOff nOff eOn)

/-- SET_VOLUME (R143). -/
def execSetVolume (ch : BitVec 4) (vol : BitVec 4) (s : State) : Host.Outcome State Fault Refusal :=
  .next (s.onChannel ch fun t => t.setVolume vol)

/-- SET_PAN (R144). -/
def execSetPan (ch : BitVec 4) (eqp : Bool) (pan : F32) (s : State) : Host.Outcome State Fault Refusal :=
  .next (s.onChannelReal ch pan fun x t => t.setPan x eqp)

/-- TONE_PHASE (R148). -/
def execTonePhase (ch : BitVec 4) (phase : F32) (s : State) : Host.Outcome State Fault Refusal :=
  .next (s.onChannelReal ch phase fun x t => t.setPhase x)

/-- SET_NOISE (R145). -/
def execSetNoise (np : BitVec 5) (s : State) : Host.Outcome State Fault Refusal :=
  .next { s with chip := { s.chip with noise := s.chip.noise.setPeriod np } }

/-- SET_ENV_PERIOD (R146). -/
def execSetEnvPeriod (ep : BitVec 16) (s : State) : Host.Outcome State Fault Refusal :=
  .next { s with chip := { s.chip with env := s.chip.env.setPeriod ep } }

/-- SET_ENV_SHAPE (R147). -/
def execSetEnvShape (shape : BitVec 4) (s : State) : Host.Outcome State Fault Refusal :=
  .next { s with chip := { s.chip with env := s.chip.env.setShape shape } }

/-- ENV_SYNC (R149). -/
def execEnvSync (s : State) : Host.Outcome State Fault Refusal :=
  .next { s with chip := { s.chip with env := s.chip.env.sync } }

/-- ENV_LOAD (R150). -/
def execEnvLoad (seg : Bool) (level : BitVec 5) (counter : BitVec 16) (s : State) :
    Host.Outcome State Fault Refusal :=
  .next { s with chip := { s.chip with env := s.chip.env.load seg level counter } }

end Sys2Proof.Machine
end

