-- ==== Sys2Proof/Machine/Voice.lean ====
section
/-! DEFINITION. The voice update pipeline (43_voice.md R200 to R236): one voice tick, step by step, and the voice
operations of the Engine. Sums and products are taken left to right as the rules write them (00_scope.md R11). -/

namespace Sys2Proof.Machine

/-- What a voice tick reads besides the voice and the chip (R200). -/
structure TickEnv where
  par : Params
  cfg : Cfg
  patch : Patch
  eng : Engine

namespace TickEnv

/-- `SR` and `CLK` as reals. -/
def sr (x : TickEnv) : F64 := F64.ofNat x.cfg.sr.toNat
def clk (x : TickEnv) : F64 := F64.ofNat x.cfg.clock.toNat

/-- A patch field read as a real, as an integer, as a boolean (10_state.md R41). -/
def real (x : TickEnv) (id : Nat) : F64 := Sys2Proof.Machine.real x.patch id
def int (x : TickEnv) (id : Nat) : Int := Sys2Proof.Machine.int x.patch id
def flag (x : TickEnv) (id : Nat) : Bool := Sys2Proof.Machine.flag x.patch id

/-- `LNF` (R217). -/
def lnf (x : TickEnv) : F64 :=
  match x.cfg.mode with
  | .ym2149 => x.par.lnfYm
  | .ay8910 => x.par.lnfAy

end TickEnv

/-- A sample counter as a real. -/
def smp (n : BitVec 64) : F64 := F64.ofNat n.toNat

/-- `t`, the seconds since voice-on (R201). -/
def voiceTime (x : TickEnv) (v : Voice) : F64 := (smp v.onSmp).div x.sr

/-- The index and the remaining phase of a phase given as a fraction of a table with n entries: R202, R232. -/
def phaseIndex (ph : F64) (n : Nat) : Nat := min (ph.mul (F64.ofNat n)).floor.toNat (n - 1)

/-! Step 0. -/

/-- The ring-mod phase reset of the first tick (R202). -/
def ringmodReset (x : TickEnv) (v : Voice) : Voice :=
  let ph := if x.flag PatchId.ringmodReset then x.real PatchId.ringmodPhase else u01 (rnd x.par .rm v.serial)
  let idx := phaseIndex ph 8
  { v with
    rmIdx := Fin.ofNat 8 idx
    rmPhase := (ph.mul (F64.dec 8)).sub (F64.ofNat idx)
    rmDir := .up }

/-! Step 1. -/

/-- The pan value of a voice's channel (R203). -/
def panValue (x : TickEnv) (c : Fin 3) : F64 :=
  ((x.real (PatchId.panChannel c)).add
    (((F64.ofNat x.eng.ccPan.toNat).sub (F64.dec 64)).div (F64.dec 64))).clamp F64.zero F64.one

/-! Step 2. -/

/-- The sequencer frequency (R204). -/
def seqFrequency (x : TickEnv) : F64 :=
  if x.flag PatchId.seqHostSync then
    ((x.real PatchId.hostBpm).div (F64.dec 60)).mul (x.real PatchId.seqFreq)
  else x.real PatchId.seqFreq

/-- `r`, the raw step count (R204). -/
def rawStep (x : TickEnv) (v : Voice) : Nat :=
  (((smp v.onSmp).mul (seqFrequency x)).div x.sr).floor.toNat

/-- The sequencer index, with `e` = seq.end and `l` = seq.loop; none stands for -1 (R205). -/
def seqIndex (e l r : Nat) : Option (Fin 16) :=
  if r < e then some (Fin.ofNat 16 r)
  else if l < e then some (Fin.ofNat 16 (l + (r - l) % (e - l)))
  else none

/-- The sequencer terms (R206). -/
structure SeqTerms where
  pitch : F64
  noise : Int
  depth : F64
  level : F64
  deriving DecidableEq, Repr

def seqTerms (x : TickEnv) : Option (Fin 16) → SeqTerms
  | some k =>
    { pitch := x.real (PatchId.seqStepTonePitch k)
      noise := x.int (PatchId.seqStepNoisePeriod k)
      depth := x.real (PatchId.seqStepRingmodDepth k)
      level := (x.real (PatchId.seqStepLevel k)).div (F64.dec 15) }
  | none => { pitch := F64.zero, noise := 0, depth := F64.zero, level := F64.one }

/-- The position in the ascending held pitches that arpeggio Up reads; Down reads it from the top (R207). -/
def arpPosition (n repeatAt r : Nat) : Nat :=
  let q := min repeatAt (n - 1)
  if r < n then r else q + (r - n) % (n - q)

/-- A new random position, other than the previous one when it is known and more than one pitch is held (R208). -/
def arpDraw (p : Params) (n : Nat) (prev : Option Nat) (r : Nat) : Nat :=
  let h := (rnd p .arp (BitVec.ofNat 32 r)).toNat
  if n = 1 then 0
  else
    match prev with
    | none => h % n
    | some q =>
      if n ≤ q then h % n
      else
        let k := h % (n - 1)
        if k < q then k else k + 1

/-- `arp_last_r` after a draw at the raw step r (R208): u64 by 10_state.md R50, so a step that passes it leaves a free
value (log entry 27). -/
def arpStep (r : Nat) : BitVec 64 := if r < 2 ^ 64 then BitVec.ofNat 64 r else Config.wideStep r

/-- Whether the random arpeggio draws on this tick (R208). -/
def arpDraws (v : Voice) (n r : Nat) : Bool :=
  decide (v.arpLastR.map BitVec.toNat ≠ some r) || (match v.arpPrev with | none => true | some q => decide (n ≤ q))

/-- The arpeggio of R207 and R208; in Mono and Poly, and with no pitch held, the voice keeps its selection. -/
def arpeggiate (x : TickEnv) (r : Nat) (v : Voice) : Voice :=
  let s := x.eng.held
  let n := s.length
  if n = 0 then v
  else
    match playMode x.patch with
    | .mono => v
    | .poly => v
    | .arpUp => { v with arpSel := s.getD (arpPosition n (x.int PatchId.seqArpRepeat).toNat r) v.arpSel }
    | .arpDown =>
      { v with arpSel := s.getD (n - 1 - arpPosition n (x.int PatchId.seqArpRepeat).toNat r) v.arpSel }
    | .arpRandom =>
      if arpDraws v n r then
        let a := arpDraw x.par n v.arpPrev r
        { v with arpPrev := some a, arpLastR := some (arpStep r), arpSel := s.getD a v.arpSel }
      else { v with arpSel := s.getD (v.arpPrev.getD 0) v.arpSel }

/-- `arp_off` (R207). -/
def arpOffset (x : TickEnv) (v : Voice) : F64 :=
  if (playMode x.patch).isArp then (F64.ofNat v.arpSel.toNat).sub (F64.ofNat v.pitch.toNat) else F64.zero

/-! Step 3. -/

/-- `Off(T)` (R209). -/
def timedOff (t time : F64) : Bool := F64.zero.le time && time.le t

/-- The gates of a tick (R209). -/
structure Gates where
  toneOff : Bool
  noiseOff : Bool
  buzz : Bool
  deriving DecidableEq, Repr

def gates (x : TickEnv) (t : F64) : Gates where
  toneOff := timedOff t (x.real PatchId.toneTime)
  noiseOff := timedOff t (x.real PatchId.noiseTime)
  buzz := x.flag PatchId.buzzerEnabled && !timedOff t (x.real PatchId.buzzerTime)

/-! Step 4. -/

/-- The base of the noise period (R210). -/
def noiseBase (x : TickEnv) (t : F64) : F64 :=
  let ta := x.real PatchId.noiseAttackTime
  let final := F64.ofInt (x.int PatchId.noisePeriod)
  if F64.zero.lt ta && t.lt ta then
    F64.lerpSeg (F64.ofInt (x.int PatchId.noiseAttackPeriod)) final t F64.zero ta
  else final

/-- `np` (R210). -/
def noisePeriod (x : TickEnv) (v : Voice) (t arpOff : F64) (seqNoise : Int) : BitVec 5 :=
  let total := ((noiseBase x t).add ((x.real PatchId.noisePitchSensitivity).mul
    ((F64.dec 60).sub ((F64.ofNat v.pitch.toNat).add arpOff)))).add (F64.ofInt seqNoise)
  BitVec.ofInt 5 (clampInt total.roundh 0 31)

/-! Step 5. -/

/-- `spread_c` (R211). -/
def spread (x : TickEnv) (c : Fin 3) : F64 :=
  match c with
  | 0 => F64.zero
  | 1 => (x.real PatchId.toneSpread).neg
  | 2 => x.real PatchId.toneSpread

/-- `pe`, the pitch envelope (R212). -/
def pitchEnvelope (x : TickEnv) (t : F64) : F64 :=
  let tp := x.real PatchId.pitchenvTime
  if F64.zero.lt tp && t.lt tp then
    (x.real PatchId.pitchenvAttackPitch).mul (F64.one.sub (t.div tp))
  else F64.zero

/-- `pw`, the pitch wheel (R213). -/
def wheelOffset (x : TickEnv) : F64 :=
  (((F64.ofNat x.eng.pw.toNat).sub (F64.dec 8192)).div (F64.dec 8192)).mul
    (F64.ofInt (x.int PatchId.controlPitchwheel))

/-- `G`, the glide curve at u with steepness k (R214). -/
def glide (exp : F64 → F64) (k u : F64) : F64 :=
  let low := F64.sigma exp k.neg
  let dn := if F64.zero.lt k then (F64.sigma exp k).sub low else F64.zero
  if k.eq F64.zero || dn.eq F64.zero then u
  else ((F64.sigma exp (k.mul (((F64.dec 2).mul u).sub F64.one))).sub low).div dn

/-- `po`, the portamento offset (R214). -/
def portamento (x : TickEnv) (v : Voice) : F64 :=
  let time := (x.real PatchId.portaTime).add
    (((F64.ofNat x.eng.ccPorta.toNat).div (F64.dec 127)).mul x.par.portaCcMax)
  if F64.zero.lt time then
    let u := ((smp v.pitchSmp).div x.sr).div time
    if u.lt F64.one then
      let k := (x.real PatchId.portaSmoothness).mul x.par.portaKMax
      (v.portaSrc.sub (F64.ofNat v.pitch.toNat)).mul (F64.one.sub (glide x.par.exp k u))
    else F64.zero
  else F64.zero

/-- `wave`, the LFO waveform (R215). -/
def lfoWave (x : TickEnv) (v : Voice) : F64 :=
  let f := x.real PatchId.lfoFreq
  let phi := (((smp v.onSmp).mul f).div x.sr).frac
  let two := F64.dec 2
  let four := F64.dec 4
  match lfoShape x.patch with
  | .sine => x.par.sin ((two.mul F64.pi).mul phi)
  | .triangle =>
    if phi.lt (F64.dec 1 4) then four.mul phi
    else if phi.lt (F64.dec 3 4) then two.sub (four.mul phi)
    else (four.mul phi).sub four
  | .downSaw => F64.one.sub (two.mul phi)
  | .upSaw => (two.mul phi).sub F64.one
  | .square => if phi.lt (F64.dec 1 2) then F64.one else F64.one.neg
  | .random =>
    let half := (((two.mul (smp v.onSmp)).mul f).div x.sr).floor
    (two.mul (u01 (rnd x.par .lfo (BitVec.ofInt 32 half)))).sub F64.one

/-- `lfo` (R215). -/
def lfoOffset (x : TickEnv) (v : Voice) (t : F64) : F64 :=
  let td := x.real PatchId.lfoDelay
  let fade := if F64.zero.lt td then (t.div td).min F64.one else F64.one
  let depth := (x.real PatchId.lfoDepth).add
    (((F64.ofNat x.eng.ccMod.toNat).div (F64.dec 127)).mul (x.real PatchId.controlModwheelDepth))
  (depth.mul fade).mul (lfoWave x v)

/-- `P`, the final pitch (R216). -/
def finalPitch (x : TickEnv) (v : Voice) (t arpOff seqPitch : F64) : F64 :=
  ((((((((F64.ofNat v.pitch.toNat).add (x.real PatchId.toneDetune)).add (spread x v.chan)).add
    (pitchEnvelope x t)).add (portamento x v)).add (lfoOffset x v t)).add arpOff).add seqPitch).add
    (wheelOffset x)

/-- `TP`, the tone period (R218). -/
def tonePeriod (x : TickEnv) (pitch : F64) : BitVec 12 :=
  BitVec.ofInt 12 (clampInt
    (((x.clk.div (F64.dec 16)).div x.lnf).mul (x.par.exp2 (pitch.neg.div (F64.dec 12)))).roundh 0 4095)

/-! Step 6. -/

/-- The envelope while held (R219). -/
def heldEnvelope (x : TickEnv) (t : F64) : F64 :=
  let a := x.real PatchId.envAttackTime
  let i1 := x.real PatchId.envInter1Time
  let i2 := x.real PatchId.envInter2Time
  let dc := x.real PatchId.envDecayTime
  let h1 := x.real PatchId.envHold1Level
  let h2 := x.real PatchId.envHold2Level
  let h3 := x.real PatchId.envHold3Level
  let sus := x.real PatchId.envSustainLevel
  let t1 := a
  let t2 := t1.add i1
  let t3 := t2.add i2
  let t4 := t3.add dc
  if t.lt t1 then F64.lerpSeg F64.zero h1 t F64.zero a
  else if t.lt t2 then F64.lerpSeg h1 h2 t t1 i1
  else if t.lt t3 then F64.lerpSeg h2 h3 t t2 i2
  else if t.lt t4 then F64.lerpSeg h3 sus t t3 dc
  else sus

/-- The envelope while released (R220). -/
def releaseEnvelope (x : TickEnv) (v : Voice) : F64 :=
  let rl := x.real PatchId.envRelease
  let tr := (smp v.envSmp).div x.sr
  if F64.zero.lt rl && tr.lt rl then F64.lerpSeg v.relLevel F64.zero tr F64.zero rl else F64.zero

/-- `env` (R219, R220, R221). -/
def envelope (x : TickEnv) (v : Voice) (t : F64) (buzz : Bool) : F64 :=
  if buzz then (if v.noteOn then F64.dec 15 else F64.zero)
  else if v.noteOn then heldEnvelope x t
  else releaseEnvelope x v

/-! Step 7. -/

/-- `adv`, the table entries per output sample (R223). -/
def ringmodAdvance (x : TickEnv) (pitch : F64) : F64 :=
  let fvr := x.real PatchId.ringmodFixedVsRelative
  let rmPitch := (fvr.mul (x.real PatchId.ringmodFixedPitch)).add
    ((F64.one.sub fvr).mul (pitch.add (x.real PatchId.ringmodDetune)))
  let fRm := x.lnf.mul (x.par.exp2 (rmPitch.div (F64.dec 12)))
  let pSeg := (x.clk.div (F64.dec 8)).div (fRm.mul (F64.dec 8))
  (x.clk.div ((F64.dec 8).mul x.sr)).div pSeg

/-- `d` of R225 as a number. -/
def RmDir.sign : RmDir → Int
  | .up => 1
  | .down => -1

def RmDir.flip : RmDir → RmDir
  | .up => .down
  | .down => .up

/-- `PP(i, d)`, one PingPong step (R225). -/
def pingPong (s : Fin 8 × RmDir) : Fin 8 × RmDir :=
  let i : Int := (s.1.val : Int)
  let d := if i + s.2.sign < 0 ∨ 7 < i + s.2.sign then s.2.flip else s.2
  let j := (i + d.sign).toNat
  (Fin.ofNat 8 j, if j = 0 ∨ j = 7 then d.flip else d)

/-- n PingPong steps. -/
def pingPongs : Nat → Fin 8 × RmDir → Fin 8 × RmDir
  | 0, s => s
  | n + 1, s => pingPongs n (pingPong s)

/-- `StepK` (R225). -/
def stepK (loop : RmLoop) (s : Fin 8 × RmDir) (k : Nat) : Fin 8 × RmDir :=
  match loop with
  | .off => (Fin.ofNat 8 (min (s.1.val + k) 7), s.2)
  | .forward => (Fin.ofNat 8 ((s.1.val + k) % 8), s.2)
  | .pingPong => if 0 < k then pingPongs (1 + (k - 1) % 14) s else s

/-- The k of `StepK` (R224), where the spec has it at least 0; free below 0 (log entry 19). -/
def stepCount (k : Int) : Nat := if 0 ≤ k then k.toNat else Config.negativeSteps k

/-- The phase advance (R224): the whole part of the phase is removed and stepped. -/
def ringmodStep (x : TickEnv) (adv : F64) (v : Voice) : Voice :=
  let ph := v.rmPhase.add adv
  let k := ph.floor
  let s := stepK (rmLoop x.patch) (v.rmIdx, v.rmDir) (stepCount k)
  { v with rmPhase := ph.sub (F64.ofInt k), rmIdx := s.1, rmDir := s.2 }

/-- The sync of amplitude ring modulation: index, phase and direction at the start (R226). -/
def Voice.resync (v : Voice) : Voice := { v with rmIdx := 0, rmPhase := F64.zero, rmDir := .up }

/-- The buzzer period (R227). -/
def buzzerPeriod (x : TickEnv) (pitch : F64) : BitVec 16 :=
  let fb := x.lnf.mul (x.par.exp2 ((pitch.add (x.real PatchId.buzzerDetune)).div (F64.dec 12)))
  BitVec.ofInt 16 (clampInt ((x.clk.div (F64.dec 256)).div fb).roundh 0 65535)

/-! Step 8. -/

/-- `VG(vel, s)`, the velocity gain (R228). -/
def velocityGain (vel : BitVec 7) (s : F64) : F64 :=
  F64.one.sub ((s.mul ((F64.dec 127).sub (F64.ofNat vel.toNat))).div (F64.dec 126))

/-- `rml`, the ring-mod level (R229). -/
def ringmodLevel (x : TickEnv) (v : Voice) (seqDepth : F64) : F64 :=
  let depth := (((x.real PatchId.ringmodDepth).mul
    (velocityGain v.velocity (x.real PatchId.ringmodVelocitySensitivity))).add seqDepth).clamp F64.zero F64.one
  let w := (x.real (PatchId.ringmodWaveform v.rmIdx)).div (F64.dec 15)
  (F64.one.sub depth).add (depth.mul w)

/-- `L`, the final level (R230). -/
def finalLevel (x : TickEnv) (v : Voice) (rml env seqLevel : F64) : F64 :=
  ((((rml.mul env).mul seqLevel).mul
    (velocityGain v.velocity (x.real PatchId.controlVelocitySensitivity))).mul
    ((F64.ofNat x.eng.ccVolume.toNat).div (F64.dec 127))).mul
    ((F64.ofNat x.eng.ccExpr.toNat).div (F64.dec 127))

/-- `vol`, the chip volume (R230). -/
def chipVolume (level : F64) : BitVec 4 := BitVec.ofInt 4 (clampInt level.roundh 0 15)

/-! Steps 9 to 11. -/

/-- What a tick has computed when it commits (R231). -/
structure Commit where
  tonePeriod : BitVec 12
  noisePeriod : BitVec 5
  toneOff : Bool
  noiseOff : Bool
  eOn : Bool
  volume : BitVec 4
  deriving DecidableEq, Repr

/-- The patch field `buzzer.shape` as a chip shape. -/
def buzzerShape (x : TickEnv) : BitVec 4 := BitVec.ofInt 4 (x.int PatchId.buzzerShape)

/-- The envelope writes of the commit, made only while `eon` holds (R231). -/
def commitEnvelope (x : TickEnv) (v : Voice) (chip : Chip) : Voice × Chip :=
  let env := chip.env.setPeriod v.buzzPeriod
  if v.lastShape = some (buzzerShape x) then (v, { chip with env := env })
  else ({ v with lastShape := some (buzzerShape x) }, { chip with env := env.setShape (buzzerShape x) })

/-- The commit (R231): tone period, noise period, mixer, envelope, volume. -/
def commit (x : TickEnv) (k : Commit) (v : Voice) (chip : Chip) : Voice × Chip :=
  let chip := chip.onTone v.chan fun t => t.setTone k.tonePeriod
  let chip := { chip with noise := chip.noise.setPeriod k.noisePeriod }
  let chip := chip.onTone v.chan fun t => t.setMixer k.toneOff k.noiseOff k.eOn
  let (v, chip) := if k.eOn then commitEnvelope x v chip else (v, chip)
  (v, chip.onTone v.chan fun t => t.setVolume k.volume)

/-- The buzzer phase reset of the first tick (R232). -/
def buzzerReset (x : TickEnv) (v : Voice) (chip : Chip) : Chip :=
  let ph := if x.flag PatchId.buzzerReset then x.real PatchId.buzzerPhase else u01 (rnd x.par .buzz v.serial)
  let m := phaseIndex ph 32
  let level := if startLevel chip.env.shape false = 31 then 31 - m else m
  { chip with env := chip.env.load false (BitVec.ofNat 5 level) 0 }

/-- The tone and buzzer phase reset of the first tick (R232). -/
def firstTickReset (x : TickEnv) (eOn : Bool) (v : Voice) (chip : Chip) : Voice × Chip :=
  let ph := if x.flag PatchId.toneReset then x.real PatchId.tonePhase else u01 (rnd x.par .tone v.serial)
  let chip := chip.onTone v.chan fun t => t.setPhase ph
  let chip := if eOn then buzzerReset x v chip else chip
  ({ v with lastBit := (chip.tones.get v.chan).bit, first := false }, chip)

/-- `sat64(n + 1)` (R233). -/
def satSucc (n : BitVec 64) : BitVec 64 := BitVec.ofNat 64 (min (n.toNat + 1) (2 ^ 64 - 1))

/-- The sample counters (R233). -/
def Voice.count (v : Voice) : Voice :=
  { v with
    onSmp := satSucc v.onSmp
    pitchSmp := satSucc v.pitchSmp
    envSmp := if v.noteOn then v.envSmp else satSucc v.envSmp }

/-! The tick. -/

/-- Steps 0 to 2: the voice after the first-tick ring-mod reset, the sequencer and the arpeggio, and the
sequencer terms (R202 to R208). -/
def tickSequencer (x : TickEnv) (v : Voice) : Voice × SeqTerms :=
  let v := if v.first then ringmodReset x v else v
  let r := rawStep x v
  let idx := seqIndex (x.int PatchId.seqEnd).toNat (x.int PatchId.seqLoop).toNat r
  (arpeggiate x r { v with seqIdx := idx }, seqTerms x idx)

/-- Step 7: the tone edge, the ring-mod phase, the sync and the buzzer period (R222 to R227). -/
def tickPhase (x : TickEnv) (pitch : F64) (buzz : Bool) (v : Voice) (chip : Chip) : Voice × Chip :=
  let b := (chip.tones.get v.chan).bit
  let edge := !v.lastBit && b
  let v := ringmodStep x (ringmodAdvance x pitch) { v with lastBit := b }
  let sync := x.flag PatchId.ringmodSync && edge
  let chip := if sync && buzz then { chip with env := chip.env.sync } else chip
  let v := if sync && !buzz then v.resync else v
  (if buzz then { v with buzzPeriod := buzzerPeriod x pitch } else v, chip)

/-- `VoiceTick(v)` (R200): steps 0 to 11 in order. -/
def voiceTick (x : TickEnv) (v : Voice) (chip : Chip) : Voice × Chip :=
  let t := voiceTime x v
  let (v, sq) := tickSequencer x v
  let chip := chip.onTone v.chan fun c => c.setPan (panValue x v.chan) (x.flag PatchId.panEqp)
  let arpOff := arpOffset x v
  let g := gates x t
  let np := noisePeriod x v t arpOff sq.noise
  let pitch := finalPitch x v t arpOff sq.pitch
  let env := envelope x v t g.buzz
  let (v, chip) := tickPhase x pitch g.buzz { v with envLevel := env } chip
  let level := finalLevel x v (ringmodLevel x v sq.depth) env sq.level
  let eOn := g.buzz && v.noteOn
  let k : Commit :=
    { tonePeriod := tonePeriod x pitch, noisePeriod := np, toneOff := g.toneOff, noiseOff := g.noiseOff,
      eOn := eOn, volume := chipVolume level }
  let first := v.first
  let (v, chip) := commit x k v chip
  let (v, chip) := if first then firstTickReset x eOn v chip else (v, chip)
  (v.count, chip)

/-! Voice operations used by the Engine. -/

/-- `Release(v)` (R234). -/
def Voice.release (v : Voice) : Voice := { v with noteOn := false, relLevel := v.envLevel, envSmp := 0 }

/-- `Repoint(v, q)` (R236). -/
def Voice.repoint (v : Voice) (q : BitVec 7) : Voice :=
  { v with portaSrc := F64.ofNat v.pitch.toNat, pitch := q, pitchSmp := 0 }

/-- The record `NewVoice` creates (R235, 10_state.md R50). -/
def Voice.create (serial : BitVec 32) (chan : Fin 3) (pitch vel src : BitVec 7) (toneBit : Bool) : Voice where
  serial := serial
  chan := chan
  pitch := pitch
  velocity := vel
  noteOn := true
  first := true
  onSmp := 0
  pitchSmp := 0
  envSmp := 0
  envLevel := F64.zero
  relLevel := F64.zero
  portaSrc := F64.ofNat src.toNat
  lastBit := toneBit
  seqIdx := none
  arpSel := pitch
  arpPrev := none
  arpLastR := none
  rmIdx := 0
  rmDir := .up
  rmPhase := F64.zero
  lastShape := none
  buzzPeriod := 0

end Sys2Proof.Machine
end

