-- ==== Sys2Proof/Machine/Engine.lean ====
section
/-! DEFINITION. The Engine events (44_engine.md R260 to R274): NOTE_ON, NOTE_OFF, ALL_NOTES_OFF, PITCH_WHEEL and
CONTROL. -/

namespace Sys2Proof.Machine

/-! The multiset of held pitches, kept as an ascending list (10_state.md R55). -/

/-- One more occurrence of a pitch. -/
def holdPitch (p : BitVec 7) : List (BitVec 7) → List (BitVec 7)
  | [] => [p]
  | q :: qs => if p.toNat ≤ q.toNat then p :: q :: qs else q :: holdPitch p qs

/-! Voices. -/

/-- A new voice put after every voice whose pitch is at most its own (R277). -/
def insertVoice (v : Voice) : List Voice → List Voice
  | [] => [v]
  | w :: ws => if w.pitch.toNat ≤ v.pitch.toNat then w :: insertVoice v ws else v :: w :: ws

/-- `NewVoice(p, vel, ch, src)` (43_voice.md R235). -/
def Engine.newVoice (e : Engine) (chip : Chip) (p vel : BitVec 7) (ch : Fin 3) (src : BitVec 7) : Engine :=
  { e with
    voices := insertVoice (Voice.create e.serialCtr ch p vel src (chip.tones.get ch).bit) e.voices
    serialCtr := e.serialCtr + 1 }

/-- Every held voice released, in list order (R270). -/
def releaseAll (vs : List Voice) : List Voice := vs.map fun v => if v.noteOn then v.release else v

/-- The first held voice of a pitch released (R268). -/
def releaseFirst (p : BitVec 7) : List Voice → List Voice
  | [] => []
  | v :: vs => if v.pitch = p ∧ v.noteOn = true then v.release :: vs else v :: releaseFirst p vs

/-- Every held voice whose pitch is no longer held repointed to q (R269). -/
def repointAll (held : List (BitVec 7)) (q : BitVec 7) (vs : List Voice) : List Voice :=
  vs.map fun v => if v.noteOn && !held.contains v.pitch then v.repoint q else v

/-! Allocation. -/

/-- The index of the first voice with the lowest level, given the best so far, its index, and the index of the
next voice (R263). -/
def quietestFrom (best : Voice) (j next : Nat) : List Voice → Nat
  | [] => j
  | v :: vs =>
    if v.envLevel.lt best.envLevel then quietestFrom v next (next + 1) vs else quietestFrom best j (next + 1) vs

/-- The voice that a Poly allocation steals taken out (R263). -/
def stealQuietest : List Voice → List Voice
  | [] => []
  | v :: vs => (v :: vs).eraseIdx (quietestFrom v 0 1 vs)

/-- `U`, the channels no voice uses, ascending (R263). -/
def freeChannels (vs : List Voice) : List (Fin 3) :=
  [0, 1, 2].filter fun c => vs.all fun v => v.chan ≠ c

/-- Allocation in Mono (R262). -/
def Engine.allocMono (e : Engine) (chip : Chip) (p vel src : BitVec 7) : Engine :=
  { e with voices := [] }.newVoice chip p vel 0 src

/-- Allocation in Poly (R263). With no free channel, which three voices on three channels exclude, no voice is
made (log entry 14). -/
def Engine.allocPoly (e : Engine) (par : Params) (chip : Chip) (p vel src : BitVec 7) : Engine :=
  let e := if e.voices.length = 3 then { e with voices := stealQuietest e.voices } else e
  let u := freeChannels e.voices
  match u[(rnd par .chan e.serialCtr).toNat % u.length]? with
  | some ch => e.newVoice chip p vel ch src
  | none => e

/-- Allocation in the arpeggio modes (R264), after the pitch has been added to `held`. -/
def Engine.allocArp (e : Engine) (chip : Chip) (p vel src : BitVec 7) : Engine :=
  if e.held.length = 1 then { e with voices := [] }.newVoice chip p vel 0 src else e

/-- Allocation by play mode (R261). -/
def Engine.alloc (e : Engine) (par : Params) (mode : PlayMode) (chip : Chip) (p vel src : BitVec 7) : Engine :=
  match mode with
  | .mono => e.allocMono chip p vel src
  | .poly => e.allocPoly par chip p vel src
  | .arpUp => e.allocArp chip p vel src
  | .arpDown => e.allocArp chip p vel src
  | .arpRandom => e.allocArp chip p vel src

/-! Note-off. -/

/-- `NoteOffNow(p)` in Mono and Poly (R268). -/
def Engine.noteOffPlain (e : Engine) (p : BitVec 7) : Engine :=
  { e with held := e.held.erase p, voices := releaseFirst p e.voices }

/-- `NoteOffNow(p)` in the arpeggio modes (R269): the minimum of an ascending list is its head. -/
def Engine.noteOffArp (e : Engine) (p : BitVec 7) : Engine :=
  match e.held.erase p with
  | [] => { e with held := [], voices := releaseAll e.voices }
  | q :: qs => { e with held := q :: qs, voices := repointAll (q :: qs) q e.voices }

/-- `NoteOffNow(p)` (R268, R269). -/
def Engine.noteOffNow (e : Engine) (mode : PlayMode) (p : BitVec 7) : Engine :=
  if mode.isArp then e.noteOffArp p else e.noteOffPlain p

/-- `NoteOff(p)` (R266, R267). -/
def Engine.noteOff (e : Engine) (mode : PlayMode) (p : BitVec 7) : Engine :=
  if e.held.contains p = false then e
  else if e.sustain then
    if e.deferred.count p < e.held.count p then { e with deferred := e.deferred ++ [p] } else e
  else e.noteOffNow mode p

/-- ALL_NOTES_OFF (R270). -/
def Engine.allNotesOff (e : Engine) : Engine :=
  { e with held := [], deferred := [], voices := releaseAll e.voices }

/-- The deferred note-offs run in arrival order (R274). -/
def Engine.runDeferred (mode : PlayMode) : List (BitVec 7) → Engine → Engine
  | [], e => e
  | p :: ps, e => Engine.runDeferred mode ps (e.noteOffNow mode p)

/-- `Sustain(down)` (R274). -/
def Engine.setSustain (e : Engine) (mode : PlayMode) (down : Bool) : Engine :=
  if down then { e with sustain := true }
  else if e.sustain then Engine.runDeferred mode e.deferred { e with sustain := false, deferred := [] }
  else e

/-- NOTE_ON with a velocity other than 0 and room in the held multiset (R261 to R265). -/
def Engine.noteOn (e : Engine) (par : Params) (mode : PlayMode) (chip : Chip) (p vel : BitVec 7) : Engine :=
  let e := { e with held := holdPitch p e.held }
  { e.alloc par mode chip p vel (e.lastPitch.getD p) with lastPitch := some p }

/-- The controllers (R272, R273). -/
def Engine.controller (e : Engine) (mode : PlayMode) (num val : BitVec 7) : Engine :=
  if num = 1 then { e with ccMod := val }
  else if num = 5 then { e with ccPorta := val }
  else if num = 7 then { e with ccVolume := val }
  else if num = 10 then { e with ccPan := val }
  else if num = 11 then { e with ccExpr := val }
  else if num = 64 then e.setSustain mode (decide (64 ≤ val.toNat))
  else e

/-! The commands. -/

/-- NOTE_ON, for any parameters (R261). -/
def State.noteOn (par : Params) (pitch vel : BitVec 7) (s : State) : State :=
  if vel = 0 then { s with eng := s.eng.noteOff (playMode s.patch) pitch }
  else if s.eng.held.length = par.heldCap then s.raise .value
  else { s with eng := s.eng.noteOn par (playMode s.patch) s.chip pitch vel }

/-- NOTE_ON (R261); the MIDI channel is ignored (R260). -/
def execNoteOn (_mch : BitVec 4) (pitch vel : BitVec 7) (s : State) : Host.Outcome State Fault Refusal :=
  .next (s.noteOn params pitch vel)

/-- NOTE_OFF (R266); the MIDI channel and the release velocity are ignored. -/
def execNoteOff (_mch : BitVec 4) (pitch _rvel : BitVec 7) (s : State) : Host.Outcome State Fault Refusal :=
  .next { s with eng := s.eng.noteOff (playMode s.patch) pitch }

/-- ALL_NOTES_OFF (R270). -/
def execAllNotesOff (_mch : BitVec 4) (s : State) : Host.Outcome State Fault Refusal :=
  .next { s with eng := s.eng.allNotesOff }

/-- PITCH_WHEEL (R271). -/
def execPitchWheel (_mch : BitVec 4) (wheel : BitVec 14) (s : State) : Host.Outcome State Fault Refusal :=
  .next { s with eng := { s.eng with pw := wheel } }

/-- CONTROL (R272). -/
def execControl (_mch : BitVec 4) (num val : BitVec 7) (s : State) : Host.Outcome State Fault Refusal :=
  .next { s with eng := s.eng.controller (playMode s.patch) num val }

end Sys2Proof.Machine
end

