-- ==== Sys2Proof/Machine/PatchAccess.lean ====
section
/-! DEFINITION. The patch commands PATCH_WR and PATCH_RD (45_patch.md R300 to R303). -/

namespace Sys2Proof.Machine

/-- A write of `play_mode` that changes it performs ALL_NOTES_OFF first (R302). -/
def State.beforeWrite (s : State) (id : Nat) (w : Word) : State :=
  if id = PatchId.playMode ∧ w ≠ memRead s.patch PatchId.playMode then { s with eng := s.eng.allNotesOff } else s

/-- The write of a payload that was accepted (R300). -/
def State.patchStore (s : State) (id : Nat) (w : Word) : State :=
  { s.beforeWrite id w with patch := memWrite s.patch id w }

/-- PATCH_WR (R300). Decode never gives an unassigned id, and a term that holds one sets ERR_ILLEGAL as the block
does (log entry 16). -/
def execPatchWr (id : BitVec 12) (value : Word) (s : State) : Host.Outcome State Fault Refusal :=
  match fieldAt id.toNat with
  | none => .next (s.raise .illegal)
  | some f =>
    match storedPayload f value with
    | none => .next (s.raise .value)
    | some w => .next (s.patchStore id.toNat w)

/-- PATCH_RD (R301). -/
def execPatchRd (id : BitVec 12) (s : State) : Host.Outcome State Fault Refusal :=
  if assigned id.toNat then .next (s.respond (memRead s.patch id.toNat)) else .next (s.raise .illegal)

end Sys2Proof.Machine
end

