-- ==== Sys2Proof/Machine/Process.lean ====
section
/-! DEFINITION. Chip sample generation (42_chip_process.md R160 to R177): ticks, envelope, mixer, DAC, FIR
decimator, DC blocker, and the PROCESS command. -/

namespace Sys2Proof.Machine

/-! The generators. -/

/-- The tone generator tick (R163). -/
def ToneChannel.tick (t : ToneChannel) : ToneChannel :=
  let n := t.counter.toNat + 1
  if t.effPeriod ≤ n then { t with counter := 0, bit := !t.bit }
  else { t with counter := BitVec.ofNat 12 n }

/-- The shift register after one shift: taps 0 and 3, feedback into bit 16 (R164). -/
def lfsrShift (l : BitVec 17) : BitVec 17 :=
  let fb := (l ^^^ (l >>> 3)) &&& 1
  (l >>> 1) ||| (fb <<< 16)

/-- The noise generator tick (R164). -/
def NoiseGen.tick (p : Params) (g : NoiseGen) : NoiseGen :=
  let n := g.counter.toNat + 1
  if p.noiseDiv * max g.period.toNat 1 ≤ n then { g with counter := 0, lfsr := lfsrShift g.lfsr }
  else { g with counter := BitVec.ofNat 8 n }

/-- The noise output bit, `chip.lfsr AND 1` (R164). -/
def NoiseGen.out (g : NoiseGen) : Bool := g.lfsr.getLsbD 0

/-- The switch to the other slot at the end of a ramp (R168). -/
def EnvGen.nextSlot (e : EnvGen) : EnvGen :=
  { e with segment := !e.segment, level := startLevel e.shape (!e.segment) }

/-- `EnvAction` of the active slot (R168). -/
def EnvGen.action (e : EnvGen) : EnvGen :=
  match envSeg e.shape e.segment with
  | .up => if e.level.toNat < 31 then { e with level := e.level + 1 } else e.nextSlot
  | .down => if 0 < e.level.toNat then { e with level := e.level - 1 } else e.nextSlot
  | .holdTop => e
  | .holdBottom => e

/-- The envelope generator tick (R165). -/
def EnvGen.tick (e : EnvGen) : EnvGen :=
  let n := e.counter.toNat + 1
  if max e.period.toNat 1 ≤ n then ({ e with counter := 0 } : EnvGen).action
  else { e with counter := BitVec.ofNat 16 n }

/-- `Tick()` (R162): noise, envelope, tone 0, tone 1, tone 2. -/
def Chip.tick (p : Params) (chip : Chip) : Chip :=
  { chip with noise := chip.noise.tick p, env := chip.env.tick, tones := chip.tones.map ToneChannel.tick }

/-- The while loop of R161: as long as the accumulator is at least 1.0 it loses 1.0 and the chip takes one tick.
The first argument bounds the number of rounds (log entry 12). -/
def Chip.runTicks (p : Params) : Nat → Chip → Chip
  | 0, chip => chip
  | n + 1, chip =>
    if F64.one.le chip.acc then
      Chip.runTicks p n (Chip.tick p { chip with acc := chip.acc.sub F64.one })
    else chip

/-- The accumulator gains `cfg.step`, then the loop runs: at most floor(chip.acc) rounds (R161). -/
def Chip.advance (p : Params) (step : F64) (chip : Chip) : Chip :=
  let acc := chip.acc.add step
  Chip.runTicks p acc.floor.toNat { chip with acc := acc }

/-! The mixer and the DAC. -/

/-- The gate of a channel (R169). -/
def gate (t : ToneChannel) (noise : Bool) : Bool := (t.bit || t.tOff) && (noise || t.nOff)

/-- The DAC index of a channel (R170). -/
def dacIndex (t : ToneChannel) (noise : Bool) (level : BitVec 5) : Nat :=
  if gate t noise = false then 0 else if t.eOn then level.toNat else 2 * t.volume.toNat + 1

/-- The DAC table of a chip mode (R171). -/
def dacTable (p : Params) : ChipMode → List F64
  | .ym2149 => p.dacYm
  | .ay8910 => p.dacAy

/-- A channel's amplitude (R171, R172). -/
def amplitude (p : Params) (mode : ChipMode) (chip : Chip) (c : Fin 3) : F64 :=
  (dacTable p mode).getD (dacIndex (chip.tones.get c) chip.noise.out chip.env.level) F64.zero

/-- `Mix()` (R172): each side's sum starts from 0.0 and adds channels 0, 1, 2 in turn. -/
def mix (p : Params) (mode : ChipMode) (chip : Chip) : F64 × F64 :=
  let a (c : Fin 3) := amplitude p mode chip c
  let l := ((F64.zero.add ((a 0).mul chip.tones.c0.panL)).add ((a 1).mul chip.tones.c1.panL)).add
    ((a 2).mul chip.tones.c2.panL)
  let r := ((F64.zero.add ((a 0).mul chip.tones.c0.panR)).add ((a 1).mul chip.tones.c1.panR)).add
    ((a 2).mul chip.tones.c2.panR)
  (l, r)

/-! The FIR decimator. -/

/-- A history shifted by one with the new value at index 0 and the oldest dropped (R173, R176). -/
def shiftIn (x : F64) (h : List F64) : List F64 := x :: h.dropLast

/-- `FirPush(sl, sr)` (R173). -/
def Chip.firPush (chip : Chip) (lr : F64 × F64) : Chip :=
  { chip with firL := shiftIn lr.1 chip.firL, firR := shiftIn lr.2 chip.firR }

/-- The sum of R175 from the running value y on. -/
def firSum : F64 → List F64 → List F64 → F64
  | y, h :: hs, x :: xs => firSum (y.add (h.mul x)) hs xs
  | y, _, _ => y

/-- `Fir(x)` (R175). -/
def fir (p : Params) (x : List F64) : F64 := firSum F64.zero p.firCoeffs x

/-! The DC blocker. -/

/-- `DcStep(s, x)` (R176): the output and the side's next state. -/
def DcSide.step (p : Params) (d : DcSide) (x : F64) : F64 × DcSide :=
  let y := (x.sub (d.x.getD (p.dcN - 1) F64.zero)).add (p.dcLeak.mul d.y)
  (y, { x := shiftIn x d.x, y := y })

/-! One output sample. -/

/-- One sub-sample of R161. -/
def Chip.subSample (p : Params) (cfg : Cfg) (chip : Chip) : Chip :=
  let chip := chip.advance p cfg.step
  chip.firPush (mix p cfg.mode chip)

/-- n sub-samples. -/
def Chip.subSamples (p : Params) (cfg : Cfg) : Nat → Chip → Chip
  | 0, chip => chip
  | n + 1, chip => Chip.subSamples p cfg n (chip.subSample p cfg)

/-- `ChipSample()` (R161): 8 sub-samples, then the FIR and the DC blocker of each side. -/
def chipSample (p : Params) (cfg : Cfg) (chip : Chip) : (F64 × F64) × Chip :=
  let chip := Chip.subSamples p cfg 8 chip
  let l := chip.dcL.step p (fir p chip.firL)
  let r := chip.dcR.step p (fir p chip.firR)
  ((l.1, r.1), { chip with dcL := l.2, dcR := r.2 })

/-- The chip runs for one sample and the pair is emitted (R160, 44_engine.md R275). -/
def State.chipSample (p : Params) (s : State) : State :=
  let (lr, chip) := Sys2Proof.Machine.chipSample p s.cfg s.chip
  { s with chip := chip }.emit lr.1 lr.2

/-- PROCESS (R160), for any parameters. -/
def State.process (p : Params) (s : State) : State :=
  if s.cfg.configured then s.chipSample p else s.raise .unconfigured

/-- PROCESS (R160). -/
def execProcess (s : State) : Host.Outcome State Fault Refusal := .next (s.process params)

end Sys2Proof.Machine
end

