-- ==== Sys2Proof/Machine/Render.lean ====
section
/-! DEFINITION. The render loop (44_engine.md R275 to R277) and the RENDER command. -/

namespace Sys2Proof.Machine

/-- The voice ticks of one sample, in list order, each seeing what the ones before it wrote to the chip (R275). -/
def tickVoices (x : TickEnv) : List Voice → Chip → List Voice × Chip
  | [], chip => ([], chip)
  | v :: vs, chip =>
    let (v', chip) := voiceTick x v chip
    let (vs', chip) := tickVoices x vs chip
    (v' :: vs', chip)

/-- A voice that RENDER removes (R276): released, with level 0. -/
def Voice.silent (v : Voice) : Bool := !v.noteOn && v.envLevel.eq F64.zero

/-- The voice-tick phase of one sample: every voice ticks, then the silent ones are removed (R275, R276). -/
def State.tickPhase (p : Params) (s : State) : State :=
  let x : TickEnv := { par := p, cfg := s.cfg, patch := s.patch, eng := s.eng }
  let (vs, chip) := tickVoices x s.eng.voices s.chip
  { s with chip := chip, eng := { s.eng with voices := vs.filter fun v => !v.silent } }

/-- One sample of RENDER (R275): with no voice left the pair is (+0.0, +0.0) and the chip does not run. -/
def State.renderSample (p : Params) (s : State) : State :=
  let s := s.tickPhase p
  if s.eng.voices.isEmpty then s.emit F64.zero F64.zero else s.chipSample p

/-- n samples of RENDER (R275). -/
def State.renderSamples (p : Params) : Nat → State → State
  | 0, s => s
  | n + 1, s => State.renderSamples p n (s.renderSample p)

/-- RENDER, for any parameters (R275). -/
def State.render (p : Params) (n : Nat) (s : State) : State :=
  if s.cfg.configured then s.renderSamples p n else s.raise .unconfigured

/-- RENDER (R275). -/
def execRender (n : BitVec 20) (s : State) : Host.Outcome State Fault Refusal := .next (s.render params n.toNat)

end Sys2Proof.Machine
end

