-- ==== Sys2Proof/WellFormed.lean ====
section
/-! DEFINITION. Which terms of `Instr` are commands of the block: the value constraints that 30_encoding.md R110
puts on top of the masks. -/

namespace Sys2Proof

/-- CH of format FC is 0, 1 or 2 (R105). -/
def channelOk (ch : BitVec 4) : Bool := decide (ch.toNat ≤ 2)

/-- ID of format FP is assigned (R108). -/
def idOk (id : BitVec 12) : Bool := Machine.assigned id.toNat

/-- The constraints of R110: CH at most 2 in format FC, an assigned ID in format FP.
Every other operand may take every value of its field. -/
def Instr.wellFormed : Instr → Bool
  | .nop => true
  | .reset => true
  | .configure _ _ _ => true
  | .rdStatus => true
  | .setTone ch _ => channelOk ch
  | .setMixer ch _ _ _ => channelOk ch
  | .setVolume ch _ => channelOk ch
  | .setPan ch _ _ => channelOk ch
  | .setNoise _ => true
  | .setEnvPeriod _ => true
  | .setEnvShape _ => true
  | .tonePhase ch _ => channelOk ch
  | .envSync => true
  | .envLoad _ _ _ => true
  | .process => true
  | .noteOn _ _ _ => true
  | .noteOff _ _ _ => true
  | .allNotesOff _ => true
  | .pitchWheel _ _ => true
  | .control _ _ _ => true
  | .patchWr id _ => idOk id
  | .patchRd id => idOk id
  | .render _ => true

end Sys2Proof
end

