-- ==== Sys2Proof/Decode.lean ====
section
/-! DEFINITION. The command encoding (30_encoding.md R100 to R115): the opcode map, the decoder, the encoder,
and the serialised form of a command (20_memory.md R85). -/

namespace Sys2Proof

/-- The rows of the opcode map (R110). -/
inductive Op where
  | nop | reset | configure | rdStatus
  | setTone | setMixer | setVolume | setPan | setNoise | setEnvPeriod | setEnvShape
  | tonePhase | envSync | envLoad | process
  | noteOn | noteOff | allNotesOff | pitchWheel | control
  | patchWr | patchRd | render
  deriving DecidableEq, Repr

/-- The seven formats (R102). -/
inductive Format where
  | f0 | fk | fc | fg | fe | fp | fr
  deriving DecidableEq, Repr

/-- A row of R110. -/
structure OpRow where
  code : BitVec 8
  op : Op
  format : Format
  pattern : Word
  mask : Word
  deriving DecidableEq, Repr

/-- The opcode map (R110). -/
def opcodeTable : List OpRow :=
  [⟨0x00, .nop, .f0, 0x00000000, 0xFFFFFFFF⟩,
   ⟨0x01, .reset, .f0, 0x01000000, 0xFFFFFFFF⟩,
   ⟨0x02, .configure, .fk, 0x02000000, 0xFFF40000⟩,
   ⟨0x03, .rdStatus, .f0, 0x03000000, 0xFFFFFFFF⟩,
   ⟨0x10, .setTone, .fc, 0x10000000, 0xFF0FF000⟩,
   ⟨0x11, .setMixer, .fc, 0x11000000, 0xFF0FFFF8⟩,
   ⟨0x12, .setVolume, .fc, 0x12000000, 0xFF0FFFF0⟩,
   ⟨0x13, .setPan, .fc, 0x13000000, 0xFF0FFFFE⟩,
   ⟨0x14, .setNoise, .fg, 0x14000000, 0xFFFFFFE0⟩,
   ⟨0x15, .setEnvPeriod, .fg, 0x15000000, 0xFFFF0000⟩,
   ⟨0x16, .setEnvShape, .fg, 0x16000000, 0xFFFFFFF0⟩,
   ⟨0x17, .tonePhase, .fc, 0x17000000, 0xFF0FFFFF⟩,
   ⟨0x18, .envSync, .fg, 0x18000000, 0xFFFFFFFF⟩,
   ⟨0x19, .envLoad, .fg, 0x19000000, 0xFFFFFE0E⟩,
   ⟨0x1A, .process, .f0, 0x1A000000, 0xFFFFFFFF⟩,
   ⟨0x20, .noteOn, .fe, 0x20000000, 0xFF0F8080⟩,
   ⟨0x21, .noteOff, .fe, 0x21000000, 0xFF0F8080⟩,
   ⟨0x22, .allNotesOff, .fe, 0x22000000, 0xFF0FFFFF⟩,
   ⟨0x23, .pitchWheel, .fe, 0x23000000, 0xFF0FC000⟩,
   ⟨0x24, .control, .fe, 0x24000000, 0xFF0F8080⟩,
   ⟨0x30, .patchWr, .fp, 0x30000000, 0xFFFFF000⟩,
   ⟨0x31, .patchRd, .fp, 0x31000000, 0xFFFFF000⟩,
   ⟨0x40, .render, .fr, 0x40000000, 0xFFF00000⟩]

/-- Why a command is illegal (R111, U3 of 93_implementation_defined.md). -/
inductive Illegal where
  /-- The opcode has no row. -/
  | unassignedOpcode
  /-- A reserved bit of the header is not 0. -/
  | reservedBits
  /-- CH is above 2 in format FC. -/
  | channelOutOfRange
  /-- The patch id is not assigned. -/
  | unassignedId
  deriving DecidableEq, Repr

/-- What the decoder answers. -/
inductive Decoded where
  | legal (i : Instr)
  | illegal (why : Illegal)
  deriving DecidableEq, Repr

/-- H[31:24] (R101). -/
def opField (h : Word) : BitVec 8 := h.extractLsb' 24 8

/-- H[23:20] (R101). -/
def chField (h : Word) : BitVec 4 := h.extractLsb' 20 4

/-- H[11:0], the patch id of format FP (R108). -/
def idField (h : Word) : BitVec 12 := h.extractLsb' 0 12

/-- MODE (R104). -/
def modeOfBit (b : Bool) : ChipMode := if b then .ay8910 else .ym2149

/-- MODE (R104). -/
def ChipMode.bit : ChipMode → Bool
  | .ym2149 => false
  | .ay8910 => true

/-- The operands of a command, at the places R103 to R109 give them. -/
def operands (op : Op) (h d : Word) : Instr :=
  match op with
  | .nop => .nop
  | .reset => .reset
  | .configure => .configure (modeOfBit (h.getLsbD 19)) (h.extractLsb' 0 18) d
  | .rdStatus => .rdStatus
  | .setTone => .setTone (chField h) (h.extractLsb' 0 12)
  | .setMixer => .setMixer (chField h) (h.getLsbD 0) (h.getLsbD 1) (h.getLsbD 2)
  | .setVolume => .setVolume (chField h) (h.extractLsb' 0 4)
  | .setPan => .setPan (chField h) (h.getLsbD 0) d
  | .setNoise => .setNoise (h.extractLsb' 0 5)
  | .setEnvPeriod => .setEnvPeriod (h.extractLsb' 0 16)
  | .setEnvShape => .setEnvShape (h.extractLsb' 0 4)
  | .tonePhase => .tonePhase (chField h) d
  | .envSync => .envSync
  | .envLoad => .envLoad (h.getLsbD 0) (h.extractLsb' 4 5) (d.extractLsb' 0 16)
  | .process => .process
  | .noteOn => .noteOn (chField h) (h.extractLsb' 8 7) (h.extractLsb' 0 7)
  | .noteOff => .noteOff (chField h) (h.extractLsb' 8 7) (h.extractLsb' 0 7)
  | .allNotesOff => .allNotesOff (chField h)
  | .pitchWheel => .pitchWheel (chField h) (h.extractLsb' 0 14)
  | .control => .control (chField h) (h.extractLsb' 8 7) (h.extractLsb' 0 7)
  | .patchWr => .patchWr (idField h) d
  | .patchRd => .patchRd (idField h)
  | .render => .render (h.extractLsb' 0 20)

/-- The decoder (R111): it reads the header H alone to tell legal from illegal. -/
def decode (h d : Word) : Decoded :=
  match opcodeTable.find? fun row => row.code == opField h with
  | none => .illegal .unassignedOpcode
  | some row =>
    if h &&& row.mask ≠ row.pattern then .illegal .reservedBits
    else if row.format = .fc ∧ channelOk (chField h) = false then .illegal .channelOutOfRange
    else if row.format = .fp ∧ idOk (idField h) = false then .illegal .unassignedId
    else .legal (operands row.op h d)

/-- The words H and D of a command, as the assembler writes them (R115): an ignored D is 0. -/
def encode : Instr → Word × Word
  | .nop => (0x00#8 ++ 0#24, 0)
  | .reset => (0x01#8 ++ 0#24, 0)
  | .configure mode sr clock => (0x02#8 ++ 0#4 ++ BitVec.ofBool mode.bit ++ 0#1 ++ sr, clock)
  | .rdStatus => (0x03#8 ++ 0#24, 0)
  | .setTone ch period => (0x10#8 ++ ch ++ 0#8 ++ period, 0)
  | .setMixer ch tOff nOff eOn =>
    (0x11#8 ++ ch ++ 0#17 ++ BitVec.ofBool eOn ++ BitVec.ofBool nOff ++ BitVec.ofBool tOff, 0)
  | .setVolume ch vol => (0x12#8 ++ ch ++ 0#16 ++ vol, 0)
  | .setPan ch eqp pan => (0x13#8 ++ ch ++ 0#19 ++ BitVec.ofBool eqp, pan)
  | .setNoise np => (0x14#8 ++ 0#4 ++ 0#15 ++ np, 0)
  | .setEnvPeriod ep => (0x15#8 ++ 0#4 ++ 0#4 ++ ep, 0)
  | .setEnvShape shape => (0x16#8 ++ 0#4 ++ 0#16 ++ shape, 0)
  | .tonePhase ch phase => (0x17#8 ++ ch ++ 0#20, phase)
  | .envSync => (0x18#8 ++ 0#24, 0)
  | .envLoad seg level counter =>
    (0x19#8 ++ 0#4 ++ 0#11 ++ level ++ 0#3 ++ BitVec.ofBool seg, counter.setWidth 32)
  | .process => (0x1A#8 ++ 0#24, 0)
  | .noteOn mch pitch vel => (0x20#8 ++ mch ++ 0#5 ++ pitch ++ 0#1 ++ vel, 0)
  | .noteOff mch pitch rvel => (0x21#8 ++ mch ++ 0#5 ++ pitch ++ 0#1 ++ rvel, 0)
  | .allNotesOff mch => (0x22#8 ++ mch ++ 0#20, 0)
  | .pitchWheel mch wheel => (0x23#8 ++ mch ++ 0#6 ++ wheel, 0)
  | .control mch num val => (0x24#8 ++ mch ++ 0#5 ++ num ++ 0#1 ++ val, 0)
  | .patchWr id value => (0x30#8 ++ 0#4 ++ 0#8 ++ id, value)
  | .patchRd id => (0x31#8 ++ 0#4 ++ 0#8 ++ id, 0)
  | .render n => (0x40#8 ++ 0#4 ++ n, 0)

/-- A word serialised, byte 0 first: byte 0 holds bits 7:0 (20_memory.md R85). -/
def bytesOfWord (w : Word) : List Byte :=
  [w.extractLsb' 0 8, w.extractLsb' 8 8, w.extractLsb' 16 8, w.extractLsb' 24 8]

/-- The word that four bytes serialise (20_memory.md R85). -/
def wordOfBytes (b0 b1 b2 b3 : Byte) : Word := b3 ++ b2 ++ b1 ++ b0

/-- A command serialised: H, then D. -/
def encodeBytes (i : Instr) : List Byte := bytesOfWord (encode i).1 ++ bytesOfWord (encode i).2

/-- The first command of a command file and the bytes after it; none when fewer than two words are left
(20_memory.md R81: a command is not started until both of its words are present). -/
def decodeBytes : List Byte → Option (Decoded × List Byte)
  | h0 :: h1 :: h2 :: h3 :: d0 :: d1 :: d2 :: d3 :: rest =>
    some (decode (wordOfBytes h0 h1 h2 h3) (wordOfBytes d0 d1 d2 d3), rest)
  | _ => none

/-- H and D of a command whose bits are `w`, bit 0 the least significant bit of H; bits from `nbits` up are 0. -/
def tableWords (nbits w : Nat) : Word × Word :=
  let v := w % 2 ^ nbits
  (BitVec.ofNat 32 v, BitVec.ofNat 32 (v / 2 ^ 32))

/-- The instruction the decoder reads from the command whose bits are `w`, numbered as spec/opcode_table.json
numbers them. -/
def decodeTableWord (nbits w : Nat) : Option Instr :=
  match decode (tableWords nbits w).1 (tableWords nbits w).2 with
  | .legal i => some i
  | .illegal _ => none

end Sys2Proof
end

