-- ==== Sys2Proof/Machine/Flags.lean ====
section
/-! DEFINITION. The STATUS register (10_state.md R21): the sticky error bits are stored, every other bit is a
view of other state (40_system.md R134). -/

namespace Sys2Proof.Machine

/-- VOICES, bits 9:8: the number of voice records. -/
def Engine.voicesField (e : Engine) : BitVec 2 := BitVec.ofNat 2 e.voices.length

/-- HELD, bits 23:16: the size of the held multiset, saturating at 255. -/
def Engine.heldField (e : Engine) : BitVec 8 := BitVec.ofNat 8 (min e.held.length 255)

/-- STATUS (R21), from bit 31 down to bit 0; the reserved bits read 0. -/
def State.status (s : State) : Word :=
  0#8 ++ s.eng.heldField ++ 0#6 ++ s.eng.voicesField ++ 0#2 ++ BitVec.ofBool s.eng.sustain ++
    BitVec.ofBool s.err.value ++ BitVec.ofBool s.err.unconfigured ++ BitVec.ofBool s.err.illegal ++
    BitVec.ofBool (s.cfg.configured && s.cfg.mode.bit) ++ BitVec.ofBool s.cfg.configured

/-- `STATUS[4:2] <- 0` (40_system.md R134). -/
def State.clearErrors (s : State) : State := { s with err := {} }

end Sys2Proof.Machine
end

