-- ==== Sys2Proof/Machine/System.lean ====
section
/-! DEFINITION. The system commands NOP, RESET, CONFIGURE and RD_STATUS (40_system.md). -/

namespace Sys2Proof.Machine

/-- NOP (R130): nothing. -/
def execNop (s : State) : Host.Outcome State Fault Refusal := .next s

/-- RESET, for any parameters: every element of 10_state.md R21, R23, R26 to R31, R40 and R55 at its reset value;
the ports stay (R131). -/
def State.resetKeepingPorts (p : Params) (s : State) : State :=
  { State.resetWith p with cmd := s.cmd, resp := s.resp, out := s.out }

/-- RESET (R131). -/
def execReset (s : State) : Host.Outcome State Fault Refusal := .next (s.resetKeepingPorts params)

/-- `cfg.step`: `real(clk) / (64.0 · real(sr))` (R132). -/
def stepOf (clock : BitVec 32) (sr : BitVec 18) : F64 :=
  (F64.ofNat clock.toNat).div ((F64.dec 64).mul (F64.ofNat sr.toNat))

/-- CONFIGURE, for any parameters (R132). -/
def State.configure (p : Params) (mode : ChipMode) (sr : BitVec 18) (clock : BitVec 32) (s : State) : State :=
  if sr = 0 ∨ clock = 0 then s.raise .value
  else
    { s with
      chip := Chip.reset p
      cfg := { configured := true, mode := mode, clock := clock, sr := sr, step := stepOf clock sr } }

/-- CONFIGURE (R132). -/
def execConfigure (mode : ChipMode) (sr : BitVec 18) (clock : BitVec 32) (s : State) :
    Host.Outcome State Fault Refusal :=
  .next (s.configure params mode sr clock)

/-- RD_STATUS (R134): responds STATUS as it was before the command, then clears the error bits. -/
def execRdStatus (s : State) : Host.Outcome State Fault Refusal := .next (s.respond s.status).clearErrors

end Sys2Proof.Machine
end

