-- ==== Sys2Proof/Machine/Dispatch.lean ====
section
/-! DEFINITION. The one dispatch from a command to its meaning. -/

namespace Sys2Proof.Machine

def exec (i : Instr) (s : State) : Host.Outcome State Fault Refusal :=
  match i with
  | .nop => Sys2Proof.Machine.execNop s
  | .reset => Sys2Proof.Machine.execReset s
  | .configure mode sr clock => Sys2Proof.Machine.execConfigure mode sr clock s
  | .rdStatus => Sys2Proof.Machine.execRdStatus s
  | .setTone ch period => Sys2Proof.Machine.execSetTone ch period s
  | .setMixer ch tOff nOff eOn => Sys2Proof.Machine.execSetMixer ch tOff nOff eOn s
  | .setVolume ch vol => Sys2Proof.Machine.execSetVolume ch vol s
  | .setPan ch eqp pan => Sys2Proof.Machine.execSetPan ch eqp pan s
  | .setNoise np => Sys2Proof.Machine.execSetNoise np s
  | .setEnvPeriod ep => Sys2Proof.Machine.execSetEnvPeriod ep s
  | .setEnvShape shape => Sys2Proof.Machine.execSetEnvShape shape s
  | .tonePhase ch phase => Sys2Proof.Machine.execTonePhase ch phase s
  | .envSync => Sys2Proof.Machine.execEnvSync s
  | .envLoad seg level counter => Sys2Proof.Machine.execEnvLoad seg level counter s
  | .process => Sys2Proof.Machine.execProcess s
  | .noteOn mch pitch vel => Sys2Proof.Machine.execNoteOn mch pitch vel s
  | .noteOff mch pitch rvel => Sys2Proof.Machine.execNoteOff mch pitch rvel s
  | .allNotesOff mch => Sys2Proof.Machine.execAllNotesOff mch s
  | .pitchWheel mch wheel => Sys2Proof.Machine.execPitchWheel mch wheel s
  | .control mch num val => Sys2Proof.Machine.execControl mch num val s
  | .patchWr id value => Sys2Proof.Machine.execPatchWr id value s
  | .patchRd id => Sys2Proof.Machine.execPatchRd id s
  | .render n => Sys2Proof.Machine.execRender n s

end Sys2Proof.Machine
end

