-- ==== Sys2Proof/Machine/Fetch.lean ====
section
/-! DEFINITION. What the block does with the oldest command of its port (00_scope.md R6, 20_memory.md R81, R91),
around whatever runs a legal one. -/

namespace Sys2Proof.Machine

/-- The oldest command is taken and decoded: a legal one is run to completion by `run`; an illegal one is consumed
and sets ERR_ILLEGAL (30_encoding.md R112); while fewer than two words are present no command starts and nothing
changes (log entry 7). -/
def runNext (run : Instr → State → Host.Outcome State Fault Refusal) (s : State) : Host.Outcome State Fault Refusal :=
  match s.fetch with
  | none => .next s
  | some (h, d, t) =>
    match decode h d with
    | .legal i => run i t
    | .illegal _ => .next (t.raise .illegal)

end Sys2Proof.Machine
end

