-- ==== Sys2Proof/Machine/Step.lean ====
section
/-! DEFINITION. One step of the block: the oldest command of the port is taken, decoded and run to completion
(00_scope.md R6, 20_memory.md R81, R91). -/

namespace Sys2Proof.Machine

/-- One step, with the defaults of the OPEN parameters. -/
def step (s : State) : Host.Outcome State Fault Refusal := runNext exec s

/-- The command whose bits are `w` put at the front of the command port, where the next step takes it
(log entry 8). -/
def State.withFetchWord (s : State) (nbits w : Nat) : State :=
  { s with cmd := (tableWords nbits w).1 :: (tableWords nbits w).2 :: s.cmd }

end Sys2Proof.Machine
end

