-- ==== Sys2Proof/Machine/Parametric.lean ====
section
/-! DEFINITION. The machine with the OPEN parameters of 00_scope.md R7 as its argument. `exec`, `step` and
`Sys2Proof.core` are this machine at the defaults (log entry 1). -/

namespace Sys2Proof.Machine

/-- A command run under the parameters p. RESET, CONFIGURE, PROCESS, NOTE_ON and RENDER are the commands whose rules
name an OPEN parameter; the others do the same under all of them. -/
def execWith (p : Params) (i : Instr) (s : State) : Host.Outcome State Fault Refusal :=
  match i with
  | .reset => .next (s.resetKeepingPorts p)
  | .configure mode sr clock => .next (s.configure p mode sr clock)
  | .process => .next (s.process p)
  | .noteOn _ pitch vel => .next (s.noteOn p pitch vel)
  | .render n => .next (s.render p n.toNat)
  | .nop | .rdStatus | .setTone _ _ | .setMixer _ _ _ _ | .setVolume _ _ | .setPan _ _ _ | .setNoise _
  | .setEnvPeriod _ | .setEnvShape _ | .tonePhase _ _ | .envSync | .envLoad _ _ _ | .noteOff _ _ _ | .allNotesOff _
  | .pitchWheel _ _ | .control _ _ _ | .patchWr _ _ | .patchRd _ => exec i s

/-- One step under the parameters p. -/
def stepWith (p : Params) (s : State) : Host.Outcome State Fault Refusal := runNext (execWith p) s

/-- The machine with parameters p, as a machine of the host. -/
def coreWith (p : Params) : Host.Core :=
  { State := State, Fault := Fault, Refusal := Refusal, step := stepWith p, reset := State.resetWith p }

end Sys2Proof.Machine
end

