-- ==== Sys2Proof/Safety.lean ====
section
/-! DEFINITION. What every command keeps: the invariants that the spec states of the block's state, in the terms
the claims use. -/

namespace Sys2Proof

/-- The ranges of the OPEN parameters that 00_scope.md R7 and 93_implementation_defined.md U7, U10 and U11 give,
as far as the structure of the block needs them. -/
structure Params.Ok (p : Params) : Prop where
  taps : 0 < p.firTaps
  dcN : 0 < p.dcN
  noiseDiv : 0 < p.noiseDiv
  noiseDivMax : p.noiseDiv ≤ 8
  dacYm : p.dacYm.length = 32
  dacAy : p.dacAy.length = 32

/-- x lies between two integers. `le` is false of a NaN, so an x between two bounds is a finite real. -/
def F64.Between (lo hi : Int) (x : F64) : Prop := (F64.ofInt lo).le x = true ∧ x.le (F64.ofInt hi) = true

/-- A binary32 pattern that is neither a NaN nor an infinity: its exponent field is not all ones. -/
def F32.finite (w : F32) : Prop := w.extractLsb' 23 8 ≠ 0xFF#8

end Sys2Proof

namespace Sys2Proof

/-! The legal headers, as 30_encoding.md R110 and R111 list them: pairs of a mask and the bits it must give. -/

/-- The rows of R110 with no constraint on top of the mask. -/
def plainHeaders : List (Word × Word) :=
  [(0xFFFFFFFF, 0x00000000), (0xFFFFFFFF, 0x01000000), (0xFFF40000, 0x02000000), (0xFFFFFFFF, 0x03000000),
   (0xFFFFFFE0, 0x14000000), (0xFFFF0000, 0x15000000), (0xFFFFFFF0, 0x16000000), (0xFFFFFFFF, 0x18000000),
   (0xFFFFFE0E, 0x19000000), (0xFFFFFFFF, 0x1A000000), (0xFF0F8080, 0x20000000), (0xFF0F8080, 0x21000000),
   (0xFF0FFFFF, 0x22000000), (0xFF0FC000, 0x23000000), (0xFF0F8080, 0x24000000), (0xFFF00000, 0x40000000)]

/-- The rows of format FC, where CH must be at most 2. -/
def channelHeaders : List (Word × Word) :=
  [(0xFF0FF000, 0x10000000), (0xFF0FFFF8, 0x11000000), (0xFF0FFFF0, 0x12000000), (0xFF0FFFFE, 0x13000000),
   (0xFF0FFFFF, 0x17000000)]

/-- The rows of format FP, where ID must be assigned. -/
def patchHeaders : List (Word × Word) := [(0xFFFFF000, 0x30000000), (0xFFFFF000, 0x31000000)]

/-- The assigned ids of 20_memory.md R89, as ranges. -/
def assignedRanges : List (Nat × Nat) :=
  [(0x000, 0x000), (0x010, 0x014), (0x020, 0x024), (0x030, 0x038), (0x040, 0x041), (0x050, 0x060), (0x070, 0x075),
   (0x080, 0x084), (0x090, 0x0CF), (0x0E0, 0x0E3), (0x0F0, 0x0F1), (0x100, 0x103), (0x110, 0x112), (0x120, 0x120)]

/-- A header that the block executes; every other one is illegal (R111, R112). -/
def legalHeader (h : Word) : Prop :=
  (∃ r ∈ plainHeaders, h &&& r.1 = r.2) ∨
    (∃ r ∈ channelHeaders, h &&& r.1 = r.2 ∧ (h.extractLsb' 20 4).toNat ≤ 2) ∨
    (∃ r ∈ patchHeaders, h &&& r.1 = r.2 ∧
      ∃ a ∈ assignedRanges, a.1 ≤ (h.extractLsb' 0 12).toNat ∧ (h.extractLsb' 0 12).toNat ≤ a.2)

/-- The commands of 41_chip_setters.md. -/
def Instr.isChipSetter : Instr → Bool
  | .setTone _ _ => true
  | .setMixer _ _ _ _ => true
  | .setVolume _ _ => true
  | .setPan _ _ _ => true
  | .setNoise _ => true
  | .setEnvPeriod _ => true
  | .setEnvShape _ => true
  | .tonePhase _ _ => true
  | .envSync => true
  | .envLoad _ _ _ => true
  | .nop => false
  | .reset => false
  | .configure _ _ _ => false
  | .rdStatus => false
  | .process => false
  | .noteOn _ _ _ => false
  | .noteOff _ _ _ => false
  | .allNotesOff _ => false
  | .pitchWheel _ _ => false
  | .control _ _ _ => false
  | .patchWr _ _ => false
  | .patchRd _ => false
  | .render _ => false

/-- The level of the envelope after n level steps from a write of the shape, as 42_chip_process.md R166 to R168
give it: the ramp of slot 0, and then slot 1 repeated, held or followed by slot 0 again. -/
def envelopeLevel (shape n : Nat) : Nat :=
  if shape = 8 then 31 - n % 32
  else if shape = 10 then (if n % 64 < 32 then 31 - n % 64 else n % 64 - 32)
  else if shape = 11 then (if n < 32 then 31 - n else 31)
  else if shape = 12 then n % 32
  else if shape = 13 then (if n < 32 then n else 31)
  else if shape = 14 then (if n % 64 < 32 then n % 64 else 63 - n % 64)
  else if shape < 4 ∨ shape = 9 then 31 - n
  else if n < 32 then n
  else 0

end Sys2Proof

namespace Sys2Proof.Machine

/-- t is s with the record of channel c replaced by x: every other channel, every other part of the chip and every
other part of the state is as in s. -/
def OnlyChannel (s t : State) (c : Fin 3) (x : ToneChannel) : Prop :=
  t.chip.tones.get c = x ∧ (∀ k, k ≠ c → t.chip.tones.get k = s.chip.tones.get k) ∧
    t = { s with chip := { s.chip with tones := t.chip.tones } }

/-- The configuration registers hold what the last CONFIGURE wrote, or their reset values (10_state.md R23). -/
def Cfg.Inv (c : Cfg) : Prop :=
  if c.configured then c.sr ≠ 0 ∧ c.clock ≠ 0 ∧ c.step = stepOf c.clock c.sr else c = {}

/-- ChipState: the histories keep their lengths (10_state.md R30, R31), no tone counter passes 4094 (R26), the
noise counter stays below the longest noise period (R27), and the shift register is never 0 (42_chip_process.md
R164). -/
structure Chip.Inv (p : Params) (c : Chip) : Prop where
  firL : c.firL.length = p.firTaps
  firR : c.firR.length = p.firTaps
  dcL : c.dcL.x.length = p.dcN
  dcR : c.dcR.x.length = p.dcN
  counters : ∀ k, (c.tones.get k).counter.toNat ≤ 4094
  noiseCounter : c.noise.counter.toNat < p.noiseDiv * 31
  lfsr : c.noise.lfsr ≠ 0

/-- The Engine invariants of 10_state.md R51 and R56, with the velocity range of R50 and the capacity of R55.
In the arpeggio modes the one held voice is the only voice (44_engine.md R264 clears the list before it makes
it), which is stronger than R56. -/
structure Engine.Inv (cap : Nat) (mode : PlayMode) (e : Engine) : Prop where
  size : e.voices.length ≤ 3
  channels : e.voices.Pairwise fun v w => v.chan ≠ w.chan
  order : e.voices.Pairwise fun v w => v.pitch.toNat ≤ w.pitch.toNat
  velocity : ∀ v ∈ e.voices, v.velocity ≠ 0
  heldOrder : e.held.Pairwise fun p q => p.toNat ≤ q.toNat
  heldCap : e.held.length ≤ cap
  arpIdle : mode.isArp = true → e.held = [] → ∀ v ∈ e.voices, v.noteOn = false
  arpHeld : mode.isArp = true → e.held ≠ [] → ∃ v, e.voices = [v] ∧ v.noteOn = true ∧ v.chan = 0
  pedalUp : e.sustain = false → e.deferred = []
  deferred : ∀ p, e.deferred.count p ≤ e.held.count p

/-- A payload is one that a write of its field can leave (45_patch.md R300): in range, and for a real field
finite and not -0.0. -/
def payloadOk (f : PatchField) (w : Word) : Prop :=
  match f.type with
  | .real =>
    w ≠ 0x80000000 ∧ (F64.ofF32 w).isFinite = true ∧
      (F64.ofInt f.lo).le (F64.ofF32 w) = true ∧ (F64.ofF32 w).le (F64.ofInt f.hi) = true
  | .int | .enum => f.lo ≤ w.toInt ∧ w.toInt ≤ f.hi
  | .bool => w = 0 ∨ w = 1

/-- Every assigned field holds a payload in its range (10_state.md R40, "every patch field is finite and bounded",
00_scope.md R11). -/
def Patch.InRange (m : Patch) : Prop := ∀ f ∈ patchFields, payloadOk f (memRead m f.id)

/-- The values of ChipState: the accumulator lies in [0, 1) (10_state.md R29), every pan gain in [0, 1]
(41_chip_setters.md R144), every sub-sample in [0, 3] (42_chip_process.md R172), and the DC filter holds bounded
values. R177 bounds a filter output by 3 times the sum of the magnitudes of the coefficients; the bounds here are
coarser integers (each of the 191 coefficients is at most 1 in magnitude), which rounding cannot pass. -/
structure Chip.Bounded (c : Chip) : Prop where
  accLow : F64.zero.le c.acc = true
  accHigh : c.acc.lt F64.one = true
  panL : ∀ k, (c.tones.get k).panL.Between 0 1
  panR : ∀ k, (c.tones.get k).panR.Between 0 1
  firL : ∀ x ∈ c.firL, x.Between 0 3
  firR : ∀ x ∈ c.firR, x.Between 0 3
  dcXL : ∀ x ∈ c.dcL.x, x.Between (-573) 573
  dcXR : ∀ x ∈ c.dcR.x, x.Between (-573) 573
  dcYL : c.dcL.y.Between (-1048576) 1048576
  dcYR : c.dcR.y.Between (-1048576) 1048576

/-- The levels of a voice lie in [0, 15] (10_state.md R50, 43_voice.md R219), and the pitch that its portamento glides
from is a note pitch, in [0, 127] (43_voice.md R236, 44_engine.md R265). The fourth real of a voice, `rm_phase`, is
not here: it takes its rate from the parameter EXP2, which has no default (log entries 2 and 19). -/
structure Voice.Bounded (v : Voice) : Prop where
  envLevel : v.envLevel.Between 0 15
  relLevel : v.relLevel.Between 0 15
  portaSrc : v.portaSrc.Between 0 127

/-- The reals that the block keeps, but for `rm_phase`, are finite and in their ranges (00_scope.md R11). -/
structure State.Bounded (s : State) : Prop where
  patch : Patch.InRange s.patch
  chip : s.chip.Bounded
  voices : ∀ v ∈ s.eng.voices, v.Bounded

/-- The invariant of the whole block, for any parameters. -/
structure State.InvWith (p : Params) (s : State) : Prop where
  cfg : s.cfg.Inv
  chip : s.chip.Inv p
  patch : Memory.wf s.patch = true
  eng : s.eng.Inv p.heldCap (playMode s.patch)

/-- The invariant of the block with the defaults of the OPEN parameters. -/
abbrev State.Inv (s : State) : Prop := s.InvWith params

end Sys2Proof.Machine
end

