-- ==== Sys2Proof/Certificates/Slice0/Obligations.lean ====
section
/-! DEFINITION. The statements about the model, for the provers. Each docstring names the rules of spec/ that the
statement formalises. -/

section

open Sys2Proof Sys2Proof.Machine

/-! ## Encoding -/

/-- Decoding the words of a well-formed command gives the command back, with every operand at every value its field
admits (30_encoding.md R101 to R109, R115). -/
def Obligations.DecodeOfEncodeIsTheCommand : Prop :=
  ∀ i : Instr, i.wellFormed = true → decode (encode i).1 (encode i).2 = .legal i

/-- A legal header is the header of the command it decodes to, and that command is well-formed: no header bit is
dropped, and no reserved bit is let through (30_encoding.md R103 to R111). -/
def Obligations.LegalHeaderIsTheHeaderOfItsCommand : Prop :=
  ∀ (h d : Word) (i : Instr), decode h d = .legal i → i.wellFormed = true ∧ (encode i).1 = h

/-- The legal headers are those of the opcode map, with its masks, the bound on CH and the assigned ids
(30_encoding.md R110, R111; 20_memory.md R89). -/
def Obligations.LegalHeadersAreThoseOfTheOpcodeMap : Prop :=
  ∀ h d : Word, (∃ i, decode h d = .legal i) ↔ legalHeader h

/-- Whether a command is legal does not depend on D, and D reaches only the commands that use it: CONFIGURE,
SET_PAN, TONE_PHASE and PATCH_WR whole, ENV_LOAD in its low half (30_encoding.md R100, R102, R106). -/
def Obligations.UnusedDataIsIgnored : Prop :=
  ∀ h d d' : Word,
    ((∃ i, decode h d = .legal i) ↔ ∃ i, decode h d' = .legal i) ∧
    (h.extractLsb' 24 8 ∉ [0x02#8, 0x13#8, 0x17#8, 0x19#8, 0x30#8] → decode h d = decode h d') ∧
    (h.extractLsb' 24 8 = 0x19#8 → d.extractLsb' 0 16 = d'.extractLsb' 0 16 → decode h d = decode h d')

/-- The worked encodings (30_encoding.md R117), in both directions. -/
def Obligations.WorkedEncodingsAgree : Prop :=
  encode (.configure .ym2149 44100 2000000) = (0x0200AC44, 0x001E8480) ∧
  decode 0x0200AC44 0x001E8480 = .legal (.configure .ym2149 44100 2000000) ∧
  encode (.noteOn 0 60 100) = (0x20003C64, 0) ∧ decode 0x20003C64 0 = .legal (.noteOn 0 60 100) ∧
  (encode (.setTone 2 478)).1 = 0x102001DE ∧ decode 0x102001DE 0 = .legal (.setTone 2 478) ∧
  encode (.setPan 1 false (F64.dec 1 4).toF32) = (0x13100000, 0x3E800000) ∧
  decode 0x13100000 0x3E800000 = .legal (.setPan 1 false (F64.dec 1 4).toF32) ∧
  encode (.patchWr (BitVec.ofNat 12 PatchId.toneTime) (F64.ofInt (-1)).toF32) = (0x30000010, 0xBF800000) ∧
  decode 0x30000010 0xBF800000 = .legal (.patchWr (BitVec.ofNat 12 PatchId.toneTime) (F64.ofInt (-1)).toF32) ∧
  (encode (.render 100)).1 = 0x40000064 ∧ decode 0x40000064 0 = .legal (.render 100)

/-- A word is serialised little-endian, and a command file is read back command by command (20_memory.md R85). -/
def Obligations.CommandFilesAreLittleEndian : Prop :=
  (∀ (w : Word) (k j : Nat), k < 4 → j < 8 → ((bytesOfWord w).getD k 0).getLsbD j = w.getLsbD (8 * k + j)) ∧
  ∀ (i : Instr) (rest : List Byte), i.wellFormed = true →
    decodeBytes (encodeBytes i ++ rest) = some (.legal i, rest)

/-! ## The step and the ports -/

/-- When the two oldest words of the command port decode to a command, the step is that command, run with the port
moved past its two words, under any OPEN parameters (10_state.md R24, 30_encoding.md R111); and `step`, `exec` and
`core` are the machine at the defaults of the OPEN parameters (00_scope.md R7; the defaults are log entry 1). -/
def Obligations.StepRunsTheDecodedCommand : Prop :=
  (∀ (p : Params) (s : State) (h d : Word) (rest : List Word) (i : Instr),
    s.cmd = h :: d :: rest → decode h d = .legal i →
    step s = exec i { s with cmd := rest } ∧ stepWith p s = execWith p i { s with cmd := rest }) ∧
  (∀ (i : Instr) (s : State), exec i s = execWith params i s) ∧ (∀ s : State, step s = stepWith params s) ∧
  core = coreWith params

/-- An illegal command sets ERR_ILLEGAL, both its words are consumed, and nothing else changes
(30_encoding.md R112). -/
def Obligations.IllegalCommandOnlySetsItsBit : Prop :=
  ∀ (s : State) (h d : Word) (rest : List Word), s.cmd = h :: d :: rest → ¬ legalHeader h →
    step s = .next { s with cmd := rest, err := { s.err with illegal := true } }

/-- Every command, a refused or illegal one too, completes and moves the port past its own two words and no further:
no command jumps, and none adds or takes a word (10_state.md R24). -/
def Obligations.EveryCommandMovesPastItsTwoWords : Prop :=
  ∀ (s : State) (h d : Word) (rest : List Word), s.cmd = h :: d :: rest →
    ∃ t, step s = .next t ∧ t.cmd = rest

/-- A command sees no effect of a later one: words that the host has written behind it stay behind it and change
nothing (20_memory.md R91). -/
def Obligations.LaterCommandsHaveNoEffect : Prop :=
  ∀ (s : State) (ws : List Word), 2 ≤ s.cmd.length →
    ∃ t, step s = .next t ∧ step (s.hostWrite ws) = .next (t.hostWrite ws)

/-- No rule depends on what stands in the response and output ports: with other words and samples in front, a step
does the same and appends the same (10_state.md R25). -/
def Obligations.PortContentsNeverMatter : Prop :=
  ∀ (s : State) (r : List Word) (o : List (F32 × F32)),
    ∃ t, step s = .next t ∧
      step { s with resp := r ++ s.resp, out := o ++ s.out } = .next { t with resp := r ++ t.resp, out := o ++ t.out }

/-- RD_STATUS and PATCH_RD append one word each and no other command writes the response port; PROCESS appends one
pair, RENDER as many as its count, when they are accepted, and no other command writes the output port
(20_memory.md R83, R84). -/
def Obligations.PortsGrowAsStated : Prop :=
  ∀ (s : State) (h d : Word) (rest : List Word), s.cmd = h :: d :: rest →
    ∃ t, step s = .next t ∧
      t.resp = (match decode h d with
        | .legal .rdStatus => s.resp ++ [s.status]
        | .legal (.patchRd id) => s.resp ++ [memRead s.patch id.toNat]
        | _ => s.resp) ∧
      ∃ o, t.out = s.out ++ o ∧ o.length = (match decode h d with
        | .legal .process => if s.cfg.configured then 1 else 0
        | .legal (.render n) => if s.cfg.configured then n.toNat else 0
        | _ => 0)

/-! ## Refusals -/

/-- The complete list of refusals: which commands set which error bit, from every state and for every capacity
HELD_CAP. RD_STATUS and RESET leave no bit set; after any other command a bit is set exactly if it was set or the
command has one of its causes (60_exceptions.md R311, with R312 for the bits that were set). -/
def Obligations.RefusalsAreExactlyTheListed : Prop :=
  ∀ (p : Params) (s : State) (h d : Word) (rest : List Word), s.cmd = h :: d :: rest →
    ∃ t, stepWith p s = .next t ∧ (p = params → step s = .next t) ∧
      ((decode h d = .legal .rdStatus ∨ decode h d = .legal .reset) → t.err = ⟨false, false, false⟩) ∧
      (decode h d ≠ .legal .rdStatus → decode h d ≠ .legal .reset →
        (t.err.illegal = true ↔ s.err.illegal = true ∨ ¬ legalHeader h) ∧
        (t.err.unconfigured = true ↔ s.err.unconfigured = true ∨
          s.cfg.configured = false ∧ (decode h d = .legal .process ∨ ∃ n, decode h d = .legal (.render n))) ∧
        (t.err.value = true ↔ s.err.value = true ∨
          (∃ mode sr clock, decode h d = .legal (.configure mode sr clock) ∧ (sr = 0 ∨ clock = 0)) ∨
          (∃ ch eqp pan, decode h d = .legal (.setPan ch eqp pan) ∧ ¬ F32.finite pan) ∨
          (∃ ch phase, decode h d = .legal (.tonePhase ch phase) ∧ ¬ F32.finite phase) ∨
          (∃ id v f, decode h d = .legal (.patchWr id v) ∧ f ∈ patchFields ∧ f.id = id.toNat ∧ f.type = .real ∧
            ¬ F32.finite v) ∨
          (∃ mch pitch vel, decode h d = .legal (.noteOn mch pitch vel) ∧ vel ≠ 0 ∧
            s.eng.held.length = p.heldCap)))

/-- A command that sets an error bit sets one, and changes nothing else (60_exceptions.md R313, R314). -/
def Obligations.RefusedCommandChangesOnlyItsBit : Prop :=
  ∀ (s : State) (h d : Word) (rest : List Word) (t : State), s.cmd = h :: d :: rest → step s = .next t →
    (t.err.illegal && !s.err.illegal || t.err.unconfigured && !s.err.unconfigured ||
      t.err.value && !s.err.value) = true →
    ∃ e, (e = { s.err with illegal := true } ∨ e = { s.err with unconfigured := true } ∨
      e = { s.err with value := true }) ∧ t = { s with cmd := rest, err := e }

/-- An error bit stays set until RD_STATUS or RESET, and changes nothing that any command does, but for the word
that RD_STATUS responds (60_exceptions.md R312). -/
def Obligations.ErrorBitsAreStickyAndInert : Prop :=
  ∀ (s : State) (h d : Word) (rest : List Word), s.cmd = h :: d :: rest →
    decode h d ≠ .legal .rdStatus →
    ∃ t, step s = .next t ∧
      (decode h d ≠ .legal .reset →
        (s.err.illegal = true → t.err.illegal = true) ∧
        (s.err.unconfigured = true → t.err.unconfigured = true) ∧ (s.err.value = true → t.err.value = true)) ∧
      ∀ e : Errors, ∃ e', step { s with err := e } = .next { t with err := e' }

/-! ## System commands -/

/-- NOP is the header 0, with any D, and leaves every state element as it is (40_system.md R130). -/
def Obligations.NopChangesNothing : Prop :=
  (∀ d : Word, decode 0x00000000 d = .legal .nop) ∧ ∀ s : State, exec .nop s = .next s

/-- RESET restores everything but the ports to its value at power-on, under any OPEN parameters
(70_reset_and_hazards.md R331). -/
def Obligations.ResetKeepsOnlyThePorts : Prop :=
  ∀ s : State, exec .reset s = .next { State.reset with cmd := s.cmd, resp := s.resp, out := s.out } ∧
    ∀ p : Params, execWith p .reset s = .next { State.resetWith p with cmd := s.cmd, resp := s.resp, out := s.out }

/-- Every state element at power-on (70_reset_and_hazards.md R330; the reset columns of 10_state.md R21 to R55), with
the histories at the lengths that the OPEN parameters give (the defaults 191 and 1 are log entry 1). -/
def Obligations.PowerOnStateIsAsListed : Prop :=
  State.reset.status = 0 ∧ State.reset.err = ⟨false, false, false⟩ ∧
  State.reset.cfg = ⟨false, .ym2149, 0, 0, F64.zero⟩ ∧
  State.reset.cmd = [] ∧ State.reset.resp = [] ∧ State.reset.out = [] ∧
  (∀ k, State.reset.chip.tones.get k = ⟨0, 0, false, false, false, false, 0, F64.zero, F64.zero⟩) ∧
  State.reset.chip.noise = ⟨0, 0, 1⟩ ∧ State.reset.chip.env = ⟨0, 0, false, 0, 0⟩ ∧
  State.reset.chip.acc = F64.zero ∧
  State.reset.chip.firL = List.replicate 191 F64.zero ∧ State.reset.chip.firR = List.replicate 191 F64.zero ∧
  State.reset.chip.dcL = ⟨[F64.zero], F64.zero⟩ ∧ State.reset.chip.dcR = ⟨[F64.zero], F64.zero⟩ ∧
  (∀ f ∈ patchFields, memRead State.reset.patch f.id = f.reset) ∧
  State.reset.eng = (⟨[], [], [], false, 0, 0, 127, 64, 127, 8192, none, 0⟩ : Engine) ∧
  ∀ p : Params, State.resetWith p = { State.reset with chip := { State.reset.chip with
    firL := List.replicate p.firTaps F64.zero, firR := List.replicate p.firTaps F64.zero
    dcL := ⟨List.replicate p.dcN F64.zero, F64.zero⟩, dcR := ⟨List.replicate p.dcN F64.zero, F64.zero⟩ } }

/-- CONFIGURE resets the chip and writes the configuration registers, and nothing else; a rate of 0 is refused and
changes nothing but ERR_VALUE; under other OPEN parameters only the lengths of the histories differ
(40_system.md R132; 70_reset_and_hazards.md R332). -/
def Obligations.ConfigureResetsTheChipOnly : Prop :=
  ∀ (mode : ChipMode) (sr : BitVec 18) (clock : Word) (s : State),
    (sr = 0 ∨ clock = 0 →
      exec (.configure mode sr clock) s = .next { s with err := { s.err with value := true } }) ∧
    (sr ≠ 0 → clock ≠ 0 →
      exec (.configure mode sr clock) s = .next { s with
        chip := State.reset.chip
        cfg := ⟨true, mode, clock, sr,
          (F64.ofNat clock.toNat).div ((F64.dec 64).mul (F64.ofNat sr.toNat))⟩ }) ∧
    ∀ p : Params, ∃ t, exec (.configure mode sr clock) s = .next t ∧
      execWith p (.configure mode sr clock) s =
        .next (if sr = 0 ∨ clock = 0 then t else { t with chip := (State.resetWith p).chip })

/-- RD_STATUS responds STATUS as it was and clears the three error bits, and nothing else (40_system.md R134); and
STATUS bit by bit (10_state.md R21). -/
def Obligations.RdStatusRespondsThenClears : Prop :=
  ∀ s : State,
    exec .rdStatus s = .next { s with resp := s.resp ++ [s.status], err := ⟨false, false, false⟩ } ∧
    (s.eng.voices.length ≤ 3 →
      s.status.getLsbD 0 = s.cfg.configured ∧
      s.status.getLsbD 1 = (s.cfg.configured && decide (s.cfg.mode = .ay8910)) ∧
      s.status.getLsbD 2 = s.err.illegal ∧ s.status.getLsbD 3 = s.err.unconfigured ∧
      s.status.getLsbD 4 = s.err.value ∧ s.status.getLsbD 5 = s.eng.sustain ∧
      s.status.extractLsb' 6 2 = 0 ∧ (s.status.extractLsb' 8 2).toNat = s.eng.voices.length ∧
      s.status.extractLsb' 10 6 = 0 ∧ (s.status.extractLsb' 16 8).toNat = min s.eng.held.length 255 ∧
      s.status.extractLsb' 24 8 = 0)

/-! ## Chip setters -/

/-- SET_TONE, SET_MIXER and SET_VOLUME write their registers of one channel and nothing else
(41_chip_setters.md R141, R142, R143). The last clause is this model's reading of R105 for a term that no header
encodes (log entry 16). -/
def Obligations.ChannelSettersWriteOneChannel : Prop :=
  (∀ (s : State) (c : Fin 3) (period : BitVec 12),
    ∃ t, exec (.setTone (BitVec.ofNat 4 c) period) s = .next t ∧
      OnlyChannel s t c { s.chip.tones.get c with period := period }) ∧
  (∀ (s : State) (c : Fin 3) (tOff nOff eOn : Bool),
    ∃ t, exec (.setMixer (BitVec.ofNat 4 c) tOff nOff eOn) s = .next t ∧
      OnlyChannel s t c { s.chip.tones.get c with tOff := tOff, nOff := nOff, eOn := eOn }) ∧
  (∀ (s : State) (c : Fin 3) (vol : BitVec 4),
    ∃ t, exec (.setVolume (BitVec.ofNat 4 c) vol) s = .next t ∧
      OnlyChannel s t c { s.chip.tones.get c with volume := vol }) ∧
  ∀ (s : State) (ch : BitVec 4), 2 < ch.toNat → ∀ i : Instr,
    ((∃ p, i = .setTone ch p) ∨ (∃ a b c, i = .setMixer ch a b c) ∨ (∃ v, i = .setVolume ch v) ∨
      (∃ e p, i = .setPan ch e p) ∨ ∃ p, i = .tonePhase ch p) →
    exec i s = .next { s with err := { s.err with illegal := true } }

/-- SET_PAN: a pan that is not finite is refused with ERR_VALUE; another one is clamped to [0, 1], with -0.0 read as
+0.0, and gives the two gains of its channel by the linear or the equal-power law (41_chip_setters.md R144). -/
def Obligations.SetPanClampsAndSplitsTheGain : Prop :=
  ∀ (s : State) (c : Fin 3) (eqp : Bool) (w : F32),
    (¬ F32.finite w →
      exec (.setPan (BitVec.ofNat 4 c) eqp w) s = .next { s with err := { s.err with value := true } }) ∧
    (F32.finite w → ∀ p : F64,
      ((F64.ofF32 w).le F64.zero = true → p = F64.zero) →
      (F64.one.le (F64.ofF32 w) = true → p = F64.one) →
      (F64.zero.lt (F64.ofF32 w) = true → (F64.ofF32 w).lt F64.one = true → p = F64.ofF32 w) →
      ∃ t, exec (.setPan (BitVec.ofNat 4 c) eqp w) s = .next t ∧
        OnlyChannel s t c (if eqp then { s.chip.tones.get c with panL := (F64.one.sub p).sqrt, panR := p.sqrt }
          else { s.chip.tones.get c with panL := F64.one.sub p, panR := p }))

/-- TONE_PHASE: a phase that is not finite is refused with ERR_VALUE; another one is clamped to [0, 1] and gives the
tick position in one square period, whose first half has bit 0 (41_chip_setters.md R148). -/
def Obligations.TonePhaseSetsThePosition : Prop :=
  ∀ (s : State) (c : Fin 3) (w : F32) (period pos : Nat),
    (¬ F32.finite w →
      exec (.tonePhase (BitVec.ofNat 4 c) w) s = .next { s with err := { s.err with value := true } }) ∧
    (F32.finite w → period = max (s.chip.tones.get c).period.toNat 1 →
      pos = min (((F64.ofF32 w).clamp F64.zero F64.one).mul (F64.ofNat (2 * period))).floor.toNat (2 * period - 1) →
      ∃ t, exec (.tonePhase (BitVec.ofNat 4 c) w) s = .next t ∧
        OnlyChannel s t c { s.chip.tones.get c with
          bit := decide (period ≤ pos), counter := BitVec.ofNat 12 (pos % period) } ∧
        (t.chip.tones.get c).counter.toNat = pos % period)

/-- SET_NOISE, SET_ENV_PERIOD, ENV_SYNC and ENV_LOAD write the registers of the shared generators that they name,
and nothing else (41_chip_setters.md R145, R146, R149, R150). -/
def Obligations.SharedSettersWriteTheGenerators : Prop :=
  ∀ s : State,
    (∀ np : BitVec 5, exec (.setNoise np) s =
      .next { s with chip := { s.chip with noise := { s.chip.noise with period := np } } }) ∧
    (∀ ep : BitVec 16, exec (.setEnvPeriod ep) s =
      .next { s with chip := { s.chip with env := { s.chip.env with period := ep } } }) ∧
    exec .envSync s = .next { s with chip := { s.chip with env := { s.chip.env with counter := 0 } } } ∧
    ∀ (seg : Bool) (level : BitVec 5) (counter : BitVec 16), exec (.envLoad seg level counter) s =
      .next { s with chip := { s.chip with
        env := { s.chip.env with segment := seg, level := level, counter := counter } } }

/-- SET_ENV_SHAPE restarts the envelope for every shape, the current one too: counter 0, slot 0, and level 31 for the
shapes that begin with a down ramp, 0 to 3 and 8 to 11, else 0; the shape is H[3:0] of opcode 0x16
(41_chip_setters.md R147). -/
def Obligations.SetEnvShapeRestartsTheEnvelope : Prop :=
  ∀ (s : State) (shape : BitVec 4),
    (∀ d : Word, decode (0x16#8 ++ 0#20 ++ shape) d = .legal (.setEnvShape shape)) ∧
    exec (.setEnvShape shape) s = .next { s with chip := { s.chip with
      env := { s.chip.env with
        shape := shape, counter := 0, segment := false,
        level := if shape.toNat < 4 ∨ 8 ≤ shape.toNat ∧ shape.toNat < 12 then 31 else 0 } } }

/-- No setter runs the chip: the accumulator, the histories and the noise register stay, nothing is emitted or
responded, and no part of the state but the chip and the error bits changes (41_chip_setters.md R140). -/
def Obligations.SettersNeverRunTheChip : Prop :=
  ∀ (i : Instr) (s : State), i.isChipSetter = true →
    ∃ t, exec i s = .next t ∧ t = { s with chip := t.chip, err := t.err } ∧
      t.chip.acc = s.chip.acc ∧ t.chip.firL = s.chip.firL ∧ t.chip.firR = s.chip.firR ∧
      t.chip.dcL = s.chip.dcL ∧ t.chip.dcR = s.chip.dcR ∧
      t.chip.noise.lfsr = s.chip.noise.lfsr ∧ t.chip.noise.counter = s.chip.noise.counter

/-! ## The generators -/

/-- One tone tick counts, or rolls over and toggles the bit; so from counter 0 the bit holds for P ticks and a square
period is 2P ticks (42_chip_process.md R163). -/
def Obligations.ToneIsASquareWave : Prop :=
  ∀ (t : ToneChannel) (period : Nat), period = max t.period.toNat 1 →
    (period ≤ t.counter.toNat + 1 → t.tick = { t with counter := 0, bit := !t.bit }) ∧
    (t.counter.toNat + 1 < period → t.tick = { t with counter := t.counter + 1 }) ∧
    t.tick.counter.toNat < period ∧
    (t.counter = 0 →
      (∀ k, k < period → (ToneChannel.tick)^[k] t = { t with counter := BitVec.ofNat 12 k }) ∧
      (ToneChannel.tick)^[period] t = { t with bit := !t.bit } ∧
      (ToneChannel.tick)^[2 * period] t = t)

/-- A noise tick counts, or rolls over after NOISE_DIV periods and shifts the register; the shift feeds bits 0 and 3
into bit 16; from 1 the register comes back to 1 after 131071 shifts and no sooner, and never reaches 0
(42_chip_process.md R164). For a NOISE_DIV of at most 8, as R164 has it, the count is exact; above 8 the counter is cut
to its 8 bits, which is the model's choice (log entry 25). -/
def Obligations.NoiseRegisterIsMaximalLength : Prop :=
  (∀ (p : Params) (g : NoiseGen),
    (p.noiseDiv * max g.period.toNat 1 ≤ g.counter.toNat + 1 →
      g.tick p = { g with counter := 0, lfsr := lfsrShift g.lfsr }) ∧
    (g.counter.toNat + 1 < p.noiseDiv * max g.period.toNat 1 →
      g.tick p = { g with counter := BitVec.ofNat 8 (g.counter.toNat + 1) } ∧
        (p.noiseDiv ≤ 8 → (g.tick p).counter.toNat = g.counter.toNat + 1)) ∧
    g.out = g.lfsr.getLsbD 0) ∧
  (∀ (l : BitVec 17) (k : Nat), k < 16 → (lfsrShift l).getLsbD k = l.getLsbD (k + 1)) ∧
  (∀ l : BitVec 17, (lfsrShift l).getLsbD 16 = xor (l.getLsbD 0) (l.getLsbD 3)) ∧
  (∀ l : BitVec 17, l ≠ 0 → lfsrShift l ≠ 0) ∧
  ∀ k : Nat, lfsrShift^[k] 1 = 1 ↔ 131071 ∣ k

/-- After a write of a shape the level steps once per E ticks through the sequence of the shape, for every shape and
period (42_chip_process.md R165 to R168). -/
def Obligations.EnvelopeFollowsItsShape : Prop :=
  ∀ (e : EnvGen) (shape : BitVec 4) (n j : Nat), j < max e.period.toNat 1 →
    ((EnvGen.tick)^[n * max e.period.toNat 1 + j] (e.setShape shape)).level.toNat =
      envelopeLevel shape.toNat n

/-- The gate and the DAC index of a channel (42_chip_process.md R169, R170), and the two tables: 32 entries from 0.0
to 1.0, non-decreasing, with each entry of the AY8910 table twice (R171);
and the default filter coefficients: 191 of them, each the mirror of another, with the centre tap and the sum that
the spec prints (R174). -/
def Obligations.DacIndexAndTables : Prop :=
  (∀ (t : ToneChannel) (noise : Bool) (level : BitVec 5),
    dacIndex t noise level =
      if (t.bit = true ∨ t.tOff = true) ∧ (noise = true ∨ t.nOff = true) then
        (if t.eOn then level.toNat else 2 * t.volume.toNat + 1)
      else 0) ∧
  (∀ (t : ToneChannel) (noise : Bool) (level : BitVec 5), dacIndex t noise level < 32) ∧
  (∀ mode, (dacTable params mode).length = 32 ∧ (dacTable params mode)[0]? = some F64.zero ∧
    (dacTable params mode)[31]? = some F64.one ∧
    ∀ k < 31, ((dacTable params mode).getD k F64.zero).le ((dacTable params mode).getD (k + 1) F64.zero) = true) ∧
  (∀ k < 16, (dacTable params .ay8910)[2 * k]? = (dacTable params .ay8910)[2 * k + 1]?) ∧
  params.firCoeffs.length = 191 ∧ params.firCoeffs.reverse = params.firCoeffs ∧
  params.firCoeffs[95]? = some (F64.dec 12499766314085119 100000000000000000) ∧
  params.firCoeffs.foldl F64.add F64.zero = F64.dec 9999999999999997 10000000000000000

/-! ## PROCESS -/

/-- PROCESS is refused with ERR_UNCONFIGURED before a CONFIGURE; after one it runs the chip for one sample whatever
the voices hold, and emits the pair; it changes the chip and the output port and nothing else, under any OPEN
parameters (42_chip_process.md R160, R177, R178). -/
def Obligations.ProcessRunsOneSample : Prop :=
  ∀ s : State,
    (s.cfg.configured = false → exec .process s = .next { s with err := { s.err with unconfigured := true } }) ∧
    (s.cfg.configured = true →
      exec .process s = .next { s with
        chip := (chipSample params s.cfg s.chip).2
        out := s.out ++ [((chipSample params s.cfg s.chip).1.1.toF32, (chipSample params s.cfg s.chip).1.2.toF32)] }) ∧
    ∀ p : Params, execWith p .process s = .next (if s.cfg.configured then
      { s with
        chip := (chipSample p s.cfg s.chip).2
        out := s.out ++ [((chipSample p s.cfg s.chip).1.1.toF32, (chipSample p s.cfg s.chip).1.2.toF32)] }
      else { s with err := { s.err with unconfigured := true } })

/-- One sample is 8 sub-samples, each an advance of the generators and a push of the mixer pair into both histories;
then each side's filter output goes through its DC blocker (42_chip_process.md R161). -/
def Obligations.SampleIsEightSubSamples : Prop :=
  ∀ (p : Params) (cfg : Cfg) (chip : Chip), ∃ sub : Chip,
    sub = (fun c : Chip => { Chip.advance p cfg.step c with
      firL := (mix p cfg.mode (Chip.advance p cfg.step c)).1 :: c.firL.dropLast
      firR := (mix p cfg.mode (Chip.advance p cfg.step c)).2 :: c.firR.dropLast })^[8] chip ∧
    (chipSample p cfg chip).1 =
      ((sub.dcL.step p (fir p sub.firL)).1, (sub.dcR.step p (fir p sub.firR)).1) ∧
    (chipSample p cfg chip).2 =
      { sub with dcL := (sub.dcL.step p (fir p sub.firL)).2, dcR := (sub.dcR.step p (fir p sub.firR)).2 }

/-- The first PROCESS after a CONFIGURE emits (+0.0, +0.0), in every mode and at every rate
(the example of 42_chip_process.md R160). -/
def Obligations.FirstSampleAfterConfigureIsSilent : Prop :=
  ∀ (s : State) (mode : ChipMode) (sr : BitVec 18) (clock : Word), sr ≠ 0 → clock ≠ 0 →
    ∃ t u, exec (.configure mode sr clock) s = .next t ∧ exec .process t = .next u ∧ u.out = s.out ++ [(0, 0)]

/-- One chip tick is one tick of the noise generator, of the envelope and of each of the three tone generators, and
nothing else (42_chip_process.md R162). From an accumulator in [0, 1), with the step of a configuration, the loop takes
floor(acc + step) ticks and leaves frac(acc + step), which lies in [0, 1) again (R161; 10_state.md R29). -/
def Obligations.AccumulatorLoopTakesTheWholePart : Prop :=
  (∀ (p : Params) (chip : Chip), Chip.tick p chip = { chip with
    noise := chip.noise.tick p
    env := chip.env.tick
    tones := { c0 := chip.tones.c0.tick, c1 := chip.tones.c1.tick, c2 := chip.tones.c2.tick } }) ∧
  ∀ (chip : Chip) (clock : Word) (sr : BitVec 18) (acc : F64), sr ≠ 0 →
    F64.zero.le chip.acc = true → chip.acc.lt F64.one = true → acc = chip.acc.add (stepOf clock sr) →
    0 ≤ acc.floor ∧
    Chip.advance params (stepOf clock sr) chip =
      { (Chip.tick params)^[acc.floor.toNat] chip with acc := acc.frac } ∧
    F64.zero.le acc.frac = true ∧ acc.frac.lt F64.one = true

/-- The DAC table is that of the chip mode, and a channel's amplitude is its entry at the DAC index of the channel, for
any tables of 32 entries (42_chip_process.md R171, R172); the mixer sum of each side and the filter sum are taken from
0.0 in the order of the rules: channels 0, 1, 2, and from the newest sub-sample to the oldest (R172, R175). The DC
blocker, for any DC_N and DC_LEAK: the output is (x - the input DC_N steps ago) + DC_LEAK times the last output, and the
delay line shifts by one; and with their defaults 1 and 0.995 (R176). -/
def Obligations.MixerFilterAndDcBlockerCompute : Prop :=
  (∀ p : Params, dacTable p .ym2149 = p.dacYm ∧ dacTable p .ay8910 = p.dacAy) ∧
  (∀ (p : Params) (mode : ChipMode) (chip : Chip) (c : Fin 3), p.dacYm.length = 32 → p.dacAy.length = 32 →
    (dacTable p mode)[dacIndex (chip.tones.get c) chip.noise.out chip.env.level]? = some (amplitude p mode chip c)) ∧
  (∀ (p : Params) (mode : ChipMode) (chip : Chip),
    mix p mode chip =
      (([0, 1, 2] : List (Fin 3)).foldl (fun y c => y.add ((amplitude p mode chip c).mul (chip.tones.get c).panL))
          F64.zero,
        ([0, 1, 2] : List (Fin 3)).foldl (fun y c => y.add ((amplitude p mode chip c).mul (chip.tones.get c).panR))
          F64.zero)) ∧
  (∀ (p : Params) (x : List F64),
    fir p x = (p.firCoeffs.zip x).foldl (fun y hx => y.add (hx.1.mul hx.2)) F64.zero) ∧
  (∀ (p : Params) (d : DcSide) (x oldest y : F64), d.x.length = p.dcN → d.x.getLast? = some oldest →
    y = (x.sub oldest).add (p.dcLeak.mul d.y) → d.step p x = (y, ⟨x :: d.x.dropLast, y⟩)) ∧
  ∀ last x y : F64,
    (DcSide.mk [last] y).step params x =
      ((x.sub last).add ((F64.dec 995 1000).mul y), ⟨[x], (x.sub last).add ((F64.dec 995 1000).mul y)⟩)

/-! ## The patch -/

/-- PATCH_WR of an assigned field: a real is clamped to its range with -0.0 stored as +0.0, or refused with ERR_VALUE
when it is not finite; an integer is clamped; a boolean is 0 or 1. Every other id holds what it held, and unless the
field is play_mode nothing but the patch changes (45_patch.md R300). -/
def Obligations.PatchWriteClampsAndStores : Prop :=
  ∀ (s : State) (id : BitVec 12) (f : PatchField) (v w : Word), Memory.wf s.patch = true →
    f ∈ patchFields → f.id = id.toNat →
    (f.type = .real → ¬ F32.finite v →
      exec (.patchWr id v) s = .next { s with err := { s.err with value := true } }) ∧
    ((f.type = .real ∧ F32.finite v ∧
        w = (if (F64.ofF32 v).lt (F64.ofInt f.lo) then (F64.ofInt f.lo).toF32
          else if (F64.ofInt f.hi).lt (F64.ofF32 v) then (F64.ofInt f.hi).toF32
          else if v = 0x80000000 then 0 else v) ∨
      (f.type = .int ∨ f.type = .enum) ∧ w.toInt = max f.lo (min f.hi v.toInt) ∨
      f.type = .bool ∧ w = (if v = 0 then 0 else 1)) →
      ∃ t, exec (.patchWr id v) s = .next t ∧
        memRead t.patch id.toNat = w ∧ (∀ a, a ≠ id.toNat → memRead t.patch a = memRead s.patch a) ∧
        Memory.wf t.patch = true ∧ t = { s with patch := t.patch, eng := t.eng } ∧
        (f.id ≠ PatchId.playMode → t.eng = s.eng))

/-- Writing back what a field holds has no effect, on play_mode too, and leaves the register file the same data
(45_patch.md R300). -/
def Obligations.RewritingAFieldChangesNothing : Prop :=
  ∀ (s : State) (id : BitVec 12), Memory.wf s.patch = true → Patch.InRange s.patch → assigned id.toNat = true →
    exec (.patchWr id (memRead s.patch id.toNat)) s = .next s

/-- A write of play_mode stores its payload clamped to [0, 4]. One that changes the field drops the held and the
deferred pitches and releases every held voice; the voices stay, on their channels and in their order, and nothing else
of the Engine changes. One that leaves the field as it was, by its payload or by the clamp, changes nothing at all
(45_patch.md R300, R302). -/
def Obligations.PlayModeChangeReleasesEveryNote : Prop :=
  ∀ (s : State) (v w : Word), Memory.wf s.patch = true → w.toInt = max 0 (min 4 v.toInt) →
    (memRead s.patch PatchId.playMode = w → exec (.patchWr 0 v) s = .next s) ∧
    (memRead s.patch PatchId.playMode ≠ w →
      ∃ t, exec (.patchWr 0 v) s = .next t ∧ t = { s with patch := t.patch, eng := t.eng } ∧
        memRead t.patch PatchId.playMode = w ∧
        (∀ a, a ≠ PatchId.playMode → memRead t.patch a = memRead s.patch a) ∧
        t.eng = { s.eng with held := [], deferred := [], voices := t.eng.voices } ∧
        t.eng.voices = s.eng.voices.map fun v =>
          if v.noteOn then { v with noteOn := false, relLevel := v.envLevel, envSmp := 0 } else v)

/-- PATCH_RD, with its id in H[11:0] of opcode 0x31 and any D, responds the stored payload and changes nothing else;
and the two examples after power-on (45_patch.md R301). -/
def Obligations.PatchReadRespondsThePayload : Prop :=
  (∀ (s : State) (id : BitVec 12), assigned id.toNat = true →
    (∀ d : Word, decode (0x31#8 ++ 0#12 ++ id) d = .legal (.patchRd id)) ∧
    exec (.patchRd id) s = .next { s with resp := s.resp ++ [memRead s.patch id.toNat] }) ∧
  decode 0x31000110 0 = .legal (.patchRd (BitVec.ofNat 12 PatchId.controlPitchwheel)) ∧
  memRead State.reset.patch PatchId.controlPitchwheel = 0x00000002 ∧
  decode 0x31000037 0 = .legal (.patchRd (BitVec.ofNat 12 PatchId.envSustainLevel)) ∧
  memRead State.reset.patch PatchId.envSustainLevel = 0x41700000

/-- Only PATCH_WR and RESET write the patch: no other command changes it, RENDER with all its voice ticks included
(10_state.md R42). -/
def Obligations.OnlyPatchWritesChangeThePatch : Prop :=
  ∀ (i : Instr) (s : State), (∀ id v, i ≠ .patchWr id v) → i ≠ .reset →
    ∃ t, exec i s = .next t ∧ t.patch = s.patch

/-! ## Engine events -/

/-- NOTE_ON in Mono: the active voice is freed and one new voice sounds on channel 0, with the last pitch as its glide
source (44_engine.md R261, R262, R265; 43_voice.md R235). The capacity 256 is the default of HELD_CAP (00_scope.md R7;
log entry 1). -/
def Obligations.MonoNoteOnReplacesTheVoice : Prop :=
  ∀ (s : State) (mch : BitVec 4) (pitch vel : BitVec 7), playMode s.patch = .mono → vel ≠ 0 →
    s.eng.held.length ≠ 256 →
    ∃ t, exec (.noteOn mch pitch vel) s = .next t ∧
      t = { s with eng := { s.eng with
        voices := [Voice.create s.eng.serialCtr 0 pitch vel (s.eng.lastPitch.getD pitch)
          (s.chip.tones.get 0).bit]
        held := t.eng.held, lastPitch := some pitch, serialCtr := s.eng.serialCtr + 1 } } ∧
      ∀ q, t.eng.held.count q = s.eng.held.count q + if q = pitch then 1 else 0

/-- NOTE_ON in Poly: of three voices the first with the lowest envelope level is freed; the new voice takes a channel
that no voice uses, drawn by the hash of its serial, and stands after every voice whose pitch is at most its own
(44_engine.md R261, R263, R265, R277; 43_voice.md R235; 00_scope.md R15). The capacity 256 and the hash are the
defaults of HELD_CAP and HASH32 (00_scope.md R7; log entry 1). -/
def Obligations.PolyNoteOnTakesAFreeChannel : Prop :=
  ∀ (s : State) (mch : BitVec 4) (pitch vel : BitVec 7), s.Inv → s.Bounded → playMode s.patch = .poly → vel ≠ 0 →
    s.eng.held.length ≠ 256 →
    ∃ t kept free ch, exec (.noteOn mch pitch vel) s = .next t ∧
      (s.eng.voices.length < 3 → kept = s.eng.voices) ∧
      (s.eng.voices.length = 3 → ∃ j v, s.eng.voices[j]? = some v ∧ kept = s.eng.voices.eraseIdx j ∧
        (∀ w ∈ s.eng.voices, v.envLevel.le w.envLevel = true) ∧
        ∀ (k : Nat) (w : Voice), k < j → s.eng.voices[k]? = some w → v.envLevel.lt w.envLevel = true) ∧
      free = ([0, 1, 2] : List (Fin 3)).filter (fun c => kept.all fun v => decide (v.chan ≠ c)) ∧
      free[(lowbias32 (s.eng.serialCtr + 0x85EBCA6B)).toNat % free.length]? = some ch ∧
      t = { s with eng := { s.eng with
        voices := (kept.filter fun v => decide (v.pitch.toNat ≤ pitch.toNat)) ++
          Voice.create s.eng.serialCtr ch pitch vel (s.eng.lastPitch.getD pitch) (s.chip.tones.get ch).bit ::
            kept.filter fun v => decide (pitch.toNat < v.pitch.toNat)
        held := t.eng.held, lastPitch := some pitch, serialCtr := s.eng.serialCtr + 1 } } ∧
      ∀ q, t.eng.held.count q = s.eng.held.count q + if q = pitch then 1 else 0

/-- NOTE_ON in the arpeggio modes: the first held pitch makes the one voice, on channel 0; a later one is only held
(44_engine.md R261, R264, R265; 43_voice.md R235). The capacity 256 is the default of HELD_CAP (00_scope.md R7;
log entry 1). -/
def Obligations.ArpNoteOnMakesOneVoice : Prop :=
  ∀ (s : State) (mch : BitVec 4) (pitch vel : BitVec 7), (playMode s.patch).isArp = true → vel ≠ 0 →
    s.eng.held.length ≠ 256 →
    ∃ t, exec (.noteOn mch pitch vel) s = .next t ∧
      t = { s with eng := { s.eng with
        voices := if s.eng.held = [] then [Voice.create s.eng.serialCtr 0 pitch vel (s.eng.lastPitch.getD pitch)
          (s.chip.tones.get 0).bit] else s.eng.voices
        held := t.eng.held, lastPitch := some pitch
        serialCtr := if s.eng.held = [] then s.eng.serialCtr + 1 else s.eng.serialCtr } } ∧
      ∀ q, t.eng.held.count q = s.eng.held.count q + if q = pitch then 1 else 0

/-- The record of a new voice, of a released one and of a repointed one (10_state.md R50; 43_voice.md R234, R235,
R236). -/
def Obligations.VoiceRecordsAreAsListed : Prop :=
  (∀ (serial : BitVec 32) (ch : Fin 3) (pitch vel src : BitVec 7) (b : Bool),
    Voice.create serial ch pitch vel src b =
      { serial := serial, chan := ch, pitch := pitch, velocity := vel, noteOn := true, first := true, onSmp := 0,
        pitchSmp := 0, envSmp := 0, envLevel := F64.zero, relLevel := F64.zero, portaSrc := F64.ofNat src.toNat,
        lastBit := b, seqIdx := none, arpSel := pitch, arpPrev := none, arpLastR := none, rmIdx := 0, rmDir := .up,
        rmPhase := F64.zero, lastShape := none, buzzPeriod := 0 }) ∧
  (∀ v : Voice, v.release = { v with noteOn := false, relLevel := v.envLevel, envSmp := 0 }) ∧
  ∀ (v : Voice) (q : BitVec 7),
    v.repoint q = { v with portaSrc := F64.ofNat v.pitch.toNat, pitch := q, pitchSmp := 0 }

/-- NOTE_ON with velocity 0 is a NOTE_OFF, on any MIDI channel and with any release velocity; with another velocity
and HELD_CAP held pitches it is refused with ERR_VALUE and changes nothing else, for every HELD_CAP, and so for the 256
of the machine that `exec` runs (44_engine.md R261, R266; 00_scope.md R7; log entry 1). NOTE_OFF of a
pitch that is not held does nothing; with the pedal down it is deferred, at most as often as the pitch is held, and
does nothing else (R266, R267). -/
def Obligations.NoteEventsRefusedIgnoredOrDeferred : Prop :=
  ∀ (s : State) (mch mch' : BitVec 4) (pitch vel rvel : BitVec 7),
    exec (.noteOn mch pitch 0) s = exec (.noteOff mch' pitch rvel) s ∧
    (vel ≠ 0 → s.eng.held.length = 256 →
      exec (.noteOn mch pitch vel) s = .next { s with err := { s.err with value := true } }) ∧
    (∀ p : Params, vel ≠ 0 → s.eng.held.length = p.heldCap →
      execWith p (.noteOn mch pitch vel) s = .next { s with err := { s.err with value := true } }) ∧
    (pitch ∉ s.eng.held → exec (.noteOff mch pitch rvel) s = .next s) ∧
    (pitch ∈ s.eng.held → s.eng.sustain = true →
      exec (.noteOff mch pitch rvel) s =
        if s.eng.deferred.count pitch < s.eng.held.count pitch then
          .next { s with eng := { s.eng with deferred := s.eng.deferred ++ [pitch] } }
        else .next s)

/-- NOTE_OFF of a held pitch with the pedal up takes one occurrence of it out of the held pitches. In Mono and Poly it
then releases the first held voice of that pitch, if there is one; in the arpeggio modes it releases the held voices
when no pitch is left, and else repoints those whose pitch is no longer held to the lowest one left
(44_engine.md R266, R268, R269). -/
def Obligations.NoteOffReleasesOrRepoints : Prop :=
  ∀ (s : State) (mch : BitVec 4) (pitch rvel : BitVec 7), pitch ∈ s.eng.held → s.eng.sustain = false →
    (s.eng.held.Pairwise fun p q => p.toNat ≤ q.toNat) →
    ∃ t, exec (.noteOff mch pitch rvel) s = .next t ∧
      t = { s with eng := { s.eng with held := s.eng.held.erase pitch, voices := t.eng.voices } } ∧
      ((playMode s.patch).isArp = false →
        ((∀ v ∈ s.eng.voices, v.pitch = pitch → v.noteOn = false) → t.eng.voices = s.eng.voices) ∧
        ∀ a v b, s.eng.voices = a ++ v :: b → (∀ w ∈ a, w.pitch = pitch → w.noteOn = false) →
          v.pitch = pitch → v.noteOn = true → t.eng.voices = a ++ v.release :: b) ∧
      ((playMode s.patch).isArp = true →
        (s.eng.held.erase pitch = [] →
          t.eng.voices = s.eng.voices.map fun v => if v.noteOn then v.release else v) ∧
        ∀ q, q ∈ s.eng.held.erase pitch → (∀ p ∈ s.eng.held.erase pitch, q.toNat ≤ p.toNat) →
          t.eng.voices = s.eng.voices.map fun v =>
            if v.noteOn = true ∧ v.pitch ∉ s.eng.held.erase pitch then v.repoint q else v)

/-- ALL_NOTES_OFF, PITCH_WHEEL and the controllers write their Engine registers on any MIDI channel and nothing else;
a number that is not mapped has no effect (44_engine.md R270, R271, R272). -/
def Obligations.EventsWriteTheirRegister : Prop :=
  ∀ (s : State) (mch : BitVec 4) (val : BitVec 7),
    exec (.allNotesOff mch) s = .next { s with eng := { s.eng with
      held := [], deferred := []
      voices := s.eng.voices.map fun v => if v.noteOn then v.release else v } } ∧
    (∀ wheel : BitVec 14, exec (.pitchWheel mch wheel) s = .next { s with eng := { s.eng with pw := wheel } }) ∧
    exec (.control mch 1 val) s = .next { s with eng := { s.eng with ccMod := val } } ∧
    exec (.control mch 5 val) s = .next { s with eng := { s.eng with ccPorta := val } } ∧
    exec (.control mch 7 val) s = .next { s with eng := { s.eng with ccVolume := val } } ∧
    exec (.control mch 10 val) s = .next { s with eng := { s.eng with ccPan := val } } ∧
    exec (.control mch 11 val) s = .next { s with eng := { s.eng with ccExpr := val } } ∧
    ∀ num : BitVec 7, num ∉ [1#7, 5#7, 7#7, 10#7, 11#7, 64#7] → exec (.control mch num val) s = .next s

/-- The pedal: a value of 64 or more puts it down; a lower one leaves a pedal that is up, and lets one that is down up
and then runs the deferred note-offs in their order, each as the NOTE_OFF it was (44_engine.md R272, R274). -/
def Obligations.PedalRunsTheDeferredNoteOffs : Prop :=
  ∀ (s : State) (mch : BitVec 4) (val : BitVec 7), s.Inv →
    (64 ≤ val.toNat → exec (.control mch 64 val) s = .next { s with eng := { s.eng with sustain := true } }) ∧
    (val.toNat < 64 → s.eng.sustain = false → exec (.control mch 64 val) s = .next s) ∧
    (val.toNat < 64 → s.eng.sustain = true →
      exec (.control mch 64 val) s =
        s.eng.deferred.foldl
          (fun o pitch => match o with
            | .next u => exec (.noteOff mch pitch 0) u
            | .fault r => .fault r
            | .refused r => .refused r)
          (.next { s with eng := { s.eng with sustain := false, deferred := [] } }))

/-! ## Invariants -/

/-- Every step keeps the invariant of the block, under any OPEN parameters in their ranges and so in the machine that
`step` runs: the configuration is what the last CONFIGURE wrote, the histories keep their lengths, no tone counter
passes 4094, the noise register is never 0, the register file is in canonical form, at most three voices sound, each on
a channel of its own and in pitch order, in the arpeggio modes one voice is held exactly while a pitch is, and no pitch
is deferred more often than it is held (10_state.md R23, R26, R27, R30, R31, R51, R56; 44_engine.md R278;
00_scope.md R7). -/
def Obligations.StepKeepsTheInvariant : Prop :=
  (∀ s t : State, s.Inv → step s = .next t → t.Inv) ∧
  ∀ (p : Params) (s t : State), p.Ok → s.InvWith p → stepWith p s = .next t → t.InvWith p

/-- Every step keeps the ranges that `State.Bounded` lists: every patch field in its range, both levels of a voice in
[0, 15] and its glide source in [0, 127], every pan gain in [0, 1], the accumulator in [0, 1), every sub-sample of the
histories in [0, 3], the inputs of the DC filters within 573 and their outputs within 1048576 (00_scope.md R11;
10_state.md R29, R40, R50; 42_chip_process.md R172, R177; 43_voice.md R219). The bounds 573 and 1048576 rest on the
default filter coefficients, DC_N and DC_LEAK (log entry 1). `rm_phase` is not listed: its rate is a value of EXP2,
which has no default (log entries 2 and 19). -/
def Obligations.StepKeepsTheRanges : Prop :=
  ∀ s t : State, s.Inv → s.Bounded → step s = .next t → t.Bounded

/-- The invariant and the ranges hold at power-on, the invariant under any OPEN parameters in their ranges. -/
def Obligations.PowerOnMeetsTheInvariants : Prop :=
  State.reset.Inv ∧ State.reset.Bounded ∧ ∀ p : Params, p.Ok → (State.resetWith p).InvWith p

/-- No NaN and no infinity reaches the output port: whatever a step appends is a pair of finite binary32 values
(00_scope.md R11; 42_chip_process.md R177). -/
def Obligations.EmittedSamplesAreFinite : Prop :=
  ∀ s : State, s.Inv → s.Bounded →
    ∃ t o, step s = .next t ∧ t.out = s.out ++ o ∧ ∀ lr ∈ o, F32.finite lr.1 ∧ F32.finite lr.2

/-! ## RENDER and the voice tick -/

/-- RENDER is refused with ERR_UNCONFIGURED before a CONFIGURE; a count of 0 does nothing; a render may be split
anywhere; and one sample, under any OPEN parameters, ticks the voices from the head of the list on, each tick seeing the
chip that the one before it left, drops the silent ones, and emits the chip's sample while a voice is left, else
(+0.0, +0.0) with the chip not run (44_engine.md R275, R276; 70_reset_and_hazards.md R337). -/
def Obligations.RenderIsItsSamplesInOrder : Prop :=
  ∀ s : State,
    (∀ n, s.cfg.configured = false → exec (.render n) s = .next { s with err := { s.err with unconfigured := true } }) ∧
    (s.cfg.configured = true →
      exec (.render 0) s = .next s ∧
      (∀ n m : BitVec 20, n.toNat + m.toNat < 2 ^ 20 →
        ∃ t, exec (.render n) s = .next t ∧ exec (.render (n + m)) s = exec (.render m) t) ∧
      ∀ p : Params, ∃ vs chip left t,
        (vs, chip) = s.eng.voices.foldl
          (fun (done : List Voice × Chip) v =>
            let tick := voiceTick { par := p, cfg := s.cfg, patch := s.patch, eng := s.eng } v done.2
            (done.1 ++ [tick.1], tick.2)) ([], s.chip) ∧
        left = vs.filter (fun v => v.noteOn || !v.envLevel.eq F64.zero) ∧
        (left = [] → t = { s with chip := chip, eng := { s.eng with voices := [] }, out := s.out ++ [(0, 0)] }) ∧
        (left ≠ [] → t = { s with
          chip := (chipSample p s.cfg chip).2
          eng := { s.eng with voices := left }
          out := s.out ++ [((chipSample p s.cfg chip).1.1.toF32, (chipSample p s.cfg chip).1.2.toF32)] }) ∧
        execWith p (.render 1) s = .next t ∧ (p = params → exec (.render 1) s = .next t))

/-- With no voices a RENDER of n samples emits n silent pairs and changes nothing else: the chip keeps its state
(44_engine.md R275; 60_exceptions.md R323). -/
def Obligations.IdleRenderKeepsTheChip : Prop :=
  ∀ (s : State) (n : BitVec 20), s.cfg.configured = true → s.eng.voices = [] →
    exec (.render n) s = .next { s with out := s.out ++ List.replicate n.toNat (0, 0) }

/-- With release time 0, ALL_NOTES_OFF and one sample are enough to free every voice and reach silence, in every play
mode and with the buzzer on or off (44_engine.md R270, R275, R276; 43_voice.md R220, R221). -/
def Obligations.AllNotesOffThenSilence : Prop :=
  ∀ (s : State) (mch : BitVec 4) (n : BitVec 20), s.cfg.configured = true → n ≠ 0 →
    real s.patch PatchId.envRelease = F64.zero →
    ∃ t u, exec (.allNotesOff mch) s = .next t ∧ exec (.render n) t = .next u ∧
      u.eng.voices = [] ∧ u.eng.held = [] ∧ u.out = s.out ++ List.replicate n.toNat (0, 0)

/-- A voice that a RENDER sample removes leaves its channel silent: volume 0 and the envelope disabled
(44_engine.md R276; 43_voice.md R231). -/
def Obligations.RemovedVoiceLeavesItsChannelSilent : Prop :=
  ∀ (s : State) (v : Voice), s.Inv → s.Bounded → s.cfg.configured = true → v ∈ s.eng.voices →
    ∃ t, exec (.render 1) s = .next t ∧
      ((∀ w ∈ t.eng.voices, w.chan ≠ v.chan) →
        (t.chip.tones.get v.chan).volume = 0 ∧ (t.chip.tones.get v.chan).eOn = false)

/-- A voice tick, from what it reads to what it writes. It keeps the note of the voice, the other channels, and of the
chip everything but its own channel, the noise period and the envelope (43_voice.md R200; 70_reset_and_hazards.md
R336), and its sample counters add 1, saturating at 2^64 - 1 (R233). To its own channel it commits the pan (R203), the
gates (R209), the tone period of the pitch sum (R211 to R218) and the volume of the final level (R228 to R230), to the
noise generator the noise period (R210); only its first tick sets the tone phase (R232). Outside buzzer mode the shared
envelope stays as it was, and while a buzzer voice is held it gets the buzzer's period, its shape when that changes, and
on the first tick the buzzer phase (R222, R226, R227, R231, R232). -/
def Obligations.VoiceTickWritesOnlyItsChannel : Prop :=
  ∀ (x : TickEnv) (v w : Voice) (chip after : Chip), voiceTick x v chip = (w, after) →
    (w.serial = v.serial ∧ w.chan = v.chan ∧ w.pitch = v.pitch ∧ w.velocity = v.velocity ∧ w.noteOn = v.noteOn ∧
      w.relLevel = v.relLevel ∧ w.portaSrc = v.portaSrc ∧ w.first = false) ∧
    (∀ k, k ≠ v.chan → after.tones.get k = chip.tones.get k) ∧
    after = { chip with
      tones := after.tones, noise := { chip.noise with period := after.noise.period }, env := after.env } ∧
    w.onSmp.toNat = min (v.onSmp.toNat + 1) (2 ^ 64 - 1) ∧ w.pitchSmp.toNat = min (v.pitchSmp.toNat + 1) (2 ^ 64 - 1) ∧
    w.envSmp.toNat = (if v.noteOn then v.envSmp.toNat else min (v.envSmp.toNat + 1) (2 ^ 64 - 1)) ∧
    ∃ t sr clk lnf vp : F64,
      sr = F64.ofNat x.cfg.sr.toNat ∧ clk = F64.ofNat x.cfg.clock.toNat ∧ t = (F64.ofNat v.onSmp.toNat).div sr ∧
      lnf = (if x.cfg.mode = .ym2149 then x.par.lnfYm else x.par.lnfAy) ∧ vp = F64.ofNat v.pitch.toNat ∧
    -- the gates, with Off(T) = (T ≥ 0 and t ≥ T)
    ∃ (toneOff noiseOff buzz eOn : Bool) (off : F64 → Bool),
      off = (fun time => F64.zero.le time && time.le t) ∧
      toneOff = off (x.real PatchId.toneTime) ∧ noiseOff = off (x.real PatchId.noiseTime) ∧
      buzz = (x.flag PatchId.buzzerEnabled && !off (x.real PatchId.buzzerTime)) ∧ eOn = (buzz && v.noteOn) ∧
    -- the sequencer terms and the arpeggio offset, of the step and the selection that the tick leaves
    ∃ (sp sd sl arp : F64) (sn : Int),
      (sp, sn, sd, sl) = (match w.seqIdx with
        | some k => (x.real (PatchId.seqStepTonePitch k), x.int (PatchId.seqStepNoisePeriod k),
            x.real (PatchId.seqStepRingmodDepth k), (x.real (PatchId.seqStepLevel k)).div (F64.dec 15))
        | none => (F64.zero, 0, F64.zero, F64.one)) ∧
      arp = (if (playMode x.patch).isArp then (F64.ofNat w.arpSel.toNat).sub vp else F64.zero) ∧
    -- the noise period
    ∃ base : F64,
      base = (if F64.zero.lt (x.real PatchId.noiseAttackTime) && t.lt (x.real PatchId.noiseAttackTime) then
          F64.lerpSeg (F64.ofInt (x.int PatchId.noiseAttackPeriod)) (F64.ofInt (x.int PatchId.noisePeriod)) t F64.zero
            (x.real PatchId.noiseAttackTime)
        else F64.ofInt (x.int PatchId.noisePeriod)) ∧
      (after.noise.period.toNat : Int) = max 0 (min 31 ((base.add ((x.real PatchId.noisePitchSensitivity).mul
        ((F64.dec 60).sub (vp.add arp)))).add (F64.ofInt sn)).roundh) ∧
    -- the pitch envelope, the glide and the LFO
    ∃ pe po lfo time u k dn g td turns phi wave : F64,
      pe = (if F64.zero.lt (x.real PatchId.pitchenvTime) && t.lt (x.real PatchId.pitchenvTime) then
          (x.real PatchId.pitchenvAttackPitch).mul (F64.one.sub (t.div (x.real PatchId.pitchenvTime)))
        else F64.zero) ∧
      time = (x.real PatchId.portaTime).add (((F64.ofNat x.eng.ccPorta.toNat).div (F64.dec 127)).mul
        x.par.portaCcMax) ∧
      u = ((F64.ofNat v.pitchSmp.toNat).div sr).div time ∧
      k = (x.real PatchId.portaSmoothness).mul x.par.portaKMax ∧
      dn = (if F64.zero.lt k then (F64.sigma x.par.exp k).sub (F64.sigma x.par.exp k.neg) else F64.zero) ∧
      g = (if k.eq F64.zero || dn.eq F64.zero then u
        else ((F64.sigma x.par.exp (k.mul (((F64.dec 2).mul u).sub F64.one))).sub (F64.sigma x.par.exp k.neg)).div dn) ∧
      po = (if F64.zero.lt time && u.lt F64.one then (v.portaSrc.sub vp).mul (F64.one.sub g) else F64.zero) ∧
      turns = ((F64.ofNat v.onSmp.toNat).mul (x.real PatchId.lfoFreq)).div sr ∧ phi = turns.frac ∧
      wave = (match lfoShape x.patch with
        | .sine => x.par.sin (((F64.dec 2).mul F64.pi).mul phi)
        | .triangle => if phi.lt (F64.dec 1 4) then (F64.dec 4).mul phi
          else if phi.lt (F64.dec 3 4) then (F64.dec 2).sub ((F64.dec 4).mul phi)
          else ((F64.dec 4).mul phi).sub (F64.dec 4)
        | .downSaw => F64.one.sub ((F64.dec 2).mul phi)
        | .upSaw => ((F64.dec 2).mul phi).sub F64.one
        | .square => if phi.lt (F64.dec 1 2) then F64.one else F64.one.neg
        | .random => ((F64.dec 2).mul ((F64.ofNat (x.par.hash32 (BitVec.ofInt 32
            ((((F64.dec 2).mul (F64.ofNat v.onSmp.toNat)).mul (x.real PatchId.lfoFreq)).div sr).floor)).toNat).div
              (F64.dec 4294967296))).sub F64.one) ∧
      td = x.real PatchId.lfoDelay ∧
      lfo = (((x.real PatchId.lfoDepth).add (((F64.ofNat x.eng.ccMod.toNat).div (F64.dec 127)).mul
        (x.real PatchId.controlModwheelDepth))).mul (if F64.zero.lt td then (t.div td).min F64.one else F64.one)).mul
          wave ∧
    -- the pitch sum and the tone period
    ∃ (pitch : F64) (period : BitVec 12),
      pitch = ((((((((vp.add (x.real PatchId.toneDetune)).add (if v.chan = 0 then F64.zero
        else if v.chan = 1 then (x.real PatchId.toneSpread).neg else x.real PatchId.toneSpread)).add pe).add po).add
          lfo).add arp).add sp).add (((F64.ofNat x.eng.pw.toNat).sub (F64.dec 8192)).div (F64.dec 8192) |>.mul
            (F64.ofInt (x.int PatchId.controlPitchwheel)))) ∧
      pitch = finalPitch x v t arp sp ∧
      (period.toNat : Int) = max 0 (min 4095
        (((clk.div (F64.dec 16)).div lnf).mul (x.par.exp2 (pitch.neg.div (F64.dec 12)))).roundh) ∧
    -- the level and the volume
    ∃ (gain : F64 → F64) (depth rml level : F64) (volume : BitVec 4),
      gain = (fun s => F64.one.sub ((s.mul ((F64.dec 127).sub (F64.ofNat v.velocity.toNat))).div (F64.dec 126))) ∧
      depth = (((x.real PatchId.ringmodDepth).mul (gain (x.real PatchId.ringmodVelocitySensitivity))).add sd).clamp
        F64.zero F64.one ∧
      rml = (F64.one.sub depth).add
        (depth.mul ((x.real (PatchId.ringmodWaveform w.rmIdx)).div (F64.dec 15))) ∧
      level = ((((rml.mul w.envLevel).mul sl).mul (gain (x.real PatchId.controlVelocitySensitivity))).mul
        ((F64.ofNat x.eng.ccVolume.toNat).div (F64.dec 127))).mul ((F64.ofNat x.eng.ccExpr.toNat).div (F64.dec 127)) ∧
      (volume.toNat : Int) = max 0 (min 15 level.roundh) ∧
    -- the channel: the pan and the commit, and on the first tick the tone phase
    ∃ (pan phase : F64) (channel : ToneChannel),
      pan = ((x.real (PatchId.panChannel v.chan)).add
        (((F64.ofNat x.eng.ccPan.toNat).sub (F64.dec 64)).div (F64.dec 64))).clamp F64.zero F64.one ∧
      phase = (if x.flag PatchId.toneReset then x.real PatchId.tonePhase
        else (F64.ofNat (x.par.hash32 (v.serial + 0xC2B2AE35)).toNat).div (F64.dec 4294967296)) ∧
      channel = { (chip.tones.get v.chan).setPan pan (x.flag PatchId.panEqp) with
        period := period, tOff := toneOff, nOff := noiseOff, eOn := eOn, volume := volume } ∧
      after.tones.get v.chan = (if v.first then channel.setPhase phase else channel) ∧
      w.lastBit = (after.tones.get v.chan).bit ∧
    -- the shared envelope
    ∃ (sync : Bool) (before : EnvGen),
      sync = (x.flag PatchId.ringmodSync && (!v.lastBit && (chip.tones.get v.chan).bit)) ∧
      before = (if sync && buzz then { chip.env with counter := 0 } else chip.env) ∧
      (eOn = false → after.env = before ∧ w.lastShape = v.lastShape) ∧
      (buzz = false → after.env = chip.env ∧ w.buzzPeriod = v.buzzPeriod) ∧
      (buzz = true → (w.buzzPeriod.toNat : Int) = max 0 (min 65535 ((clk.div (F64.dec 256)).div
        (lnf.mul (x.par.exp2 ((pitch.add (x.real PatchId.buzzerDetune)).div (F64.dec 12))))).roundh)) ∧
      (eOn = true → ∃ (shape : BitVec 4) (written : EnvGen) (buzzPhase : F64) (m : Nat),
        shape = BitVec.ofInt 4 (x.int PatchId.buzzerShape) ∧ w.lastShape = some shape ∧
        written = (if v.lastShape = some shape then { before with period := w.buzzPeriod }
          else { before with
            period := w.buzzPeriod, shape := shape, counter := 0, segment := false
            level := if shape.toNat < 4 ∨ 8 ≤ shape.toNat ∧ shape.toNat < 12 then 31 else 0 }) ∧
        buzzPhase = (if x.flag PatchId.buzzerReset then x.real PatchId.buzzerPhase
          else (F64.ofNat (x.par.hash32 (v.serial + 0x165667B1)).toNat).div (F64.dec 4294967296)) ∧
        m = min (buzzPhase.mul (F64.dec 32)).floor.toNat 31 ∧
        after.env = (if v.first then { written with
            segment := false, counter := 0
            level := BitVec.ofNat 5 (if written.shape.toNat < 4 ∨ 8 ≤ written.shape.toNat ∧ written.shape.toNat < 12
              then 31 - m else m) }
          else written))

/-- The envelope: in [0, 15] whatever the patch, and never above the captured level while released; 15 or 0 in buzzer
mode (43_voice.md R219, R220, R221, R237). And the level that a tick leaves: held, the four ramps of R219 and then the
sustain level; released, the ramp of R220 from the captured level, and 0 from the release time on; in buzzer mode 15 or
0 (R221). -/
def Obligations.EnvelopeStaysInItsRange : Prop :=
  (∀ (x : TickEnv) (v : Voice), Patch.InRange x.patch → x.cfg.sr ≠ 0 → v.relLevel.Between 0 15 →
    ∀ buzz, (envelope x v (voiceTime x v) buzz).Between 0 15 ∧
      (buzz = true → envelope x v (voiceTime x v) buzz = if v.noteOn then F64.dec 15 else F64.zero) ∧
      (buzz = false → v.noteOn = false → (envelope x v (voiceTime x v) buzz).le v.relLevel = true)) ∧
  ∀ (x : TickEnv) (v w : Voice) (chip after : Chip), voiceTick x v chip = (w, after) →
    ∃ (t tr t1 t2 t3 t4 a i1 i2 dc h1 h2 h3 sustain rl : F64) (buzz : Bool),
      t = (F64.ofNat v.onSmp.toNat).div (F64.ofNat x.cfg.sr.toNat) ∧
      tr = (F64.ofNat v.envSmp.toNat).div (F64.ofNat x.cfg.sr.toNat) ∧
      buzz = (x.flag PatchId.buzzerEnabled &&
        !(F64.zero.le (x.real PatchId.buzzerTime) && (x.real PatchId.buzzerTime).le t)) ∧
      a = x.real PatchId.envAttackTime ∧ i1 = x.real PatchId.envInter1Time ∧ i2 = x.real PatchId.envInter2Time ∧
      dc = x.real PatchId.envDecayTime ∧ rl = x.real PatchId.envRelease ∧ h1 = x.real PatchId.envHold1Level ∧
      h2 = x.real PatchId.envHold2Level ∧ h3 = x.real PatchId.envHold3Level ∧
      sustain = x.real PatchId.envSustainLevel ∧
      t1 = a ∧ t2 = t1.add i1 ∧ t3 = t2.add i2 ∧ t4 = t3.add dc ∧
      w.envLevel = envelope x v (voiceTime x v) buzz ∧
      w.envLevel =
        (if buzz then (if v.noteOn then F64.dec 15 else F64.zero)
        else if v.noteOn then
          (if t.lt t1 then F64.lerpSeg F64.zero h1 t F64.zero a
          else if t.lt t2 then F64.lerpSeg h1 h2 t t1 i1
          else if t.lt t3 then F64.lerpSeg h2 h3 t t2 i2
          else if t.lt t4 then F64.lerpSeg h3 sustain t t3 dc
          else sustain)
        else if F64.zero.lt rl && tr.lt rl then F64.lerpSeg v.relLevel F64.zero tr F64.zero rl else F64.zero)

/-- The loop policies of the ring modulation: k steps at once are k single steps, 8 Forward steps come back to the
index, and 14 PingPong steps to the index and the direction, once the state is on the cycle (43_voice.md R225, R238).
And a tick's ring modulation: from the index and the phase of R202 on the first tick, the phase advances by the rate of
R223, its whole part, where that is at least 0 (log entry 19), is stepped and the rest, of a phase that is finite and at
least 0, lies in [0, 1) (R224), and a sync outside buzzer mode starts the table again (R222, R226). -/
def Obligations.RingModStepsCompose : Prop :=
  (∀ (loop : RmLoop) (s : Fin 8 × RmDir) (k : Nat), stepK loop s k = (fun s => stepK loop s 1)^[k] s) ∧
  (∀ s : Fin 8 × RmDir, stepK .forward s 8 = s) ∧
  (∀ s : Fin 8 × RmDir, s ≠ (7, .up) → s ≠ (0, .down) → stepK .pingPong s 14 = s) ∧
  (∀ (i : Fin 8) (d : RmDir) (k : Nat), ((stepK .off (i, d) k).1.val, (stepK .off (i, d) k).2) = (min (i.val + k) 7, d)) ∧
  (∀ (i : Fin 8) (d : RmDir), 0 < i.val → i.val < 7 → (stepK .pingPong (i, d) 1).1.val =
    (match d with | .up => i.val + 1 | .down => i.val - 1)) ∧
  ∀ (x : TickEnv) (v w : Voice) (chip after : Chip), voiceTick x v chip = (w, after) →
    ∃ (arp sp pitch start fvr rate seg adv ph : F64) (i0 : Fin 8) (d0 : RmDir) (ph0 : F64) (sync : Bool),
      arp = (if (playMode x.patch).isArp then
        (F64.ofNat w.arpSel.toNat).sub (F64.ofNat v.pitch.toNat) else F64.zero) ∧
      sp = (match w.seqIdx with
        | some k => x.real (PatchId.seqStepTonePitch k)
        | none => F64.zero) ∧
      pitch = finalPitch x v ((F64.ofNat v.onSmp.toNat).div (F64.ofNat x.cfg.sr.toNat)) arp sp ∧
      start = (if x.flag PatchId.ringmodReset then x.real PatchId.ringmodPhase
        else (F64.ofNat (x.par.hash32 (v.serial + 0x27D4EB2F)).toNat).div (F64.dec 4294967296)) ∧
      (v.first = true → i0.val = min (start.mul (F64.dec 8)).floor.toNat 7 ∧ d0 = .up ∧
        ph0 = (start.mul (F64.dec 8)).sub (F64.ofNat i0.val)) ∧
      (v.first = false → i0 = v.rmIdx ∧ d0 = v.rmDir ∧ ph0 = v.rmPhase) ∧
      fvr = x.real PatchId.ringmodFixedVsRelative ∧
      rate = x.lnf.mul (x.par.exp2 (((fvr.mul (x.real PatchId.ringmodFixedPitch)).add
        ((F64.one.sub fvr).mul (pitch.add (x.real PatchId.ringmodDetune)))).div (F64.dec 12))) ∧
      seg = ((F64.ofNat x.cfg.clock.toNat).div (F64.dec 8)).div (rate.mul (F64.dec 8)) ∧
      adv = ((F64.ofNat x.cfg.clock.toNat).div ((F64.dec 8).mul (F64.ofNat x.cfg.sr.toNat))).div seg ∧
      ph = ph0.add adv ∧
      sync = (x.flag PatchId.ringmodSync && (!v.lastBit && (chip.tones.get v.chan).bit) &&
        !(x.flag PatchId.buzzerEnabled &&
          !(F64.zero.le (x.real PatchId.buzzerTime) && (x.real PatchId.buzzerTime).le
            ((F64.ofNat v.onSmp.toNat).div (F64.ofNat x.cfg.sr.toNat))))) ∧
      (sync = true → w.rmIdx = 0 ∧ w.rmDir = .up ∧ w.rmPhase = F64.zero) ∧
      (sync = false → w.rmPhase = ph.sub (F64.ofInt ph.floor) ∧
        (0 ≤ ph.floor → (w.rmIdx, w.rmDir) = stepK (rmLoop x.patch) (i0, d0) ph.floor.toNat) ∧
        (ph.isFinite = true → F64.zero.le ph = true →
          F64.zero.le w.rmPhase = true ∧ w.rmPhase.lt F64.one = true))

/-- The sequencer index plays steps 0 to E - 1 once, then repeats L to E - 1, or has no step; the arpeggio position runs
through all held pitches and repeats from its repeat point; the random position is in range and differs from the
previous one when two pitches or more are held, and it is the remainder of the hash of the raw step that the rule draws
(43_voice.md R205, R207, R208; 00_scope.md R15). And a tick takes the index of the raw
step of R204, and in the arpeggio modes the held pitch at the position; in Random a new position when the raw step has
changed or the previous one is past the end (R208; the width of `arp_last_r` is log entry 27). -/
def Obligations.SequencerAndArpeggioPositions : Prop :=
  (∀ e l r : Nat, e ≤ 16 → (seqIndex e l r).map Fin.val =
    if r < e then some r else if l < e then some (l + (r - l) % (e - l)) else none) ∧
  (∀ n q r : Nat, 0 < n → arpPosition n q r < n ∧ (r < n → arpPosition n q r = r) ∧ arpPosition n 0 r = r % n ∧
    (min q (n - 1) ≤ r → arpPosition n q (r + (n - min q (n - 1))) = arpPosition n q r)) ∧
  (∀ (p : Params) (n r : Nat) (prev : Option Nat), 0 < n → arpDraw p n prev r < n ∧
    ∀ q, prev = some q → q < n → 1 < n → arpDraw p n prev r ≠ q) ∧
  (∀ (p : Params) (n r h : Nat), h = (p.hash32 (BitVec.ofNat 32 r + 0x9E3779B9)).toNat →
    (∀ prev, arpDraw p 1 prev r = 0) ∧
    (1 < n →
      arpDraw p n none r = h % n ∧
      (∀ q, n ≤ q → arpDraw p n (some q) r = h % n) ∧
      ∀ q, q < n → arpDraw p n (some q) r =
        if h % (n - 1) < q then h % (n - 1) else h % (n - 1) + 1)) ∧
  ∀ (x : TickEnv) (v w : Voice) (chip after : Chip), voiceTick x v chip = (w, after) →
    ∃ (f : F64) (r n : Nat),
      f = (if x.flag PatchId.seqHostSync then ((x.real PatchId.hostBpm).div (F64.dec 60)).mul (x.real PatchId.seqFreq)
        else x.real PatchId.seqFreq) ∧
      r = (((F64.ofNat v.onSmp.toNat).mul f).div (F64.ofNat x.cfg.sr.toNat)).floor.toNat ∧ n = x.eng.held.length ∧
      w.seqIdx = seqIndex (x.int PatchId.seqEnd).toNat (x.int PatchId.seqLoop).toNat r ∧
      ((playMode x.patch).isArp = false ∨ n = 0 → w.arpSel = v.arpSel) ∧
      (playMode x.patch ≠ .arpRandom ∨ n = 0 → w.arpPrev = v.arpPrev ∧ w.arpLastR = v.arpLastR) ∧
      (playMode x.patch = .arpUp → 0 < n →
        x.eng.held[arpPosition n (x.int PatchId.seqArpRepeat).toNat r]? = some w.arpSel) ∧
      (playMode x.patch = .arpDown → 0 < n →
        x.eng.held[n - 1 - arpPosition n (x.int PatchId.seqArpRepeat).toNat r]? = some w.arpSel) ∧
      (playMode x.patch = .arpRandom → 0 < n → ∃ a, w.arpPrev = some a ∧ a < n ∧ x.eng.held[a]? = some w.arpSel ∧
        ((v.arpLastR.map BitVec.toNat = some r ∧ ∃ q, v.arpPrev = some q ∧ q < n) →
          v.arpPrev = some a ∧ w.arpLastR = v.arpLastR) ∧
        (¬ (v.arpLastR.map BitVec.toNat = some r ∧ ∃ q, v.arpPrev = some q ∧ q < n) →
          a = arpDraw x.par n v.arpPrev r ∧ (r < 2 ^ 64 → w.arpLastR.map BitVec.toNat = some r)))

end
end

