-- ==== Sys2Proof/Laws/Real.lean ====
section
/-! SUPPORT. What the rounding of Machine/Real.lean does: the highest bit, the integer square root, and the values
that a format holds exactly, which rounding leaves as they are. -/

namespace Sys2Proof

/-! The highest bit. -/

theorem log2Upto_eq {k n : Nat} (h : n < 2 ^ 2 ^ k) : log2Upto k n = n.log2 := by
  induction k generalizing n with
  | zero =>
    have : n = 0 ∨ n = 1 := by omega
    rcases this with rfl | rfl <;> rfl
  | succ k ih =>
    have hpow : 2 ^ 2 ^ (k + 1) = 2 ^ 2 ^ k * 2 ^ 2 ^ k := by rw [← pow_add]; congr 1; omega
    simp only [log2Upto]
    split <;> rename_i h0 <;> simp only [pow2_eq] at h0 ⊢
    · exact ih (by rcases Nat.div_eq_zero_iff.mp h0 with h | h <;> [simp at h; exact h])
    · have h0 : n / 2 ^ 2 ^ k ≠ 0 := h0
      have hlt : n / 2 ^ 2 ^ k < 2 ^ 2 ^ k := Nat.div_lt_of_lt_mul (hpow ▸ h)
      have hn : n ≠ 0 := fun hn => h0 (by simp [hn])
      rw [ih hlt, eq_comm, Nat.log2_eq_iff hn]
      obtain ⟨hlo, hhi⟩ := (Nat.log2_eq_iff h0).mp rfl
      constructor
      · rw [pow_add, Nat.mul_comm]
        exact Nat.mul_le_of_le_div _ _ _ hlo
      · rw [Nat.add_assoc, pow_add, Nat.mul_comm]
        exact (Nat.div_lt_iff_lt_mul (by positivity)).mp hhi

theorem topBitFrom_eq (k n : Nat) : topBitFrom k n = n.log2 := by
  induction k generalizing n with
  | zero => rfl
  | succ k ih =>
    simp only [topBitFrom]
    split <;> rename_i h <;> simp only [pow2_eq] at h ⊢
    · exact log2Upto_eq h
    · have h0 : n / 2 ^ 256 ≠ 0 := by
        intro h0
        rcases Nat.div_eq_zero_iff.mp h0 with h' | h'
        · norm_num at h'
        · exact h h'
      have hn : n ≠ 0 := fun hn => h0 (by simp [hn])
      rw [ih, eq_comm, Nat.log2_eq_iff hn]
      obtain ⟨hlo, hhi⟩ := (Nat.log2_eq_iff h0).mp rfl
      constructor
      · rw [pow_add, Nat.mul_comm]
        exact Nat.mul_le_of_le_div _ _ _ hlo
      · rw [Nat.add_assoc, pow_add, Nat.mul_comm]
        exact (Nat.div_lt_iff_lt_mul (by positivity)).mp hhi

/-- `topBit` is the binary logarithm. -/
theorem topBit_eq (n : Nat) : topBit n = n.log2 := topBitFrom_eq 16 n

/-! The integer square root. -/

/-- What is left to find is below 2^k. -/
theorem isqrtFrom_spec (n k acc : Nat) (hlo : acc * acc ≤ n) (hhi : n < (acc + 2 ^ k) * (acc + 2 ^ k)) :
    isqrtFrom n k acc * isqrtFrom n k acc ≤ n ∧ n < (isqrtFrom n k acc + 1) * (isqrtFrom n k acc + 1) := by
  induction k generalizing acc with
  | zero => exact ⟨hlo, by simpa [isqrtFrom] using hhi⟩
  | succ k ih =>
    simp only [isqrtFrom]
    split <;> rename_i h <;> simp only [pow2_eq] at h ⊢
    · refine ih _ h (lt_of_lt_of_eq hhi ?_)
      ring
    · exact ih _ hlo (by omega)

/-- `isqrt` is the integer square root. -/
theorem isqrt_eq (n : Nat) : isqrt n = n.sqrt := by
  have h : isqrt n * isqrt n ≤ n ∧ n < (isqrt n + 1) * (isqrt n + 1) := by
    refine isqrtFrom_spec n _ 0 (by omega) ?_
    rw [topBit_eq, Nat.zero_add, ← pow_add]
    exact lt_of_lt_of_le Nat.lt_log2_self (Nat.pow_le_pow_right (by omega) (by omega))
  rw [eq_comm]
  exact Nat.eq_sqrt.mpr h |>.symm

/-! Powers of two with integer exponents. -/

theorem zpow_toNat (q : Int) : (2 : ℚ) ^ q * 2 ^ (-q).toNat = 2 ^ q.toNat := by
  rcases le_total 0 q with h | h
  · obtain ⟨n, rfl⟩ := Int.eq_ofNat_of_zero_le h
    simp
  · obtain ⟨n, hn⟩ := Int.eq_ofNat_of_zero_le (Int.neg_nonneg_of_nonpos h)
    obtain rfl : q = -(n : Int) := by omega
    simp

/-- The comparison by which `fpRound` corrects its first exponent. -/
theorem lt_zpow_iff {num den : Nat} (hd : 0 < den) (e : Int) :
    num * pow2 (-e).toNat < den * pow2 e.toNat ↔ (num : ℚ) / den < 2 ^ e := by
  have h2 : (0 : ℚ) < 2 ^ (-e).toNat := by positivity
  rw [div_lt_iff₀ (by exact_mod_cast hd), ← mul_lt_mul_iff_left₀ h2]
  rw [show (2 : ℚ) ^ e * den * 2 ^ (-e).toNat = den * 2 ^ e.toNat by rw [← zpow_toNat e]; ring]
  simp only [pow2_eq]
  exact_mod_cast Iff.rfl

/-- Only one exponent brackets a number between two neighbouring powers of two. -/
theorem exponent_unique {x : ℚ} {e f : Int} (he : (2 : ℚ) ^ e ≤ x) (he' : x < 2 ^ (e + 1)) (hf : (2 : ℚ) ^ f ≤ x)
    (hf' : x < 2 ^ (f + 1)) : e = f := by
  have h1 := (zpow_lt_zpow_iff_right₀ (by norm_num : (1 : ℚ) < 2)).mp (he.trans_lt hf')
  have h2 := (zpow_lt_zpow_iff_right₀ (by norm_num : (1 : ℚ) < 2)).mp (hf.trans_lt he')
  omega

theorem zpow_log2_le {n : Nat} (hn : n ≠ 0) : (2 : ℚ) ^ (n.log2 : Int) ≤ n := by
  rw [zpow_natCast]
  exact_mod_cast Nat.log2_self_le hn

theorem lt_zpow_log2 (n : Nat) : (n : ℚ) < 2 ^ ((n.log2 : Int) + 1) := by
  have h : n < 2 ^ (n.log2 + 1) := Nat.lt_log2_self
  rw [show ((n.log2 : Int) + 1) = ((n.log2 + 1 : Nat) : Int) by push_cast; ring, zpow_natCast]
  exact_mod_cast h

/-- The exponent that `fpRound` finds. -/
def fpExponent (num den : Nat) : Int :=
  let e0 : Int := (topBit num : Int) - (topBit den : Int)
  if num * pow2 (-e0).toNat < den * pow2 e0.toNat then e0 - 1 else e0

theorem fpExponent_spec {num den : Nat} (hn : num ≠ 0) (hd : den ≠ 0) :
    (2 : ℚ) ^ fpExponent num den ≤ (num : ℚ) / den ∧ (num : ℚ) / den < 2 ^ (fpExponent num den + 1) := by
  have hd0 : (0 : ℚ) < den := by exact_mod_cast Nat.pos_of_ne_zero hd
  have two : (2 : ℚ) ≠ 0 := by norm_num
  have hnl := zpow_log2_le hn
  have hnu := lt_zpow_log2 num
  have hdl := zpow_log2_le hd
  have hdu := lt_zpow_log2 den
  simp only [fpExponent, topBit_eq]
  split <;> rename_i h <;> rw [lt_zpow_iff (Nat.pos_of_ne_zero hd)] at h
  · refine ⟨?_, by simpa using h⟩
    rw [le_div_iff₀ hd0]
    calc (2 : ℚ) ^ ((num.log2 : Int) - den.log2 - 1) * den
        ≤ 2 ^ ((num.log2 : Int) - den.log2 - 1) * 2 ^ ((den.log2 : Int) + 1) := by gcongr
      _ = 2 ^ (num.log2 : Int) := by rw [← zpow_add₀ two]; congr 1; ring
      _ ≤ num := hnl
  · refine ⟨not_lt.mp h, ?_⟩
    rw [div_lt_iff₀ hd0]
    calc (num : ℚ) < 2 ^ ((num.log2 : Int) + 1) := hnu
      _ = 2 ^ ((num.log2 : Int) - den.log2 + 1) * 2 ^ (den.log2 : Int) := by
        rw [← zpow_add₀ two]; congr 1; ring
      _ ≤ 2 ^ ((num.log2 : Int) - den.log2 + 1) * den := by gcongr

/-! Rounding what needs no rounding. -/

theorem roundDivEven_exact (n : Nat) {d : Nat} (hd : 0 < d) : roundDivEven (n * d) d = n := by
  simp [roundDivEven, Nat.mul_div_cancel n hd, hd]

/-- The canonical form of a number in a format: significand `n` and exponent `q`. -/
structure FpCanon (mb eb : Nat) (n : Nat) (q : Int) : Prop where
  low : fpMinExp mb eb ≤ q
  small : n < 2 ^ (mb + 1)
  lead : 2 ^ mb ≤ n ∨ q = fpMinExp mb eb
  bound : n + (q - fpMinExp mb eb).toNat * 2 ^ mb < (2 ^ eb - 1) * 2 ^ mb

/-- A number that the format holds is rounded to itself: its bits are those of its canonical form. -/
theorem fpRound_exact {mb eb num den n : Nat} {q : Int} (hd : den ≠ 0) (hc : FpCanon mb eb n q)
    (hx : (num : ℚ) / den = n * 2 ^ q) :
    fpRound mb eb num den = n + (q - fpMinExp mb eb).toNat * 2 ^ mb := by
  have hd0 : (den : ℚ) ≠ 0 := by exact_mod_cast hd
  by_cases hn : n = 0
  · subst hn
    have h0 : num = 0 := by
      have : (num : ℚ) = 0 := by simpa [hd0] using hx
      exact_mod_cast this
    have hq : q = fpMinExp mb eb := by
      rcases hc.lead with h | h
      · exact absurd h (by have := Nat.two_pow_pos mb; omega)
      · exact h
    simp [fpRound, h0, hq]
  · have hnum : num ≠ 0 := by
      rintro rfl
      have : (n : ℚ) * 2 ^ q = 0 := by simpa using hx.symm
      have h2 : (2 : ℚ) ^ q ≠ 0 := by positivity
      exact hn (by exact_mod_cast (mul_eq_zero.mp this).resolve_right h2)
    have two : (2 : ℚ) ≠ 0 := by norm_num
    obtain ⟨hlo, hhi⟩ := fpExponent_spec hnum hd
    have he : fpExponent num den = n.log2 + q := by
      refine exponent_unique hlo hhi ?_ ?_ <;> rw [hx]
      · rw [zpow_add₀ two]
        gcongr
        exact zpow_log2_le hn
      · rw [show (n.log2 : Int) + q + 1 = (n.log2 + 1) + q by ring, zpow_add₀ two]
        gcongr
        exact lt_zpow_log2 n
    have hq : max (fpExponent num den - mb) (fpMinExp mb eb) = q := by
      rw [he]
      have hlow := hc.low
      rcases hc.lead with h | h
      · have : n.log2 = mb := (Nat.log2_eq_iff hn).mpr ⟨h, hc.small⟩
        omega
      · have : n.log2 ≤ mb := Nat.lt_succ_iff.mp ((Nat.log2_lt hn).mpr hc.small)
        omega
    have hdiv : num * pow2 (-q).toNat = n * (den * pow2 q.toNat) := by
      have : (num : ℚ) * 2 ^ (-q).toNat = n * (den * 2 ^ q.toNat) := by
        rw [div_eq_iff hd0] at hx
        rw [hx, ← zpow_toNat q]
        ring
      simp only [pow2_eq]
      exact_mod_cast this
    unfold fpRound
    rw [if_neg hnum]
    show min (roundDivEven (num * pow2 (-max (fpExponent num den - mb) (fpMinExp mb eb)).toNat)
      (den * pow2 (max (fpExponent num den - mb) (fpMinExp mb eb)).toNat) +
      (max (fpExponent num den - mb) (fpMinExp mb eb) - fpMinExp mb eb).toNat * pow2 mb)
      ((pow2 eb - 1) * pow2 mb) = _
    rw [hq, hdiv, roundDivEven_exact _ (by have := Nat.pos_of_ne_zero hd; simp only [pow2_eq]; positivity)]
    exact min_eq_left hc.bound.le

/-- Every number that fits the significand and the exponent range has a canonical form. -/
theorem exists_canon (mb eb : Nat) {m : Nat} {e : Int} (hm : m < 2 ^ (mb + 1)) (he : fpMinExp mb eb ≤ e)
    (hb : (e - fpMinExp mb eb).toNat + 2 < 2 ^ eb - 1) :
    ∃ n q, FpCanon mb eb n q ∧ (n : ℚ) * 2 ^ q = m * 2 ^ e := by
  generalize hk : (e - fpMinExp mb eb).toNat = k at hb
  induction k generalizing m e with
  | zero =>
    have : e = fpMinExp mb eb := by omega
    refine ⟨m, e, ⟨he, hm, .inr this, ?_⟩, rfl⟩
    rw [hk, Nat.zero_mul, Nat.add_zero]
    exact lt_of_lt_of_le hm (by rw [pow_succ, Nat.mul_comm]; exact Nat.mul_le_mul_right _ (by omega))
  | succ k ih =>
    by_cases hlead : 2 ^ mb ≤ m
    · refine ⟨m, e, ⟨he, hm, .inl hlead, ?_⟩, rfl⟩
      rw [hk]
      calc m + (k + 1) * 2 ^ mb < 2 * 2 ^ mb + (k + 1) * 2 ^ mb := by rw [pow_succ] at hm; omega
        _ = (k + 3) * 2 ^ mb := by ring
        _ ≤ (2 ^ eb - 1) * 2 ^ mb := Nat.mul_le_mul_right _ (by omega)
    · obtain ⟨n, q, hc, h⟩ := ih (m := 2 * m) (e := e - 1) (by rw [pow_succ]; omega) (by omega) (by omega) (by omega)
      refine ⟨n, q, hc, h.trans ?_⟩
      have : (2 : ℚ) ^ e = 2 ^ (e - 1) * 2 := by
        rw [← zpow_add_one₀ (by norm_num), sub_add_cancel]
      rw [this]
      push_cast
      ring


/-- A canonical form is the only one of its number. -/
theorem FpCanon.unique {mb eb n n' : Nat} {q q' : Int} (hc : FpCanon mb eb n q) (hc' : FpCanon mb eb n' q')
    (h : (n : ℚ) * 2 ^ q = n' * 2 ^ q') : n + (q - fpMinExp mb eb).toNat * 2 ^ mb =
      n' + (q' - fpMinExp mb eb).toNat * 2 ^ mb := by
  have hd : (pow2 (-q).toNat) ≠ 0 := by simp
  have hx : ((n * pow2 q.toNat : Nat) : ℚ) / pow2 (-q).toNat = n * 2 ^ q := by
    rw [div_eq_iff (by exact_mod_cast hd)]
    push_cast [pow2_eq]
    rw [← zpow_toNat q]
    ring
  rw [← fpRound_exact hd hc hx, fpRound_exact hd hc' (hx.trans h)]

/-! Patterns and their values. -/

theorem fpValue_canon {mb eb bits : Nat} (h : bits / 2 ^ mb % 2 ^ eb ≠ 2 ^ eb - 1) :
    ∃ n q, fpValue mb eb bits = .fin (bits.testBit (mb + eb)) n q ∧ FpCanon mb eb n q ∧
      n + (q - fpMinExp mb eb).toNat * 2 ^ mb = bits % 2 ^ (mb + eb) := by
  have hmod : bits % 2 ^ (mb + eb) = bits % 2 ^ mb + 2 ^ mb * (bits / 2 ^ mb % 2 ^ eb) := by
    rw [pow_add, Nat.mod_mul]
  have hf : bits % 2 ^ mb < 2 ^ mb := Nat.mod_lt _ (by positivity)
  have hefl : bits / 2 ^ mb % 2 ^ eb < 2 ^ eb := Nat.mod_lt _ (by positivity)
  generalize hef : bits / 2 ^ mb % 2 ^ eb = ef at *
  generalize hfr : bits % 2 ^ mb = fr at *
  have hp : (2 : Nat) ^ (mb + 1) = 2 * 2 ^ mb := by rw [pow_succ, Nat.mul_comm]
  unfold fpValue
  simp only [pow2_eq, hef, hfr, if_neg h]
  by_cases h0 : ef = 0
  · subst h0
    refine ⟨fr, fpMinExp mb eb, by simp, ⟨le_refl _, by omega, .inr rfl, ?_⟩, by simp [hmod]⟩
    simp only [sub_self, Int.toNat_zero, Nat.zero_mul, Nat.add_zero]
    exact lt_of_lt_of_le hf (Nat.le_mul_of_pos_left _ (by omega))
  · have hk : ((ef : Int) - 1 + fpMinExp mb eb - fpMinExp mb eb).toNat = ef - 1 := by omega
    have hsum : 2 ^ mb + fr + (ef - 1) * 2 ^ mb = fr + 2 ^ mb * ef := by
      obtain ⟨k, rfl⟩ := Nat.exists_eq_succ_of_ne_zero h0
      simp
      ring
    refine ⟨2 ^ mb + fr, ef - 1 + fpMinExp mb eb, by rw [if_neg h0], ⟨by omega, by omega, .inl (by omega), ?_⟩, ?_⟩
    · rw [hk, hsum]
      calc fr + 2 ^ mb * ef < 2 ^ mb * 1 + 2 ^ mb * ef := by omega
        _ = (1 + ef) * 2 ^ mb := by ring
        _ ≤ (2 ^ eb - 1) * 2 ^ mb := Nat.mul_le_mul_right _ (by omega)
    · rw [hk, hsum, hmod]

theorem fpValue_of_canon {mb eb n : Nat} {q : Int} (hc : FpCanon mb eb n q) (neg : Bool) :
    fpValue mb eb (n + (q - fpMinExp mb eb).toNat * 2 ^ mb + if neg then 2 ^ (mb + eb) else 0) = .fin neg n q := by
  have hb := hc.bound
  have hlt : n + (q - fpMinExp mb eb).toNat * 2 ^ mb < 2 ^ (mb + eb) := by
    refine hb.trans_le ?_
    rw [pow_add, Nat.mul_comm]
    exact Nat.mul_le_mul_left _ (Nat.sub_le _ _)
  generalize hbits : n + (q - fpMinExp mb eb).toNat * 2 ^ mb = b at *
  have hsign : (b + if neg then 2 ^ (mb + eb) else 0).testBit (mb + eb) = neg := by
    cases neg
    · simpa using Nat.testBit_lt_two_pow hlt
    · simp [Nat.testBit_two_pow_add_eq, Nat.add_comm b, Nat.testBit_lt_two_pow hlt]
  have hmodb : (b + if neg then 2 ^ (mb + eb) else 0) % 2 ^ (mb + eb) = b := by
    cases neg <;> simp [Nat.mod_eq_of_lt hlt]
  have hef : (b + if neg then 2 ^ (mb + eb) else 0) / 2 ^ mb % 2 ^ eb = b / 2 ^ mb := by
    rw [← Nat.mod_mul_right_div_self, ← pow_add, hmodb]
  have hne : (b + if neg then 2 ^ (mb + eb) else 0) / 2 ^ mb % 2 ^ eb ≠ 2 ^ eb - 1 := by
    rw [hef]
    exact (Nat.div_lt_of_lt_mul (by rw [Nat.mul_comm]; exact hb)).ne
  obtain ⟨n', q', hv, hc', hs⟩ := fpValue_canon hne
  rw [hv, hsign]
  rw [hmodb] at hs
  -- the two canonical forms have the same bits
  have hp : 0 < 2 ^ mb := by positivity
  have hlow := hc.low
  have hlow' := hc'.low
  have hsm := hc.small
  have hsm' := hc'.small
  rw [pow_succ] at hsm hsm'
  have key : (q - fpMinExp mb eb).toNat = (q' - fpMinExp mb eb).toNat := by
    generalize hk : (q - fpMinExp mb eb).toNat = k at *
    generalize hk' : (q' - fpMinExp mb eb).toNat = k' at *
    rcases Nat.lt_trichotomy k k' with hlt' | heq | hgt
    · have hl : 2 ^ mb ≤ n' := hc'.lead.resolve_right (by omega)
      have : k' * 2 ^ mb ≥ (k + 1) * 2 ^ mb := Nat.mul_le_mul_right _ hlt'
      rw [Nat.add_mul] at this
      omega
    · exact heq
    · have hl : 2 ^ mb ≤ n := hc.lead.resolve_right (by omega)
      have : k * 2 ^ mb ≥ (k' + 1) * 2 ^ mb := Nat.mul_le_mul_right _ hgt
      rw [Nat.add_mul] at this
      omega
  rw [key] at hbits
  have hqq : q = q' := by omega
  have hnn : n = n' := by omega
  rw [hqq, hnn]

/-- The order of two magnitudes is the order of their bits. -/
theorem FpCanon.lt_iff {mb eb n n' : Nat} {q q' : Int} (hc : FpCanon mb eb n q) (hc' : FpCanon mb eb n' q') :
    (n : ℚ) * 2 ^ q < n' * 2 ^ q' ↔ n + (q - fpMinExp mb eb).toNat * 2 ^ mb <
      n' + (q' - fpMinExp mb eb).toNat * 2 ^ mb := by
  have strict : ∀ {n n' : Nat} {q q' : Int}, FpCanon mb eb n q → FpCanon mb eb n' q' →
      n + (q - fpMinExp mb eb).toNat * 2 ^ mb < n' + (q' - fpMinExp mb eb).toNat * 2 ^ mb →
      (n : ℚ) * 2 ^ q < n' * 2 ^ q' := by
    intro n n' q q' hc hc' h
    have hlow := hc.low
    have hlow' := hc'.low
    have hsm := hc.small
    have hsm' := hc'.small
    rcases lt_trichotomy q q' with hlt | rfl | hgt
    · have hl : 2 ^ mb ≤ n' := hc'.lead.resolve_right (by omega)
      calc (n : ℚ) * 2 ^ q < 2 ^ (mb + 1) * 2 ^ q := by gcongr; exact_mod_cast hsm
        _ = 2 ^ mb * 2 ^ (q + 1) := by rw [zpow_add₀ (by norm_num), zpow_one, pow_succ]; ring
        _ ≤ n' * 2 ^ q' := by
          gcongr
          · exact_mod_cast hl
          · norm_num
          · omega
    · gcongr
      omega
    · have hl : 2 ^ mb ≤ n := hc.lead.resolve_right (by omega)
      have : (q - fpMinExp mb eb).toNat * 2 ^ mb ≥ ((q' - fpMinExp mb eb).toNat + 1) * 2 ^ mb :=
        Nat.mul_le_mul_right _ (by omega)
      rw [Nat.add_mul] at this
      rw [pow_succ] at hsm'
      omega
  refine ⟨fun h => ?_, strict hc hc'⟩
  by_contra hle
  rcases Nat.lt_or_eq_of_le (not_lt.mp hle) with h' | h'
  · exact absurd (strict hc' hc h') (not_lt.mpr h.le)
  · have h1 := fpValue_of_canon hc false
    have h2 := fpValue_of_canon hc' false
    rw [← h', h2] at h1
    injection h1 with _ hn hq
    rw [hn, hq] at h
    exact lt_irrefl _ h

/-! The values of binary64 and binary32. -/

/-- The number a finite pattern denotes. -/
def FpValue.toRat : FpValue → ℚ
  | .nan => 0
  | .inf _ => 0
  | .fin neg m e => (if neg then -1 else 1) * (m * 2 ^ e)

/-- The number a finite real denotes. -/
def F64.toRat (x : F64) : ℚ := x.value.toRat

theorem F64.bits_eq (x : F64) : x.bits.toNat = x.bits.toNat % 2 ^ 63 + if x.sign then 2 ^ 63 else 0 := by
  have h := x.bits.isLt
  unfold F64.sign
  rw [BitVec.msb_eq_decide]
  by_cases hs : 2 ^ 63 ≤ x.bits.toNat
  · simp only [hs, Nat.add_one_sub_one, decide_true, if_true]
    omega
  · simp only [hs, Nat.add_one_sub_one, decide_false]
    simp
    omega

/-- A finite real in its canonical form. -/
theorem F64.canon {x : F64} (h : x.isFinite = true) :
    ∃ n q, x.value = .fin x.sign n q ∧ FpCanon 52 11 n q ∧
      n + (q - fpMinExp 52 11).toNat * 2 ^ 52 = x.bits.toNat % 2 ^ 63 := by
  have hlt : x.bits.toNat % 2 ^ 63 < 0x7FF0000000000000 := by simpa [F64.isFinite] using h
  have hne : x.bits.toNat / 2 ^ 52 % 2 ^ 11 ≠ 2 ^ 11 - 1 := by omega
  obtain ⟨n, q, hv, hc, hb⟩ := fpValue_canon hne
  refine ⟨n, q, ?_, hc, hb⟩
  unfold F64.value
  rw [hv]
  congr 1

/-- The real with a sign and the canonical form of a magnitude. -/
theorem F64.value_ofMag {n : Nat} {q : Int} (hc : FpCanon 52 11 n q) (neg : Bool) :
    (F64.ofMag neg (n + (q - fpMinExp 52 11).toNat * 2 ^ 52)).value = .fin neg n q ∧
      (F64.ofMag neg (n + (q - fpMinExp 52 11).toNat * 2 ^ 52)).isFinite = true := by
  have hb := hc.bound
  have hv := fpValue_of_canon hc neg
  generalize n + (q - fpMinExp 52 11).toNat * 2 ^ 52 = b at *
  have hb : b < 0x7FF0000000000000 := hb
  have hs : b + (if neg then 2 ^ 63 else 0) < 2 ^ 64 := by split <;> omega
  unfold F64.ofMag F64.value F64.isFinite
  simp only [pow2_eq, BitVec.toNat_ofNat]
  rw [Nat.mod_eq_of_lt hs]
  refine ⟨hv, ?_⟩
  rw [decide_eq_true_eq]
  cases neg <;> simp <;> omega

/-- A number that binary64 holds is made without rounding. -/
theorem F64.ofRatio_exact {num den n : Nat} {q : Int} (hd : den ≠ 0) (hc : FpCanon 52 11 n q)
    (hx : (num : ℚ) / den = n * 2 ^ q) (neg : Bool) :
    F64.ofRatio neg num den = F64.ofMag neg (n + (q - fpMinExp 52 11).toNat * 2 ^ 52) := by
  unfold F64.ofRatio
  rw [fpRound_exact hd hc hx]

theorem F64.ofDyadic_exact {m n : Nat} {e q : Int} (hc : FpCanon 52 11 n q) (hx : (m : ℚ) * 2 ^ e = n * 2 ^ q)
    (neg : Bool) : F64.ofDyadic neg m e = F64.ofMag neg (n + (q - fpMinExp 52 11).toNat * 2 ^ 52) := by
  refine F64.ofRatio_exact (by simp) hc ?_ neg
  rw [← hx, div_eq_iff (by simp)]
  push_cast [pow2_eq]
  rw [← zpow_toNat e]
  ring

/-- A binary32 pattern whose exponent field is not all ones is finite, and is widened exactly. -/
theorem F64.ofF32_finite {w : F32} (h : w.extractLsb' 23 8 ≠ 0xFF#8) :
    ∃ m e n q, fpValue 23 8 w.toNat = .fin w.msb m e ∧ FpCanon 23 8 m e ∧
      m + (e - fpMinExp 23 8).toNat * 2 ^ 23 = w.toNat % 2 ^ 31 ∧
      (F64.ofF32 w).value = .fin w.msb n q ∧ (F64.ofF32 w).isFinite = true ∧ FpCanon 52 11 n q ∧
      (n : ℚ) * 2 ^ q = m * 2 ^ e := by
  have hne : w.toNat / 2 ^ 23 % 2 ^ 8 ≠ 2 ^ 8 - 1 := by
    intro h'
    apply h
    apply BitVec.eq_of_toNat_eq
    rw [BitVec.extractLsb'_toNat, Nat.shiftRight_eq_div_pow]
    exact h'
  obtain ⟨m, e, hv, hc, hb⟩ := fpValue_canon hne
  have hs : w.toNat.testBit (23 + 8) = w.msb := by
    rw [BitVec.msb_eq_getLsbD_last]
    rfl
  rw [hs] at hv
  have hlow := hc.low
  have hbound := hc.bound
  have hk : (e - fpMinExp 23 8).toNat < 255 := by
    by_contra hk
    have := Nat.mul_le_mul_right (2 ^ 23) (not_lt.mp hk)
    omega
  have e32 : fpMinExp 23 8 = -149 := by decide
  have e64 : fpMinExp 52 11 = -1074 := by decide
  rw [e32] at hlow hk
  obtain ⟨n, q, hc', hx⟩ := exists_canon 52 11 (m := m) (e := e)
    (hc.small.trans (Nat.pow_lt_pow_right (by omega) (by omega))) (by omega) (by rw [e64]; omega)
  obtain ⟨h1, h2⟩ := F64.value_ofMag hc' w.msb
  have hof : F64.ofF32 w = F64.ofMag w.msb (n + (q - fpMinExp 52 11).toNat * 2 ^ 52) := by
    unfold F64.ofF32
    rw [hv]
    exact F64.ofDyadic_exact hc' hx.symm w.msb
  rw [← hof] at h1 h2
  exact ⟨m, e, n, q, hv, hc, hb, h1, h2, hc', hx⟩

theorem fpValue_special {mb eb bits : Nat} (h : bits / 2 ^ mb % 2 ^ eb = 2 ^ eb - 1) :
    fpValue mb eb bits = .nan ∨ ∃ s, fpValue mb eb bits = .inf s := by
  have hv : fpValue mb eb bits =
      if bits % 2 ^ mb = 0 then .inf (bits.testBit (mb + eb)) else .nan := if_pos h
  rw [hv]
  split
  · exact .inr ⟨_, rfl⟩
  · exact .inl rfl

theorem F64.isFinite_nan (a b : F64) : (F64.nan a b).isFinite = false := by
  rw [F64.isFinite, decide_eq_false_iff_not, not_lt]
  show _ ≤ (_ ||| _ : BitVec 64).toNat % 2 ^ 63
  rw [BitVec.toNat_or, Nat.or_mod_two_pow]
  exact le_trans (by decide) Nat.right_le_or

theorem F64.isFinite_inf (s : Bool) : (F64.inf s).isFinite = false := by
  cases s <;> decide

/-- A pattern whose exponent field is all ones is a NaN or an infinity. -/
theorem F64.ofF32_not_finite {w : F32} (h : w.extractLsb' 23 8 = 0xFF#8) : (F64.ofF32 w).isFinite = false := by
  have he : w.toNat / 2 ^ 23 % 2 ^ 8 = 2 ^ 8 - 1 := by
    have := congrArg BitVec.toNat h
    rw [BitVec.extractLsb'_toNat, Nat.shiftRight_eq_div_pow] at this
    exact this
  unfold F64.ofF32
  rcases fpValue_special he with hv | ⟨s, hv⟩ <;> rw [hv]
  · exact F64.isFinite_nan _ _
  · exact F64.isFinite_inf s

/-- A real payload is refused exactly when its exponent field is all ones. -/
theorem F64.isFinite_ofF32 (w : F32) : (F64.ofF32 w).isFinite = decide (w.extractLsb' 23 8 ≠ 0xFF#8) := by
  by_cases h : w.extractLsb' 23 8 = 0xFF#8
  · rw [F64.ofF32_not_finite h]
    simp [h]
  · obtain ⟨m, e, n, q, _, _, _, _, hf, _⟩ := F64.ofF32_finite h
    simp [hf, h]

/-- A real that is a finite binary32 value, rounded to binary32, is that value. -/
theorem F64.toF32_ofF32 {w : F32} (h : w.extractLsb' 23 8 ≠ 0xFF#8) : (F64.ofF32 w).toF32 = w := by
  obtain ⟨m, e, n, q, _, hc, hb, hv, _, _, hx⟩ := F64.ofF32_finite h
  unfold F64.toF32
  rw [hv]
  have hr : fpRound 23 8 (n * pow2 q.toNat) (pow2 (-q).toNat) = w.toNat % 2 ^ 31 := by
    rw [fpRound_exact (by simp) hc, hb]
    rw [← hx, div_eq_iff (by simp)]
    push_cast [pow2_eq]
    rw [← zpow_toNat q]
    ring
  show BitVec.ofNat 32 (fpRound 23 8 (n * pow2 q.toNat) (pow2 (-q).toNat) + if w.msb then 2 ^ 31 else 0) = w
  rw [hr]
  apply BitVec.eq_of_toNat_eq
  have hw := w.isLt
  rw [BitVec.toNat_ofNat, BitVec.msb_eq_decide]
  by_cases hs : 2 ^ (32 - 1) ≤ w.toNat <;> simp only [hs, decide_true, decide_false, if_true] <;> simp at hs ⊢ <;> omega

/-! Comparisons. -/

namespace F64

theorem isNaN_of_isFinite {x : F64} (h : x.isFinite = true) : x.isNaN = false := by
  rw [isFinite, decide_eq_true_eq] at h
  rw [isNaN, decide_eq_false_iff_not]
  omega

theorem le_eq_not_lt {a b : F64} (ha : a.isFinite = true) (hb : b.isFinite = true) : a.le b = !b.lt a := by
  simp only [le, lt, isNaN_of_isFinite ha, isNaN_of_isFinite hb, Bool.not_false, Bool.true_and]
  rw [← decide_not]
  congr 1
  simp

/-- What `clamp` answers (00_scope.md R12). -/
theorem clamp_eq {x lo hi : F64} (h : hi.lt lo = false) :
    x.clamp lo hi = if x.lt lo then lo else if hi.lt x then hi else x := by
  unfold clamp max min
  split <;> simp [h]

/-- On finite reals the order is that of the numbers they denote. -/
theorem lt_iff {a b : F64} (ha : a.isFinite = true) (hb : b.isFinite = true) :
    a.lt b = true ↔ a.toRat < b.toRat := by
  obtain ⟨n, q, hva, hca, hma⟩ := canon ha
  obtain ⟨n', q', hvb, hcb, hmb⟩ := canon hb
  have hz : FpCanon 52 11 0 (fpMinExp 52 11) :=
    ⟨le_refl _, by positivity, .inr rfl, by decide⟩
  have h1 := hca.lt_iff hcb
  have h2 := hcb.lt_iff hca
  have h3 := hz.lt_iff hca
  have h4 := hz.lt_iff hcb
  rw [hma, hmb] at h1 h2
  rw [hma] at h3
  rw [hmb] at h4
  simp only [Nat.cast_zero, zero_mul, sub_self, Int.toNat_zero, Nat.add_zero] at h3 h4
  have p1 : (0 : ℚ) ≤ n * 2 ^ q := by positivity
  have p2 : (0 : ℚ) ≤ n' * 2 ^ q' := by positivity
  simp only [lt, isNaN_of_isFinite ha, isNaN_of_isFinite hb, Bool.not_false, Bool.true_and, decide_eq_true_eq]
  simp only [toRat, hva, hvb, FpValue.toRat, key]
  generalize (n : ℚ) * 2 ^ q = x at *
  generalize (n' : ℚ) * 2 ^ q' = y at *
  generalize a.bits.toNat % pow2 63 = k at *
  generalize b.bits.toNat % pow2 63 = l at *
  cases a.sign <;> cases b.sign <;> simp only [Bool.false_eq_true, if_false, if_true, one_mul, neg_mul]
  · rw [h1, Nat.cast_lt]
  · constructor <;> intro h
    · omega
    · linarith
  · constructor <;> intro h
    · have : 0 < k ∨ 0 < l := by omega
      rcases this with h' | h'
      · linarith [h3.mpr h']
      · linarith [h4.mpr h']
    · have : 0 < x ∨ 0 < y := by
        by_contra hn
        rw [not_or] at hn
        linarith
      rcases this with h' | h'
      · have := h3.mp h'
        omega
      · have := h4.mp h'
        omega
  · rw [neg_lt_neg_iff, neg_lt_neg_iff, h2, Nat.cast_lt]

theorem le_iff {a b : F64} (ha : a.isFinite = true) (hb : b.isFinite = true) :
    a.le b = true ↔ a.toRat ≤ b.toRat := by
  rw [le_eq_not_lt ha hb, ← not_lt, ← lt_iff hb ha]
  simp

/-! Sums that need no rounding. -/

theorem scaled_eq (neg : Bool) (m : Nat) {e k : Int} (h : k ≤ e) :
    (scaled neg m e k : ℚ) * 2 ^ k = (if neg then -1 else 1) * (m * 2 ^ e) := by
  have hp : (2 : ℚ) ^ e = 2 ^ (e - k).toNat * 2 ^ k := by
    rw [← zpow_natCast, ← zpow_add₀ (by norm_num)]
    congr 1
    omega
  cases neg <;> simp [scaled, hp] <;> ring

theorem toRat_ofMag {n : Nat} {q : Int} (hc : FpCanon 52 11 n q) (neg : Bool) :
    (ofMag neg (n + (q - fpMinExp 52 11).toNat * 2 ^ 52)).toRat = (if neg then -1 else 1) * (n * 2 ^ q) := by
  rw [toRat, (value_ofMag hc neg).1, FpValue.toRat]

/-- A sum that binary64 holds is exact; when it is 0 its sign is - only if both operands' signs are. -/
theorem add_exact {a b : F64} (ha : a.isFinite = true) (hb : b.isFinite = true) {n : Nat} {q : Int}
    (hc : FpCanon 52 11 n q) (h : |a.toRat + b.toRat| = n * 2 ^ q) :
    (a.add b).isFinite = true ∧ (a.add b).toRat = a.toRat + b.toRat ∧
      (a.add b).sign = (if a.toRat + b.toRat = 0 then a.sign && b.sign else decide (a.toRat + b.toRat < 0)) := by
  obtain ⟨m, e, hva, -, -⟩ := canon ha
  obtain ⟨m', e', hvb, -, -⟩ := canon hb
  have hsum : ((scaled a.sign m e (Min.min e e') + scaled b.sign m' e' (Min.min e e') : Int) : ℚ) *
      2 ^ Min.min e e' = a.toRat + b.toRat := by
    rw [Int.cast_add, add_mul, scaled_eq _ _ (min_le_left _ _), scaled_eq _ _ (min_le_right _ _), toRat, toRat,
      hva, hvb]
    rfl
  have hadd : a.add b =
      if scaled a.sign m e (Min.min e e') + scaled b.sign m' e' (Min.min e e') = 0 then ofMag (a.sign && b.sign) 0
      else ofDyadic (decide (scaled a.sign m e (Min.min e e') + scaled b.sign m' e' (Min.min e e') < 0))
        (scaled a.sign m e (Min.min e e') + scaled b.sign m' e' (Min.min e e')).natAbs (Min.min e e') := by
    unfold add
    rw [hva, hvb]
  generalize scaled a.sign m e (Min.min e e') + scaled b.sign m' e' (Min.min e e') = v at *
  generalize Min.min e e' = k at *
  have h2 : (0 : ℚ) < 2 ^ k := by positivity
  have hsgn : ∀ (neg : Bool) {n : Nat} {q : Int} (_ : FpCanon 52 11 n q),
      (ofMag neg (n + (q - fpMinExp 52 11).toNat * 2 ^ 52)).sign = neg := by
    intro neg n q hc
    obtain ⟨h1, h2⟩ := value_ofMag hc neg
    obtain ⟨_, _, h3, -, -⟩ := canon h2
    rw [h3] at h1
    injection h1
  rw [hadd]
  by_cases hv : v = 0
  · subst hv
    have h0 : a.toRat + b.toRat = 0 := by simpa using hsum.symm
    have hz : FpCanon 52 11 0 (fpMinExp 52 11) := ⟨le_refl _, by positivity, .inr rfl, by decide⟩
    have := value_ofMag hz (a.sign && b.sign)
    have h3 := hsgn (a.sign && b.sign) hz
    simp only [sub_self, Int.toNat_zero, Nat.zero_mul, Nat.add_zero] at this h3
    rw [if_pos rfl, if_pos h0]
    refine ⟨this.2, ?_, h3⟩
    rw [h0, toRat, this.1]
    simp [FpValue.toRat]
  · have h0 : a.toRat + b.toRat ≠ 0 := by
      rw [← hsum]
      exact mul_ne_zero (by exact_mod_cast hv) h2.ne'
    have habs : (v.natAbs : ℚ) * 2 ^ k = n * 2 ^ q := by
      rw [← h, ← hsum, abs_mul, abs_of_pos h2]
      congr 1
      rw [Nat.cast_natAbs, Int.cast_abs]
    have hneg : decide (v < 0) = decide (a.toRat + b.toRat < 0) := by
      rw [← hsum]
      congr 1
      rw [mul_neg_iff]
      simp [h2, not_lt.mpr h2.le]
    rw [if_neg hv, if_neg h0, ofDyadic_exact hc habs]
    refine ⟨(value_ofMag hc _).2, ?_, by rw [hsgn _ hc, hneg]⟩
    rw [toRat_ofMag hc, ← h, ← hsum]
    rcases lt_or_gt_of_ne hv with hlt | hgt
    · have : (v : ℚ) * 2 ^ k < 0 := mul_neg_of_neg_of_pos (by exact_mod_cast hlt) h2
      rw [abs_of_neg this]
      simp [hlt]
    · have : 0 < (v : ℚ) * 2 ^ k := mul_pos (by exact_mod_cast hgt) h2
      rw [abs_of_pos this]
      simp [hgt.le]

/-- Two finite reals of one sign that denote the same number are the same real. -/
theorem eq_of_toRat {a b : F64} (ha : a.isFinite = true) (hb : b.isFinite = true) (hs : a.sign = b.sign)
    (h : a.toRat = b.toRat) : a = b := by
  obtain ⟨n, q, hva, hca, hma⟩ := canon ha
  obtain ⟨n', q', hvb, hcb, hmb⟩ := canon hb
  have hm : a.bits.toNat % 2 ^ 63 = b.bits.toNat % 2 ^ 63 := by
    rw [← hma, ← hmb]
    refine hca.unique hcb ?_
    rw [toRat, toRat, hva, hvb, hs] at h
    simp only [FpValue.toRat] at h
    cases hb : b.sign <;> simpa [hb] using h
  have hbits : a.bits = b.bits := by
    apply BitVec.eq_of_toNat_eq
    rw [bits_eq a, bits_eq b, hm, hs]
  cases a
  cases b
  simpa using hbits

/-! Negation and subtraction. -/

theorem neg_props (x : F64) : x.neg.bits.toNat % 2 ^ 63 = x.bits.toNat % 2 ^ 63 ∧ x.neg.sign = !x.sign := by
  constructor
  · unfold neg
    rw [BitVec.toNat_xor, Nat.xor_mod_two_pow]
    simp
  · show (x.bits ^^^ _).msb = !x.bits.msb
    rw [BitVec.msb_xor]
    cases x.bits.msb <;> decide

theorem isFinite_neg (x : F64) : x.neg.isFinite = x.isFinite := by
  unfold isFinite
  rw [show x.neg.bits.toNat % pow2 63 = x.bits.toNat % pow2 63 from (neg_props x).1]

theorem toRat_neg {x : F64} (h : x.isFinite = true) : x.neg.toRat = -x.toRat := by
  obtain ⟨n, q, hv, hc, hm⟩ := canon h
  obtain ⟨n', q', hv', hc', hm'⟩ := canon ((isFinite_neg x).trans h)
  have hu : (n' : ℚ) * 2 ^ q' = n * 2 ^ q := by
    have : n' + (q' - fpMinExp 52 11).toNat * 2 ^ 52 = n + (q - fpMinExp 52 11).toNat * 2 ^ 52 := by
      rw [hm, hm', (neg_props x).1]
    rcases lt_trichotomy ((n' : ℚ) * 2 ^ q') (n * 2 ^ q) with hlt | heq | hgt
    · have := (hc'.lt_iff hc).mp hlt
      omega
    · exact heq
    · have := (hc.lt_iff hc').mp hgt
      omega
  rw [toRat, toRat, hv, hv', (neg_props x).2]
  simp only [FpValue.toRat, hu]
  cases x.sign <;> simp

theorem sub_eq_add {a b : F64} (hb : b.isFinite = true) : a.sub b = a.add b.neg := by
  rw [sub, isNaN_of_isFinite hb]
  rfl

/-! The floor, and integers as reals. -/

theorem floor_eq {x : F64} (h : x.isFinite = true) : x.floor = ⌊x.toRat⌋ := by
  obtain ⟨n, q, hv, -, -⟩ := canon h
  have hp : (0 : ℚ) < 2 ^ (-q).toNat := by positivity
  have hr : x.toRat = ((scaled x.sign n (Max.max q 0) 0 : Int) : ℚ) / ((2 ^ (-q).toNat : Nat) : ℚ) := by
    have := scaled_eq x.sign n (le_max_right q 0)
    rw [zpow_zero, mul_one] at this
    rw [this, toRat, hv, FpValue.toRat, eq_div_iff (by positivity)]
    have hz : (2 : ℚ) ^ Max.max q 0 = 2 ^ q.toNat := by
      rw [← zpow_natCast]
      congr 1
      omega
    rw [hz, ← zpow_toNat q]
    push_cast
    ring
  rw [hr, Rat.floor_intCast_div_natCast]
  unfold floor
  rw [hv]
  rfl

theorem canon_of_lt {m : Nat} (h : m < 2 ^ 53) : ∃ n q, FpCanon 52 11 n q ∧ (n : ℚ) * 2 ^ q = m := by
  have e64 : fpMinExp 52 11 = -1074 := by decide
  obtain ⟨n, q, hc, hx⟩ := exists_canon 52 11 (m := m) (e := 0) h (by rw [e64]; omega) (by rw [e64]; decide)
  exact ⟨n, q, hc, by simpa using hx⟩

/-- Integers below 2^53 are converted exactly (00_scope.md R10). -/
theorem ofNat_exact {m : Nat} (h : m < 2 ^ 53) :
    (ofNat m).isFinite = true ∧ (ofNat m).toRat = m ∧ (ofNat m).sign = false := by
  obtain ⟨n, q, hc, hx⟩ := canon_of_lt h
  have : ofNat m = ofMag false (n + (q - fpMinExp 52 11).toNat * 2 ^ 52) := by
    unfold ofNat ofInt
    rw [ofRatio_exact (n := n) (q := q) (by decide) hc (by simpa using hx.symm)]
    congr 1
  rw [this]
  have hv := value_ofMag hc false
  refine ⟨hv.2, by rw [toRat_ofMag hc, hx]; simp, ?_⟩
  obtain ⟨_, _, h3, -, -⟩ := canon hv.2
  rw [h3] at hv
  injection hv.1

/-- `x - m` is exact for an integer m with m ≤ x < 2^53: what 42_chip_process.md R161 says of the accumulator. -/
theorem sub_ofNat_exact {x : F64} (hx : x.isFinite = true) {m : Nat} (hm : (m : ℚ) ≤ x.toRat)
    (hlt : x.toRat < 2 ^ 53) :
    (x.sub (ofNat m)).isFinite = true ∧ (x.sub (ofNat m)).toRat = x.toRat - m ∧
      (x.sub (ofNat m)).sign = (if x.toRat = m then x.sign else false) := by
  have hm53 : m < 2 ^ 53 := by
    have : (m : ℚ) < 2 ^ 53 := hm.trans_lt hlt
    exact_mod_cast this
  obtain ⟨hof, hov, hos⟩ := ofNat_exact hm53
  have e64 : fpMinExp 52 11 = -1074 := by decide
  have hneg := isFinite_neg (ofNat m)
  rw [hof] at hneg
  have hsum : x.toRat + (ofNat m).neg.toRat = x.toRat - m := by rw [toRat_neg hof, hov, sub_eq_add_neg]
  have hnn : 0 ≤ x.toRat - m := by linarith
  obtain ⟨n, q, hv, hc, -⟩ := canon hx
  have hxn : x.toRat = n * 2 ^ q := by
    rw [toRat, hv, FpValue.toRat]
    cases hs : x.sign
    · simp
    · have h0 : (0 : ℚ) ≤ n * 2 ^ q := by positivity
      have h1 : x.toRat = -(n * 2 ^ q) := by
        rw [toRat, hv, hs, FpValue.toRat]
        simp
      have : (0 : ℚ) ≤ m := by positivity
      have : (n : ℚ) * 2 ^ q = 0 := by linarith
      simp [this]
  have hq : q ≤ 0 := by
    by_contra hq
    have hl : 2 ^ 52 ≤ n := hc.lead.resolve_right (by omega)
    have : (2 : ℚ) ^ 53 ≤ n * 2 ^ q := by
      calc (2 : ℚ) ^ 53 = (2 : ℚ) ^ 52 * (2 : ℚ) ^ (1 : Int) := by norm_num
        _ ≤ (n : ℚ) * (2 : ℚ) ^ q := by
          gcongr
          · exact_mod_cast hl
          · norm_num
          · omega
    linarith
  have hz : (2 : ℚ) ^ q * 2 ^ (-q).toNat = 1 := by
    have := zpow_toNat q
    rwa [Int.toNat_of_nonpos hq, pow_zero] at this
  have hle : m * 2 ^ (-q).toNat ≤ n := by
    have : (m : ℚ) * 2 ^ (-q).toNat ≤ n := by
      calc (m : ℚ) * 2 ^ (-q).toNat ≤ n * 2 ^ q * 2 ^ (-q).toNat := by
            gcongr
            rw [← hxn]
            exact hm
        _ = n := by rw [mul_assoc, hz, mul_one]
    exact_mod_cast this
  have hlow := hc.low
  rw [e64] at hlow
  obtain ⟨n', q', hc', hx'⟩ := exists_canon 52 11 (m := n - m * 2 ^ (-q).toNat) (e := q)
    (lt_of_le_of_lt (Nat.sub_le _ _) hc.small) (by rw [e64]; omega) (by
      rw [e64]
      have : (q - -1074).toNat ≤ 1074 := by omega
      norm_num
      omega)
  have hval : (n' : ℚ) * 2 ^ q' = x.toRat - m := by
    rw [hx', Nat.cast_sub hle, hxn]
    push_cast
    rw [sub_mul, mul_assoc (m : ℚ), mul_comm ((2 : ℚ) ^ (-q).toNat), hz, mul_one]
  obtain ⟨h1, h2, h3⟩ := add_exact hx hneg hc' (by rw [hsum, hval, abs_of_nonneg hnn])
  rw [← sub_eq_add hof] at h1 h2 h3
  rw [hsum] at h2 h3
  refine ⟨h1, h2, h3.trans ?_⟩
  rw [(neg_props (ofNat m)).2, hos]
  by_cases he : x.toRat = m
  · simp [he]
  · have : x.toRat - m ≠ 0 := fun h => he (by linarith)
    simp [he, this, hm]

theorem one_eq : one = ofNat 1 := by decide

theorem sign_of_pos {x : F64} (hx : x.isFinite = true) (h : 0 < x.toRat) : x.sign = false := by
  obtain ⟨n, q, hv, -, -⟩ := canon hx
  rw [toRat, hv] at h
  cases hs : x.sign
  · rfl
  · have : (0 : ℚ) ≤ n * 2 ^ q := by positivity
    rw [hs, FpValue.toRat, if_pos rfl] at h
    linarith

theorem isFinite_zero : zero.isFinite = true := by decide

theorem toRat_zero : zero.toRat = 0 := by
  simp [toRat, show zero.value = .fin false 0 (-1074) by decide, FpValue.toRat]

/-- Taking the whole part off in one subtraction or in two gives the same real. -/
theorem frac_sub_one {x : F64} (hx : x.isFinite = true) (h1 : 1 ≤ x.toRat) (hlt : x.toRat < 2 ^ 53) :
    (x.sub one).frac = x.frac := by
  obtain ⟨hf, hv, hs⟩ := sub_ofNat_exact hx (m := 1) (by simpa using h1) hlt
  rw [← one_eq] at hf hv hs
  obtain ⟨n, hn⟩ : ∃ n : Nat, ⌊x.toRat⌋ = (n : Int) + 1 := by
    have : (1 : Int) ≤ ⌊x.toRat⌋ := Int.le_floor.mpr (by simpa using h1)
    exact ⟨(⌊x.toRat⌋ - 1).toNat, by omega⟩
  have hfl : (x.sub one).floor = n := by
    rw [floor_eq hf, hv, Nat.cast_one, Int.floor_sub_one, hn]
    ring
  have hfl' : x.floor = ((n + 1 : Nat) : Int) := by
    rw [floor_eq hx, hn]
    push_cast
    ring
  have hle : ((n + 1 : Nat) : ℚ) ≤ x.toRat := by
    have := Int.floor_le x.toRat
    rw [hn] at this
    push_cast at this ⊢
    linarith
  have hle' : (n : ℚ) ≤ (x.sub one).toRat := by
    rw [hv]
    push_cast at hle ⊢
    linarith
  have hlt' : (x.sub one).toRat < 2 ^ 53 := by
    rw [hv]
    push_cast
    linarith
  obtain ⟨f1, v1, s1⟩ := sub_ofNat_exact hf hle' hlt'
  obtain ⟨f2, v2, s2⟩ := sub_ofNat_exact hx hle hlt
  have hpos := sign_of_pos hx (by linarith)
  have hs0 : (x.sub one).sign = false := by
    rw [hs, hpos]
    simp
  unfold frac
  rw [hfl, hfl']
  refine eq_of_toRat f1 f2 ?_ ?_
  · show ((x.sub one).sub (ofNat n)).sign = (x.sub (ofNat (n + 1))).sign
    rw [s1, s2, hpos, hs0]
    simp
  · show ((x.sub one).sub (ofNat n)).toRat = (x.sub (ofNat (n + 1))).toRat
    rw [v1, v2, hv]
    push_cast
    ring

/-- The fraction of a real from 0 up to 2^53 lies in [0, 1). -/
theorem frac_range {x : F64} (hx : x.isFinite = true) (h0 : 0 ≤ x.toRat) (hlt : x.toRat < 2 ^ 53) :
    x.frac.isFinite = true ∧ 0 ≤ x.frac.toRat ∧ x.frac.toRat < 1 := by
  obtain ⟨n, hn⟩ : ∃ n : Nat, ⌊x.toRat⌋ = (n : Int) := ⟨⌊x.toRat⌋.toNat, by
    have : (0 : Int) ≤ ⌊x.toRat⌋ := Int.le_floor.mpr (by simpa using h0)
    omega⟩
  have hle := Int.floor_le x.toRat
  have hgt := Int.lt_floor_add_one x.toRat
  rw [hn] at hle hgt
  push_cast at hle hgt
  obtain ⟨f1, v1, -⟩ := sub_ofNat_exact hx hle hlt
  have hfr : x.frac = x.sub (ofNat n) := by
    unfold frac
    rw [floor_eq hx, hn]
    rfl
  rw [hfr, v1]
  exact ⟨f1, by linarith, by linarith⟩

/-- A whole part of 0 takes nothing off. -/
theorem frac_of_lt_one {x : F64} (hx : x.isFinite = true) (h0 : 0 ≤ x.toRat) (h1 : x.toRat < 1) : x.frac = x := by
  have hfl : x.floor = ((0 : Nat) : Int) := by
    rw [floor_eq hx, Int.floor_eq_iff]
    exact ⟨by simpa using h0, by simpa using h1⟩
  obtain ⟨f1, v1, s1⟩ := sub_ofNat_exact hx (m := 0) (by simpa using h0) (by linarith)
  unfold frac
  rw [hfl]
  refine eq_of_toRat f1 hx ?_ (v1.trans (by simp))
  show (x.sub (ofNat 0)).sign = _
  rw [s1]
  by_cases hz : x.toRat = 0
  · simp [hz]
  · have := sign_of_pos hx (lt_of_le_of_ne h0 (Ne.symm hz))
    simp [this]

/-- Between two bounds that are finite, a real that compares with both is finite. -/
theorem isFinite_of_between {a b x : F64} (ha : a.isFinite = true) (hb : b.isFinite = true) (h1 : a.le x = true)
    (h2 : x.le b = true) : x.isFinite = true := by
  rw [isFinite, decide_eq_true_eq] at ha hb ⊢
  simp only [le, Bool.and_eq_true, Bool.not_eq_true', decide_eq_true_eq] at h1 h2
  simp only [key] at h1 h2
  obtain ⟨⟨-, hx⟩, h1⟩ := h1
  obtain ⟨-, h2⟩ := h2
  rw [isNaN, decide_eq_false_iff_not] at hx
  generalize a.bits.toNat % pow2 63 = k at *
  generalize b.bits.toNat % pow2 63 = l at *
  generalize x.bits.toNat % pow2 63 = m at *
  cases hxs : x.sign <;> simp only [hxs, Bool.false_eq_true, if_false, if_true] at h1 h2
  · split at h2 <;> omega
  · split at h1 <;> omega

end F64

end Sys2Proof
end

