-- ==== Sys2Proof/Laws/Rounding.lean ====
section
/-! SUPPORT. Rounding as an order fact: a rounded result lies on the same side of every real of the format as the
exact one, so an exact bound that the format holds is a bound of the rounded result. -/

namespace Sys2Proof

/-! The quotient rounded to an integer. -/

theorem roundDivEven_le {num den k : Nat} (hd : 0 < den) (h : num ≤ k * den) : roundDivEven num den ≤ k := by
  have hdm := Nat.div_add_mod num den
  have hr := Nat.mod_lt num hd
  have hq : num / den ≤ k := by
    rw [← Nat.mul_div_cancel k hd]
    exact Nat.div_le_div_right h
  unfold roundDivEven
  dsimp only
  rcases Nat.lt_or_eq_of_le hq with hlt | heq
  · split
    · omega
    · split
      · omega
      · omega
  · have : num % den = 0 := by
      rw [heq, Nat.mul_comm] at hdm
      omega
    rw [this]
    simp [hd, heq]

theorem le_roundDivEven {num den k : Nat} (hd : 0 < den) (h : k * den ≤ num) : k ≤ roundDivEven num den := by
  have hq : k ≤ num / den := (Nat.le_div_iff_mul_le hd).mpr h
  unfold roundDivEven
  dsimp only
  split
  · exact hq
  · split <;> omega

/-- The distance to the exact quotient is at most one half. -/
theorem roundDivEven_near {num den : Nat} (hd : 0 < den) :
    2 * roundDivEven num den * den ≤ 2 * num + den ∧ 2 * num ≤ 2 * roundDivEven num den * den + den := by
  have hdm := Nat.div_add_mod num den
  have hr := Nat.mod_lt num hd
  unfold roundDivEven
  dsimp only
  generalize num / den = q at *
  generalize num % den = r at *
  have e1 : 2 * q * den = 2 * (den * q) := by ring
  have e2 : 2 * (q + 1) * den = 2 * (den * q) + 2 * den := by ring
  split
  · omega
  · split
    · rw [e2]
      omega
    · rcases Nat.mod_two_eq_zero_or_one q with h | h <;> rw [h]
      · rw [Nat.add_zero, e1]
        omega
      · rw [e2]
        omega

/-- A quotient within one half of an even number is rounded to at most that number. -/
theorem roundDivEven_le_even {num den k : Nat} (hd : 0 < den) (hk : k % 2 = 0) (h : 2 * num ≤ (2 * k + 1) * den) :
    roundDivEven num den ≤ k := by
  have hdm := Nat.div_add_mod num den
  have hr := Nat.mod_lt num hd
  have hq : num / den ≤ k := by
    by_contra hlt
    have : k + 1 ≤ num / den := by omega
    have := Nat.mul_le_mul_left den this
    have e : den * (k + 1) = den * k + den := by ring
    have e' : (2 * k + 1) * den = 2 * (den * k) + den := by ring
    omega
  unfold roundDivEven
  dsimp only
  rcases Nat.lt_or_eq_of_le hq with hlt | heq
  · split
    · omega
    · split <;> omega
  · rw [heq] at hdm ⊢
    have e' : (2 * k + 1) * den = 2 * (den * k) + den := by ring
    split
    · exact le_refl _
    · split
      · omega
      · omega

/-! The rounding of `fpRound`. -/

/-- The quantum of a rounding. -/
def fpQuantum (mb eb num den : Nat) : Int := max (fpExponent num den - mb) (fpMinExp mb eb)

/-- The significand of a rounding. -/
def fpSignificand (mb eb num den : Nat) : Nat :=
  roundDivEven (num * pow2 (-fpQuantum mb eb num den).toNat) (den * pow2 (fpQuantum mb eb num den).toNat)

theorem fpRound_eq {mb eb num den : Nat} (hn : num ≠ 0) :
    fpRound mb eb num den = min (fpSignificand mb eb num den +
      (fpQuantum mb eb num den - fpMinExp mb eb).toNat * 2 ^ mb) ((2 ^ eb - 1) * 2 ^ mb) := by
  unfold fpRound
  rw [if_neg hn]
  rfl

/-- A number in units of the quantum, as the quotient that is rounded. -/
theorem quotient_eq {num den : Nat} (hd : den ≠ 0) (q : Int) :
    ((num * pow2 (-q).toNat : Nat) : ℚ) = (num : ℚ) / den / 2 ^ q * ((den * pow2 q.toNat : Nat) : ℚ) := by
  have hd0 : (den : ℚ) ≠ 0 := by exact_mod_cast hd
  have h2 : (2 : ℚ) ^ q ≠ 0 := by positivity
  push_cast [pow2_eq]
  rw [← zpow_toNat q]
  field_simp

theorem den_pos {den : Nat} (hd : den ≠ 0) (q : Int) : 0 < den * pow2 q.toNat := by
  have := Nat.pos_of_ne_zero hd
  simp only [pow2_eq]
  positivity

theorem fpSignificand_le {mb eb num den k : Nat} (hd : den ≠ 0)
    (h : (num : ℚ) / den ≤ k * 2 ^ fpQuantum mb eb num den) : fpSignificand mb eb num den ≤ k := by
  refine roundDivEven_le (den_pos hd _) ?_
  have h2 : (0 : ℚ) < 2 ^ fpQuantum mb eb num den := by positivity
  have : ((num * pow2 (-fpQuantum mb eb num den).toNat : Nat) : ℚ) ≤
      ((k * (den * pow2 (fpQuantum mb eb num den).toNat) : Nat) : ℚ) := by
    rw [quotient_eq hd, Nat.cast_mul k]
    gcongr
    rwa [div_le_iff₀ h2]
  exact_mod_cast this

theorem le_fpSignificand {mb eb num den k : Nat} (hd : den ≠ 0)
    (h : k * 2 ^ fpQuantum mb eb num den ≤ (num : ℚ) / den) : k ≤ fpSignificand mb eb num den := by
  refine le_roundDivEven (den_pos hd _) ?_
  have h2 : (0 : ℚ) < 2 ^ fpQuantum mb eb num den := by positivity
  have : ((k * (den * pow2 (fpQuantum mb eb num den).toNat) : Nat) : ℚ) ≤
      ((num * pow2 (-fpQuantum mb eb num den).toNat : Nat) : ℚ) := by
    rw [quotient_eq hd, Nat.cast_mul k]
    gcongr
    rwa [le_div_iff₀ h2]
  exact_mod_cast this

theorem fpQuantum_low (mb eb num den : Nat) : fpMinExp mb eb ≤ fpQuantum mb eb num den := le_max_right _ _

/-- A number lies below 2^(mb + 1) quanta, and at 2^mb quanta or more unless the quantum is the smallest. -/
theorem quantum_spec {mb eb num den : Nat} (hn : num ≠ 0) (hd : den ≠ 0) :
    (num : ℚ) / den < 2 ^ (mb + 1) * 2 ^ fpQuantum mb eb num den ∧
      (fpQuantum mb eb num den = fpMinExp mb eb ∨ 2 ^ mb * 2 ^ fpQuantum mb eb num den ≤ (num : ℚ) / den) := by
  obtain ⟨hlo, hhi⟩ := fpExponent_spec hn hd
  have two : (2 : ℚ) ≠ 0 := by norm_num
  constructor
  · refine hhi.trans_le ?_
    rw [← zpow_natCast, ← zpow_add₀ two]
    refine zpow_le_zpow_right₀ (by norm_num) ?_
    have := le_max_left (fpExponent num den - mb) (fpMinExp mb eb)
    unfold fpQuantum
    push_cast
    omega
  · rcases le_total (fpExponent num den - mb) (fpMinExp mb eb) with h | h
    · exact .inl (max_eq_right h)
    · right
      rw [← zpow_natCast, ← zpow_add₀ two]
      refine le_trans (le_of_eq ?_) hlo
      congr 1
      unfold fpQuantum
      rw [max_eq_left h]
      ring

/-- A bound that the format holds from above is kept by rounding. -/
theorem fpRound_le {mb eb num den n : Nat} {q : Int} (hd : den ≠ 0) (hc : FpCanon mb eb n q)
    (h : (num : ℚ) / den ≤ n * 2 ^ q) : fpRound mb eb num den ≤ n + (q - fpMinExp mb eb).toNat * 2 ^ mb := by
  by_cases hn : num = 0
  · simp [fpRound, hn]
  · rw [fpRound_eq hn]
    refine (min_le_left _ _).trans ?_
    obtain ⟨hhi, hlo⟩ := quantum_spec (mb := mb) (eb := eb) hn hd
    have hql := fpQuantum_low mb eb num den
    have hcl := hc.low
    have two : (2 : ℚ) ≠ 0 := by norm_num
    rcases lt_trichotomy (fpQuantum mb eb num den) q with hlt | heq | hgt
    · have hlead : 2 ^ mb ≤ n := hc.lead.resolve_right (by omega)
      have hs : fpSignificand mb eb num den ≤ 2 ^ (mb + 1) := fpSignificand_le hd (by
        push_cast
        exact hhi.le)
      have hm : ((fpQuantum mb eb num den - fpMinExp mb eb).toNat + 1) * 2 ^ mb ≤
          (q - fpMinExp mb eb).toNat * 2 ^ mb := Nat.mul_le_mul_right _ (by omega)
      rw [Nat.add_mul] at hm
      rw [pow_succ] at hs
      omega
    · rw [heq]
      have : fpSignificand mb eb num den ≤ n := fpSignificand_le hd (by rw [heq]; exact h)
      omega
    · exfalso
      rcases hlo with h0 | hlo
      · omega
      · have : (n : ℚ) * 2 ^ q < 2 ^ mb * 2 ^ fpQuantum mb eb num den := by
          calc (n : ℚ) * 2 ^ q < 2 ^ (mb + 1) * 2 ^ q := by
                gcongr
                exact_mod_cast hc.small
            _ = 2 ^ mb * 2 ^ (q + 1) := by rw [zpow_add₀ two, zpow_one, pow_succ]; ring
            _ ≤ 2 ^ mb * 2 ^ fpQuantum mb eb num den := by
                gcongr
                · norm_num
                · omega
        linarith

/-- A bound that the format holds from below is kept by rounding. -/
theorem le_fpRound {mb eb num den n : Nat} {q : Int} (hd : den ≠ 0) (hc : FpCanon mb eb n q)
    (h : n * 2 ^ q ≤ (num : ℚ) / den) : n + (q - fpMinExp mb eb).toNat * 2 ^ mb ≤ fpRound mb eb num den := by
  by_cases hn : num = 0
  · have h0 : (n : ℚ) * 2 ^ q ≤ 0 := by simpa [hn] using h
    have h2 : (0 : ℚ) < 2 ^ q := by positivity
    have hn0 : n = 0 := by
      have : (n : ℚ) ≤ 0 := nonpos_of_mul_nonpos_left h0 h2
      exact_mod_cast le_antisymm this (Nat.cast_nonneg n)
    have hq : q = fpMinExp mb eb := hc.lead.resolve_left (by
      have := Nat.two_pow_pos mb
      omega)
    simp [hn0, hq]
  · rw [fpRound_eq hn]
    refine le_min ?_ hc.bound.le
    obtain ⟨hhi, hlo⟩ := quantum_spec (mb := mb) (eb := eb) hn hd
    have hql := fpQuantum_low mb eb num den
    have hcl := hc.low
    have two : (2 : ℚ) ≠ 0 := by norm_num
    rcases lt_trichotomy (fpQuantum mb eb num den) q with hlt | heq | hgt
    · exfalso
      have hlead : 2 ^ mb ≤ n := hc.lead.resolve_right (by omega)
      have : (2 : ℚ) ^ (mb + 1) * 2 ^ fpQuantum mb eb num den ≤ n * 2 ^ q := by
        calc (2 : ℚ) ^ (mb + 1) * 2 ^ fpQuantum mb eb num den
            = 2 ^ mb * 2 ^ (fpQuantum mb eb num den + 1) := by rw [zpow_add₀ two, zpow_one, pow_succ]; ring
          _ ≤ n * 2 ^ q := by
            gcongr
            · exact_mod_cast hlead
            · norm_num
            · omega
      linarith
    · rw [heq]
      have : n ≤ fpSignificand mb eb num den := le_fpSignificand hd (by rw [heq]; exact h)
      omega
    · rcases hlo with h0 | hlo
      · omega
      · have hs : 2 ^ mb ≤ fpSignificand mb eb num den := le_fpSignificand hd (by
          push_cast
          exact hlo)
        have hm : ((q - fpMinExp mb eb).toNat + 1) * 2 ^ mb ≤
            (fpQuantum mb eb num den - fpMinExp mb eb).toNat * 2 ^ mb := Nat.mul_le_mul_right _ (by omega)
        have hsm := hc.small
        rw [Nat.add_mul] at hm
        rw [pow_succ] at hsm
        omega

namespace F64

/-! Rounded results. -/

/-- `y` is the real that a number `x` is rounded to: it is finite and on the same side as `x` of every finite
real. -/
structure Rounds (x : ℚ) (y : F64) : Prop where
  finite : y.isFinite = true
  le : ∀ c : F64, c.isFinite = true → x ≤ c.toRat → y.toRat ≤ c.toRat
  ge : ∀ c : F64, c.isFinite = true → c.toRat ≤ x → c.toRat ≤ y.toRat

/-- The magnitude of a finite real. -/
theorem abs_toRat {x : F64} {n : Nat} {q : Int} (hv : x.value = .fin x.sign n q) : |x.toRat| = n * 2 ^ q := by
  have h0 : (0 : ℚ) ≤ n * 2 ^ q := by positivity
  rw [toRat, hv, FpValue.toRat]
  cases x.sign
  · simp only [Bool.false_eq_true, if_false, one_mul, abs_of_nonneg h0]
  · simp only [if_true, neg_one_mul, abs_neg, abs_of_nonneg h0]

theorem toRat_nonneg {x : F64} (hx : x.isFinite = true) (hs : x.sign = false) : 0 ≤ x.toRat := by
  obtain ⟨n, q, hv, -, -⟩ := canon hx
  rw [toRat, hv, hs, FpValue.toRat]
  simp only [Bool.false_eq_true, if_false, one_mul]
  positivity

theorem toRat_nonpos {x : F64} (hx : x.isFinite = true) (hs : x.sign = true) : x.toRat ≤ 0 := by
  obtain ⟨n, q, hv, -, -⟩ := canon hx
  rw [toRat, hv, hs, FpValue.toRat]
  simp only [if_true, neg_one_mul, neg_nonpos]
  positivity

theorem mag_ofMag {b : Nat} (hb : b < 2 ^ 63) (neg : Bool) :
    (ofMag neg b).bits.toNat % 2 ^ 63 = b ∧ (ofMag neg b).sign = neg := by
  have hlt : b + (if neg then 2 ^ 63 else 0) < 2 ^ 64 := by split <;> omega
  have hn : (ofMag neg b).bits.toNat = b + if neg then 2 ^ 63 else 0 := by
    show (BitVec.ofNat 64 (b + if neg then 2 ^ 63 else 0)).toNat = _
    rw [BitVec.toNat_ofNat, Nat.mod_eq_of_lt hlt]
  constructor
  · rw [hn]
    split <;> omega
  · rw [sign, BitVec.msb_eq_decide, hn]
    cases neg
    · simp
      omega
    · simp

/-- `ofRatio` rounds. -/
theorem rounds_ofRatio {num den : Nat} (hd : den ≠ 0) (neg : Bool) {C : F64} (hC : C.isFinite = true)
    (hle : (num : ℚ) / den ≤ |C.toRat|) :
    Rounds ((if neg then -1 else 1) * ((num : ℚ) / den)) (ofRatio neg num den) ∧
      (ofRatio neg num den).sign = neg := by
  have hx0 : (0 : ℚ) ≤ (num : ℚ) / den := by positivity
  obtain ⟨N, Q, hvC, hcC, -⟩ := canon hC
  rw [abs_toRat hvC] at hle
  have hbits := fpRound_le hd hcC hle
  have hfin := hcC.bound
  have hlt : fpRound 52 11 num den < 0x7FF0000000000000 := lt_of_le_of_lt hbits hfin
  obtain ⟨hm, hs⟩ := mag_ofMag (b := fpRound 52 11 num den) (by omega) neg
  have hf : (ofRatio neg num den).isFinite = true := by
    rw [isFinite, decide_eq_true_eq]
    show (ofMag neg (fpRound 52 11 num den)).bits.toNat % 2 ^ 63 < _
    rw [hm]
    exact hlt
  have hs' : (ofRatio neg num den).sign = neg := hs
  obtain ⟨n, q, hv, hc, hb⟩ := canon hf
  have hb' : n + (q - fpMinExp 52 11).toNat * 2 ^ 52 = fpRound 52 11 num den := hb.trans hm
  -- the magnitude of the result against the magnitude of any finite real
  have hup : ∀ {N : Nat} {Q : Int}, FpCanon 52 11 N Q → (num : ℚ) / den ≤ N * 2 ^ Q →
      (n : ℚ) * 2 ^ q ≤ N * 2 ^ Q := by
    intro N Q hN h
    by_contra hlt
    have := (hN.lt_iff hc).mp (not_le.mp hlt)
    have := fpRound_le hd hN h
    omega
  have hdown : ∀ {N : Nat} {Q : Int}, FpCanon 52 11 N Q → (N : ℚ) * 2 ^ Q ≤ (num : ℚ) / den →
      (N : ℚ) * 2 ^ Q ≤ n * 2 ^ q := by
    intro N Q hN h
    by_contra hlt
    have := (hc.lt_iff hN).mp (not_le.mp hlt)
    have := le_fpRound hd hN h
    omega
  have hval : (ofRatio neg num den).toRat = (if neg then -1 else 1) * (n * 2 ^ q) := by
    rw [toRat, hv, hs', FpValue.toRat]
  have hn0 : (0 : ℚ) ≤ n * 2 ^ q := by positivity
  refine ⟨⟨hf, fun c hcf h => ?_, fun c hcf h => ?_⟩, hs'⟩
  · obtain ⟨N', Q', hvc, hcc, -⟩ := canon hcf
    have hc0 : (0 : ℚ) ≤ N' * 2 ^ Q' := by positivity
    have hcv : c.toRat = (if c.sign then -1 else 1) * (N' * 2 ^ Q') := by rw [toRat, hvc, FpValue.toRat]
    rw [hval]
    rw [hcv] at h ⊢
    cases neg <;> cases hcs : c.sign <;>
      simp only [hcs, Bool.false_eq_true, if_false, if_true, one_mul, neg_one_mul] at h ⊢
    · exact hup hcc h
    · have e1 : (num : ℚ) / den = 0 := by linarith
      have e2 : (N' : ℚ) * 2 ^ Q' = 0 := by linarith
      have := hup hcc (by rw [e1, e2])
      linarith
    · linarith
    · exact neg_le_neg (hdown hcc (by linarith))
  · obtain ⟨N', Q', hvc, hcc, -⟩ := canon hcf
    have hc0 : (0 : ℚ) ≤ N' * 2 ^ Q' := by positivity
    have hcv : c.toRat = (if c.sign then -1 else 1) * (N' * 2 ^ Q') := by rw [toRat, hvc, FpValue.toRat]
    rw [hval]
    rw [hcv] at h ⊢
    cases neg <;> cases hcs : c.sign <;>
      simp only [hcs, Bool.false_eq_true, if_false, if_true, one_mul, neg_one_mul] at h ⊢
    · exact hdown hcc h
    · linarith
    · have e1 : (num : ℚ) / den = 0 := by linarith
      have e2 : (N' : ℚ) * 2 ^ Q' = 0 := by linarith
      have := hup hcc (by rw [e1, e2])
      linarith
    · exact neg_le_neg (hup hcc (by linarith))

/-- The bound that a rounding takes over, from both sides. -/
theorem Rounds.bound {x : ℚ} {y : F64} (h : Rounds x y) {c : F64} (hc : c.isFinite = true) (hx : |x| ≤ c.toRat) :
    |y.toRat| ≤ c.toRat := by
  obtain ⟨h1, h2⟩ := abs_le.mp hx
  rw [abs_le]
  constructor
  · have := h.ge c.neg ((isFinite_neg c).trans hc) (by rw [toRat_neg hc]; exact h1)
    rwa [toRat_neg hc] at this
  · exact h.le c hc h2

theorem Rounds.nonneg {x : ℚ} {y : F64} (h : Rounds x y) (hx : 0 ≤ x) : 0 ≤ y.toRat := by
  have := h.ge zero isFinite_zero (by rwa [toRat_zero])
  rwa [toRat_zero] at this

theorem Rounds.nonpos {x : ℚ} {y : F64} (h : Rounds x y) (hx : x ≤ 0) : y.toRat ≤ 0 := by
  have := h.le zero isFinite_zero (by rwa [toRat_zero])
  rwa [toRat_zero] at this

/-- A real rounds to itself. -/
theorem Rounds.exact {x : F64} (h : x.isFinite = true) : Rounds x.toRat x := ⟨h, fun _ _ h => h, fun _ _ h => h⟩

/-- Rounding what a real denotes gives what it denotes. -/
theorem Rounds.eq {x y : F64} (h : Rounds x.toRat y) (hx : x.isFinite = true) : y.toRat = x.toRat :=
  le_antisymm (h.le x hx le_rfl) (h.ge x hx le_rfl)

/-! The operations. -/

theorem rounds_ofDyadic (neg : Bool) (m : Nat) (e : Int) {C : F64} (hC : C.isFinite = true)
    (hle : (m : ℚ) * 2 ^ e ≤ |C.toRat|) :
    Rounds ((if neg then -1 else 1) * (m * 2 ^ e)) (ofDyadic neg m e) ∧ (ofDyadic neg m e).sign = neg := by
  have hq : ((m * pow2 e.toNat : Nat) : ℚ) / ((pow2 (-e).toNat : Nat) : ℚ) = m * 2 ^ e := by
    rw [div_eq_iff (by simp)]
    push_cast [pow2_eq]
    rw [← zpow_toNat e]
    ring
  have := rounds_ofRatio (num := m * pow2 e.toNat) (den := pow2 (-e).toNat) (by simp) neg hC (by rw [hq]; exact hle)
  rw [hq] at this
  exact this

theorem add_rounds {a b : F64} (ha : a.isFinite = true) (hb : b.isFinite = true) {C : F64} (hC : C.isFinite = true)
    (hle : |a.toRat + b.toRat| ≤ |C.toRat|) : Rounds (a.toRat + b.toRat) (a.add b) := by
  obtain ⟨m, e, hva, -, -⟩ := canon ha
  obtain ⟨m', e', hvb, -, -⟩ := canon hb
  have hsum : ((scaled a.sign m e (Min.min e e') + scaled b.sign m' e' (Min.min e e') : Int) : ℚ) *
      2 ^ Min.min e e' = a.toRat + b.toRat := by
    rw [Int.cast_add, add_mul, scaled_eq _ _ (min_le_left _ _), scaled_eq _ _ (min_le_right _ _), toRat, toRat,
      hva, hvb]
    rfl
  have hadd : a.add b =
      if scaled a.sign m e (Min.min e e') + scaled b.sign m' e' (Min.min e e') = 0 then ofMag (a.sign && b.sign) 0
      else ofDyadic (decide (scaled a.sign m e (Min.min e e') + scaled b.sign m' e' (Min.min e e') < 0))
        (scaled a.sign m e (Min.min e e') + scaled b.sign m' e' (Min.min e e')).natAbs (Min.min e e') := by
    unfold add
    rw [hva, hvb]
  generalize scaled a.sign m e (Min.min e e') + scaled b.sign m' e' (Min.min e e') = v at *
  generalize Min.min e e' = k at *
  have h2 : (0 : ℚ) < 2 ^ k := by positivity
  rw [hadd]
  by_cases hv : v = 0
  · subst hv
    rw [if_pos rfl]
    have h0 : a.toRat + b.toRat = 0 := by simpa using hsum.symm
    rw [h0]
    generalize (a.sign && b.sign) = s
    have hz : (ofMag s 0).isFinite = true ∧ (ofMag s 0).toRat = 0 := by
      have hc : FpCanon 52 11 0 (fpMinExp 52 11) := ⟨le_refl _, by positivity, .inr rfl, by decide⟩
      have h1 := value_ofMag hc s
      simp only [sub_self, Int.toNat_zero, Nat.zero_mul, Nat.add_zero] at h1
      refine ⟨h1.2, ?_⟩
      rw [toRat, h1.1, FpValue.toRat]
      simp
    have := Rounds.exact hz.1
    rwa [hz.2] at this
  · rw [if_neg hv]
    have habs : (v.natAbs : ℚ) * 2 ^ k = |a.toRat + b.toRat| := by
      rw [← hsum, abs_mul, abs_of_pos h2]
      congr 1
      rw [Nat.cast_natAbs, Int.cast_abs]
    have h := (rounds_ofDyadic (decide (v < 0)) v.natAbs k hC (by rw [habs]; exact hle)).1
    rw [habs] at h
    refine Eq.subst (motive := fun z => Rounds z _) ?_ h
    rw [← hsum]
    rcases lt_or_gt_of_ne hv with hlt | hgt
    · have : (v : ℚ) * 2 ^ k < 0 := mul_neg_of_neg_of_pos (by exact_mod_cast hlt) h2
      simp [hlt, abs_of_neg this]
    · have : 0 < (v : ℚ) * 2 ^ k := mul_pos (by exact_mod_cast hgt) h2
      simp [not_lt.mpr hgt.le, abs_of_pos this]

theorem sub_rounds {a b : F64} (ha : a.isFinite = true) (hb : b.isFinite = true) {C : F64} (hC : C.isFinite = true)
    (hle : |a.toRat - b.toRat| ≤ |C.toRat|) : Rounds (a.toRat - b.toRat) (a.sub b) := by
  have hn := (isFinite_neg b).trans hb
  rw [sub_eq_add hb, sub_eq_add_neg, ← toRat_neg hb]
  exact add_rounds ha hn hC (by rw [toRat_neg hb, ← sub_eq_add_neg]; exact hle)

theorem mul_rounds {a b : F64} (ha : a.isFinite = true) (hb : b.isFinite = true) {C : F64} (hC : C.isFinite = true)
    (hle : |a.toRat * b.toRat| ≤ |C.toRat|) :
    Rounds (a.toRat * b.toRat) (a.mul b) ∧ (a.mul b).sign = xor a.sign b.sign := by
  obtain ⟨m, e, hva, -, -⟩ := canon ha
  obtain ⟨m', e', hvb, -, -⟩ := canon hb
  have hmul : a.mul b = ofDyadic (xor a.sign b.sign) (m * m') (e + e') := by
    unfold mul
    rw [hva, hvb]
  have hprod : ((m * m' : Nat) : ℚ) * 2 ^ (e + e') = |a.toRat * b.toRat| := by
    rw [abs_mul, abs_toRat hva, abs_toRat hvb, zpow_add₀ (by norm_num)]
    push_cast
    ring
  rw [hmul]
  obtain ⟨h1, h2⟩ := rounds_ofDyadic (xor a.sign b.sign) (m * m') (e + e') hC (by rw [hprod]; exact hle)
  refine ⟨?_, h2⟩
  rw [hprod] at h1
  refine Eq.subst (motive := fun z => Rounds z _) ?_ h1
  rw [← hprod, toRat, toRat, hva, hvb, zpow_add₀ (by norm_num)]
  simp only [FpValue.toRat]
  cases a.sign <;> cases b.sign <;> simp <;> ring

theorem div_rounds {a b : F64} (ha : a.isFinite = true) (hb : b.isFinite = true) (h0 : b.toRat ≠ 0) {C : F64}
    (hC : C.isFinite = true) (hle : |a.toRat / b.toRat| ≤ |C.toRat|) :
    Rounds (a.toRat / b.toRat) (a.div b) := by
  obtain ⟨m, e, hva, -, -⟩ := canon ha
  obtain ⟨m', e', hvb, -, -⟩ := canon hb
  have hm' : m' ≠ 0 := by
    rintro rfl
    apply h0
    rw [toRat, hvb, FpValue.toRat]
    simp
  have hdiv : a.div b =
      ofRatio (xor a.sign b.sign) (m * pow2 (e - e').toNat) (m' * pow2 (e' - e).toNat) := by
    unfold div
    rw [hva, hvb]
    simp only [if_neg hm']
  have hm0 : (m' : ℚ) ≠ 0 := by exact_mod_cast hm'
  have hquot : ((m * pow2 (e - e').toNat : Nat) : ℚ) / ((m' * pow2 (e' - e).toNat : Nat) : ℚ) =
      |a.toRat / b.toRat| := by
    rw [abs_div, abs_toRat hva, abs_toRat hvb]
    have hz := zpow_toNat (e - e')
    rw [neg_sub] at hz
    have h2 : (2 : ℚ) ^ e' ≠ 0 := by positivity
    have h3 : (2 : ℚ) ^ (e' - e).toNat ≠ 0 := by positivity
    push_cast [pow2_eq]
    rw [← hz, zpow_sub₀ (by norm_num)]
    field_simp
  have hden : m' * pow2 (e' - e).toNat ≠ 0 := by simp [hm']
  rw [hdiv]
  have h1 := (rounds_ofRatio hden (xor a.sign b.sign) hC (by rw [hquot]; exact hle)).1
  rw [hquot] at h1
  refine Eq.subst (motive := fun z => Rounds z _) ?_ h1
  rw [abs_div, abs_toRat hva, abs_toRat hvb, toRat, toRat, hva, hvb]
  simp only [FpValue.toRat]
  cases a.sign <;> cases b.sign <;> simp [neg_div, div_neg]

/-- Any natural number is rounded when it becomes a real. -/
theorem ofNat_rounds (n : Nat) {C : F64} (hC : C.isFinite = true) (h : (n : ℚ) ≤ |C.toRat|) :
    Rounds n (ofNat n) ∧ (ofNat n).sign = false := by
  have h1 := rounds_ofRatio (num := n) (den := 1) (by decide) false hC (by simpa using h)
  have he : ofNat n = ofRatio false n 1 := by
    unfold ofNat ofInt
    congr 1
  rw [he]
  simpa using h1

/-- A finite real of at least 2^53 is an integer. -/
theorem floor_of_large {x : F64} (hx : x.isFinite = true) (h : 2 ^ 53 ≤ x.toRat) : ((⌊x.toRat⌋ : Int) : ℚ) = x.toRat := by
  obtain ⟨n, q, hv, hc, -⟩ := canon hx
  have hpos : |x.toRat| = n * 2 ^ q := abs_toRat hv
  rw [abs_of_nonneg (by linarith)] at hpos
  have hq : 0 ≤ q := by
    by_contra hq
    have hs : (n : ℚ) < 2 ^ 53 := by exact_mod_cast hc.small
    have h2 : (2 : ℚ) ^ q ≤ 1 := zpow_le_one_of_nonpos₀ (by norm_num) (by omega)
    have h0 : (0 : ℚ) ≤ n := by positivity
    nlinarith
  obtain ⟨k, rfl⟩ := Int.eq_ofNat_of_zero_le hq
  have : x.toRat = ((n * 2 ^ k : Nat) : Int) := by
    rw [hpos]
    push_cast
    simp
  rw [this, Int.floor_intCast]

/-- The fraction of every finite real that is not negative lies in [0, 1) (00_scope.md R12). -/
theorem frac_unit {x : F64} (hx : x.isFinite = true) (h0 : zero.le x = true) :
    zero.le x.frac = true ∧ x.frac.lt one = true := by
  have h0' : 0 ≤ x.toRat := by simpa [toRat_zero] using (le_iff isFinite_zero hx).mp h0
  have hone : one.isFinite = true ∧ one.toRat = 1 := by
    obtain ⟨f, v, -⟩ := ofNat_exact (m := 1) (by norm_num)
    rw [one_eq]
    exact ⟨f, by rw [v]; norm_num⟩
  obtain ⟨f, r0, r1⟩ : x.frac.isFinite = true ∧ 0 ≤ x.frac.toRat ∧ x.frac.toRat < 1 := by
    rcases lt_or_ge x.toRat (2 ^ 53) with hlt | hge
    · exact frac_range hx h0' hlt
    · have hfl := floor_of_large hx hge
      obtain ⟨n, hn⟩ := Int.eq_ofNat_of_zero_le (Int.floor_nonneg.mpr h0')
      have hnx : (n : ℚ) = x.toRat := by rw [← hfl, hn]; rfl
      have hr := (ofNat_rounds n hx (by rw [hnx, abs_of_nonneg h0'])).1
      have he : (ofNat n).toRat = x.toRat := (hnx ▸ hr : Rounds x.toRat (ofNat n)).eq hx
      have hd := sub_rounds hx hr.finite hx (by rw [he, sub_self, abs_zero]; exact abs_nonneg _)
      rw [he, sub_self] at hd
      have hfr : x.frac = x.sub (ofNat n) := by
        unfold frac
        rw [floor_eq hx, hn]
        rfl
      rw [hfr]
      exact ⟨hd.finite, hd.nonneg le_rfl, (hd.nonpos le_rfl).trans_lt one_pos⟩
  exact ⟨(le_iff isFinite_zero f).mpr (by rwa [toRat_zero]), (lt_iff f hone.1).mpr (by rwa [hone.2])⟩

end F64

end Sys2Proof
end

