-- ==== Sys2Proof/Laws/Bounds.lean ====
section
/-! SUPPORT. Reals between integers: an operation whose exact result lies between two integers gives a real between
them, because the format holds both. -/

namespace Sys2Proof

namespace F64

/-- Integers below 2^53 in magnitude are converted exactly (00_scope.md R10). -/
theorem ofInt_exact {n : Int} (h : n.natAbs < 2 ^ 53) : (ofInt n).isFinite = true ∧ (ofInt n).toRat = n := by
  obtain ⟨k, q, hc, hx⟩ := canon_of_lt h
  have he : ofInt n = ofMag (decide (n < 0)) (k + (q - fpMinExp 52 11).toNat * 2 ^ 52) := by
    unfold ofInt
    rw [ofRatio_exact (n := k) (q := q) (by decide) hc (by simpa using hx.symm)]
  rw [he]
  refine ⟨(value_ofMag hc _).2, ?_⟩
  rw [toRat_ofMag hc, hx]
  by_cases hn : n < 0
  · simp only [hn, decide_true, if_true]
    rw [Nat.cast_natAbs, abs_of_neg hn]
    push_cast
    ring
  · simp only [hn, decide_false, Bool.false_eq_true, if_false]
    rw [Nat.cast_natAbs, abs_of_nonneg (by omega)]
    ring

/-- `Between` in exact numbers. -/
theorem between_iff {lo hi : Int} (hlo : lo.natAbs < 2 ^ 53) (hhi : hi.natAbs < 2 ^ 53) (x : F64) :
    x.Between lo hi ↔ x.isFinite = true ∧ (lo : ℚ) ≤ x.toRat ∧ x.toRat ≤ hi := by
  obtain ⟨fl, vl⟩ := ofInt_exact hlo
  obtain ⟨fh, vh⟩ := ofInt_exact hhi
  constructor
  · rintro ⟨h1, h2⟩
    have hx := isFinite_of_between fl fh h1 h2
    exact ⟨hx, vl ▸ (le_iff fl hx).mp h1, vh ▸ (le_iff hx fh).mp h2⟩
  · rintro ⟨hx, h1, h2⟩
    exact ⟨(le_iff fl hx).mpr (vl ▸ h1), (le_iff hx fh).mpr (vh ▸ h2)⟩

theorem Between.mono {lo hi lo' hi' : Int} {x : F64} (h : x.Between lo hi) (h1 : lo' ≤ lo) (h2 : hi ≤ hi')
    (hs1 : lo'.natAbs < 2 ^ 53) (hs2 : lo.natAbs < 2 ^ 53) (hs3 : hi.natAbs < 2 ^ 53) (hs4 : hi'.natAbs < 2 ^ 53) :
    x.Between lo' hi' := by
  obtain ⟨f, a, b⟩ := (between_iff hs2 hs3 x).mp h
  refine (between_iff hs1 hs4 x).mpr ⟨f, ?_, ?_⟩
  · have : (lo' : ℚ) ≤ lo := by exact_mod_cast h1
    linarith
  · have : (hi : ℚ) ≤ hi' := by exact_mod_cast h2
    linarith

/-- A finite real that bounds every number between two integers in magnitude. -/
theorem exists_bound {lo hi : Int} (hlo : lo.natAbs < 2 ^ 53) (hhi : hi.natAbs < 2 ^ 53) :
    ∃ C : F64, C.isFinite = true ∧ ∀ x : ℚ, (lo : ℚ) ≤ x → x ≤ hi → |x| ≤ |C.toRat| := by
  have hm : Max.max lo.natAbs hi.natAbs < 2 ^ 53 := max_lt hlo hhi
  obtain ⟨f, v, -⟩ := ofNat_exact hm
  refine ⟨_, f, fun x h1 h2 => ?_⟩
  rw [v, abs_of_nonneg (a := ((Max.max lo.natAbs hi.natAbs : Nat) : ℚ)) (Nat.cast_nonneg _), abs_le]
  have e1 : lo.natAbs ≤ Max.max lo.natAbs hi.natAbs := le_max_left _ _
  have e2 : hi.natAbs ≤ Max.max lo.natAbs hi.natAbs := le_max_right _ _
  generalize Max.max lo.natAbs hi.natAbs = m at *
  have e3 : -(m : Int) ≤ lo := by omega
  have e4 : hi ≤ (m : Int) := by omega
  have e3' : -(m : ℚ) ≤ lo := by exact_mod_cast e3
  have e4' : (hi : ℚ) ≤ m := by exact_mod_cast e4
  constructor <;> linarith

theorem Rounds.between {x : ℚ} {y : F64} (h : Rounds x y) {lo hi : Int} (hlo : lo.natAbs < 2 ^ 53)
    (hhi : hi.natAbs < 2 ^ 53) (h1 : (lo : ℚ) ≤ x) (h2 : x ≤ hi) : y.Between lo hi := by
  obtain ⟨fl, vl⟩ := ofInt_exact hlo
  obtain ⟨fh, vh⟩ := ofInt_exact hhi
  exact (between_iff hlo hhi y).mpr
    ⟨h.finite, vl ▸ h.ge _ fl (by rw [vl]; exact h1), vh ▸ h.le _ fh (by rw [vh]; exact h2)⟩

/-! The operations. -/

theorem add_between {a b : F64} (ha : a.isFinite = true) (hb : b.isFinite = true) {lo hi : Int}
    (h1 : (lo : ℚ) ≤ a.toRat + b.toRat) (h2 : a.toRat + b.toRat ≤ hi) (hlo : lo.natAbs < 2 ^ 53)
    (hhi : hi.natAbs < 2 ^ 53) : (a.add b).Between lo hi := by
  obtain ⟨C, hC, hb'⟩ := exists_bound hlo hhi
  exact (add_rounds ha hb hC (hb' _ h1 h2)).between hlo hhi h1 h2

theorem sub_between {a b : F64} (ha : a.isFinite = true) (hb : b.isFinite = true) {lo hi : Int}
    (h1 : (lo : ℚ) ≤ a.toRat - b.toRat) (h2 : a.toRat - b.toRat ≤ hi) (hlo : lo.natAbs < 2 ^ 53)
    (hhi : hi.natAbs < 2 ^ 53) : (a.sub b).Between lo hi := by
  obtain ⟨C, hC, hb'⟩ := exists_bound hlo hhi
  exact (sub_rounds ha hb hC (hb' _ h1 h2)).between hlo hhi h1 h2

theorem mul_between {a b : F64} (ha : a.isFinite = true) (hb : b.isFinite = true) {lo hi : Int}
    (h1 : (lo : ℚ) ≤ a.toRat * b.toRat) (h2 : a.toRat * b.toRat ≤ hi) (hlo : lo.natAbs < 2 ^ 53)
    (hhi : hi.natAbs < 2 ^ 53) : (a.mul b).Between lo hi := by
  obtain ⟨C, hC, hb'⟩ := exists_bound hlo hhi
  exact (mul_rounds ha hb hC (hb' _ h1 h2)).1.between hlo hhi h1 h2

theorem div_between {a b : F64} (ha : a.isFinite = true) (hb : b.isFinite = true) (h0 : b.toRat ≠ 0) {lo hi : Int}
    (h1 : (lo : ℚ) ≤ a.toRat / b.toRat) (h2 : a.toRat / b.toRat ≤ hi) (hlo : lo.natAbs < 2 ^ 53)
    (hhi : hi.natAbs < 2 ^ 53) : (a.div b).Between lo hi := by
  obtain ⟨C, hC, hb'⟩ := exists_bound hlo hhi
  exact (div_rounds ha hb h0 hC (hb' _ h1 h2)).between hlo hhi h1 h2

theorem zero_between : zero.Between 0 0 := ⟨by decide, by decide⟩

theorem one_between : one.Between 1 1 := ⟨by decide, by decide⟩

/-! Comparison with bounds, for any real that is no NaN. -/

/-- A clamped real lies between the bounds. -/
theorem clamp_between {x : F64} (hx : x.isNaN = false) : (x.clamp zero one).Between 0 1 := by
  have e0 : ofInt 0 = zero := by decide
  have e1 : ofInt 1 = one := by decide
  have hz : zero.isNaN = false := by decide
  have ho : one.isNaN = false := by decide
  unfold Between
  rw [e0, e1, clamp_eq (by decide)]
  split
  · exact ⟨by decide, by decide⟩
  · rename_i h1
    split
    · exact ⟨by decide, by decide⟩
    · rename_i h2
      simp only [lt, hx, hz, ho, Bool.not_false, Bool.true_and, decide_eq_true_eq, not_lt] at h1 h2
      simp only [le, hx, hz, ho, Bool.not_false, Bool.true_and, decide_eq_true_eq]
      exact ⟨h1, h2⟩

theorem clamp_of_between {x : F64} (hx : x.Between 0 1) : x.clamp zero one = x := by
  have e0 : ofInt 0 = zero := by decide
  have e1 : ofInt 1 = one := by decide
  obtain ⟨h1, h2⟩ := hx
  rw [e0] at h1
  rw [e1] at h2
  rw [clamp_eq (by decide)]
  simp only [le, Bool.and_eq_true, decide_eq_true_eq] at h1 h2
  have n1 : x.lt zero = false := by
    simp only [lt, Bool.and_eq_false_iff, decide_eq_false_iff_not, not_lt]
    exact .inr h1.2
  have n2 : one.lt x = false := by
    simp only [lt, Bool.and_eq_false_iff, decide_eq_false_iff_not, not_lt]
    exact .inr h2.2
  simp [n1, n2]

/-- A rounded quotient is never a NaN. -/
theorem ofRatio_not_nan (neg : Bool) (num den : Nat) : (ofRatio neg num den).isNaN = false := by
  have hle : fpRound 52 11 num den ≤ 0x7FF0000000000000 := by
    unfold fpRound
    split
    · omega
    · exact min_le_right _ _
  obtain ⟨hm, -⟩ := mag_ofMag (b := fpRound 52 11 num den) (by omega) neg
  rw [isNaN, decide_eq_false_iff_not]
  show ¬ _ < (ofMag neg (fpRound 52 11 num den)).bits.toNat % 2 ^ 63
  rw [hm]
  omega

/-- A quotient of finite reals with a divisor that is not 0 is no NaN, whether it overflows or not. -/
theorem div_not_nan {a b : F64} (ha : a.isFinite = true) (hb : b.isFinite = true) (h0 : b.toRat ≠ 0) :
    (a.div b).isNaN = false := by
  obtain ⟨m, e, hva, -, -⟩ := canon ha
  obtain ⟨m', e', hvb, -, -⟩ := canon hb
  have hm' : m' ≠ 0 := by
    rintro rfl
    apply h0
    rw [toRat, hvb, FpValue.toRat]
    simp
  unfold div
  rw [hva, hvb]
  simp only [if_neg hm']
  exact ofRatio_not_nan _ _ _

theorem lt_zero_iff {x : F64} (hx : x.isFinite = true) : zero.lt x = true ↔ 0 < x.toRat := by
  rw [lt_iff isFinite_zero hx, toRat_zero]

/-- A real that is no NaN and equals 0 denotes 0, and back. -/
theorem eq_zero_iff {x : F64} (hx : x.isFinite = true) : x.eq zero = true ↔ x.toRat = 0 := by
  have h1 := le_iff hx isFinite_zero
  have h2 := le_iff isFinite_zero hx
  rw [toRat_zero] at h1 h2
  have : x.eq zero = (x.le zero && zero.le x) := by
    rw [eq, le, le, isNaN_of_isFinite hx, isNaN_of_isFinite isFinite_zero]
    simp only [Bool.not_false, Bool.true_and]
    rw [Bool.eq_iff_iff]
    simp only [decide_eq_true_eq, Bool.and_eq_true]
    omega
  rw [this, Bool.and_eq_true, h1, h2]
  exact ⟨fun h => le_antisymm h.1 h.2, fun h => ⟨h.le, h.ge⟩⟩

/-! The square root. -/

/-- The square root of a real in [0, 1] lies in [0, 1]. -/
theorem sqrt_between {a : F64} (h : a.Between 0 1) : a.sqrt.Between 0 1 := by
  obtain ⟨hf, h0, h1⟩ := (between_iff (by decide) (by decide) a).mp h
  push_cast at h0 h1
  obtain ⟨m, e, hv, hc, -⟩ := canon hf
  unfold sqrt
  rw [hv]
  dsimp only
  split
  · exact h
  · rename_i hm
    split
    · exfalso
      rename_i hs
      have : a.toRat < 0 := by
        rw [toRat, hv, FpValue.toRat, if_pos hs]
        have : (0 : ℚ) < m * 2 ^ e := mul_pos (by exact_mod_cast Nat.pos_of_ne_zero hm) (by positivity)
        linarith
      linarith
    · rename_i hs
      have hval : (m : ℚ) * 2 ^ e ≤ 1 := by
        have : a.toRat = m * 2 ^ e := by
          rw [toRat, hv, FpValue.toRat, if_neg hs, one_mul]
        linarith
      have he : e ≤ 0 := by
        by_contra hpos
        have h2 : (2 : ℚ) ^ (1 : Int) ≤ 2 ^ e := zpow_le_zpow_right₀ (by norm_num) (by omega)
        have hm1 : (1 : ℚ) ≤ m := by exact_mod_cast Nat.pos_of_ne_zero hm
        have : (1 : ℚ) * 2 ^ (1 : Int) ≤ m * 2 ^ e := by gcongr
        norm_num at this
        linarith
      generalize hodd : (e % 2).toNat = odd
      rw [isqrt_eq]
      generalize hn : m * pow2 (120 + odd) = n
      generalize hE : (e - 120 - odd) / 2 = E
      have hE2 : e - 120 - odd = 2 * E := by omega
      obtain ⟨k, hk⟩ : ∃ k : Nat, E = -(k : Int) := ⟨(-E).toNat, by omega⟩
      have hnle : n ≤ (2 ^ k) * (2 ^ k) := by
        have h2 : (n : ℚ) * 2 ^ (2 * E) ≤ 1 := by
          rw [← hE2, ← hn, pow2_eq]
          push_cast
          rw [mul_assoc, ← zpow_natCast, ← zpow_add₀ (by norm_num)]
          rw [show ((120 + odd : Nat) : Int) + (e - 120 - odd) = e by push_cast; ring]
          exact hval
        have h3 : (2 : ℚ) ^ (2 * E) * (2 ^ k * 2 ^ k) = 1 := by
          rw [hk, ← zpow_natCast, ← zpow_add₀ (by norm_num), ← zpow_add₀ (by norm_num)]
          rw [show 2 * -(k : Int) + (k + k) = 0 by ring, zpow_zero]
        have h4 : (n : ℚ) ≤ 2 ^ k * 2 ^ k := by
          calc (n : ℚ) = n * 2 ^ (2 * E) * (2 ^ k * 2 ^ k) := by rw [mul_assoc, h3, mul_one]
            _ ≤ 1 * (2 ^ k * 2 ^ k) := by gcongr
            _ = _ := one_mul _
        exact_mod_cast h4
      have hsq := Nat.sqrt_le n
      have hr : 2 * n.sqrt + (if n.sqrt * n.sqrt = n then 0 else 1) ≤ 2 * 2 ^ k := by
        split
        · have : n.sqrt ≤ 2 ^ k := by
            by_contra hlt
            have := Nat.mul_lt_mul'' (not_le.mp hlt) (not_le.mp hlt)
            omega
          omega
        · rename_i hne
          have : n.sqrt < 2 ^ k := by
            by_contra hge
            have := Nat.mul_le_mul (not_lt.mp hge) (not_lt.mp hge)
            omega
          omega
      generalize 2 * n.sqrt + (if n.sqrt * n.sqrt = n then 0 else 1) = M at hr ⊢
      have hx1 : (M : ℚ) * 2 ^ (E - 1) ≤ 1 := by
        have hM : (M : ℚ) ≤ 2 * 2 ^ k := by exact_mod_cast hr
        calc (M : ℚ) * 2 ^ (E - 1) ≤ 2 * 2 ^ k * 2 ^ (E - 1) := by gcongr
          _ = 1 := by
            rw [hk, ← zpow_natCast, mul_assoc, ← zpow_add₀ (by norm_num)]
            rw [show (k : Int) + (-(k : Int) - 1) = -1 by ring]
            norm_num
      have hx0 : (0 : ℚ) ≤ M * 2 ^ (E - 1) := by positivity
      have hr := (rounds_ofDyadic false M (E - 1) (C := one) (by decide) (by
        rw [one_eq, (ofNat_exact (by norm_num)).2.1]
        simpa using hx1)).1
      simp only [Bool.false_eq_true, if_false, one_mul] at hr
      exact hr.between (by decide) (by decide) (by simpa using hx0) (by simpa using hx1)

/-! Interpolation (00_scope.md R13). -/

/-- The rounded value of a number below 16 is within 2^-50 of it. -/
theorem ofRatio_near {num den : Nat} (hd : den ≠ 0) (hlt : (num : ℚ) / den < 16) :
    |(ofRatio false num den).toRat - (num : ℚ) / den| ≤ 1 / 2 ^ 50 := by
  have h16 : (16 : ℚ) = (ofNat 16).toRat := by
    rw [(ofNat_exact (by norm_num)).2.1]
    norm_num
  have f16 : (ofNat 16).isFinite = true := (ofNat_exact (by norm_num)).1
  by_cases hn : num = 0
  · subst hn
    have hr := (rounds_ofRatio (num := 0) hd false f16 (by simp)).1
    have e1 := hr.le zero isFinite_zero (by simp [toRat_zero])
    have e2 := hr.ge zero isFinite_zero (by simp [toRat_zero])
    rw [toRat_zero] at e1 e2
    rw [le_antisymm e1 e2]
    simp
  · obtain ⟨hlo, hhi⟩ := fpExponent_spec hn hd
    have hexp : fpExponent num den ≤ 3 := by
      by_contra hgt
      have h4 : (2 : ℚ) ^ (4 : Int) ≤ 2 ^ fpExponent num den := zpow_le_zpow_right₀ (by norm_num) (by omega)
      norm_num at h4
      linarith
    have e64 : fpMinExp 52 11 = -1074 := by decide
    have hq : fpQuantum 52 11 num den ≤ -49 := by
      unfold fpQuantum
      rw [e64]
      omega
    have hql := fpQuantum_low 52 11 num den
    obtain ⟨hhi', hlo'⟩ := quantum_spec (mb := 52) (eb := 11) hn hd
    -- the significand as a number of quanta
    have hnear := roundDivEven_near (num := num * pow2 (-fpQuantum 52 11 num den).toNat) (den_pos hd (fpQuantum 52 11 num den))
    have hquo := quotient_eq (num := num) hd (fpQuantum 52 11 num den)
    have hbits := fpRound_eq (mb := 52) (eb := 11) (den := den) hn
    have hSle : fpSignificand 52 11 num den ≤ 2 ^ 53 := fpSignificand_le hd (by
      push_cast
      have := hhi'.le
      norm_num at this ⊢
      exact this)
    have hSge : fpQuantum 52 11 num den = fpMinExp 52 11 ∨ 2 ^ 52 ≤ fpSignificand 52 11 num den := by
      rcases hlo' with h | h
      · exact .inl h
      · exact .inr (le_fpSignificand hd (by push_cast; exact h))
    change 2 * fpSignificand 52 11 num den * _ ≤ _ ∧ _ ≤ 2 * fpSignificand 52 11 num den * _ + _ at hnear
    generalize fpSignificand 52 11 num den = S at *
    generalize fpQuantum 52 11 num den = q at *
    have hdp := den_pos hd q
    generalize den * pow2 q.toNat = D at *
    generalize num * pow2 (-q).toNat = N at *
    have h2q : (0 : ℚ) < 2 ^ q := by positivity
    have hDq : (0 : ℚ) < D := by exact_mod_cast hdp
    -- the value of the bits
    have hval : (ofRatio false num den).toRat = S * 2 ^ q := by
      obtain ⟨n', q', hc', hx'⟩ : ∃ n' q', FpCanon 52 11 n' q' ∧ (n' : ℚ) * 2 ^ q' = S * 2 ^ q ∧
          n' + (q' - fpMinExp 52 11).toNat * 2 ^ 52 = S + (q - fpMinExp 52 11).toNat * 2 ^ 52 := by
        rcases Nat.lt_or_ge S (2 ^ 53) with hlt | hge
        · refine ⟨S, q, ⟨hql, hlt, ?_, ?_⟩, rfl, rfl⟩
          · rcases hSge with h | h
            · exact .inr h
            · exact .inl h
          · rw [e64]
            norm_num
            omega
        · have : S = 2 ^ 53 := by omega
          refine ⟨2 ^ 52, q + 1, ⟨by omega, by norm_num, .inl le_rfl, ?_⟩, ?_, ?_⟩
          · rw [e64]
            norm_num
            omega
          · rw [this, zpow_add₀ (by norm_num)]
            push_cast
            ring
          · rw [this, e64]
            rw [e64] at hql
            omega
      have hbits' : fpRound 52 11 num den = n' + (q' - fpMinExp 52 11).toNat * 2 ^ 52 := by
        rw [hbits, hx'.2]
        refine min_eq_left ?_
        rw [← hx'.2]
        exact hc'.bound.le
      unfold ofRatio
      rw [hbits', toRat_ofMag hc', hx'.1]
      simp
    have hxq : (num : ℚ) / den = N / D * 2 ^ q := by
      rw [hquo]
      field_simp
    rw [hval, hxq, ← sub_mul, abs_mul, abs_of_pos h2q]
    have hdist : |(S : ℚ) - N / D| ≤ 1 / 2 := by
      have k1 : (2 * S * D : ℚ) ≤ 2 * N + D := by exact_mod_cast hnear.1
      have k2 : (2 * N : ℚ) ≤ 2 * S * D + D := by exact_mod_cast hnear.2
      rw [abs_le]
      constructor
      · rw [neg_le_sub_iff_le_add, div_le_iff₀ hDq]
        linarith
      · rw [sub_le_iff_le_add, ← sub_le_iff_le_add', le_div_iff₀ hDq]
        linarith
    have hqle : (2 : ℚ) ^ q ≤ 2 ^ (-49 : Int) := zpow_le_zpow_right₀ (by norm_num) hq
    calc |(S : ℚ) - N / D| * 2 ^ q ≤ 1 / 2 * 2 ^ (-49 : Int) := by gcongr
      _ = 1 / 2 ^ 50 := by norm_num

/-- A number at most 2^-50 above 15 is rounded to at most 15. -/
theorem ofRatio_le_15 {num den : Nat} (hd : den ≠ 0) (h : (num : ℚ) / den ≤ 15 + 1 / 2 ^ 50) :
    (ofRatio false num den).toRat ≤ 15 := by
  have f15 : (ofNat 15).isFinite = true := (ofNat_exact (by norm_num)).1
  have v15 : (ofNat 15).toRat = 15 := by
    rw [(ofNat_exact (by norm_num)).2.1]
    norm_num
  by_cases hle : (num : ℚ) / den ≤ 15
  · have hr := (rounds_ofRatio hd false f15 (by rw [v15]; simpa using hle)).1
    have := hr.le _ f15 (by rw [v15]; simpa using hle)
    rwa [v15] at this
  · have hn : num ≠ 0 := by
      rintro rfl
      simp at hle
    obtain ⟨hlo, hhi⟩ := fpExponent_spec hn hd
    have hgt := not_le.mp hle
    have hexp : fpExponent num den = 3 := by
      refine exponent_unique hlo hhi ?_ ?_
      · norm_num
        linarith
      · norm_num
        norm_num at h
        linarith
    have e64 : fpMinExp 52 11 = -1074 := by decide
    have hq : fpQuantum 52 11 num den = -49 := by
      unfold fpQuantum
      rw [hexp, e64]
      decide
    have hS : fpSignificand 52 11 num den ≤ 15 * 2 ^ 49 := by
      unfold fpSignificand
      rw [hq]
      refine roundDivEven_le_even (by simpa using Nat.pos_of_ne_zero hd) (by norm_num) ?_
      have hdq : (0 : ℚ) < den := by exact_mod_cast Nat.pos_of_ne_zero hd
      rw [div_le_iff₀ hdq] at h
      have : (2 * (num * 2 ^ 49) : ℚ) ≤ (2 * (15 * 2 ^ 49) + 1) * den := by
        norm_num at h ⊢
        linarith
      have h' : 2 * (num * 2 ^ 49) ≤ (2 * (15 * 2 ^ 49) + 1) * den := by exact_mod_cast this
      simpa using h'
    have hc : FpCanon 52 11 (15 * 2 ^ 49) (-49) := ⟨by rw [e64]; norm_num, by norm_num, .inl (by norm_num), by decide⟩
    have hbits : fpRound 52 11 num den ≤ 15 * 2 ^ 49 + (-49 - fpMinExp 52 11).toNat * 2 ^ 52 := by
      rw [fpRound_eq hn, hq]
      exact (min_le_left _ _).trans (Nat.add_le_add_right hS _)
    have f16 : (ofNat 16).isFinite = true := (ofNat_exact (by norm_num)).1
    have v16 : (ofNat 16).toRat = 16 := by
      rw [(ofNat_exact (by norm_num)).2.1]
      norm_num
    have hr := (rounds_ofRatio hd false f16 (by
      rw [v16]
      norm_num at h ⊢
      linarith)).1
    obtain ⟨n, q, hv, hcn, hb⟩ := canon hr.finite
    have hmag := (mag_ofMag (b := fpRound 52 11 num den) (by
      have : fpRound 52 11 num den ≤ (2 ^ 11 - 1) * 2 ^ 52 := by
        rw [fpRound_eq hn]
        exact min_le_right _ _
      norm_num at this
      omega) false)
    have hb' : n + (q - fpMinExp 52 11).toNat * 2 ^ 52 = fpRound 52 11 num den := hb.trans hmag.1
    have hle' : (n : ℚ) * 2 ^ q ≤ (15 * 2 ^ 49 : Nat) * 2 ^ (-49 : Int) := by
      by_contra hlt
      have := (hc.lt_iff hcn).mp (not_le.mp hlt)
      omega
    rw [toRat, hv, show (ofRatio false num den).sign = false from hmag.2, FpValue.toRat]
    simp only [Bool.false_eq_true, if_false, one_mul]
    refine hle'.trans (le_of_eq ?_)
    norm_num

/-- A sum above 0 is a rounded quotient. -/
theorem add_eq_ofRatio {a b : F64} (ha : a.isFinite = true) (hb : b.isFinite = true) (h : 0 < a.toRat + b.toRat) :
    ∃ num den, den ≠ 0 ∧ a.add b = ofRatio false num den ∧ (num : ℚ) / den = a.toRat + b.toRat := by
  obtain ⟨m, e, hva, -, -⟩ := canon ha
  obtain ⟨m', e', hvb, -, -⟩ := canon hb
  have hsum : ((scaled a.sign m e (Min.min e e') + scaled b.sign m' e' (Min.min e e') : Int) : ℚ) *
      2 ^ Min.min e e' = a.toRat + b.toRat := by
    rw [Int.cast_add, add_mul, scaled_eq _ _ (min_le_left _ _), scaled_eq _ _ (min_le_right _ _), toRat, toRat,
      hva, hvb]
    rfl
  have hadd : a.add b =
      if scaled a.sign m e (Min.min e e') + scaled b.sign m' e' (Min.min e e') = 0 then ofMag (a.sign && b.sign) 0
      else ofDyadic (decide (scaled a.sign m e (Min.min e e') + scaled b.sign m' e' (Min.min e e') < 0))
        (scaled a.sign m e (Min.min e e') + scaled b.sign m' e' (Min.min e e')).natAbs (Min.min e e') := by
    unfold add
    rw [hva, hvb]
  generalize scaled a.sign m e (Min.min e e') + scaled b.sign m' e' (Min.min e e') = v at *
  generalize Min.min e e' = k at *
  have h2 : (0 : ℚ) < 2 ^ k := by positivity
  have hv : 0 < v := by
    rw [← hsum] at h
    exact_mod_cast pos_of_mul_pos_left h h2.le
  refine ⟨v.natAbs * pow2 k.toNat, pow2 (-k).toNat, by simp, ?_, ?_⟩
  · rw [hadd, if_neg hv.ne', decide_eq_false (not_lt.mpr hv.le)]
    rfl
  · have hn : ((v.natAbs : Nat) : ℚ) = v := by
      have : (0 : ℚ) < v := by exact_mod_cast hv
      rw [Nat.cast_natAbs, Int.cast_abs, abs_of_pos this]
    rw [div_eq_iff (by simp), ← hsum, Nat.cast_mul, hn]
    push_cast [pow2_eq]
    rw [← zpow_toNat k]
    ring

/-- The interpolation between two levels in [0, 15] stays in [0, 15]: only the last step can pass 15, by less than
half a unit in the last place, and 15 is even there. -/
theorem lerp_between {a b u : F64} (ha : a.Between 0 15) (hb : b.Between 0 15) (hu : u.Between 0 1) :
    (lerp a b u).Between 0 15 := by
  obtain ⟨fa, a0, a1⟩ := (between_iff (by decide) (by decide) a).mp ha
  obtain ⟨fb, b0, b1⟩ := (between_iff (by decide) (by decide) b).mp hb
  obtain ⟨fu, u0, u1⟩ := (between_iff (by decide) (by decide) u).mp hu
  push_cast at a0 a1 b0 b1 u0 u1
  obtain ⟨fd, d0, d1⟩ := (between_iff (by decide) (by decide) _).mp
    (sub_between fb fa (lo := -15) (hi := 15) (by push_cast; linarith) (by push_cast; linarith) (by decide) (by decide))
  push_cast at d0 d1
  have f15 : (ofNat 15).isFinite = true := (ofNat_exact (by norm_num)).1
  have v15 : (ofNat 15).toRat = 15 := by
    rw [(ofNat_exact (by norm_num)).2.1]
    norm_num
  have hdr : Rounds (b.toRat - a.toRat) (b.sub a) := sub_rounds fb fa f15 (by
    rw [v15, abs_le]
    norm_num
    constructor <;> linarith)
  have hpr : Rounds ((b.sub a).toRat * u.toRat) ((b.sub a).mul u) := (mul_rounds fd fu f15 (by
    rw [v15, abs_le]
    norm_num
    constructor <;> nlinarith)).1
  unfold lerp
  generalize (b.sub a).mul u = p at *
  have fp := hpr.finite
  rcases le_or_gt b.toRat a.toRat with hle | hgt
  · -- downwards
    have hdn : (b.sub a).toRat ≤ 0 := hdr.nonpos (by linarith)
    have hda : -a.toRat ≤ (b.sub a).toRat := by
      have := hdr.ge a.neg ((isFinite_neg a).trans fa) (by rw [toRat_neg fa]; linarith)
      rwa [toRat_neg fa] at this
    have hpn : p.toRat ≤ 0 := hpr.nonpos (mul_nonpos_of_nonpos_of_nonneg hdn u0)
    have hpd : (b.sub a).toRat ≤ p.toRat := hpr.ge _ fd (by nlinarith)
    exact add_between fa fp (by push_cast; linarith) (by push_cast; linarith) (by decide) (by decide)
  · -- upwards
    have hdn : 0 ≤ (b.sub a).toRat := hdr.nonneg (by linarith)
    have hpn : 0 ≤ p.toRat := hpr.nonneg (mul_nonneg hdn u0)
    have hpd : p.toRat ≤ (b.sub a).toRat := hpr.le _ fd (by nlinarith)
    obtain ⟨fs, s0, -⟩ := (between_iff (by decide) (by decide) _).mp
      (add_between fa fp (lo := 0) (hi := 30) (by push_cast; linarith) (by push_cast; linarith) (by decide) (by decide))
    refine (between_iff (by decide) (by decide) _).mpr ⟨fs, s0, ?_⟩
    push_cast
    by_cases hz : a.toRat + p.toRat = 0
    · have h1 : Rounds (a.toRat + p.toRat) (a.add p) := add_rounds fa fp f15 (by rw [v15, hz]; norm_num)
      have h2 := h1.le zero isFinite_zero (by rw [toRat_zero, hz])
      rw [toRat_zero] at h2
      linarith
    · have hpos : 0 < a.toRat + p.toRat := lt_of_le_of_ne (by linarith) (Ne.symm hz)
      obtain ⟨num, den, hd, he, hq⟩ := add_eq_ofRatio fa fp hpos
      rw [he]
      refine ofRatio_le_15 hd ?_
      rw [hq]
      -- the distance of the difference from its exact value
      have fna := (isFinite_neg a).trans fa
      obtain ⟨num', den', hd', he', hq'⟩ := add_eq_ofRatio fb fna (by rw [toRat_neg fa]; linarith)
      rw [toRat_neg fa] at hq'
      have hn := ofRatio_near (num := num') hd' (by rw [hq']; linarith)
      rw [← he', ← sub_eq_add fa, hq', abs_le] at hn
      linarith [hn.2]

/-- A segment of positive length is between its ends wherever the time stands. -/
theorem lerpSeg_between {a b t t0 len : F64} (ha : a.Between 0 15) (hb : b.Between 0 15) (hsub : (t.sub t0).isFinite = true) (hl : len.isFinite = true)
    (hpos : zero.lt len = true) : (lerpSeg a b t t0 len).Between 0 15 := by
  unfold lerpSeg
  rw [if_pos hpos]
  refine lerp_between ha hb (clamp_between (div_not_nan hsub hl ?_))
  exact ((lt_zero_iff hl).mp hpos).ne'

/-! Products with 0, and the last rounding. -/

theorem mul_zero_toRat {a b : F64} (ha : a.isFinite = true) (hb : b.isFinite = true)
    (h : a.toRat = 0 ∨ b.toRat = 0) : (a.mul b).isFinite = true ∧ (a.mul b).toRat = 0 := by
  have hz : a.toRat * b.toRat = 0 := mul_eq_zero.mpr h
  have hb' := mul_between ha hb (lo := 0) (hi := 0) (by rw [hz]; simp) (by rw [hz]; simp) (by decide) (by decide)
  obtain ⟨f, h1, h2⟩ := (between_iff (by decide) (by decide) _).mp hb'
  exact ⟨f, le_antisymm (by simpa using h2) (by simpa using h1)⟩

theorem roundh_of_zero {x : F64} (hx : x.isFinite = true) (h : x.toRat = 0) : x.roundh = 0 := by
  obtain ⟨n, q, hv, -, -⟩ := canon hx
  have hn : n = 0 := by
    rw [toRat, hv, FpValue.toRat] at h
    have h2 : (2 : ℚ) ^ q ≠ 0 := by positivity
    have : (n : ℚ) * 2 ^ q = 0 := by
      revert h
      generalize (n : ℚ) * 2 ^ q = z
      cases x.sign <;> simp
    exact_mod_cast (mul_eq_zero.mp this).resolve_right h2
  unfold roundh
  rw [hv, hn]
  simp only [Nat.zero_mul, Nat.mul_zero, Nat.zero_add]
  have hd : pow2 (-q).toNat / (2 * pow2 (-q).toNat) = 0 := Nat.div_eq_of_lt (by
    have : 0 < pow2 (-q).toNat := Nat.two_pow_pos _
    omega)
  rw [hd]
  split <;> rfl

/-- A real whose magnitude binary32 reaches is a finite binary32 once rounded. -/
theorem toF32_finite {x : F64} (hx : x.Between (-1048576) 1048576) : F32.finite x.toF32 := by
  obtain ⟨f, h1, h2⟩ := (between_iff (by decide) (by decide) x).mp hx
  obtain ⟨m, e, hv, -, -⟩ := canon f
  have habs : (m : ℚ) * 2 ^ e ≤ 2 ^ 20 := by
    rw [← abs_toRat hv, abs_le]
    push_cast at h1 h2
    constructor <;> linarith
  have hq : ((m * pow2 e.toNat : Nat) : ℚ) / ((pow2 (-e).toNat : Nat) : ℚ) = m * 2 ^ e := by
    rw [div_eq_iff (by simp)]
    push_cast [pow2_eq]
    rw [← zpow_toNat e]
    ring
  have hc : FpCanon 23 8 (2 ^ 23) (-3) := ⟨by decide, by decide, .inl le_rfl, by decide⟩
  have hle := fpRound_le (num := m * pow2 e.toNat) (den := pow2 (-e).toNat) (by simp) hc (by
    rw [hq]
    norm_num
    norm_num at habs
    exact habs)
  unfold F32.finite toF32
  rw [hv]
  dsimp only
  generalize fpRound 23 8 (m * pow2 e.toNat) (pow2 (-e).toNat) = B at hle
  have e32 : fpMinExp 23 8 = -149 := by decide
  rw [e32] at hle
  norm_num at hle
  intro hcon
  have := congrArg BitVec.toNat hcon
  rw [BitVec.extractLsb'_toNat, BitVec.toNat_ofNat, Nat.shiftRight_eq_div_pow] at this
  have hs : (if x.sign = true then pow2 31 else 0) = 0 ∨ (if x.sign = true then pow2 31 else 0) = 2 ^ 31 := by
    split
    · exact .inr rfl
    · exact .inl rfl
  generalize (if x.sign = true then pow2 31 else 0) = s at *
  rw [show (255#8).toNat = 255 from rfl] at this
  omega

end F64

end Sys2Proof
end

