-- ==== Sys2Proof/Laws/State.lean ====
section
/-! SUPPORT. One lemma per field per update of the state: what each operation that changes the state leaves in
every field. -/

namespace Sys2Proof.Machine

variable (s : State)

@[simp] theorem State.raise_cmd (b : ErrorBit) : (s.raise b).cmd = s.cmd := rfl
@[simp] theorem State.raise_resp (b : ErrorBit) : (s.raise b).resp = s.resp := rfl
@[simp] theorem State.raise_out (b : ErrorBit) : (s.raise b).out = s.out := rfl
@[simp] theorem State.raise_err (b : ErrorBit) : (s.raise b).err = s.err.set b := rfl
@[simp] theorem State.raise_cfg (b : ErrorBit) : (s.raise b).cfg = s.cfg := rfl
@[simp] theorem State.raise_chip (b : ErrorBit) : (s.raise b).chip = s.chip := rfl
@[simp] theorem State.raise_patch (b : ErrorBit) : (s.raise b).patch = s.patch := rfl
@[simp] theorem State.raise_eng (b : ErrorBit) : (s.raise b).eng = s.eng := rfl

@[simp] theorem State.respond_cmd (w : Word) : (s.respond w).cmd = s.cmd := rfl
@[simp] theorem State.respond_resp (w : Word) : (s.respond w).resp = s.resp ++ [w] := rfl
@[simp] theorem State.respond_out (w : Word) : (s.respond w).out = s.out := rfl
@[simp] theorem State.respond_err (w : Word) : (s.respond w).err = s.err := rfl
@[simp] theorem State.respond_cfg (w : Word) : (s.respond w).cfg = s.cfg := rfl
@[simp] theorem State.respond_chip (w : Word) : (s.respond w).chip = s.chip := rfl
@[simp] theorem State.respond_patch (w : Word) : (s.respond w).patch = s.patch := rfl
@[simp] theorem State.respond_eng (w : Word) : (s.respond w).eng = s.eng := rfl

@[simp] theorem State.emit_cmd (l r : F64) : (s.emit l r).cmd = s.cmd := rfl
@[simp] theorem State.emit_resp (l r : F64) : (s.emit l r).resp = s.resp := rfl
@[simp] theorem State.emit_out (l r : F64) : (s.emit l r).out = s.out ++ [(l.toF32, r.toF32)] := rfl
@[simp] theorem State.emit_err (l r : F64) : (s.emit l r).err = s.err := rfl
@[simp] theorem State.emit_cfg (l r : F64) : (s.emit l r).cfg = s.cfg := rfl
@[simp] theorem State.emit_chip (l r : F64) : (s.emit l r).chip = s.chip := rfl
@[simp] theorem State.emit_patch (l r : F64) : (s.emit l r).patch = s.patch := rfl
@[simp] theorem State.emit_eng (l r : F64) : (s.emit l r).eng = s.eng := rfl

@[simp] theorem State.clearErrors_cmd : (s.clearErrors).cmd = s.cmd := rfl
@[simp] theorem State.clearErrors_resp : (s.clearErrors).resp = s.resp := rfl
@[simp] theorem State.clearErrors_out : (s.clearErrors).out = s.out := rfl
@[simp] theorem State.clearErrors_err : (s.clearErrors).err = {} := rfl
@[simp] theorem State.clearErrors_cfg : (s.clearErrors).cfg = s.cfg := rfl
@[simp] theorem State.clearErrors_chip : (s.clearErrors).chip = s.chip := rfl
@[simp] theorem State.clearErrors_patch : (s.clearErrors).patch = s.patch := rfl
@[simp] theorem State.clearErrors_eng : (s.clearErrors).eng = s.eng := rfl

@[simp] theorem State.hostWrite_cmd (ws : List Word) : (s.hostWrite ws).cmd = s.cmd ++ ws := rfl
@[simp] theorem State.hostWrite_resp (ws : List Word) : (s.hostWrite ws).resp = s.resp := rfl
@[simp] theorem State.hostWrite_out (ws : List Word) : (s.hostWrite ws).out = s.out := rfl
@[simp] theorem State.hostWrite_err (ws : List Word) : (s.hostWrite ws).err = s.err := rfl
@[simp] theorem State.hostWrite_cfg (ws : List Word) : (s.hostWrite ws).cfg = s.cfg := rfl
@[simp] theorem State.hostWrite_chip (ws : List Word) : (s.hostWrite ws).chip = s.chip := rfl
@[simp] theorem State.hostWrite_patch (ws : List Word) : (s.hostWrite ws).patch = s.patch := rfl
@[simp] theorem State.hostWrite_eng (ws : List Word) : (s.hostWrite ws).eng = s.eng := rfl

@[simp] theorem State.resetWith_cmd (p : Params) : (State.resetWith p).cmd = [] := rfl
@[simp] theorem State.resetWith_resp (p : Params) : (State.resetWith p).resp = [] := rfl
@[simp] theorem State.resetWith_out (p : Params) : (State.resetWith p).out = [] := rfl
@[simp] theorem State.resetWith_err (p : Params) : (State.resetWith p).err = {} := rfl
@[simp] theorem State.resetWith_cfg (p : Params) : (State.resetWith p).cfg = {} := rfl
@[simp] theorem State.resetWith_chip (p : Params) : (State.resetWith p).chip = Chip.reset p := rfl
@[simp] theorem State.resetWith_patch (p : Params) : (State.resetWith p).patch = [] := rfl
@[simp] theorem State.resetWith_eng (p : Params) : (State.resetWith p).eng = {} := rfl

@[simp] theorem State.resetKeepingPorts_cmd (p : Params) : (s.resetKeepingPorts p).cmd = s.cmd := rfl
@[simp] theorem State.resetKeepingPorts_resp (p : Params) : (s.resetKeepingPorts p).resp = s.resp := rfl
@[simp] theorem State.resetKeepingPorts_out (p : Params) : (s.resetKeepingPorts p).out = s.out := rfl
@[simp] theorem State.resetKeepingPorts_err (p : Params) : (s.resetKeepingPorts p).err = {} := rfl
@[simp] theorem State.resetKeepingPorts_cfg (p : Params) : (s.resetKeepingPorts p).cfg = {} := rfl
@[simp] theorem State.resetKeepingPorts_chip (p : Params) : (s.resetKeepingPorts p).chip = Chip.reset p := rfl
@[simp] theorem State.resetKeepingPorts_patch (p : Params) : (s.resetKeepingPorts p).patch = [] := rfl
@[simp] theorem State.resetKeepingPorts_eng (p : Params) : (s.resetKeepingPorts p).eng = {} := rfl

@[simp] theorem State.withFetchWord_cmd (n w : Nat) : (s.withFetchWord n w).cmd = (tableWords n w).1 :: (tableWords n w).2 :: s.cmd := rfl
@[simp] theorem State.withFetchWord_resp (n w : Nat) : (s.withFetchWord n w).resp = s.resp := rfl
@[simp] theorem State.withFetchWord_out (n w : Nat) : (s.withFetchWord n w).out = s.out := rfl
@[simp] theorem State.withFetchWord_err (n w : Nat) : (s.withFetchWord n w).err = s.err := rfl
@[simp] theorem State.withFetchWord_cfg (n w : Nat) : (s.withFetchWord n w).cfg = s.cfg := rfl
@[simp] theorem State.withFetchWord_chip (n w : Nat) : (s.withFetchWord n w).chip = s.chip := rfl
@[simp] theorem State.withFetchWord_patch (n w : Nat) : (s.withFetchWord n w).patch = s.patch := rfl
@[simp] theorem State.withFetchWord_eng (n w : Nat) : (s.withFetchWord n w).eng = s.eng := rfl

variable (c : Chip)

@[simp] theorem Chip.onTone_tones (k : Fin 3) (g : ToneChannel → ToneChannel) : (c.onTone k g).tones = c.tones.set k (g (c.tones.get k)) := rfl
@[simp] theorem Chip.onTone_noise (k : Fin 3) (g : ToneChannel → ToneChannel) : (c.onTone k g).noise = c.noise := rfl
@[simp] theorem Chip.onTone_env (k : Fin 3) (g : ToneChannel → ToneChannel) : (c.onTone k g).env = c.env := rfl
@[simp] theorem Chip.onTone_acc (k : Fin 3) (g : ToneChannel → ToneChannel) : (c.onTone k g).acc = c.acc := rfl
@[simp] theorem Chip.onTone_firL (k : Fin 3) (g : ToneChannel → ToneChannel) : (c.onTone k g).firL = c.firL := rfl
@[simp] theorem Chip.onTone_firR (k : Fin 3) (g : ToneChannel → ToneChannel) : (c.onTone k g).firR = c.firR := rfl
@[simp] theorem Chip.onTone_dcL (k : Fin 3) (g : ToneChannel → ToneChannel) : (c.onTone k g).dcL = c.dcL := rfl
@[simp] theorem Chip.onTone_dcR (k : Fin 3) (g : ToneChannel → ToneChannel) : (c.onTone k g).dcR = c.dcR := rfl

@[simp] theorem Chip.tick_tones (p : Params) : (c.tick p).tones = c.tones.map ToneChannel.tick := rfl
@[simp] theorem Chip.tick_noise (p : Params) : (c.tick p).noise = c.noise.tick p := rfl
@[simp] theorem Chip.tick_env (p : Params) : (c.tick p).env = c.env.tick := rfl
@[simp] theorem Chip.tick_acc (p : Params) : (c.tick p).acc = c.acc := rfl
@[simp] theorem Chip.tick_firL (p : Params) : (c.tick p).firL = c.firL := rfl
@[simp] theorem Chip.tick_firR (p : Params) : (c.tick p).firR = c.firR := rfl
@[simp] theorem Chip.tick_dcL (p : Params) : (c.tick p).dcL = c.dcL := rfl
@[simp] theorem Chip.tick_dcR (p : Params) : (c.tick p).dcR = c.dcR := rfl

@[simp] theorem Chip.firPush_tones (x : F64 × F64) : (c.firPush x).tones = c.tones := rfl
@[simp] theorem Chip.firPush_noise (x : F64 × F64) : (c.firPush x).noise = c.noise := rfl
@[simp] theorem Chip.firPush_env (x : F64 × F64) : (c.firPush x).env = c.env := rfl
@[simp] theorem Chip.firPush_acc (x : F64 × F64) : (c.firPush x).acc = c.acc := rfl
@[simp] theorem Chip.firPush_firL (x : F64 × F64) : (c.firPush x).firL = shiftIn x.1 c.firL := rfl
@[simp] theorem Chip.firPush_firR (x : F64 × F64) : (c.firPush x).firR = shiftIn x.2 c.firR := rfl
@[simp] theorem Chip.firPush_dcL (x : F64 × F64) : (c.firPush x).dcL = c.dcL := rfl
@[simp] theorem Chip.firPush_dcR (x : F64 × F64) : (c.firPush x).dcR = c.dcR := rfl

/-! The channel records. -/

@[simp] theorem Tones.get_set_same (t : Tones) (k : Fin 3) (x : ToneChannel) : (t.set k x).get k = x := by
  fin_cases k <;> rfl

@[simp] theorem Tones.get_set_other (t : Tones) (k j : Fin 3) (x : ToneChannel) (h : j ≠ k) :
    (t.set k x).get j = t.get j := by
  fin_cases k <;> fin_cases j <;> first | rfl | exact absurd rfl h

@[simp] theorem Tones.get_map (t : Tones) (f : ToneChannel → ToneChannel) (k : Fin 3) :
    (t.map f).get k = f (t.get k) := by
  fin_cases k <;> rfl

@[simp] theorem Tones.set_set (t : Tones) (k : Fin 3) (x y : ToneChannel) : (t.set k x).set k y = t.set k y := by
  fin_cases k <;> rfl

/-- Two channel files with the same three records are the same. -/
theorem Tones.ext_get {t u : Tones} (h : ∀ k, t.get k = u.get k) : t = u := by
  cases t
  cases u
  have h0 := h 0
  have h1 := h 1
  have h2 := h 2
  simp only [Tones.get] at h0 h1 h2
  simp [h0, h1, h2]

end Sys2Proof.Machine
end

