-- ==== Sys2Proof/Laws/Chip.lean ====
section
/-! SUPPORT. The chip: what a tick, a sub-sample and a sample do to it, and that they keep `Chip.Inv`. -/

namespace Sys2Proof.Machine

/-! The generators. -/

@[simp] theorem ToneChannel.effPeriod_pos (t : ToneChannel) : 0 < t.effPeriod := by
  unfold ToneChannel.effPeriod
  omega

theorem ToneChannel.effPeriod_le (t : ToneChannel) : t.effPeriod ≤ 4095 := by
  unfold ToneChannel.effPeriod
  have := t.period.isLt
  omega

/-- What a tone tick does (R163): it counts, or it toggles the bit and starts again from 0. -/
theorem ToneChannel.tick_cases (t : ToneChannel) :
    (t.counter.toNat + 1 < t.effPeriod ∧ t.tick = { t with counter := t.counter + 1 }) ∨
      (t.effPeriod ≤ t.counter.toNat + 1 ∧ t.tick = { t with counter := 0, bit := !t.bit }) := by
  unfold ToneChannel.tick
  by_cases h : t.effPeriod ≤ t.counter.toNat + 1
  · exact .inr ⟨h, if_pos h⟩
  · refine .inl ⟨by omega, ?_⟩
    simp only [if_neg h]
    congr 1

theorem ToneChannel.tick_frame (t : ToneChannel) : ∃ n b, t.tick = { t with counter := n, bit := b } := by
  rcases t.tick_cases with ⟨-, h⟩ | ⟨-, h⟩
  · exact ⟨t.counter + 1, t.bit, h⟩
  · exact ⟨0, !t.bit, h⟩

@[simp] theorem ToneChannel.tick_effPeriod (t : ToneChannel) : t.tick.effPeriod = t.effPeriod := by
  obtain ⟨n, b, h⟩ := t.tick_frame
  rw [h]
  rfl

/-- After a tick the counter is below the effective period (R163). -/
theorem ToneChannel.tick_counter_lt (t : ToneChannel) : t.tick.counter.toNat < t.effPeriod := by
  rcases t.tick_cases with ⟨h, ht⟩ | ⟨h, ht⟩ <;> rw [ht]
  · show (t.counter + 1).toNat < t.effPeriod
    rw [BitVec.toNat_add]
    exact lt_of_le_of_lt (Nat.mod_le _ _) (by simpa using h)
  · exact t.effPeriod_pos

/-- The tick position that TONE_PHASE takes lies in the square period (R148). -/
theorem phasePosition_lt {period : Nat} (h : 0 < period) (x : F64) : phasePosition period x < 2 * period := by
  unfold phasePosition
  omega

theorem ToneChannel.setPhase_frame (t : ToneChannel) (x : F64) :
    ∃ n b, t.setPhase x = { t with counter := n, bit := b } := by
  unfold ToneChannel.setPhase
  dsimp only
  split
  · exact ⟨_, _, rfl⟩
  · exact ⟨_, _, rfl⟩

theorem ToneChannel.setPhase_counter_lt (t : ToneChannel) (x : F64) :
    (t.setPhase x).counter.toNat < t.effPeriod := by
  have hpos := phasePosition_lt t.effPeriod_pos (x.clamp F64.zero F64.one)
  have hle := t.effPeriod_le
  unfold ToneChannel.setPhase
  dsimp only
  split
  · simp only [BitVec.toNat_ofNat]
    exact lt_of_le_of_lt (Nat.mod_le _ _) ‹_›
  · simp only [BitVec.toNat_ofNat]
    exact lt_of_le_of_lt (Nat.mod_le _ _) (by omega)

/-- A shift never gives 0 from another register (R164). -/
theorem lfsrShift_ne_zero {l : BitVec 17} (h : l ≠ 0) : lfsrShift l ≠ 0 := by
  intro hz
  apply h
  have bit : ∀ i, (lfsrShift l).getLsbD i = false := by simp [hz]
  apply BitVec.eq_of_getLsbD_eq
  intro i hi
  have h16 := bit 16
  have hi1 := bit (i - 1)
  simp only [lfsrShift, BitVec.getLsbD_or, BitVec.getLsbD_ushiftRight, BitVec.getLsbD_shiftLeft,
    BitVec.getLsbD_and, BitVec.getLsbD_xor, Bool.or_eq_false_iff] at h16 hi1
  have h3 := bit 2
  simp only [lfsrShift, BitVec.getLsbD_or, BitVec.getLsbD_ushiftRight, Bool.or_eq_false_iff] at h3
  rcases Nat.eq_zero_or_pos i with rfl | hpos
  · have := h16.2
    simp at this
    have h33 := h3.1
    simp at h33
    simpa [h33] using this
  · have := hi1.1
    rw [show 1 + (i - 1) = i by omega] at this
    simpa using this

theorem NoiseGen.tick_cases (p : Params) (g : NoiseGen) :
    (g.counter.toNat + 1 < p.noiseDiv * max g.period.toNat 1 ∧
        g.tick p = { g with counter := BitVec.ofNat 8 (g.counter.toNat + 1) }) ∨
      (p.noiseDiv * max g.period.toNat 1 ≤ g.counter.toNat + 1 ∧
        g.tick p = { g with counter := 0, lfsr := lfsrShift g.lfsr }) := by
  unfold NoiseGen.tick
  by_cases h : p.noiseDiv * max g.period.toNat 1 ≤ g.counter.toNat + 1
  · exact .inr ⟨h, if_pos h⟩
  · exact .inl ⟨by omega, if_neg h⟩

theorem EnvGen.action_frame (e : EnvGen) : ∃ s l, e.action = { e with segment := s, level := l } := by
  refine ⟨e.action.segment, e.action.level, ?_⟩
  unfold EnvGen.action EnvGen.nextSlot
  cases envSeg e.shape e.segment <;> dsimp only <;> (try split) <;> rfl

/-- What an envelope tick does (R165). -/
theorem EnvGen.tick_cases (e : EnvGen) :
    (e.counter.toNat + 1 < max e.period.toNat 1 ∧
        e.tick = { e with counter := BitVec.ofNat 16 (e.counter.toNat + 1) }) ∨
      (max e.period.toNat 1 ≤ e.counter.toNat + 1 ∧ e.tick = ({ e with counter := 0 } : EnvGen).action) := by
  unfold EnvGen.tick
  by_cases h : max e.period.toNat 1 ≤ e.counter.toNat + 1
  · exact .inr ⟨h, if_pos h⟩
  · exact .inl ⟨by omega, if_neg h⟩

/-! The histories. -/

theorem shiftIn_length {x : F64} {h : List F64} (hh : h ≠ []) : (shiftIn x h).length = h.length := by
  have := List.length_pos_iff.mpr hh
  simp [shiftIn]
  omega

theorem shiftIn_of_length {x : F64} {h : List F64} {n : Nat} (hn : 0 < n) (hh : h.length = n) :
    (shiftIn x h).length = n := by
  rw [shiftIn_length (by rintro rfl; simp at hh; omega), hh]

/-! The rounds of R161. -/

/-- The chip after k ticks that each take 1.0 from the accumulator. -/
def Chip.ticks (p : Params) : Nat → Chip → Chip
  | 0, chip => chip
  | n + 1, chip => Chip.ticks p n (Chip.tick p chip)

theorem Chip.ticks_acc (p : Params) (n : Nat) (chip : Chip) (a : F64) :
    Chip.ticks p n { chip with acc := a } = { Chip.ticks p n chip with acc := a } := by
  induction n generalizing chip with
  | zero => rfl
  | succ n ih => exact ih (Chip.tick p chip)

/-- The while loop of R161 takes some number of ticks and changes the accumulator, nothing else. -/
theorem Chip.runTicks_eq (p : Params) (n : Nat) (chip : Chip) :
    ∃ k a, Chip.runTicks p n chip = { Chip.ticks p k chip with acc := a } := by
  induction n generalizing chip with
  | zero => exact ⟨0, chip.acc, rfl⟩
  | succ n ih =>
    unfold Chip.runTicks
    split
    · obtain ⟨k, a, h⟩ := ih (Chip.tick p { chip with acc := chip.acc.sub F64.one })
      refine ⟨k + 1, a, h.trans ?_⟩
      have h1 : Chip.tick p { chip with acc := chip.acc.sub F64.one } =
          { Chip.tick p chip with acc := chip.acc.sub F64.one } := rfl
      rw [h1, Chip.ticks_acc]
      rfl
    · exact ⟨0, chip.acc, rfl⟩

theorem Chip.advance_eq (p : Params) (step : F64) (chip : Chip) :
    ∃ k a, Chip.advance p step chip = { Chip.ticks p k chip with acc := a } := by
  obtain ⟨k, a, h⟩ := Chip.runTicks_eq p (chip.acc.add step).floor.toNat { chip with acc := chip.acc.add step }
  refine ⟨k, a, h.trans ?_⟩
  rw [Chip.ticks_acc]

theorem Chip.tick_withAcc (p : Params) (chip : Chip) (a : F64) :
    Chip.tick p { chip with acc := a } = { Chip.tick p chip with acc := a } := rfl

/-- With the accumulator from 0 up to 2^53, the loop takes floor(acc) ticks and leaves frac(acc) (R161). -/
theorem Chip.runTicks_exact (p : Params) (n : Nat) (chip : Chip) (hf : chip.acc.isFinite = true)
    (h0 : 0 ≤ chip.acc.toRat) (hlt : chip.acc.toRat < 2 ^ 53) (hn : ⌊chip.acc.toRat⌋ = n) :
    Chip.runTicks p n chip = { Chip.ticks p n chip with acc := chip.acc.frac } := by
  induction n generalizing chip with
  | zero =>
    have h1 : chip.acc.toRat < 1 := by
      have := Int.lt_floor_add_one chip.acc.toRat
      rw [hn] at this
      simpa using this
    rw [F64.frac_of_lt_one hf h0 h1]
    rfl
  | succ n ih =>
    have h1 : 1 ≤ chip.acc.toRat := by
      have := Int.floor_le chip.acc.toRat
      rw [hn] at this
      push_cast at this
      have : (0 : ℚ) ≤ n := by positivity
      linarith
    have hone : F64.one.isFinite = true := by decide
    have hov : F64.one.toRat = 1 := by
      rw [F64.one_eq, (F64.ofNat_exact (by norm_num)).2.1]
      simp
    obtain ⟨hf', hv, -⟩ := F64.sub_ofNat_exact hf (m := 1) (by simpa using h1) hlt
    rw [← F64.one_eq] at hf' hv
    rw [Chip.runTicks, if_pos ((F64.le_iff hone hf).mpr (by rw [hov]; exact h1)), ih]
    · show ({ Chip.ticks p n (Chip.tick p { chip with acc := chip.acc.sub F64.one }) with
        acc := (chip.acc.sub F64.one).frac } : Chip) = _
      rw [F64.frac_sub_one hf h1 hlt, Chip.tick_withAcc, Chip.ticks_acc]
      rfl
    · exact hf'
    · show 0 ≤ (chip.acc.sub F64.one).toRat
      rw [hv]
      push_cast
      linarith
    · show (chip.acc.sub F64.one).toRat < _
      rw [hv]
      push_cast
      linarith
    · show ⌊(chip.acc.sub F64.one).toRat⌋ = _
      rw [hv, Nat.cast_one, Int.floor_sub_one, hn]
      push_cast
      ring

/-! The invariant. -/

theorem Chip.Inv.onTone {p : Params} {chip : Chip} (h : chip.Inv p) (c : Fin 3) (f : ToneChannel → ToneChannel)
    (hf : (f (chip.tones.get c)).counter.toNat ≤ 4094) : (chip.onTone c f).Inv p where
  firL := h.firL
  firR := h.firR
  dcL := h.dcL
  dcR := h.dcR
  counters k := by
    by_cases hk : k = c
    · subst hk
      simpa using hf
    · simpa [hk] using h.counters k
  noiseCounter := h.noiseCounter
  lfsr := h.lfsr

/-- The chip after power-on reset and after a CONFIGURE. -/
theorem Chip.Inv.reset {p : Params} (hn : 0 < p.noiseDiv) : (Chip.reset p).Inv p where
  firL := by simp [Chip.reset]
  firR := by simp [Chip.reset]
  dcL := by simp [Chip.reset]
  dcR := by simp [Chip.reset]
  counters k := by fin_cases k <;> exact Nat.zero_le _
  noiseCounter := by simpa [Chip.reset] using hn
  lfsr := by simp [Chip.reset]

/-- The defaults of the OPEN parameters lie in their ranges. -/
theorem params_ok : params.Ok where
  taps := by decide +kernel
  dcN := by decide
  noiseDiv := by decide
  noiseDivMax := by decide
  dacYm := by decide
  dacAy := by decide

theorem Chip.Inv.tick {p : Params} {chip : Chip} (hp : p.Ok) (h : chip.Inv p) : (Chip.tick p chip).Inv p where
  firL := h.firL
  firR := h.firR
  dcL := h.dcL
  dcR := h.dcR
  counters k := by
    have h1 := (chip.tones.get k).tick_counter_lt
    have h2 := (chip.tones.get k).effPeriod_le
    simp only [Chip.tick_tones, Tones.get_map]
    omega
  noiseCounter := by
    have hper := chip.noise.period.isLt
    have hmul : p.noiseDiv * max chip.noise.period.toNat 1 ≤ p.noiseDiv * 31 := Nat.mul_le_mul_left _ (by omega)
    have hpos := hp.noiseDiv
    simp only [Chip.tick_noise]
    rcases chip.noise.tick_cases p with ⟨h1, h2⟩ | ⟨h1, h2⟩ <;> rw [h2]
    · simp only [BitVec.toNat_ofNat]
      exact lt_of_le_of_lt (Nat.mod_le _ _) (by omega)
    · show 0 < _
      omega
  lfsr := by
    simp only [Chip.tick_noise]
    rcases chip.noise.tick_cases p with ⟨-, h2⟩ | ⟨-, h2⟩ <;> rw [h2]
    · exact h.lfsr
    · exact lfsrShift_ne_zero h.lfsr

theorem Chip.Inv.ticks {p : Params} {chip : Chip} (hp : p.Ok) (h : chip.Inv p) (n : Nat) :
    (Chip.ticks p n chip).Inv p := by
  induction n generalizing chip with
  | zero => exact h
  | succ n ih => exact ih (h.tick hp)

theorem Chip.Inv.advance {p : Params} {chip : Chip} (hp : p.Ok) (h : chip.Inv p) (step : F64) :
    (Chip.advance p step chip).Inv p := by
  obtain ⟨k, a, heq⟩ := Chip.advance_eq p step chip
  rw [heq]
  have := h.ticks hp k
  exact ⟨this.firL, this.firR, this.dcL, this.dcR, this.counters, this.noiseCounter, this.lfsr⟩

theorem Chip.Inv.firPush {p : Params} {chip : Chip} (hp : p.Ok) (h : chip.Inv p) (lr : F64 × F64) :
    (chip.firPush lr).Inv p where
  firL := shiftIn_of_length hp.taps h.firL
  firR := shiftIn_of_length hp.taps h.firR
  dcL := h.dcL
  dcR := h.dcR
  counters := h.counters
  noiseCounter := h.noiseCounter
  lfsr := h.lfsr

theorem Chip.Inv.subSamples {p : Params} {chip : Chip} (hp : p.Ok) (h : chip.Inv p) (cfg : Cfg) (n : Nat) :
    (Chip.subSamples p cfg n chip).Inv p := by
  induction n generalizing chip with
  | zero => exact h
  | succ n ih => exact ih ((h.advance hp cfg.step).firPush hp _)

/-- One sample keeps the invariant. -/
theorem Chip.Inv.chipSample {p : Params} {chip : Chip} (hp : p.Ok) (h : chip.Inv p) (cfg : Cfg) :
    (chipSample p cfg chip).2.Inv p := by
  have hs := h.subSamples hp cfg 8
  exact {
    firL := hs.firL
    firR := hs.firR
    dcL := shiftIn_of_length hp.dcN hs.dcL
    dcR := shiftIn_of_length hp.dcN hs.dcR
    counters := hs.counters
    noiseCounter := hs.noiseCounter
    lfsr := hs.lfsr }

end Sys2Proof.Machine
end

