-- ==== Sys2Proof/Laws/Voice.lean ====
section
/-! SUPPORT. What a voice tick does, whole (`voiceTick_whole`), and what it leaves as it is: the fields of the voice that
only the Engine writes, and everything of the chip but the voice's own channel and the registers of the shared
generators. -/

namespace Sys2Proof.Machine

/-- The fields of a voice that no tick writes (R200 to R233). -/
structure Voice.SameNote (v w : Voice) : Prop where
  serial : w.serial = v.serial
  chan : w.chan = v.chan
  pitch : w.pitch = v.pitch
  velocity : w.velocity = v.velocity
  noteOn : w.noteOn = v.noteOn
  relLevel : w.relLevel = v.relLevel
  portaSrc : w.portaSrc = v.portaSrc

theorem Voice.SameNote.refl (v : Voice) : v.SameNote v := ⟨rfl, rfl, rfl, rfl, rfl, rfl, rfl⟩

theorem Voice.SameNote.trans {u v w : Voice} (h : u.SameNote v) (k : v.SameNote w) : u.SameNote w :=
  ⟨k.serial.trans h.serial, k.chan.trans h.chan, k.pitch.trans h.pitch, k.velocity.trans h.velocity,
    k.noteOn.trans h.noteOn, k.relLevel.trans h.relLevel, k.portaSrc.trans h.portaSrc⟩

/-- What the writes of a voice on channel c leave of the chip (R231, R232). -/
structure Chip.VoiceWrite (c : Fin 3) (chip chip' : Chip) : Prop where
  tones : ∀ k, k ≠ c → chip'.tones.get k = chip.tones.get k
  counter : (chip.tones.get c).counter.toNat ≤ 4094 → (chip'.tones.get c).counter.toNat ≤ 4094
  noiseCounter : chip'.noise.counter = chip.noise.counter
  lfsr : chip'.noise.lfsr = chip.noise.lfsr
  acc : chip'.acc = chip.acc
  firL : chip'.firL = chip.firL
  firR : chip'.firR = chip.firR
  dcL : chip'.dcL = chip.dcL
  dcR : chip'.dcR = chip.dcR

theorem Chip.VoiceWrite.inv {p : Params} {c : Fin 3} {a b : Chip} (h : Chip.VoiceWrite c a b) (ha : a.Inv p) :
    b.Inv p where
  firL := by rw [h.firL]; exact ha.firL
  firR := by rw [h.firR]; exact ha.firR
  dcL := by rw [h.dcL]; exact ha.dcL
  dcR := by rw [h.dcR]; exact ha.dcR
  counters k := by
    by_cases hk : k = c
    · subst hk
      exact h.counter (ha.counters k)
    · rw [h.tones k hk]
      exact ha.counters k
  noiseCounter := by rw [h.noiseCounter]; exact ha.noiseCounter
  lfsr := by rw [h.lfsr]; exact ha.lfsr

/-! Channel operations. -/

theorem setPan_counter (t : ToneChannel) (x : F64) (eqp : Bool) : (t.setPan x eqp).counter = t.counter := by
  cases eqp <;> rfl

theorem setPan_bit (t : ToneChannel) (x : F64) (eqp : Bool) : (t.setPan x eqp).bit = t.bit := by
  cases eqp <;> rfl

theorem setPhase_counter_le (t : ToneChannel) (x : F64) : (t.setPhase x).counter.toNat ≤ 4094 := by
  have h1 := t.setPhase_counter_lt x
  have h2 := t.effPeriod_le
  omega

/-- The level at which a shape starts (42_chip_process.md R167). -/
theorem startLevel_eq (shape : BitVec 4) :
    startLevel shape false = if shape.toNat < 4 ∨ 8 ≤ shape.toNat ∧ shape.toNat < 12 then 31 else 0 := by
  revert shape
  decide

/-! The numbers of a tick. -/

/-- A value clamped to 0..hi and cut to a width that holds hi is the clamped value. -/
theorem toNat_ofInt_clamp {n : Nat} {hi : Int} (h0 : 0 ≤ hi) (h : hi < 2 ^ n) (k : Int) :
    ((BitVec.ofInt n (clampInt k 0 hi)).toNat : Int) = max 0 (min hi k) := by
  unfold clampInt
  rw [BitVec.toNat_ofInt]
  have h2 : min (max k 0) hi < ((2 ^ n : Nat) : Int) := lt_of_le_of_lt (min_le_right _ _) (by exact_mod_cast h)
  rw [Int.emod_eq_of_lt (by omega) h2]
  omega

theorem satSucc_toNat (n : BitVec 64) : (satSucc n).toNat = min (n.toNat + 1) (2 ^ 64 - 1) := by
  unfold satSucc
  rw [BitVec.toNat_ofNat, Nat.mod_eq_of_lt (by omega)]

/-- The spread of R211, as a choice on the channel. -/
theorem spread_eq (x : TickEnv) (c : Fin 3) :
    spread x c = if c = 0 then F64.zero else if c = 1 then (x.real PatchId.toneSpread).neg else x.real PatchId.toneSpread := by
  fin_cases c <;> rfl

/-! Steps 0 to 2. -/

theorem arpeggiate_frame (x : TickEnv) (r : Nat) (v : Voice) :
    ∃ sel prev last, arpeggiate x r v = { v with arpSel := sel, arpPrev := prev, arpLastR := last } := by
  refine ⟨(arpeggiate x r v).arpSel, (arpeggiate x r v).arpPrev, (arpeggiate x r v).arpLastR, ?_⟩
  unfold arpeggiate
  dsimp only
  split
  · rfl
  · split <;> try split
    all_goals rfl

/-- The voice after the sequencer step. -/
def tickSeqVoice (x : TickEnv) (v : Voice) : Voice := (tickSequencer x v).1

/-- The voice before the sequencer and the arpeggio: on its first tick with the ring-mod phase of R202. -/
def tickStart (x : TickEnv) (v : Voice) : Voice := if v.first then ringmodReset x v else v

theorem tickStart_frame (x : TickEnv) (v : Voice) :
    ∃ i d ph, tickStart x v = { v with rmIdx := i, rmDir := d, rmPhase := ph } := by
  unfold tickStart
  split
  · exact ⟨_, _, _, rfl⟩
  · exact ⟨v.rmIdx, v.rmDir, v.rmPhase, rfl⟩

theorem tickSequencer_eq (x : TickEnv) (v : Voice) :
    tickSequencer x v =
      (arpeggiate x (rawStep x v) { tickStart x v with
          seqIdx := seqIndex (x.int PatchId.seqEnd).toNat (x.int PatchId.seqLoop).toNat (rawStep x v) },
        seqTerms x (seqIndex (x.int PatchId.seqEnd).toNat (x.int PatchId.seqLoop).toNat (rawStep x v))) := by
  have hr : rawStep x (tickStart x v) = rawStep x v := by
    obtain ⟨i, d, ph, h⟩ := tickStart_frame x v
    rw [h]
    rfl
  rw [← hr]
  rfl

/-- Steps 0 to 2 write the ring-mod position, the sequencer index and the arpeggio fields, nothing else. -/
theorem tickSeqVoice_frame (x : TickEnv) (v : Voice) :
    ∃ sel prev last, tickSeqVoice x v =
      { v with
        rmIdx := (tickStart x v).rmIdx
        rmDir := (tickStart x v).rmDir
        rmPhase := (tickStart x v).rmPhase
        seqIdx := seqIndex (x.int PatchId.seqEnd).toNat (x.int PatchId.seqLoop).toNat (rawStep x v)
        arpSel := sel, arpPrev := prev, arpLastR := last } := by
  obtain ⟨i, d, ph, hs⟩ := tickStart_frame x v
  obtain ⟨sel, prev, last, h⟩ := arpeggiate_frame x (rawStep x v) { tickStart x v with
    seqIdx := seqIndex (x.int PatchId.seqEnd).toNat (x.int PatchId.seqLoop).toNat (rawStep x v) }
  refine ⟨sel, prev, last, ?_⟩
  rw [tickSeqVoice, tickSequencer_eq, h, hs]

theorem tickSequencer_sameNote (x : TickEnv) (v : Voice) : v.SameNote (tickSequencer x v).1 := by
  obtain ⟨sel, prev, last, h⟩ := tickSeqVoice_frame x v
  show v.SameNote (tickSeqVoice x v)
  rw [h]
  exact ⟨rfl, rfl, rfl, rfl, rfl, rfl, rfl⟩

/-! Step 7. -/

/-- Whether the tone edge resynchronises (R222, R226). -/
def tickSync (x : TickEnv) (v : Voice) (chip : Chip) : Bool :=
  x.flag PatchId.ringmodSync && (!v.lastBit && (chip.tones.get v.chan).bit)

/-- Everything that step 7 writes (R222 to R227). -/
theorem tickPhase_eq (x : TickEnv) (pitch : F64) (buzz : Bool) (v : Voice) (chip : Chip) :
    tickPhase x pitch buzz v chip =
      ({ (if tickSync x v chip && !buzz then (ringmodStep x (ringmodAdvance x pitch) v).resync
          else ringmodStep x (ringmodAdvance x pitch) v) with
          lastBit := (chip.tones.get v.chan).bit
          buzzPeriod := if buzz then buzzerPeriod x pitch else v.buzzPeriod },
        { chip with env := if tickSync x v chip && buzz then chip.env.sync else chip.env }) := by
  unfold tickPhase tickSync
  dsimp only
  cases x.flag PatchId.ringmodSync <;> cases buzz <;> cases v.lastBit <;> cases (chip.tones.get v.chan).bit <;> rfl

/-! Step 9. -/

/-- The channel record that a commit leaves (R231). -/
def Commit.channel (k : Commit) (t : ToneChannel) : ToneChannel :=
  { t with period := k.tonePeriod, tOff := k.toneOff, nOff := k.noiseOff, eOn := k.eOn, volume := k.volume }

/-- The envelope after the writes of a held buzzer voice (R231). -/
def buzzEnvelope (x : TickEnv) (v : Voice) (env : EnvGen) : EnvGen :=
  if v.lastShape = some (buzzerShape x) then env.setPeriod v.buzzPeriod
  else (env.setPeriod v.buzzPeriod).setShape (buzzerShape x)

/-- Everything that the commit writes (R231). -/
theorem commit_eq (x : TickEnv) (k : Commit) (v : Voice) (chip : Chip) :
    commit x k v chip =
      ({ v with lastShape := if k.eOn then some (buzzerShape x) else v.lastShape },
        { chip with
          tones := chip.tones.set v.chan (k.channel (chip.tones.get v.chan))
          noise := chip.noise.setPeriod k.noisePeriod
          env := if k.eOn then buzzEnvelope x v chip.env else chip.env }) := by
  obtain ⟨tp, np, tOff, nOff, eOn, vol⟩ := k
  unfold commit
  cases eOn with
  | false =>
    simp only [Chip.onTone, Tones.get_set_same, Tones.set_set, Bool.false_eq_true, if_false]
    rfl
  | true =>
    simp only [if_true, commitEnvelope, buzzEnvelope]
    split
    · rename_i h
      cases v
      cases h
      simp only [Chip.onTone, Tones.get_set_same, Tones.set_set]
      rfl
    · simp only [Chip.onTone, Tones.get_set_same, Tones.set_set]
      rfl

/-! Step 10. -/

/-- The tone phase that the first tick sets (R232). -/
def firstPhase (x : TickEnv) (v : Voice) : F64 :=
  if x.flag PatchId.toneReset then x.real PatchId.tonePhase else u01 (rnd x.par .tone v.serial)

/-- Everything that the first-tick reset writes (R232). -/
theorem firstTickReset_eq (x : TickEnv) (eOn : Bool) (v : Voice) (chip : Chip) :
    firstTickReset x eOn v chip =
      ({ v with lastBit := ((chip.tones.get v.chan).setPhase (firstPhase x v)).bit, first := false },
        { chip with
          tones := chip.tones.set v.chan ((chip.tones.get v.chan).setPhase (firstPhase x v))
          env := if eOn then (buzzerReset x v chip).env else chip.env }) := by
  unfold firstTickReset
  cases eOn <;>
    simp only [buzzerReset, firstPhase, Chip.onTone, Tones.get_set_same, if_true, if_false, Bool.false_eq_true]
  rfl

/-! The whole tick. -/

/-- The pitch of a tick (R216). -/
def tickPitch (x : TickEnv) (v : Voice) : F64 :=
  finalPitch x (tickSeqVoice x v) (voiceTime x v) (arpOffset x (tickSeqVoice x v)) (tickSequencer x v).2.pitch

/-- Whether the voice is in buzzer mode on this tick (R209). -/
def tickBuzz (x : TickEnv) (v : Voice) : Bool := (gates x (voiceTime x v)).buzz

/-- The envelope level of a tick (R219 to R221). -/
def tickEnvelope (x : TickEnv) (v : Voice) : F64 :=
  envelope x (tickSeqVoice x v) (voiceTime x v) (tickBuzz x v)

/-- The ring-mod position after a tick (R224, R226). -/
def tickRingmod (x : TickEnv) (v : Voice) (chip : Chip) : Voice :=
  if tickSync x v chip && !tickBuzz x v then
    (ringmodStep x (ringmodAdvance x (tickPitch x v)) (tickStart x v)).resync
  else ringmodStep x (ringmodAdvance x (tickPitch x v)) (tickStart x v)

/-- The voice before the commit. -/
def tickVoice (x : TickEnv) (v : Voice) (chip : Chip) : Voice :=
  { tickSeqVoice x v with
    envLevel := tickEnvelope x v
    rmIdx := (tickRingmod x v chip).rmIdx
    rmDir := (tickRingmod x v chip).rmDir
    rmPhase := (tickRingmod x v chip).rmPhase
    lastBit := (chip.tones.get v.chan).bit
    buzzPeriod := if tickBuzz x v then buzzerPeriod x (tickPitch x v) else v.buzzPeriod }

/-- What a tick commits (R231). -/
def tickCommit (x : TickEnv) (v : Voice) (chip : Chip) : Commit where
  tonePeriod := tonePeriod x (tickPitch x v)
  noisePeriod := noisePeriod x (tickSeqVoice x v) (voiceTime x v) (arpOffset x (tickSeqVoice x v))
    (tickSequencer x v).2.noise
  toneOff := (gates x (voiceTime x v)).toneOff
  noiseOff := (gates x (voiceTime x v)).noiseOff
  eOn := tickBuzz x v && v.noteOn
  volume := chipVolume (finalLevel x (tickVoice x v chip)
    (ringmodLevel x (tickVoice x v chip) (tickSequencer x v).2.depth) (tickEnvelope x v) (tickSequencer x v).2.level)

/-- The channel record after a tick (R203, R231, R232). -/
def tickChannel (x : TickEnv) (v : Voice) (chip : Chip) : ToneChannel :=
  let t := (tickCommit x v chip).channel ((chip.tones.get v.chan).setPan (panValue x v.chan) (x.flag PatchId.panEqp))
  if v.first then t.setPhase (firstPhase x v) else t

/-- The shared envelope after a tick (R226, R231, R232). -/
def tickEnvGen (x : TickEnv) (v : Voice) (chip : Chip) : EnvGen :=
  let e := if tickSync x v chip && tickBuzz x v then chip.env.sync else chip.env
  if (tickCommit x v chip).eOn then
    let e := buzzEnvelope x (tickVoice x v chip) e
    if v.first then (buzzerReset x v { chip with env := e }).env else e
  else e

/-- Steps 0 to 8, before the commit. -/
theorem tickBefore_eq (x : TickEnv) (v : Voice) (chip : Chip) :
    tickPhase x (tickPitch x v) (tickBuzz x v) { tickSeqVoice x v with envLevel := tickEnvelope x v }
        (chip.onTone (tickSeqVoice x v).chan fun c =>
          c.setPan (panValue x (tickSeqVoice x v).chan) (x.flag PatchId.panEqp)) =
      (tickVoice x v chip, { chip with
        tones := chip.tones.set v.chan ((chip.tones.get v.chan).setPan (panValue x v.chan) (x.flag PatchId.panEqp))
        env := if tickSync x v chip && tickBuzz x v then chip.env.sync else chip.env }) := by
  obtain ⟨sel, prev, last, hq⟩ := tickSeqVoice_frame x v
  obtain ⟨i, d, ph, hs⟩ := tickStart_frame x v
  have hchan : (tickSeqVoice x v).chan = v.chan := by rw [hq]
  have hsync : tickSync x { tickSeqVoice x v with envLevel := tickEnvelope x v }
      (chip.onTone v.chan fun c => c.setPan (panValue x v.chan) (x.flag PatchId.panEqp)) = tickSync x v chip := by
    unfold tickSync
    rw [hq]
    simp [setPan_bit]
  rw [tickPhase_eq, hchan, hsync]
  unfold tickVoice tickRingmod
  rw [hq, hs]
  simp only [Chip.onTone_tones, Tones.get_set_same, setPan_bit]
  cases tickSync x v chip <;> cases tickBuzz x v <;> rfl

/-- Steps 9 to 11, from the voice and the chip of steps 0 to 8. -/
def tickEnd (x : TickEnv) (v : Voice) (b : Voice × Chip) : Voice × Chip :=
  let k : Commit :=
    { tonePeriod := tonePeriod x (tickPitch x v)
      noisePeriod := noisePeriod x (tickSeqVoice x v) (voiceTime x v) (arpOffset x (tickSeqVoice x v))
        (tickSequencer x v).2.noise
      toneOff := (gates x (voiceTime x v)).toneOff
      noiseOff := (gates x (voiceTime x v)).noiseOff
      eOn := tickBuzz x v && b.1.noteOn
      volume := chipVolume (finalLevel x b.1 (ringmodLevel x b.1 (tickSequencer x v).2.depth) (tickEnvelope x v)
        (tickSequencer x v).2.level) }
  let c := commit x k b.1 b.2
  let r := if b.1.first then firstTickReset x k.eOn c.1 c.2 else c
  (r.1.count, r.2)

/-- A voice tick is its steps in order (R200). -/
theorem voiceTick_eq (x : TickEnv) (v : Voice) (chip : Chip) :
    voiceTick x v chip = tickEnd x v
      (tickPhase x (tickPitch x v) (tickBuzz x v) { tickSeqVoice x v with envLevel := tickEnvelope x v }
        (chip.onTone (tickSeqVoice x v).chan fun c =>
          c.setPan (panValue x (tickSeqVoice x v).chan) (x.flag PatchId.panEqp))) := rfl

/-- What a voice tick leaves, whole: the voice before the commit with its last shape, the tone bit and the counters,
and the chip with the channel, the noise period and the envelope written (R200, R231 to R233). -/
theorem voiceTick_whole (x : TickEnv) (v : Voice) (chip : Chip) :
    voiceTick x v chip =
      (({ tickVoice x v chip with
          lastShape := if (tickCommit x v chip).eOn then some (buzzerShape x) else v.lastShape
          lastBit := (tickChannel x v chip).bit
          first := false } : Voice).count,
        { chip with
          tones := chip.tones.set v.chan (tickChannel x v chip)
          noise := chip.noise.setPeriod (tickCommit x v chip).noisePeriod
          env := tickEnvGen x v chip }) := by
  obtain ⟨e, idx, sel, prev, last, i, d, ph, bz, hw⟩ : ∃ e idx sel prev last i d ph bz, tickVoice x v chip = { v with
      envLevel := e, lastBit := (chip.tones.get v.chan).bit, seqIdx := idx, arpSel := sel, arpPrev := prev
      arpLastR := last, rmIdx := i, rmDir := d, rmPhase := ph, buzzPeriod := bz } := by
    obtain ⟨sel, prev, last, hq⟩ := tickSeqVoice_frame x v
    unfold tickVoice
    rw [hq]
    exact ⟨_, _, _, _, _, _, _, _, _, rfl⟩
  have hk : ∀ c, tickEnd x v (tickVoice x v chip, c) =
      (let d := commit x (tickCommit x v chip) (tickVoice x v chip) c
       let r := if v.first then firstTickReset x (tickCommit x v chip).eOn d.1 d.2 else d
       (r.1.count, r.2)) := by
    intro c
    unfold tickEnd tickCommit
    rw [hw]
  rw [voiceTick_eq, tickBefore_eq, hk]
  unfold tickChannel tickEnvGen
  rw [hw]
  generalize tickCommit x v chip = k
  dsimp only
  rw [commit_eq, firstTickReset_eq]
  dsimp only
  cases hf : v.first with
  | true =>
    simp only [if_true, Tones.get_set_same, Tones.set_set]
    cases k.eOn <;> rfl
  | false =>
    simp only [Bool.false_eq_true, if_false, Tones.get_set_same, Tones.set_set, Commit.channel, setPan_bit]

/-- No tick writes the fields that only the Engine writes. -/
theorem voiceTick_sameNote (x : TickEnv) (v : Voice) (chip : Chip) : v.SameNote (voiceTick x v chip).1 := by
  obtain ⟨sel, prev, last, hq⟩ := tickSeqVoice_frame x v
  rw [voiceTick_whole, tickVoice, hq]
  exact ⟨rfl, rfl, rfl, rfl, rfl, rfl, rfl⟩

/-- The level that a tick leaves is the envelope of R219 to R221. -/
theorem voiceTick_envLevel (x : TickEnv) (v : Voice) (chip : Chip) :
    (voiceTick x v chip).1.envLevel = tickEnvelope x v := by
  rw [voiceTick_whole]
  rfl

/-- After any tick the first one is over (R232). -/
theorem voiceTick_first (x : TickEnv) (v : Voice) (chip : Chip) : (voiceTick x v chip).1.first = false := by
  rw [voiceTick_whole]
  rfl

/-- The record of the voice's channel after a tick: the pan of R203 and the registers of R231, with the counter and
the bit that the first tick may set (R232). -/
theorem tickChannel_frame (x : TickEnv) (v : Voice) (chip : Chip) :
    ∃ n b, tickChannel x v chip = { (tickCommit x v chip).channel
      ((chip.tones.get v.chan).setPan (panValue x v.chan) (x.flag PatchId.panEqp)) with counter := n, bit := b } := by
  unfold tickChannel
  dsimp only
  split
  · exact ToneChannel.setPhase_frame _ _
  · exact ⟨_, _, rfl⟩

theorem voiceTick_channel (x : TickEnv) (v : Voice) (chip : Chip) :
    ∃ n b, (voiceTick x v chip).2.tones.get v.chan = { (tickCommit x v chip).channel
      ((chip.tones.get v.chan).setPan (panValue x v.chan) (x.flag PatchId.panEqp)) with counter := n, bit := b } := by
  obtain ⟨n, b, h⟩ := tickChannel_frame x v chip
  exact ⟨n, b, by rw [voiceTick_whole, ← h]; simp⟩

/-- A tick writes the voice's own channel and the shared generators' registers. -/
theorem voiceTick_chip (x : TickEnv) (v : Voice) (chip : Chip) :
    Chip.VoiceWrite v.chan chip (voiceTick x v chip).2 := by
  rw [voiceTick_whole]
  exact {
    tones := fun j hj => by simp [hj]
    counter := fun hc => by
      simp only [Tones.get_set_same]
      unfold tickChannel
      dsimp only
      split
      · exact setPhase_counter_le _ _
      · simpa [Commit.channel, setPan_counter] using hc
    noiseCounter := rfl
    lfsr := rfl
    acc := rfl
    firL := rfl
    firR := rfl
    dcL := rfl
    dcR := rfl }

end Sys2Proof.Machine
end

