-- ==== Sys2Proof/Laws/Engine.lean ====
section
/-! SUPPORT. The Engine operations: the held list, the voice list, and that every event keeps `Engine.Inv`. -/

namespace Sys2Proof.Machine

/-! The held multiset. -/

theorem holdPitch_perm (p : BitVec 7) (h : List (BitVec 7)) : (holdPitch p h).Perm (p :: h) := by
  induction h with
  | nil => exact .refl _
  | cons q qs ih =>
    simp only [holdPitch]
    split
    · exact .refl _
    · exact (ih.cons q).trans (.swap p q qs)

@[simp] theorem holdPitch_length (p : BitVec 7) (h : List (BitVec 7)) : (holdPitch p h).length = h.length + 1 :=
  (holdPitch_perm p h).length_eq

theorem mem_holdPitch {p q : BitVec 7} {h : List (BitVec 7)} : q ∈ holdPitch p h ↔ q = p ∨ q ∈ h := by
  rw [(holdPitch_perm p h).mem_iff]
  simp

theorem count_holdPitch (p q : BitVec 7) (h : List (BitVec 7)) :
    (holdPitch p h).count q = h.count q + if p = q then 1 else 0 := by
  rw [(holdPitch_perm p h).count_eq, List.count_cons]
  simp

theorem holdPitch_sorted {p : BitVec 7} {h : List (BitVec 7)} (hs : h.Pairwise fun a b => a.toNat ≤ b.toNat) :
    (holdPitch p h).Pairwise fun a b => a.toNat ≤ b.toNat := by
  induction h with
  | nil => simp [holdPitch]
  | cons q qs ih =>
    obtain ⟨h1, h2⟩ := List.pairwise_cons.mp hs
    simp only [holdPitch]
    split
    · rename_i hle
      refine List.pairwise_cons.mpr ⟨fun a ha => ?_, hs⟩
      rcases List.mem_cons.mp ha with rfl | ha
      · exact hle
      · exact hle.trans (h1 a ha)
    · rename_i hgt
      refine List.pairwise_cons.mpr ⟨fun a ha => ?_, ih h2⟩
      rcases mem_holdPitch.mp ha with rfl | ha
      · omega
      · exact h1 a ha

/-! The voice list. -/

/-- What the order and channel invariants say of a voice: its channel, pitch and velocity. -/
def Voice.key (v : Voice) : Fin 3 × BitVec 7 × BitVec 7 := (v.chan, v.pitch, v.velocity)

/-- The part of `Engine.Inv` that is about the voice list alone (10_state.md R50, R51, R56). -/
structure VoicesOk (vs : List Voice) : Prop where
  size : vs.length ≤ 3
  channels : vs.Pairwise fun v w => v.chan ≠ w.chan
  order : vs.Pairwise fun v w => v.pitch.toNat ≤ w.pitch.toNat
  velocity : ∀ v ∈ vs, v.velocity ≠ 0

theorem Engine.Inv.voices {cap : Nat} {mode : PlayMode} {e : Engine} (h : e.Inv cap mode) : VoicesOk e.voices :=
  ⟨h.size, h.channels, h.order, h.velocity⟩

theorem VoicesOk.nil : VoicesOk [] := ⟨by simp, .nil, .nil, by simp⟩

theorem VoicesOk.sublist {vs ws : List Voice} (h : VoicesOk vs) (hs : ws.Sublist vs) : VoicesOk ws :=
  ⟨hs.length_le.trans h.size, h.channels.sublist hs, h.order.sublist hs, fun v hv => h.velocity v (hs.subset hv)⟩

/-- Lists with the same keys are alike in all of it. -/
theorem VoicesOk.of_keys {vs ws : List Voice} (h : VoicesOk vs) (hk : ws.map Voice.key = vs.map Voice.key) :
    VoicesOk ws := by
  have hlen : ws.length = vs.length := by simpa using congrArg List.length hk
  have pair : ∀ (R : (Fin 3 × BitVec 7 × BitVec 7) → (Fin 3 × BitVec 7 × BitVec 7) → Prop),
      (vs.Pairwise fun v w => R v.key w.key) → ws.Pairwise fun v w => R v.key w.key := by
    intro R hR
    rw [← List.pairwise_map] at hR ⊢
    rwa [hk]
  refine ⟨by rw [hlen]; exact h.size, pair (fun a b => a.1 ≠ b.1) h.channels,
    pair (fun a b => a.2.1.toNat ≤ b.2.1.toNat) h.order, fun v hv => ?_⟩
  have : v.key ∈ vs.map Voice.key := hk ▸ List.mem_map_of_mem hv
  obtain ⟨w, hw, he⟩ := List.mem_map.mp this
  have := h.velocity w hw
  have hvw : w.velocity = v.velocity := congrArg (fun k => k.2.2) he
  rwa [← hvw]

theorem insertVoice_perm (v : Voice) (vs : List Voice) : (insertVoice v vs).Perm (v :: vs) := by
  induction vs with
  | nil => exact .refl _
  | cons w ws ih =>
    simp only [insertVoice]
    split
    · exact (ih.cons w).trans (.swap v w ws)
    · exact .refl _

@[simp] theorem insertVoice_length (v : Voice) (vs : List Voice) : (insertVoice v vs).length = vs.length + 1 :=
  (insertVoice_perm v vs).length_eq

theorem mem_insertVoice {v w : Voice} {vs : List Voice} : w ∈ insertVoice v vs ↔ w = v ∨ w ∈ vs := by
  rw [(insertVoice_perm v vs).mem_iff]
  simp

theorem insertVoice_order {v : Voice} {vs : List Voice}
    (h : vs.Pairwise fun a b => a.pitch.toNat ≤ b.pitch.toNat) :
    (insertVoice v vs).Pairwise fun a b => a.pitch.toNat ≤ b.pitch.toNat := by
  induction vs with
  | nil => simp [insertVoice]
  | cons w ws ih =>
    obtain ⟨h1, h2⟩ := List.pairwise_cons.mp h
    simp only [insertVoice]
    split
    · rename_i hle
      refine List.pairwise_cons.mpr ⟨fun a ha => ?_, ih h2⟩
      rcases mem_insertVoice.mp ha with rfl | ha
      · exact hle
      · exact h1 a ha
    · rename_i hgt
      refine List.pairwise_cons.mpr ⟨fun a ha => ?_, h⟩
      rcases List.mem_cons.mp ha with rfl | ha
      · omega
      · have := h1 a ha
        omega

theorem VoicesOk.insert {vs : List Voice} (h : VoicesOk vs) {v : Voice} (hl : vs.length ≤ 2)
    (hc : ∀ w ∈ vs, w.chan ≠ v.chan) (hv : v.velocity ≠ 0) : VoicesOk (insertVoice v vs) where
  size := by
    rw [insertVoice_length]
    omega
  channels := by
    rw [(insertVoice_perm v vs).pairwise_iff fun hxy => Ne.symm hxy]
    exact List.pairwise_cons.mpr ⟨fun w hw => (hc w hw).symm, h.channels⟩
  order := insertVoice_order h.order
  velocity w hw := by
    rcases mem_insertVoice.mp hw with rfl | hw
    · exact hv
    · exact h.velocity w hw

theorem map_key {f : Voice → Voice} (hf : ∀ v, (f v).key = v.key) (vs : List Voice) :
    (vs.map f).map Voice.key = vs.map Voice.key := by
  rw [List.map_map]
  exact List.map_congr_left fun v _ => hf v

@[simp] theorem releaseAll_keys (vs : List Voice) : (releaseAll vs).map Voice.key = vs.map Voice.key :=
  map_key (fun v => by split <;> rfl) vs

theorem releaseAll_noteOn {vs : List Voice} {v : Voice} (h : v ∈ releaseAll vs) : v.noteOn = false := by
  obtain ⟨w, -, rfl⟩ := List.mem_map.mp h
  split
  · rfl
  · rename_i hw
    simpa using hw

@[simp] theorem releaseFirst_keys (p : BitVec 7) (vs : List Voice) :
    (releaseFirst p vs).map Voice.key = vs.map Voice.key := by
  induction vs with
  | nil => rfl
  | cons v vs ih =>
    simp only [releaseFirst]
    split
    · rfl
    · simp [ih]

/-! Stealing and channel choice. -/

theorem stealQuietest_sublist (vs : List Voice) : (stealQuietest vs).Sublist vs := by
  cases vs with
  | nil => exact .slnil
  | cons v vs => exact List.eraseIdx_sublist _ _

theorem quietestFrom_lt (best : Voice) (j next : Nat) (vs : List Voice) (hj : j < next) :
    quietestFrom best j next vs < next + vs.length := by
  induction vs generalizing best j next with
  | nil => simpa [quietestFrom] using hj
  | cons v vs ih =>
    simp only [quietestFrom, List.length_cons]
    split
    · have := ih v next (next + 1) (by omega)
      omega
    · have := ih best j (next + 1) (by omega)
      omega

theorem stealQuietest_length (vs : List Voice) : (stealQuietest vs).length = vs.length - 1 := by
  cases vs with
  | nil => rfl
  | cons v vs =>
    have h := quietestFrom_lt v 0 1 vs (by omega)
    rw [stealQuietest, List.length_eraseIdx_of_lt (by simp; omega)]

theorem mem_freeChannels {vs : List Voice} {c : Fin 3} : c ∈ freeChannels vs ↔ ∀ v ∈ vs, v.chan ≠ c := by
  have : ∀ c : Fin 3, c ∈ ([0, 1, 2] : List (Fin 3)) := by decide
  simp [freeChannels, this c]

/-- With at most two voices some channel is free. -/
theorem freeChannels_ne_nil {vs : List Voice} (h : vs.length ≤ 2) : freeChannels vs ≠ [] := by
  intro hnil
  have hall : ∀ c : Fin 3, ∃ v ∈ vs, v.chan = c := by
    intro c
    have : c ∉ freeChannels vs := by simp [hnil]
    rw [mem_freeChannels] at this
    push Not at this
    exact this
  have hsub : (Finset.univ : Finset (Fin 3)) ⊆ (vs.map (·.chan)).toFinset := by
    intro c _
    obtain ⟨v, hv, rfl⟩ := hall c
    simp only [List.mem_toFinset, List.mem_map]
    exact ⟨v, hv, rfl⟩
  have h1 := Finset.card_le_card hsub
  have h2 := (vs.map (·.chan)).toFinset_card_le
  simp at h1 h2
  omega

/-! The events keep the invariant. -/

variable {cap : Nat} {mode : PlayMode} {e : Engine}

theorem Engine.Inv.init : ({} : Engine).Inv cap mode where
  size := by simp
  channels := .nil
  order := .nil
  velocity := by simp
  heldOrder := .nil
  heldCap := by simp
  arpIdle := by simp
  arpHeld := by simp
  pedalUp := by simp
  deferred := by simp

/-- After ALL_NOTES_OFF the invariant holds for every play mode, which a change of mode relies on (R302). -/
theorem Engine.Inv.allNotesOff (h : e.Inv cap mode) (mode' : PlayMode) : e.allNotesOff.Inv cap mode' := by
  have hv := h.voices.of_keys (releaseAll_keys e.voices)
  exact {
    size := hv.size
    channels := hv.channels
    order := hv.order
    velocity := hv.velocity
    heldOrder := .nil
    heldCap := Nat.zero_le _
    arpIdle := fun _ _ v hv => releaseAll_noteOn hv
    arpHeld := fun _ hne => absurd rfl hne
    pedalUp := fun _ => rfl
    deferred := fun p => by simp [Engine.allNotesOff] }

theorem sorted_erase {h : List (BitVec 7)} (hs : h.Pairwise fun a b => a.toNat ≤ b.toNat) (p : BitVec 7) :
    (h.erase p).Pairwise fun a b => a.toNat ≤ b.toNat := hs.sublist List.erase_sublist

/-- A note-off that is carried out at once, with nothing deferred. -/
theorem Engine.Inv.noteOffNow (h : e.Inv cap mode) (hd : e.deferred = []) (p : BitVec 7) :
    (e.noteOffNow mode p).Inv cap mode ∧ (e.noteOffNow mode p).deferred = [] := by
  have hlen : (e.held.erase p).length ≤ cap := (List.length_erase_le).trans h.heldCap
  unfold Engine.noteOffNow
  split
  · rename_i harp
    unfold Engine.noteOffArp
    split
    · rename_i hnil
      have hv := h.voices.of_keys (releaseAll_keys e.voices)
      refine ⟨?_, hd⟩
      exact {
        size := hv.size
        channels := hv.channels
        order := hv.order
        velocity := hv.velocity
        heldOrder := .nil
        heldCap := Nat.zero_le _
        arpIdle := fun _ _ v hv => releaseAll_noteOn hv
        arpHeld := fun _ hne => absurd rfl hne
        pedalUp := fun _ => hd
        deferred := fun p => by simp [hd] }
    · rename_i q qs hq
      have hne : e.held ≠ [] := by
        intro h0
        rw [h0] at hq
        cases hq
      obtain ⟨v, hvs, hon, hch⟩ := h.arpHeld harp hne
      have hvel : v.velocity ≠ 0 := h.velocity v (by simp [hvs])
      have hsort := sorted_erase h.heldOrder p
      rw [hq] at hsort hlen
      have hrep : ∃ w, repointAll (q :: qs) q e.voices = [w] ∧ w.noteOn = true ∧ w.chan = 0 ∧ w.velocity ≠ 0 := by
        rw [hvs]
        simp only [repointAll, List.map_cons, List.map_nil]
        split
        · exact ⟨_, rfl, hon, hch, hvel⟩
        · exact ⟨_, rfl, hon, hch, hvel⟩
      obtain ⟨w, hw, hwon, hwch, hwvel⟩ := hrep
      refine ⟨?_, hd⟩
      exact {
        size := by simp [hw]
        channels := by simp [hw]
        order := by simp [hw]
        velocity := by simpa [hw] using hwvel
        heldOrder := hsort
        heldCap := hlen
        arpIdle := fun _ h0 => by cases h0
        arpHeld := fun _ _ => ⟨w, hw, hwon, hwch⟩
        pedalUp := fun _ => hd
        deferred := fun p => by simp [hd] }
  · rename_i harp
    have hv := h.voices.of_keys (releaseFirst_keys p e.voices)
    refine ⟨?_, hd⟩
    exact {
      size := hv.size
      channels := hv.channels
      order := hv.order
      velocity := hv.velocity
      heldOrder := sorted_erase h.heldOrder p
      heldCap := hlen
      arpIdle := fun ha => absurd ha harp
      arpHeld := fun ha => absurd ha harp
      pedalUp := fun _ => hd
      deferred := fun p => by simp [Engine.noteOffPlain, hd] }

theorem Engine.Inv.noteOff (h : e.Inv cap mode) (p : BitVec 7) : (e.noteOff mode p).Inv cap mode := by
  unfold Engine.noteOff
  split
  · exact h
  · split
    · rename_i hs
      split
      · rename_i hlt
        exact {
          size := h.size
          channels := h.channels
          order := h.order
          velocity := h.velocity
          heldOrder := h.heldOrder
          heldCap := h.heldCap
          arpIdle := h.arpIdle
          arpHeld := h.arpHeld
          pedalUp := fun h0 => by simp [hs] at h0
          deferred := fun q => by
            have := h.deferred q
            simp only [List.count_append, List.count_cons, List.count_nil, Nat.zero_add]
            by_cases hq : p = q
            · subst hq
              simp
              omega
            · simpa [hq] using this }
      · exact h
    · rename_i hs
      exact (h.noteOffNow (h.pedalUp (by simpa using hs)) p).1

theorem Engine.Inv.runDeferred (ps : List (BitVec 7)) (h : e.Inv cap mode) (hd : e.deferred = []) :
    (Engine.runDeferred mode ps e).Inv cap mode := by
  induction ps generalizing e with
  | nil => exact h
  | cons p ps ih =>
    obtain ⟨h1, h2⟩ := h.noteOffNow hd p
    exact ih h1 h2

theorem Engine.Inv.setSustain (h : e.Inv cap mode) (down : Bool) : (e.setSustain mode down).Inv cap mode := by
  unfold Engine.setSustain
  split
  · exact ⟨h.size, h.channels, h.order, h.velocity, h.heldOrder, h.heldCap, h.arpIdle, h.arpHeld,
      fun h0 => by simp at h0, h.deferred⟩
  · split
    · exact Engine.Inv.runDeferred e.deferred
        ⟨h.size, h.channels, h.order, h.velocity, h.heldOrder, h.heldCap, h.arpIdle, h.arpHeld, fun _ => rfl,
          fun q => by simp⟩ rfl
    · exact h

theorem Engine.Inv.controller (h : e.Inv cap mode) (num val : BitVec 7) :
    (e.controller mode num val).Inv cap mode := by
  unfold Engine.controller
  repeat' split
  all_goals first | exact h | exact h.setSustain _ | exact { h with }

/-! Allocation. -/

/-- What `newVoice` does to the Engine (43_voice.md R235). -/
theorem Engine.newVoice_eq (e : Engine) (chip : Chip) (p vel : BitVec 7) (ch : Fin 3) (src : BitVec 7) :
    e.newVoice chip p vel ch src =
      { e with
        voices := insertVoice (Voice.create e.serialCtr ch p vel src (chip.tones.get ch).bit) e.voices
        serialCtr := e.serialCtr + 1 } := rfl

/-- Poly allocation (R263): with at most three voices on distinct channels it ends in a new voice on a channel that
none of the remaining voices uses. -/
theorem Engine.allocPoly_spec (h : VoicesOk e.voices) (par : Params) (chip : Chip) (p vel src : BitVec 7) :
    ∃ vs ch, vs = (if e.voices.length = 3 then stealQuietest e.voices else e.voices) ∧ vs.length ≤ 2 ∧
      (∀ v ∈ vs, v.chan ≠ ch) ∧
      (freeChannels vs)[(rnd par .chan e.serialCtr).toNat % (freeChannels vs).length]? = some ch ∧
      e.allocPoly par chip p vel src = { e with voices := vs }.newVoice chip p vel ch src := by
  have hrew : (if e.voices.length = 3 then { e with voices := stealQuietest e.voices } else e) =
      { e with voices := if e.voices.length = 3 then stealQuietest e.voices else e.voices } := by
    split <;> rfl
  have hsize := h.size
  generalize hvs : (if e.voices.length = 3 then stealQuietest e.voices else e.voices) = vs at *
  have hlen : vs.length ≤ 2 := by
    subst hvs
    split
    · rw [stealQuietest_length]
      omega
    · omega
  have hpos : 0 < (freeChannels vs).length := List.length_pos_iff.mpr (freeChannels_ne_nil hlen)
  have hidx := Nat.mod_lt (rnd par .chan e.serialCtr).toNat hpos
  refine ⟨vs, (freeChannels vs)[(rnd par .chan e.serialCtr).toNat % (freeChannels vs).length], rfl, hlen, ?_,
    List.getElem?_eq_getElem hidx, ?_⟩
  · exact mem_freeChannels.mp (List.getElem_mem hidx)
  · unfold Engine.allocPoly
    simp only [hrew]
    rw [List.getElem?_eq_getElem hidx]

theorem VoicesOk.single (s : BitVec 32) (p vel src : BitVec 7) (b : Bool) (hv : vel ≠ 0) :
    VoicesOk [Voice.create s 0 p vel src b] :=
  ⟨by simp, by simp, by simp, by simpa [Voice.create] using hv⟩

/-- A note-on that is accepted keeps the invariant (R278). -/
theorem Engine.Inv.noteOn (h : e.Inv cap mode) (par : Params) (chip : Chip) (p vel : BitVec 7) (hv : vel ≠ 0)
    (hroom : e.held.length ≠ cap) : (e.noteOn par mode chip p vel).Inv cap mode := by
  have hcap : (holdPitch p e.held).length ≤ cap := by
    have := h.heldCap
    rw [holdPitch_length]
    omega
  have hsort := holdPitch_sorted (p := p) h.heldOrder
  have hdef : ∀ q, e.deferred.count q ≤ (holdPitch p e.held).count q := by
    intro q
    rw [count_holdPitch]
    exact (h.deferred q).trans (Nat.le_add_right _ _)
  have hne : holdPitch p e.held ≠ [] := by
    intro h0
    have := congrArg List.length h0
    simp at this
  have build : ∀ e' : Engine, VoicesOk e'.voices → e'.held = holdPitch p e.held → e'.deferred = e.deferred →
      e'.sustain = e.sustain →
      (mode.isArp = true → ∃ v, e'.voices = [v] ∧ v.noteOn = true ∧ v.chan = 0) →
      ({ e' with lastPitch := some p } : Engine).Inv cap mode := by
    intro e' hvs hh hd hs ha
    exact {
      size := hvs.size
      channels := hvs.channels
      order := hvs.order
      velocity := hvs.velocity
      heldOrder := by show e'.held.Pairwise _; rw [hh]; exact hsort
      heldCap := by show e'.held.length ≤ cap; rw [hh]; exact hcap
      arpIdle := fun _ h0 => absurd (hh.symm.trans h0) hne
      arpHeld := fun harp _ => ha harp
      pedalUp := fun h0 => by
        show e'.deferred = []
        rw [hd]
        exact h.pedalUp (hs.symm.trans h0)
      deferred := fun q => by
        show e'.deferred.count q ≤ e'.held.count q
        rw [hd, hh]
        exact hdef q }
  have arp : ∀ src, ({ ({ e with held := holdPitch p e.held } : Engine).allocArp chip p vel src with
      lastPitch := some p } : Engine).Inv cap mode := by
    intro src
    unfold Engine.allocArp
    split
    · exact build _ (VoicesOk.single _ p vel src _ hv) rfl rfl rfl fun _ => ⟨_, rfl, rfl, rfl⟩
    · rename_i h1
      have hhne : e.held ≠ [] := by
        intro h0
        apply h1
        show (holdPitch p e.held).length = 1
        rw [holdPitch_length, h0]
        rfl
      exact build _ h.voices rfl rfl rfl fun harp => h.arpHeld harp hhne
  unfold Engine.noteOn Engine.alloc
  cases mode with
  | mono => exact build _ (VoicesOk.single _ p vel _ _ hv) rfl rfl rfl fun ha => by cases ha
  | poly =>
    obtain ⟨vs, ch, hvs, hlen, hch, -, heq⟩ := Engine.allocPoly_spec
      (e := { e with held := holdPitch p e.held }) h.voices par chip p vel (e.lastPitch.getD p)
    have hok : VoicesOk vs := by
      rw [hvs]
      split
      · exact h.voices.sublist (stealQuietest_sublist _)
      · exact h.voices
    show ({ ({ e with held := holdPitch p e.held } : Engine).allocPoly par chip p vel (e.lastPitch.getD p) with
      lastPitch := some p } : Engine).Inv cap _
    rw [heq]
    exact build _ (hok.insert hlen hch hv) rfl rfl rfl fun ha => by cases ha
  | arpUp => exact arp _
  | arpDown => exact arp _
  | arpRandom => exact arp _

end Sys2Proof.Machine
end

