-- ==== Sys2Proof/Laws/Memory.lean ====
section
/-! SUPPORT. The patch field space: a read after a write, the frame of a write, and the canonical form, which
every operation keeps. -/

namespace Sys2Proof.Machine

/-! Reads after writes. -/

theorem listed_putEntry (m : Patch) (a b : Nat) (w : Word) :
    listed (putEntry a w m) b = if a = b then some w else listed m b := by
  induction m with
  | nil => simp [putEntry, listed]
  | cons e m ih =>
    obtain ⟨c, v⟩ := e
    simp only [putEntry]
    split
    · simp [listed]
    · split
      · rename_i h
        subst h
        by_cases hb : a = b <;> simp [listed, hb]
      · by_cases hc : c = b
        · simp only [listed, hc, if_true]
          rw [if_neg]
          omega
        · simp [listed, hc, ih]

/-- The ids of a list with rising ids lie above the first. -/
theorem above_of_risingIds {a : Nat} {w : Word} {m : Patch} (h : risingIds ((a, w) :: m) = true) :
    ∀ e ∈ m, a < e.1 := by
  induction m generalizing a w with
  | nil => simp
  | cons e m ih =>
    obtain ⟨b, v⟩ := e
    simp only [risingIds, Bool.and_eq_true, decide_eq_true_eq] at h
    intro e he
    rcases List.mem_cons.mp he with rfl | he
    · exact h.1
    · exact Nat.lt_trans h.1 (ih h.2 e he)

theorem risingIds_tail {e : Nat × Word} {m : Patch} (h : risingIds (e :: m) = true) : risingIds m = true := by
  obtain ⟨a, w⟩ := e
  cases m with
  | nil => rfl
  | cons f m =>
    obtain ⟨b, v⟩ := f
    simp only [risingIds, Bool.and_eq_true] at h
    exact h.2

/-- A list rises when its tail does and its first id lies below the tail's. -/
theorem risingIds_cons {a : Nat} {w : Word} {m : Patch} (hm : risingIds m = true) (h : ∀ e ∈ m, a < e.1) :
    risingIds ((a, w) :: m) = true := by
  cases m with
  | nil => rfl
  | cons e m =>
    obtain ⟨b, v⟩ := e
    simp only [risingIds, Bool.and_eq_true, decide_eq_true_eq]
    exact ⟨h (b, v) List.mem_cons_self, hm⟩

theorem listed_none_of_above {m : Patch} {a : Nat} (h : ∀ e ∈ m, a < e.1) : listed m a = none := by
  induction m with
  | nil => rfl
  | cons e m ih =>
    obtain ⟨b, v⟩ := e
    have hb := h (b, v) (by simp)
    simp only at hb
    simp only [listed]
    rw [if_neg (by omega)]
    exact ih fun e he => h e (by simp [he])

theorem listed_dropEntry {m : Patch} (hm : risingIds m = true) (a b : Nat) :
    listed (dropEntry a m) b = if a = b then none else listed m b := by
  induction m with
  | nil => simp [dropEntry, listed]
  | cons e m ih =>
    obtain ⟨c, v⟩ := e
    simp only [dropEntry]
    by_cases hc : c = a
    · subst hc
      simp only [if_true]
      by_cases hb : c = b
      · subst hb
        simp [listed_none_of_above (above_of_risingIds hm)]
      · simp [listed, hb]
    · simp only [hc, if_false, listed, ih (risingIds_tail hm)]
      by_cases hb : c = b
      · subst hb
        simp [Ne.symm hc]
      · simp [hb]

/-- A read after a write to a canonical patch: the payload at the id written, everything else as before. -/
theorem memRead_memWrite {m : Patch} (hm : risingIds m = true) (a b : Nat) (w : Word) :
    memRead (memWrite m a w) b = if a = b then w else memRead m b := by
  unfold memRead memWrite
  by_cases hw : w = resetPayload a
  · rw [if_pos hw, listed_dropEntry hm]
    by_cases hab : a = b
    · subst hab
      simp [hw]
    · simp [hab]
  · rw [if_neg hw, listed_putEntry]
    by_cases hab : a = b <;> simp [hab]

/-! The canonical form. -/

theorem mem_putEntry {m : Patch} {a : Nat} {w : Word} {e : Nat × Word} (h : e ∈ putEntry a w m) :
    e = (a, w) ∨ e ∈ m := by
  induction m with
  | nil => simpa [putEntry] using h
  | cons f m ih =>
    obtain ⟨b, v⟩ := f
    simp only [putEntry] at h
    split at h
    · rcases List.mem_cons.mp h with h | h
      · exact .inl h
      · exact .inr h
    · split at h
      · rcases List.mem_cons.mp h with h | h
        · exact .inl h
        · exact .inr (by simp [h])
      · rcases List.mem_cons.mp h with h | h
        · exact .inr (by simp [h])
        · rcases ih h with h | h
          · exact .inl h
          · exact .inr (by simp [h])

theorem mem_dropEntry {m : Patch} {a : Nat} {e : Nat × Word} (h : e ∈ dropEntry a m) : e ∈ m := by
  induction m with
  | nil => simp [dropEntry] at h
  | cons f m ih =>
    obtain ⟨b, v⟩ := f
    simp only [dropEntry] at h
    split at h
    · simp [h]
    · rcases List.mem_cons.mp h with h | h
      · simp [h]
      · simp [ih h]

theorem risingIds_putEntry {m : Patch} (hm : risingIds m = true) (a : Nat) (w : Word) :
    risingIds (putEntry a w m) = true := by
  induction m with
  | nil => rfl
  | cons e m ih =>
    obtain ⟨b, v⟩ := e
    have hb := above_of_risingIds hm
    simp only [putEntry]
    split
    · rename_i h
      refine risingIds_cons hm fun e he => ?_
      rcases List.mem_cons.mp he with rfl | he
      · exact h
      · exact Nat.lt_trans h (hb e he)
    · split
      · rename_i h
        subst h
        exact risingIds_cons (risingIds_tail hm) hb
      · refine risingIds_cons (ih (risingIds_tail hm)) fun e he => ?_
        rcases mem_putEntry he with rfl | he
        · show b < a
          omega
        · exact hb e he

theorem risingIds_dropEntry {m : Patch} (hm : risingIds m = true) (a : Nat) :
    risingIds (dropEntry a m) = true := by
  induction m with
  | nil => rfl
  | cons e m ih =>
    obtain ⟨b, v⟩ := e
    simp only [dropEntry]
    split
    · exact risingIds_tail hm
    · exact risingIds_cons (ih (risingIds_tail hm)) fun e he => above_of_risingIds hm e (mem_dropEntry he)

theorem Memory.wf_iff {m : Patch} :
    Memory.wf m = true ↔ risingIds m = true ∧ ∀ e ∈ m, assigned e.1 = true ∧ e.2 ≠ resetPayload e.1 := by
  simp [Memory.wf, List.all_eq_true]

/-- A write of an assigned id keeps the canonical form. -/
theorem Memory.wf_memWrite {m : Patch} (hm : Memory.wf m = true) {id : Nat} (hid : assigned id = true) (w : Word) :
    Memory.wf (memWrite m id w) = true := by
  obtain ⟨hr, he⟩ := Memory.wf_iff.mp hm
  refine Memory.wf_iff.mpr ?_
  unfold memWrite
  split
  · exact ⟨risingIds_dropEntry hr id, fun e h => he e (mem_dropEntry h)⟩
  · rename_i hw
    refine ⟨risingIds_putEntry hr id w, fun e h => ?_⟩
    rcases mem_putEntry h with rfl | h
    · exact ⟨hid, hw⟩
    · exact he e h

/-- The patch of the reset state has the canonical form. -/
theorem Memory.wf_reset : Memory.wf State.reset.patch = true := rfl

/-- The patch fields read at reset as their reset payloads. -/
@[simp] theorem memRead_nil (id : Nat) : memRead [] id = resetPayload id := rfl

/-- Two canonical patches that read alike everywhere are equal. -/
theorem Memory.ext_of_wf {m n : Patch} (hm : Memory.wf m = true) (hn : Memory.wf n = true)
    (h : ∀ id, memRead m id = memRead n id) : m = n := by
  obtain ⟨hmr, hme⟩ := Memory.wf_iff.mp hm
  obtain ⟨hnr, hne⟩ := Memory.wf_iff.mp hn
  clear hm hn
  induction m generalizing n with
  | nil =>
    cases n with
    | nil => rfl
    | cons e n =>
      obtain ⟨a, w⟩ := e
      have := h a
      simp only [memRead, listed, if_true, Option.getD_some, Option.getD_none] at this
      exact absurd this.symm (hne (a, w) (by simp)).2
  | cons e m ih =>
    obtain ⟨a, v⟩ := e
    have above := above_of_risingIds hmr
    cases n with
    | nil =>
      have := h a
      simp only [memRead, listed, if_true, Option.getD_some, Option.getD_none] at this
      exact absurd this (hme (a, v) (by simp)).2
    | cons f n =>
      obtain ⟨b, w⟩ := f
      have bove := above_of_risingIds hnr
      have hab : a = b := by
        rcases Nat.lt_trichotomy a b with hlt | heq | hgt
        · have := h a
          rw [memRead, memRead, listed, if_pos rfl, listed_none_of_above] at this
          · exact absurd this (hme (a, v) (by simp)).2
          · intro e he
            rcases List.mem_cons.mp he with rfl | he
            · exact hlt
            · exact Nat.lt_trans hlt (bove e he)
        · exact heq
        · have := h b
          rw [memRead, memRead, listed_none_of_above, listed, if_pos rfl] at this
          · exact absurd this.symm (hne (b, w) (by simp)).2
          · intro e he
            rcases List.mem_cons.mp he with rfl | he
            · exact hgt
            · exact Nat.lt_trans hgt (above e he)
      subst hab
      have hvw : v = w := by simpa [memRead, listed] using h a
      subst hvw
      refine congrArg _ (ih (fun id => ?_) (risingIds_tail hmr) (fun e he => hme e (by simp [he]))
        (risingIds_tail hnr) fun e he => hne e (by simp [he]))
      by_cases hid : a = id
      · subst hid
        unfold memRead
        rw [listed_none_of_above above, listed_none_of_above bove]
      · simpa [memRead, listed, hid] using h id

end Sys2Proof.Machine
end

