-- ==== Sys2Proof/Laws/Patch.lean ====
section
/-! SUPPORT. The patch field table and what a write stores: the row of an id, the payload that a write leaves, and
that it lies in the field's range. -/

namespace Sys2Proof.Machine

/-! The table. -/

theorem fieldAt_mem {id : Nat} {f : PatchField} (h : fieldAt id = some f) : f ∈ patchFields ∧ f.id = id := by
  refine ⟨List.mem_of_find?_eq_some h, ?_⟩
  simpa using List.find?_some h

theorem fieldAt_self : ∀ f ∈ patchFields, fieldAt f.id = some f := by decide +kernel

theorem assigned_self {f : PatchField} (h : f ∈ patchFields) : assigned f.id = true := by
  simp [assigned, fieldAt_self f h]

theorem assigned_iff (id : Nat) : assigned id = true ↔ ∃ f ∈ patchFields, f.id = id := by
  constructor
  · intro h
    obtain ⟨f, hf⟩ := Option.isSome_iff_exists.mp h
    exact ⟨f, fieldAt_mem hf⟩
  · rintro ⟨f, hf, rfl⟩
    exact assigned_self hf

@[simp] theorem resetPayload_self {f : PatchField} (h : f ∈ patchFields) : resetPayload f.id = f.reset := by
  simp [resetPayload, fieldAt_self f h]

/-! Real payloads. -/

/-- A payload is accepted exactly when its exponent field is not all ones. -/
theorem realPayload_eq (w : Word) :
    realPayload w = if w.extractLsb' 23 8 = 0xFF#8 then none else some (F64.ofF32 w) := by
  unfold realPayload
  simp only [F64.isFinite_ofF32]
  by_cases h : w.extractLsb' 23 8 = 0xFF#8 <;> simp [h]

/-- A real that binary32 holds, is finite there and is not -0.0. -/
structure Storable (x : F64) : Prop where
  exp : x.toF32.extractLsb' 23 8 ≠ 0xFF#8
  back : F64.ofF32 x.toF32 = x
  zero : x.toF32 ≠ 0x80000000#32

theorem Storable.finite {x : F64} (h : Storable x) : x.isFinite = true := by
  have := F64.isFinite_ofF32 x.toF32
  rw [h.back] at this
  simpa [h.exp] using this

/-- The bounds of a real field are reals that a write stores as they are. -/
theorem bounds_storable : ∀ f ∈ patchFields, f.type = .real →
    Storable (F64.ofInt f.lo) ∧ Storable (F64.ofInt f.hi) ∧ (F64.ofInt f.hi).lt (F64.ofInt f.lo) = false := by
  have h : ∀ f ∈ patchFields, f.type = .real →
      ((F64.ofInt f.lo).toF32.extractLsb' 23 8 ≠ 0xFF#8 ∧ F64.ofF32 (F64.ofInt f.lo).toF32 = F64.ofInt f.lo ∧
        (F64.ofInt f.lo).toF32 ≠ 0x80000000#32) ∧
      ((F64.ofInt f.hi).toF32.extractLsb' 23 8 ≠ 0xFF#8 ∧ F64.ofF32 (F64.ofInt f.hi).toF32 = F64.ofInt f.hi ∧
        (F64.ofInt f.hi).toF32 ≠ 0x80000000#32) ∧ (F64.ofInt f.hi).lt (F64.ofInt f.lo) = false := by
    decide +kernel
  intro f hf hr
  obtain ⟨⟨a1, a2, a3⟩, ⟨b1, b2, b3⟩, c⟩ := h f hf hr
  exact ⟨⟨a1, a2, a3⟩, ⟨b1, b2, b3⟩, c⟩

theorem storable_zero : Storable F64.zero := ⟨by decide, by decide, by decide⟩

/-- A finite payload, with -0.0 read as +0.0, is stored as it is. -/
theorem storable_plusZero {w : Word} (h : w.extractLsb' 23 8 ≠ 0xFF#8) : Storable (plusZero (F64.ofF32 w)) := by
  unfold plusZero
  split
  · exact storable_zero
  · rename_i hz
    have hw := F64.toF32_ofF32 h
    refine ⟨by rwa [hw], by rw [hw], ?_⟩
    rw [hw]
    rintro rfl
    exact hz (by decide)

theorem plusZero_of_storable {x : F64} (h : Storable x) : plusZero x = x := by
  have hb := h.back
  generalize hw : x.toF32 = w at hb
  have he := h.exp
  have hz := h.zero
  rw [hw] at he hz
  unfold plusZero
  split
  · rename_i hx
    have hf := h.finite
    have hx0 : x.toRat = 0 := by
      have h1 := F64.le_iff hf F64.isFinite_zero
      have h2 := F64.le_iff F64.isFinite_zero hf
      rw [F64.toRat_zero] at h1 h2
      simp only [F64.eq, Bool.and_eq_true, decide_eq_true_eq] at hx
      have k1 : x.le F64.zero = true := by
        simp only [F64.le, Bool.and_eq_true, decide_eq_true_eq]
        exact ⟨hx.1, hx.2.le⟩
      have k2 : F64.zero.le x = true := by
        simp only [F64.le, Bool.and_eq_true, decide_eq_true_eq]
        exact ⟨⟨hx.1.2, hx.1.1⟩, hx.2.ge⟩
      exact le_antisymm (h1.mp k1) (h2.mp k2)
    have hpat : w = 0#32 ∨ w = 0x80000000#32 := by
      obtain ⟨m, e, n, q, -, hc, hm, hv, -, -, hq⟩ := F64.ofF32_finite he
      rw [hb] at hv
      rw [F64.toRat, hv, FpValue.toRat, hq] at hx0
      have h2 : (m : ℚ) * 2 ^ e = 0 := by
        revert hx0
        generalize (m : ℚ) * 2 ^ e = z
        cases w.msb <;> simp
      have hm0 : m = 0 := by
        have : (2 : ℚ) ^ e ≠ 0 := by positivity
        exact_mod_cast (mul_eq_zero.mp h2).resolve_right this
      have he0 : e = fpMinExp 23 8 := hc.lead.resolve_left (by rw [hm0]; norm_num)
      rw [hm0, he0] at hm
      simp only [sub_self, Int.toNat_zero, Nat.zero_mul, Nat.add_zero] at hm
      have := w.isLt
      have : w.toNat = 0 ∨ w.toNat = 2 ^ 31 := by omega
      rcases this with h | h
      · exact .inl (BitVec.eq_of_toNat_eq h)
      · exact .inr (BitVec.eq_of_toNat_eq h)
    rcases hpat with rfl | rfl
    · rw [← hb]
      decide
    · exact absurd rfl hz
  · rfl

/-- What a write of a real field stores for a finite payload (45_patch.md R300). -/
theorem storedPayload_real {f : PatchField} (hf : f ∈ patchFields) (hr : f.type = .real) {v : Word}
    (h : v.extractLsb' 23 8 ≠ 0xFF#8) :
    ∃ y, storedPayload f v = some y.toF32 ∧ Storable y ∧ (F64.ofInt f.lo).le y = true ∧
      y.le (F64.ofInt f.hi) = true ∧
      y = if (F64.ofF32 v).lt (F64.ofInt f.lo) then F64.ofInt f.lo
        else if (F64.ofInt f.hi).lt (F64.ofF32 v) then F64.ofInt f.hi else plusZero (F64.ofF32 v) := by
  obtain ⟨hlo, hhi, hord⟩ := bounds_storable f hf hr
  have hv := F64.isFinite_ofF32 v
  simp only [ne_eq, h, not_false_eq_true, decide_true] at hv
  have hs : storedPayload f v =
      some (plusZero ((F64.ofF32 v).clamp (F64.ofInt f.lo) (F64.ofInt f.hi))).toF32 := by
    unfold storedPayload
    rw [hr, realPayload_eq, if_neg h]
    rfl
  have hll : (F64.ofInt f.lo).le (F64.ofInt f.lo) = true := (F64.le_iff hlo.finite hlo.finite).mpr le_rfl
  have hhh : (F64.ofInt f.hi).le (F64.ofInt f.hi) = true := (F64.le_iff hhi.finite hhi.finite).mpr le_rfl
  have hlh : (F64.ofInt f.lo).le (F64.ofInt f.hi) = true := by
    rw [F64.le_eq_not_lt hlo.finite hhi.finite, hord]
    rfl
  rw [F64.clamp_eq hord] at hs
  split at hs
  · rename_i h1
    rw [plusZero_of_storable hlo] at hs
    exact ⟨_, hs, hlo, hll, hlh, by rw [if_pos h1]⟩
  · rename_i h1
    split at hs
    · rename_i h2
      rw [plusZero_of_storable hhi] at hs
      exact ⟨_, hs, hhi, hlh, hhh, by rw [if_neg h1, if_pos h2]⟩
    · rename_i h2
      have hst := storable_plusZero h
      have e1 : (F64.ofInt f.lo).le (F64.ofF32 v) = true := by
        rw [F64.le_eq_not_lt hlo.finite hv]
        simp [h1]
      have e2 : (F64.ofF32 v).le (F64.ofInt f.hi) = true := by
        rw [F64.le_eq_not_lt hv hhi.finite]
        simp [h2]
      refine ⟨_, hs, hst, ?_, ?_, by rw [if_neg h1, if_neg h2]⟩
      · unfold plusZero
        split
        · rename_i hz
          simp only [F64.eq, Bool.and_eq_true, decide_eq_true_eq] at hz
          simp only [F64.le, Bool.and_eq_true, decide_eq_true_eq] at e1 ⊢
          exact ⟨⟨e1.1.1, hz.1.2⟩, hz.2 ▸ e1.2⟩
        · exact e1
      · unfold plusZero
        split
        · rename_i hz
          simp only [F64.eq, Bool.and_eq_true, decide_eq_true_eq] at hz
          simp only [F64.le, Bool.and_eq_true, decide_eq_true_eq] at e2 ⊢
          exact ⟨⟨hz.1.2, e2.1.2⟩, hz.2 ▸ e2.2⟩
        · exact e2

theorem intBounds : ∀ f ∈ patchFields, f.type = .int ∨ f.type = .enum →
    f.lo ≤ f.hi ∧ -2147483648 ≤ f.lo ∧ f.hi < 2147483648 := by decide +kernel

theorem clampInt_range {x lo hi : Int} (h : lo ≤ hi) : lo ≤ clampInt x lo hi ∧ clampInt x lo hi ≤ hi := by
  unfold clampInt
  omega

/-- The clamped integer of a field survives the payload. -/
theorem toInt_clampInt {f : PatchField} (hf : f ∈ patchFields) (hi : f.type = .int ∨ f.type = .enum) (x : Int) :
    (BitVec.ofInt 32 (clampInt x f.lo f.hi)).toInt = clampInt x f.lo f.hi := by
  obtain ⟨h1, h2, h3⟩ := intBounds f hf hi
  obtain ⟨h4, h5⟩ := clampInt_range (x := x) h1
  rw [BitVec.toInt_ofInt]
  exact Int.bmod_eq_of_le (by norm_num; omega) (by norm_num; omega)

/-- Whatever a write accepts it stores in the field's range. -/
theorem payloadOk_stored {f : PatchField} (hf : f ∈ patchFields) {v w : Word} (h : storedPayload f v = some w) :
    payloadOk f w := by
  unfold payloadOk
  cases ht : f.type with
  | real =>
    by_cases he : v.extractLsb' 23 8 = 0xFF#8
    · unfold storedPayload at h
      rw [ht, realPayload_eq, if_pos he] at h
      cases h
    · obtain ⟨y, hy, hst, hlo, hhi, -⟩ := storedPayload_real hf ht he
      rw [hy] at h
      obtain rfl : y.toF32 = w := by simpa using h
      rw [hst.back]
      exact ⟨hst.zero, hst.finite, hlo, hhi⟩
  | int =>
    unfold storedPayload at h
    simp only [ht, Option.some.injEq] at h
    subst h
    simp only
    rw [toInt_clampInt hf (.inl ht)]
    exact clampInt_range (intBounds f hf (.inl ht)).1
  | enum =>
    unfold storedPayload at h
    simp only [ht, Option.some.injEq] at h
    subst h
    simp only
    rw [toInt_clampInt hf (.inr ht)]
    exact clampInt_range (intBounds f hf (.inr ht)).1
  | bool =>
    unfold storedPayload at h
    simp only [ht, Option.some.injEq] at h
    subst h
    by_cases hv : v = 0
    · exact .inl (if_pos hv)
    · exact .inr (if_neg hv)

end Sys2Proof.Machine
end

