-- ==== Sys2Proof/Laws/Render.lean ====
section
/-! SUPPORT. The render loop: what one sample and n samples change, and that they keep the invariants. -/

namespace Sys2Proof.Machine

/-! The voice ticks of one sample. -/

/-- The ticks run from the head of the list on, each on the chip that the one before it left (R275). -/
theorem tickVoices_foldl (x : TickEnv) (vs done : List Voice) (chip : Chip) :
    vs.foldl (fun (a : List Voice × Chip) v => (a.1 ++ [(voiceTick x v a.2).1], (voiceTick x v a.2).2)) (done, chip) =
      (done ++ (tickVoices x vs chip).1, (tickVoices x vs chip).2) := by
  induction vs generalizing done chip with
  | nil => simp [tickVoices]
  | cons v vs ih => simp [tickVoices, ih]

theorem tickVoices_keys (x : TickEnv) (vs : List Voice) (chip : Chip) :
    (tickVoices x vs chip).1.map Voice.key = vs.map Voice.key := by
  induction vs generalizing chip with
  | nil => rfl
  | cons v vs ih =>
    have h := voiceTick_sameNote x v chip
    simp only [tickVoices, List.map_cons]
    rw [ih]
    congr 1
    simp [Voice.key, h.chan, h.pitch, h.velocity]

theorem tickVoices_noteOn (x : TickEnv) (vs : List Voice) (chip : Chip) :
    (tickVoices x vs chip).1.map (·.noteOn) = vs.map (·.noteOn) := by
  induction vs generalizing chip with
  | nil => rfl
  | cons v vs ih =>
    have h := voiceTick_sameNote x v chip
    simp only [tickVoices, List.map_cons]
    rw [ih, h.noteOn]

theorem tickVoices_length (x : TickEnv) (vs : List Voice) (chip : Chip) :
    (tickVoices x vs chip).1.length = vs.length := by
  simpa using congrArg List.length (tickVoices_keys x vs chip)

/-- What the ticks of one sample leave of the chip. -/
structure Chip.VoicesWrite (chip chip' : Chip) : Prop where
  noiseCounter : chip'.noise.counter = chip.noise.counter
  lfsr : chip'.noise.lfsr = chip.noise.lfsr
  acc : chip'.acc = chip.acc
  firL : chip'.firL = chip.firL
  firR : chip'.firR = chip.firR
  dcL : chip'.dcL = chip.dcL
  dcR : chip'.dcR = chip.dcR

theorem tickVoices_chip (x : TickEnv) (vs : List Voice) (chip : Chip) :
    Chip.VoicesWrite chip (tickVoices x vs chip).2 ∧
      ∀ k, (∀ v ∈ vs, v.chan ≠ k) → (tickVoices x vs chip).2.tones.get k = chip.tones.get k := by
  induction vs generalizing chip with
  | nil => exact ⟨⟨rfl, rfl, rfl, rfl, rfl, rfl, rfl⟩, fun _ _ => rfl⟩
  | cons v vs ih =>
    have h := voiceTick_chip x v chip
    obtain ⟨h1, h2⟩ := ih (voiceTick x v chip).2
    refine ⟨⟨h1.noiseCounter.trans h.noiseCounter, h1.lfsr.trans h.lfsr, h1.acc.trans h.acc, h1.firL.trans h.firL,
      h1.firR.trans h.firR, h1.dcL.trans h.dcL, h1.dcR.trans h.dcR⟩, fun k hk => ?_⟩
    refine (h2 k fun w hw => hk w (by simp [hw])).trans (h.tones k (hk v (by simp)).symm)

theorem tickVoices_chipInv {p : Params} (x : TickEnv) (vs : List Voice) {chip : Chip} (h : chip.Inv p) :
    (tickVoices x vs chip).2.Inv p := by
  induction vs generalizing chip with
  | nil => exact h
  | cons v vs ih => exact ih ((voiceTick_chip x v chip).inv h)

/-! The tick phase of one sample. -/

/-- The environment of the ticks of one sample. -/
def State.tickEnv (p : Params) (s : State) : TickEnv := { par := p, cfg := s.cfg, patch := s.patch, eng := s.eng }

/-- The voices left after the tick phase (R276). -/
def State.tickedVoices (p : Params) (s : State) : List Voice :=
  (tickVoices (s.tickEnv p) s.eng.voices s.chip).1.filter fun v => !v.silent

theorem State.tickPhase_eq (p : Params) (s : State) :
    s.tickPhase p = { s with
      chip := (tickVoices (s.tickEnv p) s.eng.voices s.chip).2
      eng := { s.eng with voices := s.tickedVoices p } } := rfl

theorem State.tickPhase_idle (p : Params) {s : State} (h : s.eng.voices = []) : s.tickPhase p = s := by
  rw [State.tickPhase_eq]
  cases s
  rename_i eng
  cases eng
  simp only at h
  subst h
  rfl

theorem State.tickPhase_engInv {p : Params} {cap : Nat} {s : State} {mode : PlayMode} (h : s.eng.Inv cap mode) :
    (s.tickPhase p).eng.Inv cap mode := by
  have hkeys := tickVoices_keys (s.tickEnv p) s.eng.voices s.chip
  have hon := tickVoices_noteOn (s.tickEnv p) s.eng.voices s.chip
  have hok := (h.voices.of_keys hkeys).sublist (List.filter_sublist (p := fun v => !v.silent))
  rw [State.tickPhase_eq]
  exact {
    size := hok.size
    channels := hok.channels
    order := hok.order
    velocity := hok.velocity
    heldOrder := h.heldOrder
    heldCap := h.heldCap
    arpIdle := fun ha h0 v hv => by
      have hv' : v ∈ (tickVoices (s.tickEnv p) s.eng.voices s.chip).1 := List.mem_of_mem_filter hv
      have : v.noteOn ∈ s.eng.voices.map (·.noteOn) := hon ▸ List.mem_map_of_mem hv'
      obtain ⟨w, hw, hwe⟩ := List.mem_map.mp this
      rw [← hwe]
      exact h.arpIdle ha h0 w hw
    arpHeld := fun ha hne => by
      obtain ⟨v, hvs, hvon, hch⟩ := h.arpHeld ha hne
      have h1 := voiceTick_sameNote (s.tickEnv p) v s.chip
      refine ⟨(voiceTick (s.tickEnv p) v s.chip).1, ?_, h1.noteOn.trans hvon, h1.chan.trans hch⟩
      show (tickVoices (s.tickEnv p) s.eng.voices s.chip).1.filter (fun v => !v.silent) = _
      rw [hvs]
      simp [tickVoices, Voice.silent, h1.noteOn, hvon]
    pedalUp := h.pedalUp
    deferred := h.deferred }

/-! One sample. -/

theorem State.chipSample_eq (p : Params) (s : State) :
    s.chipSample p = { s with
      chip := (Sys2Proof.Machine.chipSample p s.cfg s.chip).2
      out := s.out ++ [((Sys2Proof.Machine.chipSample p s.cfg s.chip).1.1.toF32,
        (Sys2Proof.Machine.chipSample p s.cfg s.chip).1.2.toF32)] } := rfl

/-- What one sample of RENDER changes: the chip, the voice list and the output port (R275). -/
theorem State.renderSample_spec (p : Params) (s : State) :
    ∃ chip lr, s.renderSample p = { s with
      chip := chip
      out := s.out ++ [lr]
      eng := { s.eng with voices := s.tickedVoices p } } := by
  unfold State.renderSample
  rw [State.tickPhase_eq]
  dsimp only
  split
  · exact ⟨_, _, rfl⟩
  · rw [State.chipSample_eq]
    exact ⟨_, _, rfl⟩

/-- What n samples of RENDER change (R275, R84). -/
theorem State.renderSamples_spec (p : Params) (n : Nat) (s : State) :
    ∃ chip o vs, o.length = n ∧ s.renderSamples p n = { s with
      chip := chip
      out := s.out ++ o
      eng := { s.eng with voices := vs } } := by
  induction n generalizing s with
  | zero => exact ⟨s.chip, [], s.eng.voices, rfl, by simp [State.renderSamples]⟩
  | succ n ih =>
    obtain ⟨chip, lr, h⟩ := s.renderSample_spec p
    obtain ⟨chip', o, vs, ho, h'⟩ := ih (s.renderSample p)
    refine ⟨chip', lr :: o, vs, by simp [ho], ?_⟩
    show (s.renderSample p).renderSamples p n = _
    rw [h', h]
    simp

theorem State.renderSample_chipInv {p : Params} (hp : p.Ok) {s : State} (h : s.chip.Inv p) :
    (s.renderSample p).chip.Inv p := by
  have h1 : (s.tickPhase p).chip.Inv p := tickVoices_chipInv _ _ h
  unfold State.renderSample
  dsimp only
  split
  · exact h1
  · exact h1.chipSample hp _

theorem State.renderSample_engInv {p : Params} {cap : Nat} {s : State} {mode : PlayMode} (h : s.eng.Inv cap mode) :
    (s.renderSample p).eng.Inv cap mode := by
  have h1 := State.tickPhase_engInv (p := p) h
  unfold State.renderSample
  dsimp only
  split
  · exact h1
  · exact h1

theorem State.renderSamples_chipInv {p : Params} (hp : p.Ok) (n : Nat) {s : State} (h : s.chip.Inv p) :
    (s.renderSamples p n).chip.Inv p := by
  induction n generalizing s with
  | zero => exact h
  | succ n ih => exact ih (State.renderSample_chipInv hp h)

theorem State.renderSamples_engInv {p : Params} {cap : Nat} (n : Nat) {s : State} {mode : PlayMode}
    (h : s.eng.Inv cap mode) : (s.renderSamples p n).eng.Inv cap mode := by
  induction n generalizing s with
  | zero => exact h
  | succ n ih => exact ih (State.renderSample_engInv h)

/-- Rendering n samples and then m is rendering n + m. -/
theorem State.renderSamples_add (p : Params) (n m : Nat) (s : State) :
    s.renderSamples p (n + m) = (s.renderSamples p n).renderSamples p m := by
  induction n generalizing s with
  | zero => simp [State.renderSamples]
  | succ n ih =>
    rw [Nat.succ_add]
    exact ih (s.renderSample p)

/-- A sample with no voices emits silence and changes nothing else (R275). -/
theorem State.renderSample_idle (p : Params) {s : State} (h : s.eng.voices = []) :
    s.renderSample p = s.emit F64.zero F64.zero := by
  unfold State.renderSample
  rw [State.tickPhase_idle p h]
  simp [h]

end Sys2Proof.Machine
end

