-- ==== Sys2Proof/Laws/Exec.lean ====
section
/-! SUPPORT. The commands: the state that each one answers, the channel commands on a channel of the chip, the patch
write, and what a step does. -/

namespace Sys2Proof.Machine

/-- The state that a command answers under the parameters p. -/
def execState (p : Params) (i : Instr) (s : State) : State :=
  match i with
  | .nop => s
  | .reset => s.resetKeepingPorts p
  | .configure mode sr clock => s.configure p mode sr clock
  | .rdStatus => (s.respond s.status).clearErrors
  | .setTone ch period => s.onChannel ch fun t => t.setTone period
  | .setMixer ch tOff nOff eOn => s.onChannel ch fun t => t.setMixer tOff nOff eOn
  | .setVolume ch vol => s.onChannel ch fun t => t.setVolume vol
  | .setPan ch eqp pan => s.onChannelReal ch pan fun x t => t.setPan x eqp
  | .setNoise np => { s with chip := { s.chip with noise := s.chip.noise.setPeriod np } }
  | .setEnvPeriod ep => { s with chip := { s.chip with env := s.chip.env.setPeriod ep } }
  | .setEnvShape shape => { s with chip := { s.chip with env := s.chip.env.setShape shape } }
  | .tonePhase ch phase => s.onChannelReal ch phase fun x t => t.setPhase x
  | .envSync => { s with chip := { s.chip with env := s.chip.env.sync } }
  | .envLoad seg level counter => { s with chip := { s.chip with env := s.chip.env.load seg level counter } }
  | .process => s.process p
  | .noteOn _ pitch vel => s.noteOn p pitch vel
  | .noteOff _ pitch _ => { s with eng := s.eng.noteOff (playMode s.patch) pitch }
  | .allNotesOff _ => { s with eng := s.eng.allNotesOff }
  | .pitchWheel _ wheel => { s with eng := { s.eng with pw := wheel } }
  | .control _ num val => { s with eng := s.eng.controller (playMode s.patch) num val }
  | .patchWr id value =>
    match fieldAt id.toNat with
    | none => s.raise .illegal
    | some f =>
      match storedPayload f value with
      | none => s.raise .value
      | some w => s.patchStore id.toNat w
  | .patchRd id => if assigned id.toNat then s.respond (memRead s.patch id.toNat) else s.raise .illegal
  | .render n => s.render p n.toNat

/-- Every command answers a next state (60_exceptions.md R310). -/
theorem exec_eq (i : Instr) (s : State) : exec i s = .next (execState params i s) := by
  cases i with
  | patchWr id value =>
    simp only [exec, execPatchWr, execState]
    cases fieldAt id.toNat with
    | none => rfl
    | some f => cases hp : storedPayload f value <;> simp only [hp]
  | patchRd id =>
    simp only [exec, execPatchRd, execState]
    split <;> rfl
  | _ => rfl

/-- Every command answers a next state, under any parameters. -/
theorem execWith_eq (p : Params) (i : Instr) (s : State) : execWith p i s = .next (execState p i s) := by
  cases i with
  | patchWr id value => exact exec_eq (.patchWr id value) s
  | patchRd id => exact exec_eq (.patchRd id) s
  | _ => rfl

/-- `exec` is the machine at the defaults of the OPEN parameters (00_scope.md R7). -/
theorem exec_eq_execWith (i : Instr) (s : State) : exec i s = execWith params i s := by
  rw [exec_eq, execWith_eq]

/-- What a CONFIGURE does: it refuses a rate of 0, or resets the chip and writes the configuration (R132). -/
theorem State.configure_cases (p : Params) (mode : ChipMode) (sr : BitVec 18) (clock : BitVec 32) (s : State) :
    ((sr = 0 ∨ clock = 0) ∧ s.configure p mode sr clock = s.raise .value) ∨
      (sr ≠ 0 ∧ clock ≠ 0 ∧ s.configure p mode sr clock = { s with
        chip := Chip.reset p
        cfg := { configured := true, mode := mode, clock := clock, sr := sr, step := stepOf clock sr } }) := by
  unfold State.configure
  by_cases h : sr = 0 ∨ clock = 0
  · exact .inl ⟨h, if_pos h⟩
  · exact .inr ⟨fun h1 => h (.inl h1), fun h2 => h (.inr h2), if_neg h⟩

/-! Channels. -/

theorem chanOf_ofNat (c : Fin 3) : chanOf (BitVec.ofNat 4 c) = some c := by
  fin_cases c <;> rfl

theorem chanOf_none {ch : BitVec 4} (h : 2 < ch.toNat) : chanOf ch = none := by
  unfold chanOf
  rw [dif_neg (by omega)]

theorem channelOk_iff (ch : BitVec 4) : channelOk ch = true ↔ ∃ c : Fin 3, ch = BitVec.ofNat 4 c := by
  unfold channelOk
  rw [decide_eq_true_eq]
  constructor
  · intro h
    refine ⟨⟨ch.toNat, by omega⟩, BitVec.eq_of_toNat_eq ?_⟩
    have := ch.isLt
    simp
  · rintro ⟨c, rfl⟩
    fin_cases c <;> decide

/-- A channel command on channel c (R141 to R143). -/
theorem State.onChannel_ofNat (s : State) (c : Fin 3) (f : ToneChannel → ToneChannel) :
    s.onChannel (BitVec.ofNat 4 c) f = { s with chip := s.chip.onTone c f } := by
  unfold State.onChannel
  rw [chanOf_ofNat]

theorem State.onChannel_illegal (s : State) {ch : BitVec 4} (h : 2 < ch.toNat) (f : ToneChannel → ToneChannel) :
    s.onChannel ch f = s.raise .illegal := by
  unfold State.onChannel
  rw [chanOf_none h]

/-- A channel command with a real payload on channel c (R144, R148). -/
theorem State.onChannelReal_ofNat (s : State) (c : Fin 3) (w : F32) (f : F64 → ToneChannel → ToneChannel) :
    s.onChannelReal (BitVec.ofNat 4 c) w f =
      if w.extractLsb' 23 8 = 0xFF#8 then s.raise .value
      else { s with chip := s.chip.onTone c (f (F64.ofF32 w)) } := by
  unfold State.onChannelReal
  rw [chanOf_ofNat, realPayload_eq]
  by_cases h : w.extractLsb' 23 8 = 0xFF#8
  · rw [if_pos h, if_pos h]
  · rw [if_neg h, if_neg h]

theorem State.onChannelReal_illegal (s : State) {ch : BitVec 4} (h : 2 < ch.toNat) (w : F32)
    (f : F64 → ToneChannel → ToneChannel) : s.onChannelReal ch w f = s.raise .illegal := by
  unfold State.onChannelReal
  rw [chanOf_none h]

/-- Every effect of a channel command: the chip, or one error bit. -/
theorem State.onChannel_cases (s : State) (ch : BitVec 4) (f : ToneChannel → ToneChannel) :
    (∃ c, s.onChannel ch f = { s with chip := s.chip.onTone c f }) ∨ s.onChannel ch f = s.raise .illegal := by
  unfold State.onChannel
  split
  · exact .inl ⟨_, rfl⟩
  · exact .inr rfl

theorem State.onChannelReal_cases (s : State) (ch : BitVec 4) (w : F32) (f : F64 → ToneChannel → ToneChannel) :
    (∃ c x, s.onChannelReal ch w f = { s with chip := s.chip.onTone c (f x) }) ∨
      s.onChannelReal ch w f = s.raise .illegal ∨ s.onChannelReal ch w f = s.raise .value := by
  unfold State.onChannelReal
  split
  · exact .inr (.inl rfl)
  · exact .inr (.inr rfl)
  · exact .inl ⟨_, _, rfl⟩

/-! The patch write. -/

theorem State.beforeWrite_frame (s : State) (id : Nat) (w : Word) :
    s.beforeWrite id w = { s with eng := (s.beforeWrite id w).eng } := by
  unfold State.beforeWrite
  split <;> rfl

/-- A store that does not change the play mode leaves the Engine alone; one that does performs ALL_NOTES_OFF first
(R302). -/
theorem State.patchStore_eq (s : State) (id : Nat) (w : Word) :
    s.patchStore id w = { s with
      patch := memWrite s.patch id w
      eng := if id = PatchId.playMode ∧ w ≠ memRead s.patch PatchId.playMode then s.eng.allNotesOff else s.eng } := by
  unfold State.patchStore State.beforeWrite
  split <;> rfl

/-- What a PATCH_WR of an assigned field does. -/
theorem exec_patchWr {id : BitVec 12} {f : PatchField} (hf : fieldAt id.toNat = some f) (v : Word) (s : State) :
    exec (.patchWr id v) s = .next (match storedPayload f v with
      | none => s.raise .value
      | some w => s.patchStore id.toNat w) := by
  simp only [exec, execPatchWr, hf]
  cases storedPayload f v <;> rfl

/-! The step. -/

theorem runNext_of_cmd (run : Instr → State → Host.Outcome State Fault Refusal) {s : State} {h d : Word}
    {rest : List Word} (hc : s.cmd = h :: d :: rest) :
    runNext run s = match decode h d with
      | .legal i => run i { s with cmd := rest }
      | .illegal _ => .next ({ s with cmd := rest }.raise .illegal) := by
  cases s
  cases hc
  rfl

theorem step_of_cmd {s : State} {h d : Word} {rest : List Word} (hc : s.cmd = h :: d :: rest) :
    step s = match decode h d with
      | .legal i => exec i { s with cmd := rest }
      | .illegal _ => .next ({ s with cmd := rest }.raise .illegal) := runNext_of_cmd exec hc

/-- `step` is the machine at the defaults of the OPEN parameters (00_scope.md R7). -/
theorem step_eq_stepWith : step = stepWith params := by
  have h : exec = execWith params := funext fun i => funext fun s => exec_eq_execWith i s
  unfold step stepWith
  rw [h]

/-- With fewer than two words present no command starts. -/
theorem runNext_of_short (run : Instr → State → Host.Outcome State Fault Refusal) {s : State} (h : s.cmd.length < 2) :
    runNext run s = .next s := by
  unfold runNext State.fetch
  match hc : s.cmd, h with
  | [], _ => rfl
  | [_], _ => rfl

end Sys2Proof.Machine
end

