-- ==== Sys2Proof/Laws/Finite.lean ====
section
/-! SUPPORT. The values that the block keeps stay in their ranges: the patch fields as reals, the levels of a voice,
and the whole chain from the accumulator to the emitted sample. -/

namespace Sys2Proof.Machine

/-! The patch fields. -/

/-- A real field of a patch in range, read as a real. -/
theorem real_between {m : Patch} (h : Patch.InRange m) {id : Nat} {lo hi : Int}
    (hf : (fieldAt id).map (fun f => (f.type, f.lo, f.hi)) = some (.real, lo, hi)) : (real m id).Between lo hi := by
  obtain ⟨f, hf1, hf2⟩ := Option.map_eq_some_iff.mp hf
  obtain ⟨hm, rfl⟩ := fieldAt_mem hf1
  have hp := h f hm
  simp only [Prod.mk.injEq] at hf2
  obtain ⟨h1, rfl, rfl⟩ := hf2
  unfold payloadOk at hp
  rw [h1] at hp
  exact ⟨hp.2.2.1, hp.2.2.2⟩

theorem field_waveform : ∀ k : Fin 8, (fieldAt (PatchId.ringmodWaveform k)).map (fun f => (f.type, f.lo, f.hi)) =
    some (.real, 0, 15) := by decide +kernel

theorem field_seqLevel : ∀ k : Fin 16, (fieldAt (PatchId.seqStepLevel k)).map (fun f => (f.type, f.lo, f.hi)) =
    some (.real, 0, 15) := by decide +kernel

theorem field_seqDepth : ∀ k : Fin 16,
    (fieldAt (PatchId.seqStepRingmodDepth k)).map (fun f => (f.type, f.lo, f.hi)) = some (.real, -1, 1) := by
  decide +kernel

theorem field_pan : ∀ k : Fin 3, (fieldAt (PatchId.panChannel k)).map (fun f => (f.type, f.lo, f.hi)) =
    some (.real, 0, 1) := by decide +kernel

/-- A write of an accepted payload keeps the patch in range, and so does every other id. -/
theorem inRange_write {m : Patch} (hw : Memory.wf m = true) (h : Patch.InRange m) {f : PatchField}
    (hf : f ∈ patchFields) {w : Word} (hp : payloadOk f w) : Patch.InRange (memWrite m f.id w) := by
  intro g hg
  rw [memRead_memWrite (Memory.wf_iff.mp hw).1]
  split
  · rename_i he
    have : g = f := by
      have h1 := fieldAt_self g hg
      rw [← he, fieldAt_self f hf] at h1
      exact (Option.some.inj h1).symm
    rw [this]
    exact hp
  · exact h g hg

/-- The reset patch is in range. -/
theorem inRange_reset : Patch.InRange [] := by
  have h : ∀ f ∈ patchFields,
      (f.type = .real → f.reset ≠ 0x80000000#32 ∧ (F64.ofF32 f.reset).isFinite = true ∧
        (F64.ofInt f.lo).le (F64.ofF32 f.reset) = true ∧ (F64.ofF32 f.reset).le (F64.ofInt f.hi) = true) ∧
      (f.type = .int ∨ f.type = .enum → f.lo ≤ f.reset.toInt ∧ f.reset.toInt ≤ f.hi) ∧
      (f.type = .bool → f.reset = 0 ∨ f.reset = 1) := by
    decide +kernel
  intro f hf
  obtain ⟨h1, h2, h3⟩ := h f hf
  rw [memRead_nil, resetPayload_self hf]
  unfold payloadOk
  cases ht : f.type
  · exact h1 ht
  · exact h2 (.inl ht)
  · exact h2 (.inr ht)
  · exact h3 ht

/-! The parameters. -/

theorem coeffs_between : ∀ h ∈ params.firCoeffs, h.Between (-1) 1 := by
  have : ∀ h ∈ params.firCoeffs, (F64.ofInt (-1)).le h = true ∧ h.le (F64.ofInt 1) = true := by decide +kernel
  exact this

theorem coeffs_length : params.firCoeffs.length = 191 := by decide +kernel

theorem dac_between (mode : ChipMode) : ∀ a ∈ dacTable params mode, a.Between 0 1 := by
  have h1 : ∀ a ∈ params.dacYm, (F64.ofInt 0).le a = true ∧ a.le (F64.ofInt 1) = true := by decide +kernel
  have h2 : ∀ a ∈ params.dacAy, (F64.ofInt 0).le a = true ∧ a.le (F64.ofInt 1) = true := by decide +kernel
  cases mode
  · exact h1
  · exact h2

theorem dcLeak_range : params.dcLeak.isFinite = true ∧ 0 ≤ params.dcLeak.toRat ∧ params.dcLeak.toRat ≤ 9951 / 10000 := by
  refine ⟨by decide +kernel, ?_⟩
  have hv : params.dcLeak.value = .fin false 0x1FD70A3D70A3D7 (-53) := by decide +kernel
  rw [F64.toRat, hv, FpValue.toRat]
  norm_num

/-! The chip. -/

theorem Chip.Bounded.frame {a b : Chip} (h : a.Bounded) (hacc : b.acc = a.acc)
    (hL : ∀ k, (b.tones.get k).panL = (a.tones.get k).panL) (hR : ∀ k, (b.tones.get k).panR = (a.tones.get k).panR)
    (hfL : b.firL = a.firL) (hfR : b.firR = a.firR) (hdL : b.dcL = a.dcL) (hdR : b.dcR = a.dcR) : b.Bounded where
  accLow := by rw [hacc]; exact h.accLow
  accHigh := by rw [hacc]; exact h.accHigh
  panL k := by rw [hL]; exact h.panL k
  panR k := by rw [hR]; exact h.panR k
  firL := by rw [hfL]; exact h.firL
  firR := by rw [hfR]; exact h.firR
  dcXL := by rw [hdL]; exact h.dcXL
  dcXR := by rw [hdR]; exact h.dcXR
  dcYL := by rw [hdL]; exact h.dcYL
  dcYR := by rw [hdR]; exact h.dcYR

theorem zero_between (lo hi : Int) (h : (F64.ofInt lo).le F64.zero = true ∧ F64.zero.le (F64.ofInt hi) = true) :
    F64.zero.Between lo hi := h

theorem Chip.Bounded.reset : (Chip.reset params).Bounded where
  accLow := by decide
  accHigh := by decide
  panL k := by fin_cases k <;> exact ⟨by decide, by decide⟩
  panR k := by fin_cases k <;> exact ⟨by decide, by decide⟩
  firL x hx := by
    simp only [Chip.reset, List.mem_replicate] at hx
    rw [hx.2]
    exact ⟨by decide, by decide⟩
  firR x hx := by
    simp only [Chip.reset, List.mem_replicate] at hx
    rw [hx.2]
    exact ⟨by decide, by decide⟩
  dcXL x hx := by
    simp only [Chip.reset, List.mem_replicate] at hx
    rw [hx.2]
    exact ⟨by decide, by decide⟩
  dcXR x hx := by
    simp only [Chip.reset, List.mem_replicate] at hx
    rw [hx.2]
    exact ⟨by decide, by decide⟩
  dcYL := ⟨by decide +kernel, by decide +kernel⟩
  dcYR := ⟨by decide +kernel, by decide +kernel⟩

/-- A change of one channel that leaves both its gains in range. -/
theorem Chip.Bounded.onTone {chip : Chip} (h : chip.Bounded) (c : Fin 3) {f : ToneChannel → ToneChannel}
    (hL : (f (chip.tones.get c)).panL.Between 0 1) (hR : (f (chip.tones.get c)).panR.Between 0 1) :
    (chip.onTone c f).Bounded where
  accLow := h.accLow
  accHigh := h.accHigh
  panL k := by
    by_cases hk : k = c
    · subst hk
      simpa using hL
    · simpa [hk] using h.panL k
  panR k := by
    by_cases hk : k = c
    · subst hk
      simpa using hR
    · simpa [hk] using h.panR k
  firL := h.firL
  firR := h.firR
  dcXL := h.dcXL
  dcXR := h.dcXR
  dcYL := h.dcYL
  dcYR := h.dcYR

theorem plusZero_between {x : F64} {hi : Int} (h : x.Between 0 hi) (h0 : F64.zero.le (F64.ofInt hi) = true) :
    (plusZero x).Between 0 hi := by
  unfold plusZero
  split
  · exact ⟨by decide, h0⟩
  · exact h

/-- SET_PAN leaves both gains in [0, 1], for every pan that is no NaN (R144). -/
theorem setPan_between (t : ToneChannel) {x : F64} (hx : x.isNaN = false) (eqp : Bool) :
    (t.setPan x eqp).panL.Between 0 1 ∧ (t.setPan x eqp).panR.Between 0 1 := by
  have hp := plusZero_between (F64.clamp_between hx) (by decide)
  unfold ToneChannel.setPan
  dsimp only
  generalize plusZero (x.clamp F64.zero F64.one) = p at hp
  obtain ⟨f, h0, h1⟩ := (F64.between_iff (by decide) (by decide) p).mp hp
  obtain ⟨fo, o0, o1⟩ := (F64.between_iff (by decide) (by decide) F64.one).mp F64.one_between
  push_cast at h0 h1 o0 o1
  have hq : (F64.one.sub p).Between 0 1 :=
    F64.sub_between fo f (by push_cast; linarith) (by push_cast; linarith) (by decide) (by decide)
  split
  · exact ⟨F64.sqrt_between hq, F64.sqrt_between hp⟩
  · exact ⟨hq, hp⟩

theorem ticks_pans (p : Params) (n : Nat) (chip : Chip) (k : Fin 3) :
    ((Chip.ticks p n chip).tones.get k).panL = (chip.tones.get k).panL ∧
      ((Chip.ticks p n chip).tones.get k).panR = (chip.tones.get k).panR := by
  induction n generalizing chip with
  | zero => exact ⟨rfl, rfl⟩
  | succ n ih =>
    have h := ih (Chip.tick p chip)
    have ht : (Chip.tick p chip).tones.get k = (chip.tones.get k).tick := by simp
    obtain ⟨c, b, he⟩ := (chip.tones.get k).tick_frame
    rw [ht, he] at h
    exact h

theorem ticks_histories (p : Params) (n : Nat) (chip : Chip) :
    (Chip.ticks p n chip).acc = chip.acc ∧ (Chip.ticks p n chip).firL = chip.firL ∧
      (Chip.ticks p n chip).firR = chip.firR ∧ (Chip.ticks p n chip).dcL = chip.dcL ∧
      (Chip.ticks p n chip).dcR = chip.dcR := by
  induction n generalizing chip with
  | zero => exact ⟨rfl, rfl, rfl, rfl, rfl⟩
  | succ n ih => exact ih (Chip.tick p chip)

/-- The step of a configuration is from 0 to 2^26 (R132). -/
theorem stepOf_between (clock : BitVec 32) {sr : BitVec 18} (h : sr ≠ 0) :
    (stepOf clock sr).Between 0 (2 ^ 26) := by
  have hc := clock.isLt
  have hs := sr.isLt
  have hs0 : 1 ≤ sr.toNat := by
    have : sr.toNat ≠ 0 := fun e => h (BitVec.eq_of_toNat_eq e)
    omega
  obtain ⟨fc, vc, -⟩ := F64.ofNat_exact (m := clock.toNat) (by omega)
  obtain ⟨fs, vs, -⟩ := F64.ofNat_exact (m := sr.toNat) (by omega)
  obtain ⟨f6, v6, -⟩ := F64.ofNat_exact (m := 64) (by norm_num)
  have e6 : F64.dec 64 = F64.ofNat 64 := by decide
  have hsq : (1 : ℚ) ≤ sr.toNat := by exact_mod_cast hs0
  have hsq2 : (sr.toNat : ℚ) ≤ 262144 := by exact_mod_cast hs.le
  have hcq : (clock.toNat : ℚ) ≤ 4294967296 := by exact_mod_cast hc.le
  have hc0 : (0 : ℚ) ≤ clock.toNat := by positivity
  have hm : ((F64.dec 64).mul (F64.ofNat sr.toNat)).Between 64 (2 ^ 24) := by
    rw [e6]
    refine F64.mul_between f6 fs ?_ ?_ (by decide) (by decide) <;> rw [v6, vs] <;> push_cast <;> linarith
  obtain ⟨fm, m0, m1⟩ := (F64.between_iff (by decide) (by decide) _).mp hm
  push_cast at m0 m1
  unfold stepOf
  refine F64.div_between fc fm (by linarith) ?_ ?_ (by decide) (by decide) <;> rw [vc]
  · push_cast
    positivity
  · push_cast
    rw [div_le_iff₀ (by linarith)]
    linarith

/-- The accumulator stays in [0, 1) over a sub-sample (10_state.md R29), and the ticks are the whole part (R161). -/
theorem advance_spec (p : Params) {chip : Chip} {step : F64} (hlo : F64.zero.le chip.acc = true)
    (hhi : chip.acc.lt F64.one = true) (hs : step.Between 0 (2 ^ 26)) :
    ∃ n : Nat, (n : Int) = (chip.acc.add step).floor ∧
      Chip.advance p step chip = { Chip.ticks p n chip with acc := (chip.acc.add step).frac } ∧
      F64.zero.le (chip.acc.add step).frac = true ∧ (chip.acc.add step).frac.lt F64.one = true := by
  have fone : F64.one.isFinite = true := by decide
  have vone : F64.one.toRat = 1 := by
    rw [F64.one_eq, (F64.ofNat_exact (by norm_num)).2.1]
    simp
  have hle : chip.acc.le F64.one = true := by
    simp only [F64.lt, F64.le, Bool.and_eq_true, decide_eq_true_eq] at hhi ⊢
    exact ⟨hhi.1, hhi.2.le⟩
  have fa := F64.isFinite_of_between F64.isFinite_zero fone hlo hle
  have a0 := (F64.le_iff F64.isFinite_zero fa).mp hlo
  have a1 := (F64.lt_iff fa fone).mp hhi
  rw [F64.toRat_zero] at a0
  rw [vone] at a1
  obtain ⟨fs, s0, s1⟩ := (F64.between_iff (by decide) (by decide) _).mp hs
  push_cast at s0 s1
  obtain ⟨fn, n0, n1⟩ := (F64.between_iff (by decide) (by decide) _).mp
    (F64.add_between fa fs (lo := 0) (hi := 2 ^ 26 + 1) (by push_cast; linarith) (by push_cast; linarith)
      (by decide) (by decide))
  push_cast at n0 n1
  have hlt : (chip.acc.add step).toRat < 2 ^ 53 := by
    norm_num at n1 ⊢
    linarith
  obtain ⟨n, hn⟩ : ∃ n : Nat, ⌊(chip.acc.add step).toRat⌋ = (n : Int) := by
    refine ⟨⌊(chip.acc.add step).toRat⌋.toNat, ?_⟩
    have : (0 : Int) ≤ ⌊(chip.acc.add step).toRat⌋ := Int.le_floor.mpr (by simpa using n0)
    omega
  obtain ⟨r1, r2, r3⟩ := F64.frac_range fn n0 hlt
  have hadv : Chip.advance p step chip =
      Chip.runTicks p (chip.acc.add step).floor.toNat { chip with acc := chip.acc.add step } := rfl
  rw [hadv]
  generalize chip.acc.add step = a at *
  refine ⟨n, by rw [F64.floor_eq fn, hn], ?_, ?_, ?_⟩
  · rw [F64.floor_eq fn, hn, Int.toNat_natCast, Chip.runTicks_exact p n { chip with acc := a } fn n0 hlt hn,
      Chip.ticks_acc]
  · rw [F64.le_iff F64.isFinite_zero r1, F64.toRat_zero]
    exact r2
  · rw [F64.lt_iff r1 fone, vone]
    exact r3

theorem Chip.Bounded.advance {chip : Chip} (p : Params) (h : chip.Bounded) {step : F64}
    (hs : step.Between 0 (2 ^ 26)) : (Chip.advance p step chip).Bounded := by
  obtain ⟨n, -, he, h1, h2⟩ := advance_spec p h.accLow h.accHigh hs
  rw [he]
  obtain ⟨-, t2, t3, t4, t5⟩ := ticks_histories p n chip
  exact {
    accLow := h1
    accHigh := h2
    panL := fun k => by
      show ((Chip.ticks p n chip).tones.get k).panL.Between 0 1
      rw [(ticks_pans p n chip k).1]
      exact h.panL k
    panR := fun k => by
      show ((Chip.ticks p n chip).tones.get k).panR.Between 0 1
      rw [(ticks_pans p n chip k).2]
      exact h.panR k
    firL := by
      show ∀ x ∈ (Chip.ticks p n chip).firL, _
      rw [t2]
      exact h.firL
    firR := by
      show ∀ x ∈ (Chip.ticks p n chip).firR, _
      rw [t3]
      exact h.firR
    dcXL := by
      show ∀ x ∈ (Chip.ticks p n chip).dcL.x, _
      rw [t4]
      exact h.dcXL
    dcXR := by
      show ∀ x ∈ (Chip.ticks p n chip).dcR.x, _
      rw [t5]
      exact h.dcXR
    dcYL := by
      show (Chip.ticks p n chip).dcL.y.Between _ _
      rw [t4]
      exact h.dcYL
    dcYR := by
      show (Chip.ticks p n chip).dcR.y.Between _ _
      rw [t5]
      exact h.dcYR }

/-! The mixer. -/

theorem amplitude_between (mode : ChipMode) (chip : Chip) (c : Fin 3) :
    (amplitude params mode chip c).Between 0 1 := by
  unfold amplitude
  rw [List.getD_eq_getElem?_getD]
  cases h : (dacTable params mode)[dacIndex (chip.tones.get c) chip.noise.out chip.env.level]? with
  | none => exact ⟨by decide, by decide⟩
  | some a => exact dac_between mode a (List.mem_of_getElem? h)

/-- One side's sum over the three channels lies in [0, 3] (R172). -/
theorem sum3_between {a0 a1 a2 g0 g1 g2 : F64} (ha0 : a0.Between 0 1) (ha1 : a1.Between 0 1) (ha2 : a2.Between 0 1)
    (h0 : g0.Between 0 1) (h1 : g1.Between 0 1) (h2 : g2.Between 0 1) :
    (((F64.zero.add (a0.mul g0)).add (a1.mul g1)).add (a2.mul g2)).Between 0 3 := by
  have prod : ∀ {a g : F64}, a.Between 0 1 → g.Between 0 1 → (a.mul g).Between 0 1 := by
    intro a g ha hg
    obtain ⟨fa, a0, a1⟩ := (F64.between_iff (by decide) (by decide) _).mp ha
    obtain ⟨fg, g0, g1⟩ := (F64.between_iff (by decide) (by decide) _).mp hg
    push_cast at a0 a1 g0 g1
    exact F64.mul_between fa fg (by push_cast; positivity) (by push_cast; nlinarith) (by decide) (by decide)
  have sum : ∀ {a b : F64} {n : Int}, 0 ≤ n → n ≤ 2 → a.Between 0 n → b.Between 0 1 → (a.add b).Between 0 (n + 1) := by
    intro a b n hn hn2 ha hb
    obtain ⟨fa, a0, a1⟩ := (F64.between_iff (by decide) (by omega) _).mp ha
    obtain ⟨fb, b0, b1⟩ := (F64.between_iff (by decide) (by decide) _).mp hb
    push_cast at a0 a1 b0 b1
    exact F64.add_between fa fb (by push_cast; linarith) (by push_cast; linarith) (by decide) (by omega)
  exact sum (n := 2) (by decide) (by decide) (sum (n := 1) (by decide) (by decide)
    (sum (n := 0) (by decide) (by decide) ⟨by decide, by decide⟩ (prod ha0 h0)) (prod ha1 h1)) (prod ha2 h2)

theorem mix_between {chip : Chip} (h : chip.Bounded) (mode : ChipMode) :
    (mix params mode chip).1.Between 0 3 ∧ (mix params mode chip).2.Between 0 3 := by
  have a := amplitude_between mode chip
  exact ⟨sum3_between (a 0) (a 1) (a 2) (h.panL 0) (h.panL 1) (h.panL 2),
    sum3_between (a 0) (a 1) (a 2) (h.panR 0) (h.panR 1) (h.panR 2)⟩

theorem mem_shiftIn {x y : F64} {h : List F64} (hy : y ∈ shiftIn x h) : y = x ∨ y ∈ h := by
  rcases List.mem_cons.mp hy with rfl | hy
  · exact .inl rfl
  · exact .inr (List.mem_of_mem_dropLast hy)

theorem Chip.Bounded.firPush {chip : Chip} (h : chip.Bounded) {lr : F64 × F64} (hl : lr.1.Between 0 3)
    (hr : lr.2.Between 0 3) : (chip.firPush lr).Bounded where
  accLow := h.accLow
  accHigh := h.accHigh
  panL := h.panL
  panR := h.panR
  firL x hx := by
    rcases mem_shiftIn hx with rfl | hx
    · exact hl
    · exact h.firL x hx
  firR x hx := by
    rcases mem_shiftIn hx with rfl | hx
    · exact hr
    · exact h.firR x hx
  dcXL := h.dcXL
  dcXR := h.dcXR
  dcYL := h.dcYL
  dcYR := h.dcYR

/-! The filter. -/

/-- Each tap moves the running sum by at most 3. -/
theorem firSum_between (hs xs : List F64) (y : F64) (n : Nat) (hn : n + hs.length ≤ 1000)
    (hh : ∀ h ∈ hs, h.Between (-1) 1) (hx : ∀ x ∈ xs, x.Between 0 3) (hy : y.Between (-(3 * n)) (3 * n)) :
    (firSum y hs xs).Between (-(3 * (n + hs.length))) (3 * (n + hs.length)) := by
  induction hs generalizing xs y n with
  | nil =>
    unfold firSum
    simpa using hy
  | cons c cs ih =>
    simp only [List.length_cons] at hn
    cases xs with
    | nil =>
      unfold firSum
      refine hy.mono ?_ ?_ ?_ ?_ ?_ ?_ <;> (try simp only [List.length_cons]) <;> push_cast <;> omega
    | cons x xs =>
      unfold firSum
      have hc := hh c (by simp)
      have hx0 := hx x (by simp)
      obtain ⟨fc, c0, c1⟩ := (F64.between_iff (by decide) (by decide) _).mp hc
      obtain ⟨fx, x0, x1⟩ := (F64.between_iff (by decide) (by decide) _).mp hx0
      obtain ⟨fy, y0, y1⟩ := (F64.between_iff (by omega) (by omega) _).mp hy
      push_cast at c0 c1 x0 x1 y0 y1
      obtain ⟨fm, m0, m1⟩ := (F64.between_iff (by decide) (by decide) _).mp
        (F64.mul_between fc fx (lo := -3) (hi := 3) (by push_cast; nlinarith) (by push_cast; nlinarith) (by decide)
          (by decide))
      push_cast at m0 m1
      have hnext : (y.add (c.mul x)).Between (-(3 * (n + 1 : Nat))) (3 * (n + 1 : Nat)) :=
        F64.add_between fy fm (by push_cast; linarith) (by push_cast; linarith) (by omega) (by omega)
      have := ih xs (y.add (c.mul x)) (n + 1) (by omega) (fun h hm => hh h (by simp [hm]))
        (fun h hm => hx h (by simp [hm])) hnext
      have e : (n + 1 : Nat) + cs.length = n + (cs.length + 1) := by omega
      rw [List.length_cons]
      have e' : (((n + 1 : Nat) : Int) + (cs.length : Int)) = ((n : Int) + ((cs.length + 1 : Nat) : Int)) := by
        push_cast
        ring
      rwa [e'] at this

/-- A filter output over a history in [0, 3]. -/
theorem fir_between {x : List F64} (hx : ∀ a ∈ x, a.Between 0 3) : (fir params x).Between (-573) 573 := by
  have h := firSum_between params.firCoeffs x F64.zero 0 (by rw [coeffs_length]; omega) coeffs_between hx
    ⟨by decide, by decide⟩
  rw [coeffs_length] at h
  exact h

/-! The DC blocker. -/

theorem DcSide.step_between {d : DcSide} {x : F64} (hx : x.Between (-573) 573) (hd : ∀ a ∈ d.x, a.Between (-573) 573)
    (hy : d.y.Between (-1048576) 1048576) : (d.step params x).1.Between (-1048576) 1048576 := by
  obtain ⟨fx, x0, x1⟩ := (F64.between_iff (by decide) (by decide) _).mp hx
  obtain ⟨fy, y0, y1⟩ := (F64.between_iff (by decide) (by decide) _).mp hy
  have hold : (d.x.getD (params.dcN - 1) F64.zero).Between (-573) 573 := by
    rw [List.getD_eq_getElem?_getD]
    cases h : d.x[params.dcN - 1]? with
    | none => exact ⟨by decide, by decide⟩
    | some a => exact hd a (List.mem_of_getElem? h)
  unfold DcSide.step
  dsimp only
  generalize d.x.getD (params.dcN - 1) F64.zero = o at hold ⊢
  obtain ⟨fo, o0, o1⟩ := (F64.between_iff (by decide) (by decide) _).mp hold
  obtain ⟨fk, k0, k1⟩ := dcLeak_range
  push_cast at x0 x1 y0 y1 o0 o1
  obtain ⟨fs, s0, s1⟩ := (F64.between_iff (by decide) (by decide) _).mp
    (F64.sub_between fx fo (lo := -1146) (hi := 1146) (by push_cast; linarith) (by push_cast; linarith) (by decide)
      (by decide))
  obtain ⟨fp, p0, p1⟩ := (F64.between_iff (by decide) (by decide) _).mp
    (F64.mul_between fk fy (lo := -1043500) (hi := 1043500) (by push_cast; nlinarith) (by push_cast; nlinarith)
      (by decide) (by decide))
  push_cast at s0 s1 p0 p1
  exact F64.add_between fs fp (by push_cast; linarith) (by push_cast; linarith) (by decide) (by decide)

/-! One sample. -/

theorem Chip.Bounded.subSamples {chip : Chip} (h : chip.Bounded) {cfg : Cfg} (hs : cfg.step.Between 0 (2 ^ 26))
    (n : Nat) : (Chip.subSamples params cfg n chip).Bounded := by
  induction n generalizing chip with
  | zero => exact h
  | succ n ih =>
    have ha := h.advance params hs
    have hm := mix_between ha cfg.mode
    exact ih (ha.firPush hm.1 hm.2)

/-- One sample keeps the ranges, and both sides of its output lie in them (R177). -/
theorem chipSample_bounded {chip : Chip} (h : chip.Bounded) {cfg : Cfg} (hs : cfg.step.Between 0 (2 ^ 26)) :
    (chipSample params cfg chip).2.Bounded ∧
      (chipSample params cfg chip).1.1.Between (-1048576) 1048576 ∧
      (chipSample params cfg chip).1.2.Between (-1048576) 1048576 := by
  have hb := h.subSamples hs 8
  have hl := fir_between hb.firL
  have hr := fir_between hb.firR
  have hyl := DcSide.step_between hl hb.dcXL hb.dcYL
  have hyr := DcSide.step_between hr hb.dcXR hb.dcYR
  refine ⟨?_, hyl, hyr⟩
  exact {
    accLow := hb.accLow
    accHigh := hb.accHigh
    panL := hb.panL
    panR := hb.panR
    firL := hb.firL
    firR := hb.firR
    dcXL := fun x hx => by
      rcases mem_shiftIn hx with rfl | hx
      · exact hl
      · exact hb.dcXL x hx
    dcXR := fun x hx => by
      rcases mem_shiftIn hx with rfl | hx
      · exact hr
      · exact hb.dcXR x hx
    dcYL := hyl
    dcYR := hyr }

end Sys2Proof.Machine
end

