-- ==== Sys2Proof/Laws/Levels.lean ====
section
/-! SUPPORT. The levels of a voice tick: the envelope stays in [0, 15], a level of 0 gives chip volume 0, and the
ranges of `State.Bounded` hold after every sample, every command and every step. -/

namespace Sys2Proof

namespace F64

/-- 2^65. -/
def huge : F64 := ⟨0x4400000000000000#64⟩

theorem huge_spec : huge.isFinite = true ∧ huge.toRat = 2 ^ 65 := by
  refine ⟨by decide, ?_⟩
  rw [toRat, show huge.value = .fin false 0x10000000000000 13 by decide, FpValue.toRat]
  norm_num

/-- A 64-bit count as a real. -/
theorem ofNat64 (n : BitVec 64) :
    (ofNat n.toNat).isFinite = true ∧ 0 ≤ (ofNat n.toNat).toRat ∧ (ofNat n.toNat).toRat ≤ 2 ^ 65 := by
  obtain ⟨hf, hv⟩ := huge_spec
  have hn : (n.toNat : ℚ) ≤ 2 ^ 65 := by
    have := n.isLt
    have h2 : n.toNat ≤ 2 ^ 65 := by omega
    exact_mod_cast h2
  have hr := (ofNat_rounds n.toNat hf (by
    rw [hv, abs_of_nonneg (by norm_num)]
    exact hn)).1
  refine ⟨hr.finite, hr.nonneg (by positivity), ?_⟩
  have := hr.le huge hf (by rw [hv]; exact hn)
  rwa [hv] at this

end F64

namespace Machine

/-- A count of samples divided by the sample rate. -/
theorem seconds_spec (n : BitVec 64) {sr : BitVec 18} (h : sr ≠ 0) :
    ((smp n).div (F64.ofNat sr.toNat)).isFinite = true ∧ 0 ≤ ((smp n).div (F64.ofNat sr.toNat)).toRat ∧
      ((smp n).div (F64.ofNat sr.toNat)).toRat ≤ 2 ^ 65 := by
  obtain ⟨hf, hv⟩ := F64.huge_spec
  obtain ⟨fn, n0, n1⟩ := F64.ofNat64 n
  have hs := sr.isLt
  have hs0 : 1 ≤ sr.toNat := by
    have : sr.toNat ≠ 0 := fun e => h (BitVec.eq_of_toNat_eq e)
    omega
  obtain ⟨fs, vs, -⟩ := F64.ofNat_exact (m := sr.toNat) (by omega)
  have hsq : (1 : ℚ) ≤ sr.toNat := by exact_mod_cast hs0
  unfold smp
  generalize F64.ofNat n.toNat = a at *
  have hq0 : 0 ≤ a.toRat / sr.toNat := by positivity
  have hq1 : a.toRat / sr.toNat ≤ 2 ^ 65 := by
    rw [div_le_iff₀ (by linarith)]
    nlinarith
  have hr := F64.div_rounds fn fs (by rw [vs]; linarith) hf (by
    rw [vs, hv, abs_of_nonneg hq0, abs_of_nonneg (by norm_num)]
    exact hq1)
  rw [vs] at hr
  refine ⟨hr.finite, hr.nonneg hq0, ?_⟩
  have := hr.le F64.huge hf (by rw [hv]; exact hq1)
  rwa [hv] at this

theorem time_sub_finite {t t0 : F64} (ft : t.isFinite = true) (h0 : 0 ≤ t.toRat) (h1 : t.toRat ≤ 2 ^ 65)
    (ht0 : t0.Between 0 20000) : (t.sub t0).isFinite = true := by
  obtain ⟨f0, a0, a1⟩ := (F64.between_iff (by decide) (by decide) _).mp ht0
  push_cast at a0 a1
  obtain ⟨hf, hv⟩ := F64.huge_spec
  exact (F64.sub_rounds ft f0 hf (by
    rw [hv, abs_le, abs_of_nonneg (by norm_num)]
    norm_num at h1 ⊢
    constructor <;> linarith)).finite

theorem add_times {a b : F64} {n m : Int} (hn : 0 ≤ n) (hm : 0 ≤ m) (h : n + m ≤ 20000) (ha : a.Between 0 n)
    (hb : b.Between 0 m) : (a.add b).Between 0 (n + m) := by
  obtain ⟨fa, a0, a1⟩ := (F64.between_iff (by decide) (by omega) _).mp ha
  obtain ⟨fb, b0, b1⟩ := (F64.between_iff (by decide) (by omega) _).mp hb
  push_cast at a0 a1 b0 b1
  exact F64.add_between fa fb (by push_cast; linarith) (by push_cast; linarith) (by decide) (by omega)

theorem finite_of_between {x : F64} {lo hi : Int} (h : x.Between lo hi) (h1 : lo.natAbs < 2 ^ 53)
    (h2 : hi.natAbs < 2 ^ 53) : x.isFinite = true := ((F64.between_iff h1 h2 x).mp h).1

/-- A segment that the time has not left has positive length: its end is at most its start when it has none. -/
theorem segment_pos {t a len : F64} (fa : a.isFinite = true) (ft : t.isFinite = true) (hl : len.Between 0 3600)
    (hs : (a.add len).isFinite = true) (h1 : t.lt a = false) (h2 : t.lt (a.add len) = true) :
    F64.zero.lt len = true := by
  obtain ⟨fl, l0, -⟩ := (F64.between_iff (by decide) (by decide) _).mp hl
  push_cast at l0
  rw [F64.lt_zero_iff fl]
  refine lt_of_le_of_ne l0 fun h0 => ?_
  have hr : F64.Rounds (a.toRat + len.toRat) (a.add len) :=
    F64.add_rounds fa fl fa (by rw [← h0, add_zero])
  rw [← h0, add_zero] at hr
  have hv := hr.eq fa
  have h2' := (F64.lt_iff ft hs).mp h2
  have h1' : ¬ t.toRat < a.toRat := by
    rw [← F64.lt_iff ft fa, h1]
    simp
  rw [hv] at h2'
  exact h1' h2'

/-- The envelope while held lies in [0, 15] (R219). -/
theorem heldEnvelope_between {x : TickEnv} (hp : Patch.InRange x.patch) {t : F64} (ft : t.isFinite = true)
    (h0 : 0 ≤ t.toRat) (h1 : t.toRat ≤ 2 ^ 65) : (heldEnvelope x t).Between 0 15 := by
  have A : (x.real PatchId.envAttackTime).Between 0 3600 := real_between hp (by decide +kernel)
  have I1 : (x.real PatchId.envInter1Time).Between 0 3600 := real_between hp (by decide +kernel)
  have I2 : (x.real PatchId.envInter2Time).Between 0 3600 := real_between hp (by decide +kernel)
  have Dc : (x.real PatchId.envDecayTime).Between 0 3600 := real_between hp (by decide +kernel)
  have H1 : (x.real PatchId.envHold1Level).Between 0 15 := real_between hp (by decide +kernel)
  have H2 : (x.real PatchId.envHold2Level).Between 0 15 := real_between hp (by decide +kernel)
  have H3 : (x.real PatchId.envHold3Level).Between 0 15 := real_between hp (by decide +kernel)
  have S : (x.real PatchId.envSustainLevel).Between 0 15 := real_between hp (by decide +kernel)
  unfold heldEnvelope
  dsimp only
  generalize x.real PatchId.envAttackTime = a at *
  generalize x.real PatchId.envInter1Time = i1 at *
  generalize x.real PatchId.envInter2Time = i2 at *
  generalize x.real PatchId.envDecayTime = dc at *
  have T2 := add_times (by decide) (by decide) (by decide) A I1
  have T3 := add_times (by decide) (by decide) (by decide) T2 I2
  have T4 := add_times (by decide) (by decide) (by decide) T3 Dc
  have big : ∀ {y : F64} {n : Int}, y.Between 0 n → 0 ≤ n → n ≤ 20000 → y.Between 0 20000 := fun h hn hn2 =>
    h.mono (by decide) hn2 (by decide) (by decide) (by omega) (by decide)
  have fin : ∀ {y : F64} {n : Int}, y.Between 0 n → 0 ≤ n → n ≤ 20000 → y.isFinite = true := fun h hn hn2 =>
    finite_of_between h (by decide) (by omega)
  have fa := fin A (by decide) (by decide)
  have f2 := fin T2 (by decide) (by decide)
  have f3 := fin T3 (by decide) (by decide)
  have f4 := fin T4 (by decide) (by decide)
  have Z : F64.zero.Between 0 15 := ⟨by decide, by decide⟩
  have Z' : F64.zero.Between 0 20000 := ⟨by decide, by decide +kernel⟩
  by_cases c1 : t.lt a = true
  · rw [if_pos c1]
    refine F64.lerpSeg_between Z H1 (time_sub_finite ft h0 h1 Z') fa ?_
    rw [F64.lt_zero_iff fa]
    exact lt_of_le_of_lt h0 ((F64.lt_iff ft fa).mp c1)
  · rw [if_neg c1]
    have c1 := Bool.eq_false_iff.mpr c1
    by_cases c2 : t.lt (a.add i1) = true
    · rw [if_pos c2]
      exact F64.lerpSeg_between H1 H2 (time_sub_finite ft h0 h1 (big A (by decide) (by decide)))
        (fin I1 (by decide) (by decide)) (segment_pos fa ft I1 f2 c1 c2)
    · rw [if_neg c2]
      have c2 := Bool.eq_false_iff.mpr c2
      by_cases c3 : t.lt ((a.add i1).add i2) = true
      · rw [if_pos c3]
        exact F64.lerpSeg_between H2 H3 (time_sub_finite ft h0 h1 (big T2 (by decide) (by decide)))
          (fin I2 (by decide) (by decide)) (segment_pos f2 ft I2 f3 c2 c3)
      · rw [if_neg c3]
        have c3 := Bool.eq_false_iff.mpr c3
        by_cases c4 : t.lt (((a.add i1).add i2).add dc) = true
        · rw [if_pos c4]
          exact F64.lerpSeg_between H3 S (time_sub_finite ft h0 h1 (big T3 (by decide) (by decide)))
            (fin Dc (by decide) (by decide)) (segment_pos f3 ft Dc f4 c3 c4)
        · rw [if_neg c4]
          exact S

/-- The envelope while released lies in [0, 15] (R220). -/
theorem releaseEnvelope_between {x : TickEnv} (hp : Patch.InRange x.patch) (hsr : x.cfg.sr ≠ 0) {v : Voice}
    (hv : v.relLevel.Between 0 15) : (releaseEnvelope x v).Between 0 15 := by
  have R : (x.real PatchId.envRelease).Between 0 3600 := real_between hp (by decide +kernel)
  obtain ⟨ft, t0, t1⟩ := seconds_spec v.envSmp hsr
  have Z : F64.zero.Between 0 15 := ⟨by decide, by decide⟩
  unfold releaseEnvelope
  dsimp only
  split
  · rename_i h
    rw [Bool.and_eq_true] at h
    exact F64.lerpSeg_between hv Z (time_sub_finite ft t0 t1 ⟨by decide, by decide +kernel⟩)
      (finite_of_between R (by decide) (by decide)) h.1
  · exact Z

theorem envelope_between {x : TickEnv} (hp : Patch.InRange x.patch) (hsr : x.cfg.sr ≠ 0) {v : Voice}
    (hv : v.relLevel.Between 0 15) {t : F64} (ft : t.isFinite = true) (h0 : 0 ≤ t.toRat) (h1 : t.toRat ≤ 2 ^ 65)
    (buzz : Bool) : (envelope x v t buzz).Between 0 15 := by
  unfold envelope
  split
  · split
    · exact ⟨by decide, by decide⟩
    · exact ⟨by decide, by decide⟩
  · split
    · exact heldEnvelope_between hp ft h0 h1
    · exact releaseEnvelope_between hp hsr hv

theorem tickEnvelope_between {x : TickEnv} (hp : Patch.InRange x.patch) (hsr : x.cfg.sr ≠ 0) {v : Voice}
    (hv : v.relLevel.Between 0 15) : (tickEnvelope x v).Between 0 15 := by
  obtain ⟨ft, t0, t1⟩ := seconds_spec v.onSmp hsr
  have h := (tickSequencer_sameNote x v).relLevel
  exact envelope_between hp hsr (by rw [show (tickSeqVoice x v).relLevel = v.relLevel from h]; exact hv) ft t0 t1 _

theorem voiceTick_bounded {x : TickEnv} (hp : Patch.InRange x.patch) (hsr : x.cfg.sr ≠ 0) {v : Voice}
    (hv : v.Bounded) (chip : Chip) : (voiceTick x v chip).1.Bounded where
  envLevel := by
    rw [voiceTick_envLevel]
    exact tickEnvelope_between hp hsr hv.relLevel
  relLevel := by
    rw [(voiceTick_sameNote x v chip).relLevel]
    exact hv.relLevel
  portaSrc := by
    rw [(voiceTick_sameNote x v chip).portaSrc]
    exact hv.portaSrc

/-! The chip after a tick. -/

/-- The pan of a tick lies in [0, 1] (R203). -/
theorem panValue_between {x : TickEnv} (hp : Patch.InRange x.patch) (c : Fin 3) : (panValue x c).Between 0 1 := by
  have P : (x.real (PatchId.panChannel c)).Between 0 1 := real_between hp (field_pan c)
  obtain ⟨fp, p0, p1⟩ := (F64.between_iff (by decide) (by decide) _).mp P
  have hc := x.eng.ccPan.isLt
  obtain ⟨fc, vc, -⟩ := F64.ofNat_exact (m := x.eng.ccPan.toNat) (by omega)
  obtain ⟨f6, v6, -⟩ := F64.ofNat_exact (m := 64) (by norm_num)
  have e6 : F64.dec 64 = F64.ofNat 64 := by decide
  have hcq : (x.eng.ccPan.toNat : ℚ) ≤ 128 := by exact_mod_cast hc.le
  have hc0 : (0 : ℚ) ≤ x.eng.ccPan.toNat := by positivity
  push_cast at p0 p1 v6
  obtain ⟨fs, s0, s1⟩ := (F64.between_iff (by decide) (by decide) _).mp
    (F64.sub_between fc f6 (lo := -64) (hi := 64) (by rw [vc, v6]; push_cast; linarith)
      (by rw [vc, v6]; push_cast; linarith) (by decide) (by decide))
  push_cast at s0 s1
  obtain ⟨fd, d0, d1⟩ := (F64.between_iff (by decide) (by decide) _).mp
    (F64.div_between fs f6 (by rw [v6]; norm_num) (lo := -1) (hi := 1)
      (by rw [v6, le_div_iff₀ (by norm_num)]; push_cast; linarith)
      (by rw [v6, div_le_iff₀ (by norm_num)]; push_cast; linarith) (by decide) (by decide))
  push_cast at d0 d1
  have hsum := F64.add_between fp fd (lo := -1) (hi := 2) (by push_cast; linarith) (by push_cast; linarith)
    (by decide) (by decide)
  unfold panValue
  rw [e6]
  exact F64.clamp_between (F64.isNaN_of_isFinite (finite_of_between hsum (by decide) (by decide)))

theorem voiceTick_chipBounded {x : TickEnv} (hp : Patch.InRange x.patch) (v : Voice) {chip : Chip}
    (h : chip.Bounded) : (voiceTick x v chip).2.Bounded := by
  have hw := voiceTick_chip x v chip
  obtain ⟨n, b, hc⟩ := voiceTick_channel x v chip
  have hpan := panValue_between hp v.chan
  have hset := setPan_between (chip.tones.get v.chan)
    (F64.isNaN_of_isFinite (finite_of_between hpan (by decide) (by decide))) (x.flag PatchId.panEqp)
  exact {
    accLow := by rw [hw.acc]; exact h.accLow
    accHigh := by rw [hw.acc]; exact h.accHigh
    panL := fun k => by
      by_cases hk : k = v.chan
      · rw [hk, hc]
        exact hset.1
      · rw [hw.tones k hk]
        exact h.panL k
    panR := fun k => by
      by_cases hk : k = v.chan
      · rw [hk, hc]
        exact hset.2
      · rw [hw.tones k hk]
        exact h.panR k
    firL := by rw [hw.firL]; exact h.firL
    firR := by rw [hw.firR]; exact h.firR
    dcXL := by rw [hw.dcL]; exact h.dcXL
    dcXR := by rw [hw.dcR]; exact h.dcXR
    dcYL := by rw [hw.dcL]; exact h.dcYL
    dcYR := by rw [hw.dcR]; exact h.dcYR }

theorem tickVoices_bounded {x : TickEnv} (hp : Patch.InRange x.patch) (hsr : x.cfg.sr ≠ 0) (vs : List Voice)
    {chip : Chip} (h : chip.Bounded) (hv : ∀ v ∈ vs, v.Bounded) :
    (tickVoices x vs chip).2.Bounded ∧ ∀ v ∈ (tickVoices x vs chip).1, v.Bounded := by
  induction vs generalizing chip with
  | nil => exact ⟨h, by simp [tickVoices]⟩
  | cons v vs ih =>
    obtain ⟨h1, h2⟩ := ih (voiceTick_chipBounded hp v h) fun w hw => hv w (by simp [hw])
    refine ⟨h1, fun w hw => ?_⟩
    rcases List.mem_cons.mp hw with rfl | hw
    · exact voiceTick_bounded hp hsr (hv v (by simp)) chip
    · exact h2 w hw

/-! A level of 0. -/

/-- The velocity gain is a real in [-1, 1] for every velocity and sensitivity in range (R228). -/
theorem velocityGain_between (vel : BitVec 7) {s : F64} (hs : s.Between 0 1) : (velocityGain vel s).Between (-1) 1 := by
  have hv := vel.isLt
  obtain ⟨fs, s0, s1⟩ := (F64.between_iff (by decide) (by decide) _).mp hs
  obtain ⟨fv, vv, -⟩ := F64.ofNat_exact (m := vel.toNat) (by omega)
  obtain ⟨f7, v7, -⟩ := F64.ofNat_exact (m := 127) (by norm_num)
  obtain ⟨f6, v6, -⟩ := F64.ofNat_exact (m := 126) (by norm_num)
  have e7 : F64.dec 127 = F64.ofNat 127 := by decide
  have e6 : F64.dec 126 = F64.ofNat 126 := by decide
  have hvq : (vel.toNat : ℚ) ≤ 127 := by
    have : vel.toNat ≤ 127 := by omega
    exact_mod_cast this
  have hv0 : (0 : ℚ) ≤ vel.toNat := by positivity
  push_cast at s0 s1 v7 v6
  obtain ⟨fd, d0, d1⟩ := (F64.between_iff (by decide) (by decide) _).mp
    (F64.sub_between f7 fv (lo := 0) (hi := 127) (by rw [vv, v7]; push_cast; linarith)
      (by rw [vv, v7]; push_cast; linarith) (by decide) (by decide))
  push_cast at d0 d1
  obtain ⟨fm, m0, m1⟩ := (F64.between_iff (by decide) (by decide) _).mp
    (F64.mul_between fs fd (lo := 0) (hi := 127) (by push_cast; positivity) (by push_cast; nlinarith) (by decide)
      (by decide))
  push_cast at m0 m1
  obtain ⟨fq, q0, q1⟩ := (F64.between_iff (by decide) (by decide) _).mp
    (F64.div_between fm f6 (by rw [v6]; norm_num) (lo := 0) (hi := 2) (by rw [v6]; push_cast; positivity)
      (by rw [v6, div_le_iff₀ (by norm_num)]; push_cast; linarith) (by decide) (by decide))
  obtain ⟨fo, o0, o1⟩ := (F64.between_iff (by decide) (by decide) F64.one).mp F64.one_between
  push_cast at q0 q1 o0 o1
  unfold velocityGain
  rw [e7, e6]
  exact F64.sub_between fo fq (by push_cast; linarith) (by push_cast; linarith) (by decide) (by decide)

/-- A level in [0, 15] as a factor. -/
theorem level_div_between {l : F64} (h : l.Between 0 15) : (l.div (F64.dec 15)).Between 0 1 := by
  obtain ⟨fl, l0, l1⟩ := (F64.between_iff (by decide) (by decide) _).mp h
  obtain ⟨f5, v5, -⟩ := F64.ofNat_exact (m := 15) (by norm_num)
  have e5 : F64.dec 15 = F64.ofNat 15 := by decide
  push_cast at l0 l1 v5
  rw [e5]
  exact F64.div_between fl f5 (by rw [v5]; norm_num) (by rw [v5]; push_cast; positivity)
    (by rw [v5, div_le_iff₀ (by norm_num)]; push_cast; linarith) (by decide) (by decide)

theorem tickSequencer_terms (x : TickEnv) (v : Voice) : ∃ k, (tickSequencer x v).2 = seqTerms x k := ⟨_, rfl⟩

theorem seqTerms_between {x : TickEnv} (hp : Patch.InRange x.patch) (k : Option (Fin 16)) :
    (seqTerms x k).depth.Between (-1) 1 ∧ (seqTerms x k).level.Between 0 1 := by
  cases k with
  | none =>
    have h : F64.zero.Between (-1) 1 ∧ F64.one.Between 0 1 := ⟨⟨by decide, by decide⟩, ⟨by decide, by decide⟩⟩
    exact h
  | some k => exact ⟨real_between hp (field_seqDepth k), level_div_between (real_between hp (field_seqLevel k))⟩

theorem ringmodLevel_between {x : TickEnv} (hp : Patch.InRange x.patch) (v : Voice) {d : F64} (hd : d.Between (-1) 1) :
    (ringmodLevel x v d).Between 0 2 := by
  have D : (x.real PatchId.ringmodDepth).Between 0 1 := real_between hp (by decide +kernel)
  have S : (x.real PatchId.ringmodVelocitySensitivity).Between 0 1 := real_between hp (by decide +kernel)
  have W : (x.real (PatchId.ringmodWaveform v.rmIdx)).Between 0 15 := real_between hp (field_waveform v.rmIdx)
  obtain ⟨fD, D0, D1⟩ := (F64.between_iff (by decide) (by decide) _).mp D
  obtain ⟨fg, g0, g1⟩ := (F64.between_iff (by decide) (by decide) _).mp (velocityGain_between v.velocity S)
  obtain ⟨fd, d0, d1⟩ := (F64.between_iff (by decide) (by decide) _).mp hd
  obtain ⟨fw, w0, w1⟩ := (F64.between_iff (by decide) (by decide) _).mp (level_div_between W)
  obtain ⟨fo, o0, o1⟩ := (F64.between_iff (by decide) (by decide) F64.one).mp F64.one_between
  push_cast at D0 D1 g0 g1 d0 d1 w0 w1 o0 o1
  obtain ⟨fm, m0, m1⟩ := (F64.between_iff (by decide) (by decide) _).mp
    (F64.mul_between fD fg (lo := -1) (hi := 1) (by push_cast; nlinarith) (by push_cast; nlinarith) (by decide)
      (by decide))
  push_cast at m0 m1
  have hs := F64.add_between fm fd (lo := -2) (hi := 2) (by push_cast; linarith) (by push_cast; linarith)
    (by decide) (by decide)
  have hc := F64.clamp_between (F64.isNaN_of_isFinite (finite_of_between hs (by decide) (by decide)))
  unfold ringmodLevel
  dsimp only
  generalize F64.clamp _ F64.zero F64.one = depth at hc ⊢
  generalize (x.real (PatchId.ringmodWaveform v.rmIdx)).div (F64.dec 15) = w at *
  obtain ⟨fc, c0, c1⟩ := (F64.between_iff (by decide) (by decide) _).mp hc
  push_cast at c0 c1
  obtain ⟨fa, a0, a1⟩ := (F64.between_iff (by decide) (by decide) _).mp
    (F64.sub_between fo fc (lo := 0) (hi := 1) (by push_cast; linarith) (by push_cast; linarith) (by decide)
      (by decide))
  obtain ⟨fb, b0, b1⟩ := (F64.between_iff (by decide) (by decide) _).mp
    (F64.mul_between fc fw (lo := 0) (hi := 1) (by push_cast; positivity) (by push_cast; nlinarith) (by decide)
      (by decide))
  push_cast at a0 a1 b0 b1
  exact F64.add_between fa fb (by push_cast; linarith) (by push_cast; linarith) (by decide) (by decide)

theorem controller_finite (n : BitVec 7) : ((F64.ofNat n.toNat).div (F64.dec 127)).isFinite = true := by
  have hv := n.isLt
  obtain ⟨fv, vv, -⟩ := F64.ofNat_exact (m := n.toNat) (by omega)
  obtain ⟨f7, v7, -⟩ := F64.ofNat_exact (m := 127) (by norm_num)
  have e7 : F64.dec 127 = F64.ofNat 127 := by decide
  have hvq : (n.toNat : ℚ) ≤ 127 := by
    have : n.toNat ≤ 127 := by omega
    exact_mod_cast this
  push_cast at v7
  rw [e7]
  exact finite_of_between (F64.div_between fv f7 (by rw [v7]; norm_num) (lo := 0) (hi := 1)
    (by rw [v7, vv]; push_cast; positivity) (by rw [v7, vv, div_le_iff₀ (by norm_num)]; push_cast; linarith)
    (by decide) (by decide)) (by decide) (by decide)

/-- An envelope level of 0 gives chip volume 0 (R230). -/
theorem chipVolume_zero {x : TickEnv} (hp : Patch.InRange x.patch) (v : Voice) {rml env sl : F64}
    (hr : rml.isFinite = true) (he : env.isFinite = true) (h0 : env.toRat = 0) (hs : sl.isFinite = true) :
    chipVolume (finalLevel x v rml env sl) = 0 := by
  have S : (x.real PatchId.controlVelocitySensitivity).Between 0 1 := real_between hp (by decide +kernel)
  have hg := finite_of_between (velocityGain_between v.velocity S) (by decide) (by decide)
  obtain ⟨f1, z1⟩ := F64.mul_zero_toRat hr he (.inr h0)
  obtain ⟨f2, z2⟩ := F64.mul_zero_toRat f1 hs (.inl z1)
  obtain ⟨f3, z3⟩ := F64.mul_zero_toRat f2 hg (.inl z2)
  obtain ⟨f4, z4⟩ := F64.mul_zero_toRat f3 (controller_finite x.eng.ccVolume) (.inl z3)
  obtain ⟨f5, z5⟩ := F64.mul_zero_toRat f4 (controller_finite x.eng.ccExpr) (.inl z4)
  unfold chipVolume finalLevel
  rw [F64.roundh_of_zero f5 z5]
  rfl

/-- What a tick commits for a released voice whose level it finds to be 0: volume 0 and no envelope (R231, R276). -/
theorem tickCommit_silent {x : TickEnv} (hp : Patch.InRange x.patch) (hsr : x.cfg.sr ≠ 0) {v : Voice}
    (hv : v.relLevel.Between 0 15) (chip : Chip) (hn : v.noteOn = false)
    (h0 : (tickEnvelope x v).eq F64.zero = true) :
    (tickCommit x v chip).volume = 0 ∧ (tickCommit x v chip).eOn = false := by
  have he := finite_of_between (tickEnvelope_between hp hsr hv) (by decide) (by decide)
  obtain ⟨k, hk⟩ := tickSequencer_terms x v
  obtain ⟨hd, hl⟩ := seqTerms_between hp k
  rw [← hk] at hd hl
  constructor
  · have hvol : (tickCommit x v chip).volume = chipVolume (finalLevel x (tickVoice x v chip)
        (ringmodLevel x (tickVoice x v chip) (tickSequencer x v).2.depth) (tickEnvelope x v)
        (tickSequencer x v).2.level) := rfl
    rw [hvol]
    generalize tickVoice x v chip = w
    generalize (tickSequencer x v).2 = sq at *
    generalize tickEnvelope x v = env at *
    have h1 := finite_of_between (ringmodLevel_between hp w hd) (by decide) (by decide)
    have h2 := finite_of_between hl (by decide) (by decide)
    exact chipVolume_zero hp w h1 he ((F64.eq_zero_iff he).mp h0) h2
  · show (tickBuzz x v && v.noteOn) = false
    rw [hn, Bool.and_false]

/-- The channel of every voice that the tick phase removes is left with volume 0 and the envelope disabled (R276). -/
theorem tickVoices_silent {x : TickEnv} (hp : Patch.InRange x.patch) (hsr : x.cfg.sr ≠ 0) (vs : List Voice)
    (chip : Chip) (hc : vs.Pairwise fun v w => v.chan ≠ w.chan) (hv : ∀ v ∈ vs, v.relLevel.Between 0 15) :
    ∀ v ∈ (tickVoices x vs chip).1, v.silent = true →
      ((tickVoices x vs chip).2.tones.get v.chan).volume = 0 ∧
        ((tickVoices x vs chip).2.tones.get v.chan).eOn = false := by
  induction vs generalizing chip with
  | nil => simp [tickVoices]
  | cons v vs ih =>
    obtain ⟨h1, h2⟩ := List.pairwise_cons.mp hc
    have heq : tickVoices x (v :: vs) chip = ((voiceTick x v chip).1 :: (tickVoices x vs (voiceTick x v chip).2).1,
        (tickVoices x vs (voiceTick x v chip).2).2) := rfl
    have hsame := voiceTick_sameNote x v chip
    have hlev := voiceTick_envLevel x v chip
    obtain ⟨n, b, hch⟩ := voiceTick_channel x v chip
    rw [heq]
    generalize voiceTick x v chip = vt at *
    intro w hw hs
    rcases List.mem_cons.mp hw with hw | hw
    · rw [hw] at hs ⊢
      obtain ⟨-, hkeep⟩ := tickVoices_chip x vs vt.2
      unfold Voice.silent at hs
      rw [Bool.and_eq_true, Bool.not_eq_true', hsame.noteOn, hlev] at hs
      have hk : (tickVoices x vs vt.2).2.tones.get vt.1.chan = vt.2.tones.get v.chan := by
        rw [hsame.chan]
        exact hkeep v.chan fun u hu => (h1 u hu).symm
      dsimp only
      rw [hk, hch]
      exact tickCommit_silent hp hsr (hv v (by simp)) chip hs.1 hs.2
    · exact ih vt.2 h2 (fun u hu => hv u (by simp [hu])) w hw hs

/-! One sample of RENDER. -/

/-- The chip of a configured block runs with a step in range. -/
theorem Cfg.Inv.step_between {c : Cfg} (h : c.Inv) (hc : c.configured = true) :
    c.sr ≠ 0 ∧ c.step.Between 0 (2 ^ 26) := by
  unfold Cfg.Inv at h
  rw [if_pos hc] at h
  exact ⟨h.1, h.2.2 ▸ stepOf_between c.clock h.1⟩

theorem State.Bounded.tickPhase {s : State} (h : s.Bounded) (hsr : s.cfg.sr ≠ 0) : (s.tickPhase params).Bounded := by
  obtain ⟨h1, h2⟩ := tickVoices_bounded (x := s.tickEnv params) h.patch hsr s.eng.voices h.chip h.voices
  exact ⟨h.patch, h1, fun v hv => h2 v (List.mem_of_mem_filter hv)⟩

/-- A sample that the chip makes: the ranges hold after it, and the pair it emits is finite. -/
theorem State.Bounded.chipSample {s : State} (h : s.Bounded) (hs : s.cfg.step.Between 0 (2 ^ 26)) :
    (s.chipSample params).Bounded ∧
      ∃ l r, (s.chipSample params).out = s.out ++ [(l, r)] ∧ F32.finite l ∧ F32.finite r := by
  obtain ⟨h1, h2, h3⟩ := chipSample_bounded h.chip hs
  exact ⟨⟨h.patch, h1, h.voices⟩, _, _, rfl, F64.toF32_finite h2, F64.toF32_finite h3⟩

theorem State.Bounded.renderSample {s : State} (h : s.Bounded) (hc : s.cfg.Inv) (hcf : s.cfg.configured = true) :
    (s.renderSample params).Bounded ∧
      ∃ l r, (s.renderSample params).out = s.out ++ [(l, r)] ∧ F32.finite l ∧ F32.finite r := by
  obtain ⟨hsr, hst⟩ := hc.step_between hcf
  have ht := h.tickPhase hsr
  unfold State.renderSample
  dsimp only
  split
  · refine ⟨⟨ht.patch, ht.chip, ht.voices⟩, _, _, rfl, ?_, ?_⟩ <;> unfold F32.finite <;> decide
  · exact ht.chipSample hst

theorem State.Bounded.renderSamples {s : State} (h : s.Bounded) (hc : s.cfg.Inv) (hcf : s.cfg.configured = true)
    (n : Nat) : (s.renderSamples params n).Bounded ∧
      ∃ o, (s.renderSamples params n).out = s.out ++ o ∧ ∀ lr ∈ o, F32.finite lr.1 ∧ F32.finite lr.2 := by
  induction n generalizing s with
  | zero => exact ⟨h, [], by simp [State.renderSamples], by simp⟩
  | succ n ih =>
    obtain ⟨h1, l, r, ho, hl, hr⟩ := h.renderSample hc hcf
    obtain ⟨chip, lr, hspec⟩ := s.renderSample_spec params
    have hcfg : (s.renderSample params).cfg = s.cfg := by rw [hspec]
    obtain ⟨h2, o, ho2, hf⟩ := ih h1 (hcfg ▸ hc) (by rw [hcfg]; exact hcf)
    refine ⟨h2, (l, r) :: o, ?_, ?_⟩
    · show ((s.renderSample params).renderSamples params n).out = _
      rw [ho2, ho]
      simp
    · intro p hp
      rcases List.mem_cons.mp hp with rfl | hp
      · exact ⟨hl, hr⟩
      · exact hf p hp

/-! The Engine events. -/

theorem Voice.Bounded.release {v : Voice} (h : v.Bounded) : v.release.Bounded :=
  ⟨h.envLevel, h.envLevel, h.portaSrc⟩

/-- A note pitch as a real. -/
theorem pitch_between (p : BitVec 7) : (F64.ofNat p.toNat).Between 0 127 := by
  have hp := p.isLt
  obtain ⟨f, v, -⟩ := F64.ofNat_exact (m := p.toNat) (by omega)
  have h : (p.toNat : ℚ) ≤ 127 := by exact_mod_cast Nat.le_of_lt_succ hp
  refine (F64.between_iff (by decide) (by decide) _).mpr ⟨f, ?_, ?_⟩ <;> rw [v] <;> push_cast
  · positivity
  · exact h

theorem Voice.Bounded.repoint {v : Voice} (h : v.Bounded) (q : BitVec 7) : (v.repoint q).Bounded :=
  ⟨h.envLevel, h.relLevel, pitch_between v.pitch⟩

theorem Voice.Bounded.create (s : BitVec 32) (c : Fin 3) (p vel src : BitVec 7) (b : Bool) :
    (Voice.create s c p vel src b).Bounded :=
  have z : F64.zero.Between 0 15 := ⟨by decide, by decide⟩
  ⟨z, z, pitch_between src⟩

theorem releaseAll_bounded {vs : List Voice} (h : ∀ v ∈ vs, v.Bounded) : ∀ v ∈ releaseAll vs, v.Bounded := by
  intro v hv
  obtain ⟨w, hw, rfl⟩ := List.mem_map.mp hv
  split
  · exact (h w hw).release
  · exact h w hw

theorem repointAll_bounded {vs : List Voice} (h : ∀ v ∈ vs, v.Bounded) (held : List (BitVec 7)) (q : BitVec 7) :
    ∀ v ∈ repointAll held q vs, v.Bounded := by
  intro v hv
  obtain ⟨w, hw, rfl⟩ := List.mem_map.mp hv
  split
  · exact (h w hw).repoint q
  · exact h w hw

theorem releaseFirst_bounded {vs : List Voice} (h : ∀ v ∈ vs, v.Bounded) (p : BitVec 7) :
    ∀ v ∈ releaseFirst p vs, v.Bounded := by
  induction vs with
  | nil => simp [releaseFirst]
  | cons w ws ih =>
    intro v hv
    simp only [releaseFirst] at hv
    split at hv
    · rcases List.mem_cons.mp hv with rfl | hv
      · exact (h w (by simp)).release
      · exact h v (by simp [hv])
    · rcases List.mem_cons.mp hv with rfl | hv
      · exact h v (by simp)
      · exact ih (fun u hu => h u (by simp [hu])) v hv

section
variable {e : Engine}

theorem newVoice_bounded (h : ∀ v ∈ e.voices, v.Bounded) (chip : Chip) (p vel : BitVec 7) (ch : Fin 3)
    (src : BitVec 7) : ∀ v ∈ (e.newVoice chip p vel ch src).voices, v.Bounded := by
  intro v hv
  rcases mem_insertVoice.mp hv with rfl | hv
  · exact .create _ _ _ _ _ _
  · exact h v hv

theorem noteOn_bounded (h : ∀ v ∈ e.voices, v.Bounded) (par : Params) (mode : PlayMode) (chip : Chip)
    (p vel : BitVec 7) : ∀ v ∈ (e.noteOn par mode chip p vel).voices, v.Bounded := by
  have none : ∀ v ∈ ([] : List Voice), v.Bounded := by simp
  have arp : ∀ (e : Engine) (src : BitVec 7), (∀ v ∈ e.voices, v.Bounded) →
      ∀ v ∈ (e.allocArp chip p vel src).voices, v.Bounded := by
    intro e src h
    unfold Engine.allocArp
    split
    · exact newVoice_bounded (e := { e with voices := [] }) none chip p vel 0 src
    · exact h
  unfold Engine.noteOn Engine.alloc
  dsimp only
  cases mode
  · exact newVoice_bounded (e := { e with held := holdPitch p e.held, voices := [] }) none chip p vel 0 _
  · unfold Engine.allocPoly
    dsimp only
    have hs : ∀ (f : Engine), (∀ v ∈ f.voices, v.Bounded) → ∀ v ∈ (if f.voices.length = 3 then
        { f with voices := stealQuietest f.voices } else f).voices, v.Bounded := by
      intro f hf v hv
      split at hv
      · exact hf v ((stealQuietest_sublist _).subset hv)
      · exact hf v hv
    have hs' := hs { e with held := holdPitch p e.held } h
    split
    · exact newVoice_bounded hs' chip p vel _ _
    · exact hs'
  · exact arp _ _ h
  · exact arp _ _ h
  · exact arp _ _ h

theorem noteOffNow_bounded (h : ∀ v ∈ e.voices, v.Bounded) (mode : PlayMode) (p : BitVec 7) :
    ∀ v ∈ (e.noteOffNow mode p).voices, v.Bounded := by
  unfold Engine.noteOffNow
  split
  · unfold Engine.noteOffArp
    split
    · exact releaseAll_bounded h
    · exact repointAll_bounded h _ _
  · exact releaseFirst_bounded h p

theorem noteOff_bounded (h : ∀ v ∈ e.voices, v.Bounded) (mode : PlayMode) (p : BitVec 7) :
    ∀ v ∈ (e.noteOff mode p).voices, v.Bounded := by
  unfold Engine.noteOff
  split
  · exact h
  · split
    · split <;> exact h
    · exact noteOffNow_bounded h mode p

theorem runDeferred_bounded (mode : PlayMode) (ps : List (BitVec 7)) (h : ∀ v ∈ e.voices, v.Bounded) :
    ∀ v ∈ (Engine.runDeferred mode ps e).voices, v.Bounded := by
  induction ps generalizing e with
  | nil => exact h
  | cons p ps ih => exact ih (noteOffNow_bounded h mode p)

theorem controller_bounded (h : ∀ v ∈ e.voices, v.Bounded) (mode : PlayMode) (num val : BitVec 7) :
    ∀ v ∈ (e.controller mode num val).voices, v.Bounded := by
  unfold Engine.controller
  split; · exact h
  split; · exact h
  split; · exact h
  split; · exact h
  split; · exact h
  split
  · unfold Engine.setSustain
    split; · exact h
    split
    · exact runDeferred_bounded mode _ h
    · exact h
  · exact h

end

/-! The commands and the step. -/

theorem State.Bounded.reset : State.reset.Bounded := ⟨inRange_reset, Chip.Bounded.reset, fun v hv => by cases hv⟩

theorem State.Bounded.raise {s : State} (h : s.Bounded) (b : ErrorBit) : (s.raise b).Bounded :=
  ⟨h.patch, h.chip, h.voices⟩

theorem State.Bounded.withEng {s : State} (h : s.Bounded) {e : Engine} (he : ∀ v ∈ e.voices, v.Bounded) :
    ({ s with eng := e } : State).Bounded := ⟨h.patch, h.chip, he⟩

theorem State.Bounded.withChip {s : State} (h : s.Bounded) {c : Chip} (hc : c.Bounded) :
    ({ s with chip := c } : State).Bounded := ⟨h.patch, hc, h.voices⟩

/-- Every command keeps the ranges. -/
theorem State.Bounded.execState {s : State} (h : s.Bounded) (hi : s.cfg.Inv) (hw : Memory.wf s.patch = true)
    (i : Instr) : (execState params i s).Bounded := by
  have chan : ∀ (ch : BitVec 4) (f : ToneChannel → ToneChannel),
      (∀ t, (f t).panL = t.panL ∧ (f t).panR = t.panR) → (s.onChannel ch f).Bounded := by
    intro ch f hf
    rcases s.onChannel_cases ch f with ⟨c, hc⟩ | hc <;> rw [hc]
    · refine h.withChip (h.chip.onTone c ?_ ?_)
      · rw [(hf _).1]
        exact h.chip.panL c
      · rw [(hf _).2]
        exact h.chip.panR c
    · exact h.raise .illegal
  have chanReal : ∀ (ch : BitVec 4) (w : F32) (f : F64 → ToneChannel → ToneChannel),
      (∀ x t, x.isNaN = false → t.panL.Between 0 1 → t.panR.Between 0 1 →
        (f x t).panL.Between 0 1 ∧ (f x t).panR.Between 0 1) → (s.onChannelReal ch w f).Bounded := by
    intro ch w f hf
    unfold State.onChannelReal
    split
    · exact h.raise .illegal
    · exact h.raise .value
    · rename_i c x _ hx
      have hx' : x.isFinite = true := by
        unfold realPayload at hx
        dsimp only at hx
        split at hx
        · rename_i hfin
          rw [← Option.some.inj hx]
          exact hfin
        · cases hx
      have := hf x _ (F64.isNaN_of_isFinite hx') (h.chip.panL c) (h.chip.panR c)
      exact h.withChip (h.chip.onTone c this.1 this.2)
  have envc : ∀ e : EnvGen, ({ s with chip := { s.chip with env := e } } : State).Bounded := fun e =>
    h.withChip (h.chip.frame rfl (fun _ => rfl) (fun _ => rfl) rfl rfl rfl rfl)
  cases i with
  | nop => exact h
  | reset => exact ⟨inRange_reset, Chip.Bounded.reset, fun v hv => by cases hv⟩
  | configure mode sr clock =>
    show (s.configure params mode sr clock).Bounded
    unfold State.configure
    split
    · exact h.raise .value
    · exact ⟨h.patch, Chip.Bounded.reset, h.voices⟩
  | rdStatus => exact ⟨h.patch, h.chip, h.voices⟩
  | setTone ch p => exact chan ch _ fun _ => ⟨rfl, rfl⟩
  | setMixer ch a b c => exact chan ch _ fun _ => ⟨rfl, rfl⟩
  | setVolume ch v => exact chan ch _ fun _ => ⟨rfl, rfl⟩
  | setPan ch eqp pan => exact chanReal ch pan _ fun x t hx _ _ => setPan_between t hx eqp
  | setNoise np => exact h.withChip (h.chip.frame rfl (fun _ => rfl) (fun _ => rfl) rfl rfl rfl rfl)
  | setEnvPeriod ep => exact envc _
  | setEnvShape shape => exact envc _
  | tonePhase ch phase =>
    refine chanReal ch phase _ fun x t _ h1 h2 => ?_
    obtain ⟨n, b, he⟩ := t.setPhase_frame x
    rw [he]
    exact ⟨h1, h2⟩
  | envSync => exact envc _
  | envLoad a b c => exact envc _
  | process =>
    show (s.process params).Bounded
    unfold State.process
    split
    · rename_i hc
      exact (h.chipSample (hi.step_between hc).2).1
    · exact h.raise .unconfigured
  | noteOn mch pitch vel =>
    show (s.noteOn params pitch vel).Bounded
    unfold State.noteOn
    split
    · exact h.withEng (noteOff_bounded h.voices _ _)
    · split
      · exact h.raise .value
      · exact h.withEng (noteOn_bounded h.voices _ _ _ _ _)
  | noteOff mch pitch rvel => exact h.withEng (noteOff_bounded h.voices _ _)
  | allNotesOff mch => exact h.withEng (releaseAll_bounded h.voices)
  | pitchWheel mch wheel => exact h.withEng h.voices
  | control mch num val => exact h.withEng (controller_bounded h.voices _ _ _)
  | patchWr id value =>
    unfold Machine.execState
    dsimp only
    split
    · exact h.raise .illegal
    · rename_i f hf
      split
      · exact h.raise .value
      · rename_i w hp
        obtain ⟨hm, hid⟩ := fieldAt_mem hf
        rw [← hid, s.patchStore_eq]
        refine ⟨inRange_write hw h.patch hm (payloadOk_stored hm hp), h.chip, ?_⟩
        dsimp only
        split
        · exact releaseAll_bounded h.voices
        · exact h.voices
  | patchRd id =>
    unfold Machine.execState
    dsimp only
    split
    · exact ⟨h.patch, h.chip, h.voices⟩
    · exact h.raise .illegal
  | render n =>
    show (s.render params n.toNat).Bounded
    unfold State.render
    split
    · rename_i hc
      exact (h.renderSamples hi hc n.toNat).1
    · exact h.raise .unconfigured

end Machine

end Sys2Proof
end

