-- ==== Sys2Proof/Laws/PerInstr.lean ====
section
/-! SUPPORT. The statements made per instruction: the header that the encoder writes for a command matches the row
of the opcode map that has its opcode (30_encoding.md R110, R115). -/

namespace Sys2Proof.Laws.HeaderMatch

/-- The header of a command carries the code of some row of the opcode map and matches that row's pattern under its
mask. -/
def Statement (i : Instr) : Prop :=
  ∃ row ∈ opcodeTable, opField (encode i).1 = row.code ∧ (encode i).1 &&& row.mask = row.pattern

theorem mask_of_bits {h mask pattern : Word}
    (hb : ∀ k, k < 32 → (h.getLsbD k && mask.getLsbD k) = pattern.getLsbD k) : h &&& mask = pattern := by
  apply BitVec.eq_of_getLsbD_eq
  intro k hk
  rw [BitVec.getLsbD_and]
  exact hb k hk

/-- A header whose first field is a code has that opcode. -/
theorem opField_of_bits {h : Word} {code : BitVec 8}
    (hb : ∀ k, k < 8 → h.getLsbD (24 + k) = code.getLsbD k) : opField h = code := by
  apply BitVec.eq_of_getLsbD_eq
  intro k hk
  rw [opField, BitVec.getLsbD_extractLsb', hb k hk]
  simp [hk]

theorem of_row {i : Instr} {code : BitVec 8} {op : Op} {format : Format} {pattern mask : Word}
    (hrow : (⟨code, op, format, pattern, mask⟩ : OpRow) ∈ opcodeTable) (hop : opField (encode i).1 = code)
    (hmask : (encode i).1 &&& mask = pattern) : Statement i := ⟨_, hrow, hop, hmask⟩

theorem nop : Statement .nop := ⟨(⟨0x00, .nop, .f0, 0x00000000, 0xFFFFFFFF⟩ : OpRow), by decide, by decide, by decide⟩

theorem reset : Statement .reset := ⟨(⟨0x01, .reset, .f0, 0x01000000, 0xFFFFFFFF⟩ : OpRow), by decide, by decide, by decide⟩

theorem configure (mode : ChipMode) (sr : BitVec 18) (clock : Word) : Statement (.configure mode sr clock) :=
  of_row (show (⟨0x02, .configure, .fk, 0x02000000, 0xFFF40000⟩ : OpRow) ∈ opcodeTable by decide)
    (opField_of_bits fun k hk => by interval_cases k <;>
      simp only [encode, BitVec.getLsbD_append] <;> simp)
    (mask_of_bits fun k hk => by interval_cases k <;>
      simp only [encode, BitVec.getLsbD_append] <;> simp)

theorem rdStatus : Statement .rdStatus := ⟨(⟨0x03, .rdStatus, .f0, 0x03000000, 0xFFFFFFFF⟩ : OpRow), by decide, by decide, by decide⟩

theorem setTone (ch : BitVec 4) (period : BitVec 12) : Statement (.setTone ch period) :=
  of_row (show (⟨0x10, .setTone, .fc, 0x10000000, 0xFF0FF000⟩ : OpRow) ∈ opcodeTable by decide)
    (opField_of_bits fun k hk => by interval_cases k <;>
      simp only [encode, BitVec.getLsbD_append] <;> simp)
    (mask_of_bits fun k hk => by interval_cases k <;>
      simp only [encode, BitVec.getLsbD_append] <;> simp)

theorem setMixer (ch : BitVec 4) (tOff nOff eOn : Bool) : Statement (.setMixer ch tOff nOff eOn) :=
  of_row (show (⟨0x11, .setMixer, .fc, 0x11000000, 0xFF0FFFF8⟩ : OpRow) ∈ opcodeTable by decide)
    (opField_of_bits fun k hk => by interval_cases k <;>
      simp only [encode, BitVec.getLsbD_append] <;> simp)
    (mask_of_bits fun k hk => by interval_cases k <;>
      simp only [encode, BitVec.getLsbD_append] <;> simp)

theorem setVolume (ch : BitVec 4) (vol : BitVec 4) : Statement (.setVolume ch vol) :=
  of_row (show (⟨0x12, .setVolume, .fc, 0x12000000, 0xFF0FFFF0⟩ : OpRow) ∈ opcodeTable by decide)
    (opField_of_bits fun k hk => by interval_cases k <;>
      simp only [encode, BitVec.getLsbD_append] <;> simp)
    (mask_of_bits fun k hk => by interval_cases k <;>
      simp only [encode, BitVec.getLsbD_append] <;> simp)

theorem setPan (ch : BitVec 4) (eqp : Bool) (pan : F32) : Statement (.setPan ch eqp pan) :=
  of_row (show (⟨0x13, .setPan, .fc, 0x13000000, 0xFF0FFFFE⟩ : OpRow) ∈ opcodeTable by decide)
    (opField_of_bits fun k hk => by interval_cases k <;>
      simp only [encode, BitVec.getLsbD_append] <;> simp)
    (mask_of_bits fun k hk => by interval_cases k <;>
      simp only [encode, BitVec.getLsbD_append] <;> simp)

theorem setNoise (np : BitVec 5) : Statement (.setNoise np) :=
  of_row (show (⟨0x14, .setNoise, .fg, 0x14000000, 0xFFFFFFE0⟩ : OpRow) ∈ opcodeTable by decide)
    (opField_of_bits fun k hk => by interval_cases k <;>
      simp only [encode, BitVec.getLsbD_append] <;> simp)
    (mask_of_bits fun k hk => by interval_cases k <;>
      simp only [encode, BitVec.getLsbD_append] <;> simp)

theorem setEnvPeriod (ep : BitVec 16) : Statement (.setEnvPeriod ep) :=
  of_row (show (⟨0x15, .setEnvPeriod, .fg, 0x15000000, 0xFFFF0000⟩ : OpRow) ∈ opcodeTable by decide)
    (opField_of_bits fun k hk => by interval_cases k <;>
      simp only [encode, BitVec.getLsbD_append] <;> simp)
    (mask_of_bits fun k hk => by interval_cases k <;>
      simp only [encode, BitVec.getLsbD_append] <;> simp)

theorem setEnvShape (shape : BitVec 4) : Statement (.setEnvShape shape) :=
  of_row (show (⟨0x16, .setEnvShape, .fg, 0x16000000, 0xFFFFFFF0⟩ : OpRow) ∈ opcodeTable by decide)
    (opField_of_bits fun k hk => by interval_cases k <;>
      simp only [encode, BitVec.getLsbD_append] <;> simp)
    (mask_of_bits fun k hk => by interval_cases k <;>
      simp only [encode, BitVec.getLsbD_append] <;> simp)

theorem tonePhase (ch : BitVec 4) (phase : F32) : Statement (.tonePhase ch phase) :=
  of_row (show (⟨0x17, .tonePhase, .fc, 0x17000000, 0xFF0FFFFF⟩ : OpRow) ∈ opcodeTable by decide)
    (opField_of_bits fun k hk => by interval_cases k <;>
      simp only [encode, BitVec.getLsbD_append] <;> simp)
    (mask_of_bits fun k hk => by interval_cases k <;>
      simp only [encode, BitVec.getLsbD_append] <;> simp)

theorem envSync : Statement .envSync := ⟨(⟨0x18, .envSync, .fg, 0x18000000, 0xFFFFFFFF⟩ : OpRow), by decide, by decide, by decide⟩

theorem envLoad (seg : Bool) (level : BitVec 5) (counter : BitVec 16) : Statement (.envLoad seg level counter) :=
  of_row (show (⟨0x19, .envLoad, .fg, 0x19000000, 0xFFFFFE0E⟩ : OpRow) ∈ opcodeTable by decide)
    (opField_of_bits fun k hk => by interval_cases k <;>
      simp only [encode, BitVec.getLsbD_append] <;> simp)
    (mask_of_bits fun k hk => by interval_cases k <;>
      simp only [encode, BitVec.getLsbD_append] <;> simp)

theorem process : Statement .process := ⟨(⟨0x1A, .process, .f0, 0x1A000000, 0xFFFFFFFF⟩ : OpRow), by decide, by decide, by decide⟩

theorem noteOn (mch : BitVec 4) (pitch vel : BitVec 7) : Statement (.noteOn mch pitch vel) :=
  of_row (show (⟨0x20, .noteOn, .fe, 0x20000000, 0xFF0F8080⟩ : OpRow) ∈ opcodeTable by decide)
    (opField_of_bits fun k hk => by interval_cases k <;>
      simp only [encode, BitVec.getLsbD_append] <;> simp)
    (mask_of_bits fun k hk => by interval_cases k <;>
      simp only [encode, BitVec.getLsbD_append] <;> simp)

theorem noteOff (mch : BitVec 4) (pitch rvel : BitVec 7) : Statement (.noteOff mch pitch rvel) :=
  of_row (show (⟨0x21, .noteOff, .fe, 0x21000000, 0xFF0F8080⟩ : OpRow) ∈ opcodeTable by decide)
    (opField_of_bits fun k hk => by interval_cases k <;>
      simp only [encode, BitVec.getLsbD_append] <;> simp)
    (mask_of_bits fun k hk => by interval_cases k <;>
      simp only [encode, BitVec.getLsbD_append] <;> simp)

theorem allNotesOff (mch : BitVec 4) : Statement (.allNotesOff mch) :=
  of_row (show (⟨0x22, .allNotesOff, .fe, 0x22000000, 0xFF0FFFFF⟩ : OpRow) ∈ opcodeTable by decide)
    (opField_of_bits fun k hk => by interval_cases k <;>
      simp only [encode, BitVec.getLsbD_append] <;> simp)
    (mask_of_bits fun k hk => by interval_cases k <;>
      simp only [encode, BitVec.getLsbD_append] <;> simp)

theorem pitchWheel (mch : BitVec 4) (wheel : BitVec 14) : Statement (.pitchWheel mch wheel) :=
  of_row (show (⟨0x23, .pitchWheel, .fe, 0x23000000, 0xFF0FC000⟩ : OpRow) ∈ opcodeTable by decide)
    (opField_of_bits fun k hk => by interval_cases k <;>
      simp only [encode, BitVec.getLsbD_append] <;> simp)
    (mask_of_bits fun k hk => by interval_cases k <;>
      simp only [encode, BitVec.getLsbD_append] <;> simp)

theorem control (mch : BitVec 4) (num val : BitVec 7) : Statement (.control mch num val) :=
  of_row (show (⟨0x24, .control, .fe, 0x24000000, 0xFF0F8080⟩ : OpRow) ∈ opcodeTable by decide)
    (opField_of_bits fun k hk => by interval_cases k <;>
      simp only [encode, BitVec.getLsbD_append] <;> simp)
    (mask_of_bits fun k hk => by interval_cases k <;>
      simp only [encode, BitVec.getLsbD_append] <;> simp)

theorem patchWr (id : BitVec 12) (value : Word) : Statement (.patchWr id value) :=
  of_row (show (⟨0x30, .patchWr, .fp, 0x30000000, 0xFFFFF000⟩ : OpRow) ∈ opcodeTable by decide)
    (opField_of_bits fun k hk => by interval_cases k <;>
      simp only [encode, BitVec.getLsbD_append] <;> simp)
    (mask_of_bits fun k hk => by interval_cases k <;>
      simp only [encode, BitVec.getLsbD_append] <;> simp)

theorem patchRd (id : BitVec 12) : Statement (.patchRd id) :=
  of_row (show (⟨0x31, .patchRd, .fp, 0x31000000, 0xFFFFF000⟩ : OpRow) ∈ opcodeTable by decide)
    (opField_of_bits fun k hk => by interval_cases k <;>
      simp only [encode, BitVec.getLsbD_append] <;> simp)
    (mask_of_bits fun k hk => by interval_cases k <;>
      simp only [encode, BitVec.getLsbD_append] <;> simp)

theorem render (n : BitVec 20) : Statement (.render n) :=
  of_row (show (⟨0x40, .render, .fr, 0x40000000, 0xFFF00000⟩ : OpRow) ∈ opcodeTable by decide)
    (opField_of_bits fun k hk => by interval_cases k <;>
      simp only [encode, BitVec.getLsbD_append] <;> simp)
    (mask_of_bits fun k hk => by interval_cases k <;>
      simp only [encode, BitVec.getLsbD_append] <;> simp)

end Sys2Proof.Laws.HeaderMatch
end

