-- ==== Sys2Proof/Tests/Slice0.lean ====
section
/-! SUPPORT. The model's own tests: ill-formed commands, the decoding of words written out from 30_encoding.md, the
tables against the literals of the spec, single steps with results that the spec prints (95_test_vectors.md, and the
examples of the command rules), and a witness for the hypotheses of every statement of
Certificates/Slice0/Obligations.lean. -/

namespace Sys2Proof.Tests

open Sys2Proof.Machine

set_option Elab.async false

/-! ## Ill-formed commands (30_encoding.md R105, R108) -/

theorem test_illFormed_setTone : (Instr.wellFormed (.setTone 3 1)) = false := by decide +kernel

theorem test_illFormed_setMixer : (Instr.wellFormed (.setMixer 3 true true true)) = false := by decide +kernel

theorem test_illFormed_setVolume : (Instr.wellFormed (.setVolume 4 15)) = false := by decide +kernel

theorem test_illFormed_setPan : (Instr.wellFormed (.setPan 8 false 0)) = false := by decide +kernel

theorem test_illFormed_tonePhase : (Instr.wellFormed (.tonePhase 15 0)) = false := by decide +kernel

theorem test_illFormed_patchWr : (Instr.wellFormed (.patchWr 0x015 0)) = false := by decide +kernel

theorem test_illFormed_patchRd : (Instr.wellFormed (.patchRd 0xFFF)) = false := by decide +kernel

theorem test_wellFormed_bounds :
    (Instr.setTone 2 0xFFF).wellFormed = true ∧ (Instr.patchWr 0x120 0xFFFFFFFF).wellFormed = true ∧
      (Instr.allNotesOff 15).wellFormed = true := by decide +kernel

/-! ## Decoding: words written out from R101 to R110, OP in bits 31:24, CH in 23:20, the operands below -/

/-- F0, any D. -/
theorem test_decode_nop : decode 0x00000000 0xDEADBEEF = .legal (.nop) := by decide +kernel

theorem test_decode_reset : decode 0x01000000 0 = .legal (.reset) := by decide +kernel

/-- MODE bit 19, SR 17:0. -/
theorem test_decode_configure : decode 0x0208BB80 0x001B0F58 = .legal (.configure .ay8910 48000 1773400) := by decide +kernel

theorem test_decode_rdStatus : decode 0x03000000 0 = .legal (.rdStatus) := by decide +kernel

/-- PERIOD 11:0. -/
theorem test_decode_setTone : decode 0b00010000001000000000000111011110 0 = .legal (.setTone 2 478) := by decide +kernel

/-- TOFF, NOFF, EON in bits 0, 1, 2. -/
theorem test_decode_setMixer : decode 0b00010001000100000000000000000101 0 = .legal (.setMixer 1 true false true) := by decide +kernel

/-- VOL 3:0. -/
theorem test_decode_setVolume : decode 0x12100007 0 = .legal (.setVolume 1 7) := by decide +kernel

/-- EQP bit 0. -/
theorem test_decode_setPan : decode 0x13200001 0x3F000000 = .legal (.setPan 2 true 0x3F000000) := by decide +kernel

/-- NP 4:0. -/
theorem test_decode_setNoise : decode 0x1400001E 0 = .legal (.setNoise 30) := by decide +kernel

/-- EP 15:0. -/
theorem test_decode_setEnvPeriod : decode 0x15008001 0 = .legal (.setEnvPeriod 0x8001) := by decide +kernel

/-- SHAPE 3:0. -/
theorem test_decode_setEnvShape : decode 0x1600000D 0 = .legal (.setEnvShape 13) := by decide +kernel

theorem test_decode_tonePhase : decode 0x17100000 0xBF800000 = .legal (.tonePhase 1 0xBF800000) := by decide +kernel

theorem test_decode_envSync : decode 0x18000000 0 = .legal (.envSync) := by decide +kernel

/-- SEG bit 0, LEVEL 8:4, COUNTER D[15:0]. -/
theorem test_decode_envLoad : decode 0b00011001000000000000000100010001 0xABCD1234 = .legal (.envLoad true 0b10001 0x1234) := by decide +kernel

theorem test_decode_process : decode 0x1A000000 0 = .legal (.process) := by decide +kernel

/-- PITCH 14:8, VEL 6:0. -/
theorem test_decode_noteOn : decode 0x20F03C64 0 = .legal (.noteOn 15 60 100) := by decide +kernel

theorem test_decode_noteOff : decode 0x21503C40 0 = .legal (.noteOff 5 60 64) := by decide +kernel

theorem test_decode_allNotesOff : decode 0x22300000 0 = .legal (.allNotesOff 3) := by decide +kernel

/-- WHEEL 13:0. -/
theorem test_decode_pitchWheel : decode 0x23003000 0 = .legal (.pitchWheel 0 12288) := by decide +kernel

/-- NUM 14:8, VAL 6:0. -/
theorem test_decode_control : decode 0x24104021 0 = .legal (.control 1 64 33) := by decide +kernel

/-- ID 11:0. -/
theorem test_decode_patchWr : decode 0x30000120 0x42F00000 = .legal (.patchWr 0x120 0x42F00000) := by decide +kernel

theorem test_decode_patchRd : decode 0x310000CF 0 = .legal (.patchRd 0x0CF) := by decide +kernel

/-- N 19:0. -/
theorem test_decode_render : decode 0x400FFFFF 0 = .legal (.render 0xFFFFF) := by decide +kernel

/-- V7.1, V7.2, V7.3, V7.5, V2.12, V6.17, V1.6: illegal headers, each with its reason. -/
theorem test_decode_illegal :
    decode 0x05000000 0 = .illegal .unassignedOpcode ∧ decode 0x00100000 0 = .illegal .reservedBits ∧
      decode 0x1A000001 0 = .illegal .reservedBits ∧ decode 0x20003CE4 0 = .illegal .reservedBits ∧
      decode 0x10300001 0 = .illegal .channelOutOfRange ∧ decode 0x30000FFF 0 = .illegal .unassignedId ∧
      decode 0x0204AC44 0x001E8480 = .illegal .reservedBits := by decide +kernel

/-- The table words: bit 0 is bit 0 of H, bit 32 bit 0 of D. -/
theorem test_decodeTableWord :
    decodeTableWord 64 0x001E84800200AC44 = some (.configure .ym2149 44100 2000000) ∧
      decodeTableWord 32 0x20003C64 = some (.noteOn 0 60 100) := by decide +kernel

/-! ## The tables against the literals that the spec prints (42_chip_process.md R171, R174) -/

/-- A literal: its sign, its digits, and how many of them stand behind the point. -/
def ofLiteral (l : Bool × Nat × Nat) : F64 := F64.ofRatio l.1 l.2.1 (10 ^ l.2.2)

/-- The literals of `DAC_YM` as the spec prints them (R171): sign, digits, decimal places. -/
def ymLiterals : List (Bool × Nat × Nat) :=
  [(false, 0, 1), (false, 0, 1), (false, 465400167849, 14), (false, 772106507973, 14),
   (false, 109559777218, 13), (false, 139620050355, 13), (false, 169985503929, 13), (false, 200198367285, 13),
   (false, 24368657969, 12), (false, 29694056611, 12), (false, 350652323186, 13), (false, 403906309606, 13),
   (false, 485389486534, 13), (false, 583352407111, 13), (false, 680552376593, 13), (false, 777752346075, 13),
   (false, 925154497597, 13), (false, 111085679408, 12), (false, 129747463188, 12), (false, 148485542077, 12),
   (false, 17666895552, 11), (false, 211551079576, 12), (false, 246387426566, 12), (false, 281101701381, 12),
   (false, 333730067903, 12), (false, 400427252613, 12), (false, 467383840696, 12), (false, 53443198291, 11),
   (false, 635172045472, 12), (false, 75800717174, 11), (false, 879926756695, 12), (false, 10, 1)]

/-- The literals of `DAC_AY` as the spec prints them (R171). -/
def ayLiterals : List (Bool × Nat × Nat) :=
  [(false, 0, 1), (false, 0, 1), (false, 999465934234, 14), (false, 999465934234, 14),
   (false, 144502937362, 13), (false, 144502937362, 13), (false, 210574502174, 13), (false, 210574502174, 13),
   (false, 307011520562, 13), (false, 307011520562, 13), (false, 455481803616, 13), (false, 455481803616, 13),
   (false, 644998855573, 13), (false, 644998855573, 13), (false, 107362478065, 12), (false, 107362478065, 12),
   (false, 126588845655, 12), (false, 126588845655, 12), (false, 20498970016, 11), (false, 20498970016, 11),
   (false, 292210269322, 12), (false, 292210269322, 12), (false, 372838941024, 12), (false, 372838941024, 12),
   (false, 492530708782, 12), (false, 492530708782, 12), (false, 635324635691, 12), (false, 635324635691, 12),
   (false, 805584802014, 12), (false, 805584802014, 12), (false, 10, 1), (false, 10, 1)]

/-- The literals h[0] to h[23] as the spec prints them (R174). -/
def firLiterals0 : List (Bool × Nat × Nat) :=
  [(false, 1779419339100874, 35), (true, 2357575640039048, 22), (true, 12468503453980456, 22), (true, 30755979279801044, 22),
   (true, 5121026626403867, 21), (true, 621388613756346, 20), (true, 4917821329008466, 21), (false, 8710992937720268, 35),
   (false, 9039204223252868, 21), (false, 21520339421494343, 21), (false, 35367196996844674, 21), (false, 47228292833121266, 21),
   (false, 5298324251183423, 20), (false, 485930976090462, 19), (false, 31161954618895524, 21), (true, 11703543670743403, 35),
   (true, 42564976196887616, 21), (true, 9087461978305048, 20), (true, 13631064679368708, 20), (true, 1684198992700933, 19),
   (true, 17671361310114754, 20), (true, 1528984920823567, 19), (true, 9315606408840303, 20), (false, 30090448112584354, 35)]

/-- The literals h[24] to h[47] as the spec prints them (R174). -/
def firLiterals1 : List (Bool × Nat × Nat) :=
  [(false, 11676379353155292, 20), (false, 24035702587861884, 20), (false, 34882360664550006, 20), (false, 4182319466627837, 19),
   (false, 42692239508962013, 20), (false, 3601614488332329, 19), (false, 21436676870292926, 20), (true, 6022948803349065, 34),
   (true, 25767705012650087, 20), (true, 5205151371829068, 19), (true, 7421703288009744, 19), (true, 875175407534001, 18),
   (true, 879468937998913, 18), (true, 7310327968687924, 19), (true, 429048059367492, 18), (false, 10408456569232804, 34),
   (false, 5025187179632521, 19), (false, 10029572249158104, 19), (false, 14137468898503137, 19), (false, 16489693359662467, 19),
   (false, 16398490475397814, 19), (false, 13495553333948533, 19), (false, 78455723956489, 17), (true, 16166233367653568, 34)]

/-- The literals h[48] to h[71] as the spec prints them (R174). -/
def firLiterals2 : List (Bool × Nat × Nat) :=
  [(true, 9027149637758419, 19), (true, 17868265656027108, 19), (true, 24988539972117716, 19), (true, 28927764814199552, 19),
   (true, 28562768777420783, 19), (true, 2334750458908504, 18), (true, 13486088991979583, 19), (false, 23017535818778917, 34),
   (false, 15335953750154963, 19), (false, 3019480903961355, 18), (false, 4201883352316182, 18), (false, 4842150943403733, 18),
   (false, 4761193609881569, 18), (false, 3877265955456436, 18), (false, 2232159073202014, 18), (true, 303902706973844, 32),
   (true, 25249075752189548, 19), (true, 4961688845251896, 18), (true, 6894940257363069, 18), (true, 7938822329142559, 18),
   (true, 7804129334200073, 18), (true, 6357774627408256, 18), (true, 3664201843740054, 18), (false, 37484883427073955, 34)]

/-- The literals h[72] to h[95] as the spec prints them (R174). -/
def firLiterals3 : List (Bool × Nat × Nat) :=
  [(false, 4163661732364605, 18), (false, 8211647044077687, 18), (false, 1146429795848799, 17), (false, 13276601873941791, 18),
   (false, 13144044100377377, 18), (false, 10799845014845834, 18), (false, 6288157497686106, 18), (true, 434083587948586, 32),
   (true, 7336941751196269, 18), (true, 14717503656842061, 18), (true, 20963216105897207, 18), (true, 24860699702351777, 18),
   (true, 25317887504012263, 18), (true, 2151805487259439, 17), (true, 13050666116702908, 18), (false, 4734557774878994, 33),
   (false, 17022752156926016, 18), (false, 36911272169370075, 18), (false, 58158878661441406, 18), (false, 790069159005839, 16),
   (false, 9762997148778343, 17), (false, 11233576167533098, 17), (false, 12175503757527255, 17), (false, 12499766314085119, 17)]

theorem test_dacYm_literals : ymLiterals.map ofLiteral = dacYm := by decide +kernel

theorem test_dacAy_literals : ayLiterals.map ofLiteral = dacAy := by decide +kernel

theorem test_firHalf0_literals : firLiterals0.map ofLiteral = firHalf0 := by decide +kernel

theorem test_firHalf1_literals : firLiterals1.map ofLiteral = firHalf1 := by decide +kernel

theorem test_firHalf2_literals : firLiterals2.map ofLiteral = firHalf2 := by decide +kernel

theorem test_firHalf3_literals : firLiterals3.map ofLiteral = firHalf3 := by decide +kernel

/-- V5.12 and 00_scope.md R15. -/
theorem test_hash :
    lowbias32 1 = 0x688990c0 ∧ [0, 1, 2].map (fun s => rnd params .chan s) = [0x1EFEE872, 0x4E0D1773, 0x727A056D] := by
  decide +kernel

/-! ## Single steps -/

/-- The state after a command. -/
def after (i : Instr) (s : State) : State :=
  match exec i s with
  | .next t => t
  | .fault _ => s
  | .refused _ => s

/-- V1.2: the state after CONFIGURE YM2149, 44100, 2000000. -/
def configured : State := after (.configure .ym2149 44100 2000000) State.reset

theorem test_nop : after .nop configured = configured := by decide +kernel

/-- V1.7. -/
theorem test_reset : (after .reset configured).status = 0 := by decide +kernel

/-- V1.2, V1.3: STATUS, and the step 2000000 / 2822400 = 0.7086167800453514. -/
theorem test_configure :
    configured.status = 0x00000001 ∧ configured.cfg.step = F64.dec 7086167800453514 (10 ^ 16) ∧
      (after (.configure .ay8910 48000 1773400) State.reset).status = 0x00000003 := by decide +kernel

/-- V1.4, V1.5. -/
theorem test_configure_refused :
    (after (.configure .ym2149 0 5) State.reset).status = 0x00000010 ∧
      (after (.configure .ym2149 44100 0) State.reset).status = 0x00000010 := by decide +kernel

/-- V7.6: the error bit is read once. -/
theorem test_rdStatus :
    (after .rdStatus (after .rdStatus (configured.raise .illegal))).resp = [0x00000005, 0x00000001] := by
  decide +kernel

theorem test_setTone : (after (.setTone 0 478) configured).chip.tones.c0.period = 478 := by decide +kernel

/-- 41_chip_setters.md R142: tone only, with fixed volume. -/
theorem test_setMixer :
    let t := (after (.setMixer 1 false true false) configured).chip.tones.c1
    (t.tOff, t.nOff, t.eOn) = (false, true, false) := by decide +kernel

theorem test_setVolume : (after (.setVolume 2 15) configured).chip.tones.c2.volume = 15 := by decide +kernel

/-- V2.1, V2.4, V2.5: 0.25 gives 0.75 and 0.25; -3.0 is clamped to 0, 2.0 to 1. -/
theorem test_setPan_linear :
    let gains (w : F32) (eqp : Bool) :=
      ((after (.setPan 0 eqp w) configured).chip.tones.c0.panL, (after (.setPan 0 eqp w) configured).chip.tones.c0.panR)
    gains 0x3E800000 false = (F64.dec 3 4, F64.dec 1 4) ∧ gains 0xC0400000 false = (F64.one, F64.zero) ∧
      gains 0x40000000 true = (F64.zero, F64.one) ∧ gains 0x80000000 true = (F64.one, F64.zero) := by decide +kernel

/-- V2.2: equal power at 0.5 gives 0.7071067811865476 on both sides. -/
theorem test_setPan_equalPower :
    (after (.setPan 0 true 0x3F000000) configured).chip.tones.c0.panL = F64.dec 7071067811865476 (10 ^ 16) := by
  decide +kernel

/-- Counter and bit of a channel. -/
def position (t : ToneChannel) : Nat × Bool := (t.counter.toNat, t.bit)

/-- V2.8: the seven phases with period 478. -/
theorem test_tonePhase :
    ([0x00000000, 0x3E800000, 0x3F000000, 0x3F400000, 0x3F800000, 0x3FC00000, 0xBF800000] : List F32).map
        (fun w => position (after (.tonePhase 0 w) (after (.setTone 0 478) configured)).chip.tones.c0) =
      [(0, false), (239, false), (0, true), (239, true), (477, true), (477, true), (0, false)] := by decide +kernel

/-- V2.9: with period 0, one tick each half. -/
theorem test_tonePhase_period0 :
    ([0x00000000, 0x3F000000, 0x3F800000] : List F32).map
        (fun w => position (after (.tonePhase 0 w) configured).chip.tones.c0) =
      [(0, false), (0, true), (0, true)] := by decide +kernel

theorem test_setNoise : (after (.setNoise 31) configured).chip.noise.period = 31 := by decide +kernel

theorem test_setEnvPeriod : (after (.setEnvPeriod 1000) configured).chip.env.period = 1000 := by decide +kernel

/-- V2.11. -/
theorem test_setEnvShape :
    (List.range 16).map (fun s => (after (.setEnvShape (BitVec.ofNat 4 s)) configured).chip.env.level.toNat) =
      [31, 31, 31, 31, 0, 0, 0, 0, 31, 31, 31, 31, 0, 0, 0, 0] := by decide +kernel

/-- V2.13. -/
theorem test_envLoad :
    (after (.envLoad false 16 0) (after (.setEnvShape 8) configured)).chip.env = ⟨0, 0, false, 16, 8⟩ := by
  decide +kernel

theorem test_envSync :
    (after .envSync (after (.envLoad true 3 999) configured)).chip.env = ⟨0, 0, true, 3, 0⟩ := by decide +kernel

/-- V3.13. -/
theorem test_process_unconfigured :
    (after .process State.reset).status = 0x00000008 ∧ (after .process State.reset).out = [] := by decide +kernel

/-- The chip of program 5 of 95_test_vectors.md: channel 0 at the constant level 1.0, panned to the centre. -/
def levelOne : State :=
  after (.setPan 0 false 0x3F000000) (after (.setVolume 0 15) (after (.setMixer 0 true true false) configured))

/-- Program 5, sample 0. -/
theorem test_process : (after .process levelOne).out = [(0xB72E9327, 0xB72E9327)] := by decide +kernel

/-- 44_engine.md R261: the voice of NOTE_ON 60, 100 in Mono. -/
theorem test_noteOn_mono :
    let e := (after (.noteOn 0 60 100) configured).eng
    e.voices.map (fun v => (v.chan, v.pitch, v.velocity, v.serial)) = [(0, 60, 100, 0)] ∧
      e.voices.map (·.portaSrc) = [F64.dec 60] ∧ e.held = [60] := by decide +kernel

/-- Poly with 60, 64 and 67 held (program 2). -/
def polyThree : State :=
  after (.noteOn 0 67 100) (after (.noteOn 0 64 100) (after (.noteOn 0 60 100) (after (.patchWr 0 1) configured)))

/-- Program 2 and W4: channels 0, 2 and 1; a fourth note takes the place of the first of equal level. -/
theorem test_noteOn_poly :
    polyThree.eng.voices.map (fun v => (v.pitch, v.chan)) = [(60, 0), (64, 2), (67, 1)] ∧
      (after (.noteOn 0 72 100) polyThree).eng.voices.map (fun v => (v.pitch, v.chan)) =
        [(64, 2), (67, 1), (72, 0)] := by decide +kernel

/-- V5.1: two notes of one pitch; NOTE_OFF releases the older one. -/
theorem test_noteOff :
    let s := after (.noteOff 0 60 0) (after (.noteOn 0 60 100) (after (.noteOn 0 60 100) (after (.patchWr 0 1) configured)))
    s.eng.voices.map (fun v => (v.chan, v.noteOn)) = [(0, false), (2, true)] ∧ s.eng.held = [60] := by decide +kernel

/-- V5.5: in ArpUp the voice goes to the lowest pitch left, gliding from 60. -/
theorem test_noteOff_arp :
    let s := after (.noteOff 0 60 0) (after (.noteOn 0 64 100) (after (.noteOn 0 60 100) (after (.patchWr 0 2) configured)))
    s.eng.voices.map (fun v => (v.pitch, v.noteOn, v.pitchSmp)) = [(64, true, 0)] ∧
      s.eng.voices.map (·.portaSrc) = [F64.dec 60] ∧ s.eng.held = [64] := by decide +kernel

/-- V5.4, before the RENDER, without the pedal. -/
theorem test_allNotesOff :
    (after (.allNotesOff 15) polyThree).status = 0x00000301 := by decide +kernel

theorem test_pitchWheel : (after (.pitchWheel 0 12288) configured).eng.pw = 12288 := by decide +kernel

/-- V5.2, V5.3: one deferred note-off; the pedal up runs it. -/
theorem test_control :
    let down := after (.noteOff 0 60 0) (after (.noteOff 0 60 0) (after (.control 0 64 64)
      (after (.noteOn 0 60 100) configured)))
    (down.eng.deferred, down.eng.held) = ([60], [60]) ∧ (after (.control 0 64 63) down).status = 0x00000101 := by
  decide +kernel

/-- V6.1 to V6.14: what a write stores. -/
theorem test_patchWr :
    ([(0x037, 0x41A00000), (0x010, 0xC0A00000), (0x010, 0x4E6E6B28), (0x010, 0x80000000), (0x021, 40),
        (0x021, 0xFFFFFFFF), (0x000, 7), (0x070, 0x80000000), (0x09D, 0xFFFFFF00), (0x110, 100), (0x120, 0),
        (0x05A, 1)] : List (BitVec 12 × Word)).map
        (fun w => memRead (after (.patchWr w.1 w.2) State.reset).patch w.1.toNat) =
      [0x41700000, 0xBF800000, 0x45610000, 0, 31, 0, 4, 1, 0xFFFFFFE1, 48, 0x3F800000, 1] := by decide +kernel

/-- V6.6, with the two infinities. -/
theorem test_patchWr_refused :
    (after (.patchWr 0x010 0x7F800000) State.reset).status = 0x00000010 ∧
      memRead (after (.patchWr 0x010 0xFF800000) State.reset).patch 0x010 = 0xBF800000 := by decide +kernel

/-- V6.16. -/
theorem test_patchRd :
    ([0x110, 0x037, 0x000, 0x073, 0x100, 0x120, 0x058] : List (BitVec 12)).map
        (fun id => (after (.patchRd id) State.reset).resp) =
      [[2], [0x41700000], [0], [8], [0x3F000000], [0x42F00000], [1]] := by decide +kernel

/-- V5.10. -/
theorem test_render_idle : (after (.render 3) configured).out = [(0, 0), (0, 0), (0, 0)] := by decide +kernel

/-- Program 1, steps 5 and 6: the released voice goes at its first sample, which is silent. -/
theorem test_render_release :
    let s := after (.render 1) (after (.noteOff 0 60 0) (after (.noteOn 0 60 100) configured))
    s.out = [(0, 0)] ∧ s.eng.voices = [] ∧ s.status = 0x00000001 := by decide +kernel

/-! ## Parts of a sample -/

/-- V3.1. -/
theorem test_lfsr : (List.range 8).map (fun k => lfsrShift^[k + 1] 1) =
    [0x10000, 0x8000, 0x4000, 0x2000, 0x1000, 0x800, 0x400, 0x200] := by decide +kernel

/-- V3.2. -/
theorem test_tone_tick :
    (List.range 8).map (fun k => position ((ToneChannel.tick)^[k + 1] (ToneChannel.setTone {} 3))) =
      [(1, false), (2, false), (0, true), (1, true), (2, true), (0, false), (1, false), (2, false)] := by
  decide +kernel

/-- V3.3, V3.7. -/
theorem test_env_tick :
    (List.range 8).map (fun k =>
        let e := (EnvGen.tick)^[k + 1] (({ period := 3 } : EnvGen).setShape 13)
        (e.counter.toNat, e.level.toNat)) =
      [(1, 0), (2, 0), (0, 1), (1, 1), (2, 1), (0, 2), (1, 2), (2, 2)] ∧
    [1, 31, 32, 33, 63, 64, 65].map (fun k => ((EnvGen.tick)^[k] (({} : EnvGen).setShape 10)).level.toNat) =
      [30, 0, 0, 1, 31, 31, 30] := by decide +kernel

/-- A voice tick's view of a patch, right after CONFIGURE. -/
def view (writes : List (Nat × Word)) (voices : List Voice) (held : List (BitVec 7)) : TickEnv where
  par := params
  cfg := configured.cfg
  patch := writes.foldl (fun m w => memWrite m w.1 w.2) []
  eng := { voices := voices, held := held }

/-- A held voice of pitch p, n samples old. -/
def voiceAt (p : BitVec 7) (n : BitVec 64) : Voice := { Voice.create 0 0 p 100 p false with first := false, onSmp := n }

/-- V4.5: the chip volume at samples 22, 45 and 150. -/
theorem test_envelope :
    let x := view [(0x030, 0x3A83126F), (0x036, 0x3B03126F), (0x037, 0x40C00000)] [] []
    ([22, 45, 150] : List (BitVec 64)).map (fun n => chipVolume (finalLevel x (voiceAt 60 n) (ringmodLevel x (voiceAt 60 n) F64.zero)
      (envelope x (voiceAt 60 n) (voiceTime x (voiceAt 60 n)) false) F64.one)) = [7, 15, 6] := by decide +kernel

/-- V4.11, V4.12 and W9. -/
theorem test_noise_period :
    noisePeriod (view [(0x021, 10), (0x024, 0x3F000000)] [] []) (voiceAt 72 0) F64.zero F64.zero 0 = 4 ∧
      noisePeriod (view [(0x021, 10), (0x024, 0xBF800000)] [] []) (voiceAt 72 0) F64.zero F64.zero 0 = 22 ∧
      noisePeriod (view [(0x024, 0x3F800000)] [] []) (voiceAt 63 0) F64.zero F64.zero 0 = 0 := by decide +kernel

/-- V4.17 and V4.18: sequencer indices with E = 2, L = 0 and L = 2. -/
theorem test_seqIndex :
    [0, 1, 2, 3, 4].map (seqIndex 2 0) = [some 0, some 1, some 0, some 1, some 0] ∧
      [0, 1, 2, 3].map (seqIndex 2 2) = [some 0, some 1, none, none] := by decide +kernel

/-- V4.20 and V4.21. -/
theorem test_arpeggio :
    (List.range 8).map (arpPosition 3 1) = [0, 1, 2, 1, 2, 1, 2, 1] ∧
      arpDraw params 3 none 0 = 0 ∧ [(0, 1), (1, 2), (0, 3), (1, 4), (2, 5), (0, 6), (2, 7), (1, 8), (2, 9)].map
        (fun p => arpDraw params 3 (some p.1) p.2) = [1, 0, 1, 2, 0, 2, 1, 2, 0] := by decide +kernel

/-- W5. -/
theorem test_ringmod :
    stepK .forward (3, .up) 8 = (3, .up) ∧ stepK .pingPong (0, .up) 14 = (0, .up) ∧
      [1, 2, 3].map (stepK .pingPong (7, .up)) = [(6, .down), (5, .down), (4, .down)] := by decide +kernel

/-- V5.11: the pan value of CC 10 at 32, 64 and 96. -/
theorem test_pan :
    ([32, 64, 96] : List (BitVec 7)).map (fun v => panValue { view [] [] [] with eng := { ccPan := v } } 0) =
      [F64.zero, F64.dec 1 2, F64.one] := by decide +kernel

/-- V4.6: velocity 64 with full sensitivity gives half the level: 7.5 rounds to 8. -/
theorem test_velocity : chipVolume ((F64.dec 15).mul (velocityGain 64 F64.one)) = 8 := by decide +kernel

/-- W10. -/
theorem test_lerpSeg : F64.lerpSeg (F64.dec 4) (F64.dec 10) F64.one F64.zero F64.zero = F64.dec 7 := by decide +kernel

/-- V2.6: a NaN pan is refused, and the gains stay. -/
theorem test_setPan_nan (s : State) : exec (.setPan 0 false 0x7FC00000) s = .next (s.raise .value) := by
  show Host.Outcome.next (s.onChannelReal (BitVec.ofNat 4 (0 : Fin 3)) _ _) = _
  rw [State.onChannelReal_ofNat, if_pos (by decide)]

/-! ## Witnesses: for each statement with hypotheses, a state and operands that meet them

Where a statement has several clauses, each clause has its own values, at the ends of their ranges. -/

/-- Power-on and CONFIGURE YM2149, 44100, 2000000. -/
def ready : State := { State.reset with cfg := ⟨true, .ym2149, 2000000, 44100, stepOf 2000000 44100⟩ }

/-- A held voice that has ticked before. -/
def sounding (serial : BitVec 32) (c : Fin 3) (p : BitVec 7) (level : Nat) : Voice :=
  { Voice.create serial c p 100 p false with first := false, onSmp := 1, pitchSmp := 1, envLevel := F64.dec level }

/-- `ready` with a register file and an Engine of its own. -/
def withEngine (m : Patch) (e : Engine) : State := { ready with patch := m, eng := e }

theorem ready_cfg : ready.cfg.Inv := by
  show if true = true then _ else _
  rw [if_pos rfl]
  exact ⟨by decide, by decide, rfl⟩

theorem withEngine_inv {m : Patch} {e : Engine} (hm : Memory.wf m = true) (he : e.Inv 256 (playMode m)) :
    (withEngine m e).Inv := ⟨ready_cfg, Chip.Inv.reset (p := params) (by decide), hm, he⟩

theorem withEngine_bounded {m : Patch} {e : Engine} (hm : Patch.InRange m) (he : ∀ v ∈ e.voices, v.Bounded) :
    (withEngine m e).Bounded := ⟨hm, Chip.Bounded.reset, he⟩

/-- The register file with `play_mode` n and every other field at reset. -/
def modePatch (n : Word) : Patch := memWrite [] PatchId.playMode n

theorem modePatch_wf (n : Word) : Memory.wf (modePatch n) = true := Memory.wf_memWrite rfl (by decide +kernel) n

theorem modePatch_inRange {n : Word} (h0 : 0 ≤ n.toInt) (h1 : n.toInt ≤ 4) : Patch.InRange (modePatch n) :=
  inRange_write (f := ⟨PatchId.playMode, .enum, 0, 4, 0⟩) rfl inRange_reset (by decide +kernel) ⟨h0, h1⟩

/-- An Engine that is in no arpeggio mode and has nothing deferred meets the invariant when its lists do. -/
theorem engine_inv {mode : PlayMode} {e : Engine} (hm : mode.isArp = false) (hv : VoicesOk e.voices)
    (ho : e.held.Pairwise fun p q => p.toNat ≤ q.toNat) (hc : e.held.length ≤ 256)
    (hd : e.sustain = false → e.deferred = []) (hn : ∀ p, e.deferred.count p ≤ e.held.count p) : e.Inv 256 mode where
  size := hv.size
  channels := hv.channels
  order := hv.order
  velocity := hv.velocity
  heldOrder := ho
  heldCap := hc
  arpIdle h := by rw [hm] at h; cases h
  arpHeld h := by rw [hm] at h; cases h
  pedalUp := hd
  deferred := hn

/-- Three voices in Poly, the second and the third equally quiet. -/
def threeVoices : Engine where
  voices := [sounding 0 0 60 15, sounding 1 2 64 5, sounding 2 1 67 5]
  held := [60, 64, 67]
  lastPitch := some 67
  serialCtr := 3

def poly : State := withEngine (modePatch 1) threeVoices

theorem sounding_bounded (n : BitVec 32) (c : Fin 3) (p : BitVec 7) {l : Nat} (h : (F64.dec l).Between 0 15) :
    (sounding n c p l).Bounded :=
  ⟨h, show F64.zero.Between 0 15 from ⟨by decide +kernel, by decide +kernel⟩, pitch_between p⟩

theorem threeVoices_ok : VoicesOk threeVoices.voices :=
  ⟨by decide, by decide +kernel, by decide +kernel, by decide +kernel⟩

theorem threeVoices_bounded : ∀ v ∈ threeVoices.voices, v.Bounded := by
  intro v hv
  simp only [threeVoices, List.mem_cons, List.not_mem_nil, or_false] at hv
  rcases hv with rfl | rfl | rfl <;> exact sounding_bounded _ _ _ ⟨by decide +kernel, by decide +kernel⟩

theorem poly_inv : poly.Inv :=
  withEngine_inv (modePatch_wf 1) (engine_inv (by decide +kernel) threeVoices_ok (by decide) (by decide) (fun _ => rfl)
    (by simp [threeVoices]))

theorem poly_bounded : poly.Bounded := withEngine_bounded (modePatch_inRange (by decide) (by decide)) threeVoices_bounded

/-- Two of the three voices, so that a third can come without stealing. -/
def twoVoices : Engine := { threeVoices with voices := threeVoices.voices.take 2, held := [60, 64] }

theorem twoVoices_inv : (withEngine (modePatch 1) twoVoices).Inv :=
  withEngine_inv (modePatch_wf 1) (engine_inv (by decide +kernel) (threeVoices_ok.sublist (List.take_sublist _ _))
    (by decide) (by decide) (fun _ => rfl) (by simp [twoVoices, threeVoices]))

theorem twoVoices_bounded : (withEngine (modePatch 1) twoVoices).Bounded :=
  withEngine_bounded (modePatch_inRange (by decide) (by decide)) fun v hv =>
    threeVoices_bounded v (List.mem_of_mem_take hv)

/-- Poly with the pedal down, 60 held twice and one note-off of 60 deferred. -/
def pedalDown : Engine := { threeVoices with
  voices := [sounding 0 0 60 15, sounding 1 2 60 15], held := [60, 60], deferred := [60], sustain := true }

theorem pedalDown_inv : (withEngine (modePatch 1) pedalDown).Inv := by
  refine withEngine_inv (modePatch_wf 1) (engine_inv (by decide +kernel)
    ⟨by decide, by decide +kernel, by decide +kernel, by decide +kernel⟩ (by decide) (by decide) (fun h => by cases h) ?_)
  intro p
  simp only [pedalDown, List.count_cons, List.count_nil]
  omega

/-- Mono with one voice, released with release time 0. -/
def released : Engine := { threeVoices with voices := [(sounding 0 0 60 15).release], held := [] }

theorem released_inv : (withEngine [] released).Inv :=
  withEngine_inv rfl (engine_inv (by decide +kernel) ⟨by decide, by decide +kernel, by decide +kernel, by decide +kernel⟩
    (by decide) (by decide) (fun _ => rfl) (by simp [released, threeVoices]))

theorem released_bounded : (withEngine [] released).Bounded := by
  refine withEngine_bounded inRange_reset fun v hv => ?_
  simp only [released, List.mem_cons, List.not_mem_nil, or_false] at hv
  subst hv
  exact (sounding_bounded 0 0 60 ⟨by decide +kernel, by decide +kernel⟩).release

theorem witness_DecodeOfEncodeIsTheCommand :
    (Instr.setTone 2 0xFFF).wellFormed = true ∧ (Instr.patchRd 0x0CF).wellFormed = true := by decide +kernel

theorem witness_LegalHeaderIsTheHeaderOfItsCommand :
    decode 0x102001DE 0 = .legal (.setTone 2 478) ∧ decode 0x30000120 7 = .legal (.patchWr 0x120 7) := by decide +kernel

theorem witness_UnusedDataIsIgnored :
    ((0x10000000#32).extractLsb' 24 8 ∉ [0x02#8, 0x13#8, 0x17#8, 0x19#8, 0x30#8]) ∧
      (0x19000000#32).extractLsb' 24 8 = 0x19#8 ∧
      (0x00001234#32).extractLsb' 0 16 = (0xFFFF1234#32).extractLsb' 0 16 := by decide +kernel

theorem witness_CommandFilesAreLittleEndian :
    ((bytesOfWord 0x80000000).getD 3 0).getLsbD 7 = true ∧ (Instr.render 0xFFFFF).wellFormed = true := by decide +kernel

/-- A command port that holds SET_TONE 2, 478 and then RENDER 1. -/
def twoCommands : State := { ready with cmd := [0x102001DE, 0, 0x40000001, 0] }

theorem witness_StepRunsTheDecodedCommand :
    twoCommands.cmd = 0x102001DE :: 0 :: [0x40000001, 0] ∧ decode 0x102001DE 0 = .legal (.setTone 2 478) := by
  decide +kernel

theorem witness_IllegalCommandOnlySetsItsBit :
    ({ ready with cmd := [0x05000000, 0] } : State).cmd = 0x05000000 :: 0 :: [] ∧ ¬ legalHeader 0x05000000 ∧
      ¬ legalHeader 0x1A000001 ∧ ¬ legalHeader 0x10300001 ∧ ¬ legalHeader 0x30000015 := by
  unfold legalHeader
  decide +kernel

theorem witness_EveryCommandMovesPastItsTwoWords : twoCommands.cmd = 0x102001DE :: 0 :: [0x40000001, 0] := rfl

theorem witness_LaterCommandsHaveNoEffect : 2 ≤ ({ ready with cmd := [0x40000001, 0] } : State).cmd.length := by decide

theorem witness_PortsGrowAsStated : twoCommands.cmd = 0x102001DE :: 0 :: [0x40000001, 0] := rfl

/-- A command that clears the bits, one that does not, and states with and without a bit set. -/
theorem witness_RefusalsAreExactlyTheListed :
    twoCommands.cmd = 0x102001DE :: 0 :: [0x40000001, 0] ∧ decode 0x03000000 0 = .legal .rdStatus ∧
      decode 0x01000000 0 = .legal .reset ∧ decode 0x102001DE 0 ≠ .legal .rdStatus ∧
      decode 0x102001DE 0 ≠ .legal .reset ∧ twoCommands.err = {} ∧ (twoCommands.raise .value).err.value = true ∧
      (withEngine [] { held := List.replicate 256 60 }).eng.held.length = params.heldCap := by decide +kernel

/-- The step of an illegal header, at `ready`. -/
theorem witness_RefusedCommandChangesOnlyItsBit :
    ∃ s t, s.cmd = 0x05000000 :: 0 :: [] ∧ step s = .next t ∧
      (t.err.illegal && !s.err.illegal || t.err.unconfigured && !s.err.unconfigured ||
        t.err.value && !s.err.value) = true := by
  refine ⟨{ ready with cmd := [0x05000000, 0] }, ready.raise .illegal, rfl, ?_, rfl⟩
  rw [step_of_cmd rfl, show decode 0x05000000 0 = .illegal .unassignedOpcode by decide +kernel]
  rfl

theorem witness_ErrorBitsAreStickyAndInert :
    twoCommands.cmd = 0x102001DE :: 0 :: [0x40000001, 0] ∧ decode 0x102001DE 0 ≠ .legal .rdStatus ∧
      decode 0x102001DE 0 ≠ .legal .reset ∧ (ready.raise .illegal).err.illegal = true ∧
      (ready.raise .unconfigured).err.unconfigured = true ∧ (ready.raise .value).err.value = true := by decide +kernel

theorem witness_ConfigureResetsTheChipOnly :
    ((0#18 = 0 ∨ 1#32 = 0) ∧ (1#18 = 0 ∨ 0#32 = 0)) ∧ (1#18 ≠ 0 ∧ 1#32 ≠ 0) := by decide

theorem witness_RdStatusRespondsThenClears : poly.eng.voices.length ≤ 3 ∧ poly.eng.voices.length = 3 := by decide

theorem witness_ChannelSettersWriteOneChannel : 2 < (3#4).toNat ∧ 2 < (15#4).toNat := by decide

/-- Not finite: an infinity and a NaN; finite: +0.0, -0.0, 1.0, the smallest subnormal and the largest value below 1,
each under the clause that gives its p. -/
theorem witness_SetPanClampsAndSplitsTheGain :
    (¬ F32.finite 0x7F800000 ∧ ¬ F32.finite 0x7FC00000) ∧
    ((F32.finite 0x00000000 ∧ (F64.ofF32 0x00000000).le F64.zero = true) ∧
      F32.finite 0x80000000 ∧ (F64.ofF32 0x80000000).le F64.zero = true) ∧
    (F32.finite 0x3F800000 ∧ F64.one.le (F64.ofF32 0x3F800000) = true) ∧
    (F32.finite 0x00000001 ∧ F64.zero.lt (F64.ofF32 0x00000001) = true ∧ (F64.ofF32 0x00000001).lt F64.one = true) ∧
    F32.finite 0x3F7FFFFF ∧ F64.zero.lt (F64.ofF32 0x3F7FFFFF) = true ∧ (F64.ofF32 0x3F7FFFFF).lt F64.one = true := by
  unfold F32.finite
  decide +kernel

/-- The channels of `ready` have period 0, so one tick in each half: phase 0.5 gives position 1. -/
theorem witness_TonePhaseSetsThePosition :
    ¬ F32.finite 0xFF800000 ∧ F32.finite 0x3F000000 ∧ 1 = max (ready.chip.tones.get 0).period.toNat 1 ∧
      1 = min (((F64.ofF32 0x3F000000).clamp F64.zero F64.one).mul (F64.ofNat (2 * 1))).floor.toNat (2 * 1 - 1) := by
  unfold F32.finite
  decide +kernel

/-- Every chip setter, at the ends of its operands, an undefined channel among them. -/
theorem witness_SettersNeverRunTheChip :
    ∀ i ∈ [Instr.setTone 0 0xFFF, .setMixer 3 true true true, .setVolume 2 15, .setPan 15 true 0x7FC00000, .setNoise 31,
      .setEnvPeriod 0xFFFF, .setEnvShape 15, .tonePhase 0 0x3F800000, .envSync, .envLoad true 31 0xFFFF],
      i.isChipSetter = true := by decide

/-- Periods 1 and 3 from counter 0: the first rolls over at once, the second counts. -/
theorem witness_ToneIsASquareWave :
    (1 = max (ToneChannel.setTone {} 0).period.toNat 1 ∧ 1 ≤ (ToneChannel.setTone {} 0).counter.toNat + 1) ∧
      3 = max (ToneChannel.setTone {} 3).period.toNat 1 ∧ (ToneChannel.setTone {} 3).counter.toNat + 1 < 3 ∧
      (ToneChannel.setTone {} 3).counter = 0 := by decide +kernel

/-- With NOISE_DIV 2 and period 0: counter 1 rolls over, counter 0 counts. -/
theorem witness_NoiseRegisterIsMaximalLength :
    params.noiseDiv * max (⟨0, 1, 1⟩ : NoiseGen).period.toNat 1 ≤ (⟨0, 1, 1⟩ : NoiseGen).counter.toNat + 1 ∧
      (⟨0, 0, 1⟩ : NoiseGen).counter.toNat + 1 < params.noiseDiv * max (⟨0, 0, 1⟩ : NoiseGen).period.toNat 1 ∧
      params.noiseDiv ≤ 8 ∧ (1#17 ≠ 0) := by decide +kernel

theorem witness_EnvelopeFollowsItsShape :
    0 < max ({ period := 0 } : EnvGen).period.toNat 1 ∧ 2 < max ({ period := 3 } : EnvGen).period.toNat 1 := by decide

theorem witness_ProcessRunsOneSample : State.reset.cfg.configured = false ∧ ready.cfg.configured = true := ⟨rfl, rfl⟩

theorem witness_FirstSampleAfterConfigureIsSilent : 1#18 ≠ 0 ∧ 0xFFFFFFFF#32 ≠ 0 := by decide

/-- An accumulator at 0 and one just below 1. -/
theorem witness_AccumulatorLoopTakesTheWholePart :
    44100#18 ≠ 0 ∧ ∀ a ∈ [F64.zero, (⟨0x3FEFFFFFFFFFFFFF⟩ : F64)],
      F64.zero.le ({ ready.chip with acc := a } : Chip).acc = true ∧
        ({ ready.chip with acc := a } : Chip).acc.lt F64.one = true := by decide +kernel

/-- Tables of 32 entries, and delay lines of the default length 1 and of length 2. -/
theorem witness_MixerFilterAndDcBlockerCompute :
    (params.dacYm.length = 32 ∧ params.dacAy.length = 32) ∧
    (([F64.one] : List F64).length = params.dcN ∧ ([F64.one] : List F64).getLast? = some F64.one) ∧
    ([F64.zero, F64.one] : List F64).length = ({ params with dcN := 2 } : Params).dcN ∧
      ([F64.zero, F64.one] : List F64).getLast? = some F64.one := by decide +kernel

/-- One field of each type, with payloads that are refused, clamped at either end, rewritten, and kept. -/
theorem witness_PatchWriteClampsAndStores :
    Memory.wf ready.patch = true ∧
    ((⟨PatchId.toneTime, .real, -1, 3600, 0xBF800000⟩ : PatchField) ∈ patchFields ∧
      PatchId.toneTime = (0x010#12).toNat ∧ ¬ F32.finite 0x7FC00000 ∧
      (F32.finite 0xC0A00000 ∧ (F64.ofF32 0xC0A00000).lt (F64.ofInt (-1)) = true ∧
        (F64.ofInt (-1)).toF32 = 0xBF800000) ∧
      (F32.finite 0x4E6E6B28 ∧ (F64.ofInt 3600).lt (F64.ofF32 0x4E6E6B28) = true ∧
        (F64.ofInt 3600).toF32 = 0x45610000) ∧
      F32.finite 0x80000000 ∧ F32.finite 0x45610000) ∧
    ((⟨PatchId.noisePeriod, .int, 0, 31, 0⟩ : PatchField) ∈ patchFields ∧ PatchId.noisePeriod = (0x021#12).toNat ∧
      (31#32).toInt = max 0 (min 31 (40#32).toInt) ∧ (0#32).toInt = max 0 (min 31 (0xFFFFFFFF#32).toInt)) ∧
    ((⟨PatchId.playMode, .enum, 0, 4, 0⟩ : PatchField) ∈ patchFields ∧ PatchId.playMode = (0#12).toNat ∧
      (4#32).toInt = max 0 (min 4 (7#32).toInt)) ∧
    ((⟨PatchId.buzzerEnabled, .bool, 0, 1, 0⟩ : PatchField) ∈ patchFields ∧
      PatchId.buzzerEnabled = (0x070#12).toNat ∧ 1#32 = (if (0x80000000#32) = 0 then 0 else 1)) := by
  unfold F32.finite
  decide +kernel

theorem witness_RewritingAFieldChangesNothing :
    Memory.wf poly.patch = true ∧ Patch.InRange poly.patch ∧ assigned (0#12).toNat = true :=
  ⟨poly_inv.patch, poly_bounded.patch, by decide +kernel⟩

/-- The field holds 1: the ends of the range, both clamped payloads, and the payload that it holds; it holds 4: a
payload that the clamp makes 4. -/
theorem witness_PlayModeChangeReleasesEveryNote :
    Memory.wf poly.patch = true ∧
      ((0#32).toInt = max 0 (min 4 (0#32).toInt) ∧ memRead poly.patch PatchId.playMode ≠ 0#32) ∧
      ((4#32).toInt = max 0 (min 4 (4#32).toInt) ∧ memRead poly.patch PatchId.playMode ≠ 4#32) ∧
      (4#32).toInt = max 0 (min 4 (7#32).toInt) ∧ (0#32).toInt = max 0 (min 4 (0xFFFFFFFE#32).toInt) ∧
      ((1#32).toInt = max 0 (min 4 (1#32).toInt) ∧ memRead poly.patch PatchId.playMode = 1#32) ∧
      Memory.wf (withEngine (modePatch 4) {}).patch = true ∧
      memRead (withEngine (modePatch 4) {}).patch PatchId.playMode = 4#32 := by decide +kernel

theorem witness_PatchReadRespondsThePayload :
    assigned (0x000#12).toNat = true ∧ assigned (0x120#12).toNat = true := by decide +kernel

theorem witness_OnlyPatchWritesChangeThePatch :
    (∀ id v, Instr.render 0xFFFFF ≠ .patchWr id v) ∧ Instr.render 0xFFFFF ≠ .reset :=
  ⟨fun _ _ h => (by cases h), fun h => (by cases h)⟩

theorem witness_MonoNoteOnReplacesTheVoice :
    playMode (withEngine [] released).patch = .mono ∧ 1#7 ≠ 0 ∧ (withEngine [] released).eng.held.length ≠ 256 := by
  decide +kernel

/-- With three voices, the second is the first of the quietest; with two, none goes. -/
theorem witness_PolyNoteOnTakesAFreeChannel :
    (poly.Inv ∧ poly.Bounded ∧ playMode poly.patch = .poly ∧ poly.eng.held.length ≠ 256 ∧ poly.eng.voices.length = 3) ∧
    ((withEngine (modePatch 1) twoVoices).Inv ∧ (withEngine (modePatch 1) twoVoices).Bounded ∧
      playMode (withEngine (modePatch 1) twoVoices).patch = .poly ∧
      (withEngine (modePatch 1) twoVoices).eng.held.length ≠ 256 ∧
      (withEngine (modePatch 1) twoVoices).eng.voices.length < 3) ∧ 127#7 ≠ 0 :=
  ⟨⟨poly_inv, poly_bounded, by decide +kernel, by decide, by decide⟩,
    ⟨twoVoices_inv, twoVoices_bounded, by decide +kernel, by decide, by decide⟩, by decide⟩

theorem witness_ArpNoteOnMakesOneVoice :
    (playMode (withEngine (modePatch 2) {}).patch).isArp = true ∧ (playMode (withEngine (modePatch 3) {}).patch).isArp = true ∧
      (playMode (withEngine (modePatch 4) {}).patch).isArp = true ∧ 100#7 ≠ 0 ∧
      (withEngine (modePatch 2) {}).eng.held.length ≠ 256 := by decide +kernel

theorem witness_NoteEventsRefusedIgnoredOrDeferred :
    (1#7 ≠ 0 ∧ (withEngine [] { held := List.replicate 256 60 }).eng.held.length = 256 ∧
      (withEngine [] { held := [60] }).eng.held.length = ({ params with heldCap := 1 } : Params).heldCap) ∧
    60#7 ∉ ready.eng.held ∧
    (60#7 ∈ (withEngine (modePatch 1) pedalDown).eng.held ∧ (withEngine (modePatch 1) pedalDown).eng.sustain = true) := by
  decide +kernel

/-- In Poly: 64 has a held voice, behind one of another pitch; with its voice gone it has none. In ArpUp: the last
pitch, and one of two. -/
theorem witness_NoteOffReleasesOrRepoints :
    (64#7 ∈ poly.eng.held ∧ poly.eng.sustain = false ∧ (poly.eng.held.Pairwise fun p q => p.toNat ≤ q.toNat) ∧
      (playMode poly.patch).isArp = false ∧
      poly.eng.voices = [sounding 0 0 60 15] ++ sounding 1 2 64 5 :: [sounding 2 1 67 5] ∧
      (∀ w ∈ [sounding 0 0 60 15], w.pitch = 64 → w.noteOn = false) ∧ (sounding 1 2 64 5).pitch = 64 ∧
      (sounding 1 2 64 5).noteOn = true) ∧
    (∀ v ∈ (withEngine (modePatch 1) { twoVoices with voices := [] }).eng.voices, v.pitch = 64 → v.noteOn = false) ∧
    ((playMode (withEngine (modePatch 2) {}).patch).isArp = true ∧ [60#7].erase 60 = [] ∧
      64#7 ∈ [60#7, 64#7].erase 60 ∧ ∀ p ∈ [60#7, 64#7].erase 60, (64#7).toNat ≤ p.toNat) := by decide +kernel

theorem witness_EventsWriteTheirRegister :
    ∀ n ∈ [0#7, 2#7, 63#7, 65#7, 127#7], n ∉ [1#7, 5#7, 7#7, 10#7, 11#7, 64#7] := by decide +kernel

theorem witness_PedalRunsTheDeferredNoteOffs :
    (poly.Inv ∧ 64 ≤ (64#7).toNat) ∧ (poly.Inv ∧ (63#7).toNat < 64 ∧ poly.eng.sustain = false) ∧
      ((withEngine (modePatch 1) pedalDown).Inv ∧ (63#7).toNat < 64 ∧
        (withEngine (modePatch 1) pedalDown).eng.sustain = true) :=
  ⟨⟨poly_inv, by decide⟩, ⟨poly_inv, by decide, rfl⟩, pedalDown_inv, by decide, rfl⟩

/-- The step of NOP, at the state with three voices. -/
theorem nop_step : step { poly with cmd := [0, 0] } = .next poly := by
  rw [step_of_cmd rfl, show decode 0 0 = .legal .nop by decide +kernel]
  rfl

/-- The machine with the defaults, and the one that holds at most three pitches. -/
theorem witness_StepKeepsTheInvariant :
    (({ poly with cmd := [0, 0] } : State).Inv ∧ step { poly with cmd := [0, 0] } = .next poly) ∧
    (({ params with heldCap := 3 } : Params).Ok ∧
      ({ poly with cmd := [0, 0] } : State).InvWith { params with heldCap := 3 } ∧
      stepWith { params with heldCap := 3 } { poly with cmd := [0, 0] } = .next poly) := by
  refine ⟨⟨⟨poly_inv.cfg, poly_inv.chip, poly_inv.patch, poly_inv.eng⟩, nop_step⟩, ⟨params_ok.taps, params_ok.dcN,
    params_ok.noiseDiv, params_ok.noiseDivMax, params_ok.dacYm, params_ok.dacAy⟩,
    ⟨poly_inv.cfg, ⟨poly_inv.chip.firL, poly_inv.chip.firR, poly_inv.chip.dcL, poly_inv.chip.dcR,
      poly_inv.chip.counters, poly_inv.chip.noiseCounter, poly_inv.chip.lfsr⟩, poly_inv.patch,
      { poly_inv.eng with heldCap := by decide }⟩, ?_⟩
  unfold stepWith
  rw [runNext_of_cmd _ rfl, show decode 0 0 = .legal .nop by decide +kernel]
  rfl

theorem witness_PowerOnMeetsTheInvariants : params.Ok := params_ok

theorem witness_StepKeepsTheRanges :
    ({ poly with cmd := [0, 0] } : State).Inv ∧ ({ poly with cmd := [0, 0] } : State).Bounded ∧
      step { poly with cmd := [0, 0] } = .next poly :=
  ⟨⟨poly_inv.cfg, poly_inv.chip, poly_inv.patch, poly_inv.eng⟩,
    ⟨poly_bounded.patch, poly_bounded.chip, poly_bounded.voices⟩, nop_step⟩

theorem witness_EmittedSamplesAreFinite : poly.Inv ∧ poly.Bounded := ⟨poly_inv, poly_bounded⟩

/-- Both outcomes of a sample: no voice left, and a held voice left. -/
theorem witness_RenderIsItsSamplesInOrder :
    State.reset.cfg.configured = false ∧ ready.cfg.configured = true ∧ (0xFFFFF#20).toNat + (0#20).toNat < 2 ^ 20 ∧
    (tickVoices (ready.tickEnv params) ready.eng.voices ready.chip).1.filter
      (fun v => v.noteOn || !v.envLevel.eq F64.zero) = [] ∧
    ∃ vs chip, (vs, chip) = poly.eng.voices.foldl (fun (done : List Voice × Chip) v =>
        (done.1 ++ [(voiceTick (poly.tickEnv params) v done.2).1], (voiceTick (poly.tickEnv params) v done.2).2))
          ([], poly.chip) ∧
      vs.filter (fun v => v.noteOn || !v.envLevel.eq F64.zero) ≠ [] := by
  refine ⟨rfl, rfl, by decide, rfl, _, _, (tickVoices_foldl _ _ [] _).symm, ?_⟩
  have h := tickVoices_noteOn (poly.tickEnv params) poly.eng.voices poly.chip
  revert h
  generalize (tickVoices _ poly.eng.voices poly.chip).1 = vs
  intro h
  cases vs with
  | nil => cases h
  | cons v vs =>
    have hv : v.noteOn = true := by
      have := congrArg List.head? h
      simpa [poly, withEngine, threeVoices, sounding, Voice.create] using this
    simp [hv]

theorem witness_IdleRenderKeepsTheChip : ready.cfg.configured = true ∧ ready.eng.voices = [] := ⟨rfl, rfl⟩

theorem witness_AllNotesOffThenSilence :
    poly.cfg.configured = true ∧ 1#20 ≠ 0 ∧ real poly.patch PatchId.envRelease = F64.zero := by decide +kernel

/-- A released voice with release time 0: the sample removes it. -/
theorem witness_RemovedVoiceLeavesItsChannelSilent :
    (withEngine [] released).Inv ∧ (withEngine [] released).Bounded ∧
      (withEngine [] released).cfg.configured = true ∧
      (sounding 0 0 60 15).release ∈ (withEngine [] released).eng.voices ∧
      (after (.render 1) (withEngine [] released)).eng.voices = [] :=
  ⟨released_inv, released_bounded, rfl, List.mem_singleton.mpr rfl, by decide +kernel⟩

/-- Any tick; outside buzzer mode, in it and held, in it and released; the patch 0x070 = 1 enables the buzzer. -/
theorem witness_VoiceTickWritesOnlyItsChannel :
    (∃ w after, voiceTick (view [] [] []) (voiceAt 60 0) ready.chip = (w, after)) ∧ (1 : Fin 3) ≠ (voiceAt 60 0).chan ∧
    tickBuzz (view [] [] []) (voiceAt 60 0) = false ∧ tickBuzz (view [(0x070, 1)] [] []) (voiceAt 60 0) = true ∧
    (voiceAt 60 0).noteOn = true ∧ (voiceAt 60 0).release.noteOn = false ∧
    tickBuzz (view [(0x070, 1)] [] []) (voiceAt 60 0).release = true := by
  refine ⟨⟨_, _, rfl⟩, ?_⟩
  decide +kernel

theorem witness_EnvelopeStaysInItsRange :
    Patch.InRange (withEngine [] released).patch ∧ (withEngine [] released).cfg.sr ≠ 0 ∧
      (sounding 0 0 60 15).release.relLevel.Between 0 15 ∧ (sounding 0 0 60 15).release.noteOn = false ∧
      ∃ w after, voiceTick (view [] [] []) (voiceAt 60 0) ready.chip = (w, after) :=
  ⟨released_bounded.patch, by decide, ⟨by decide +kernel, by decide +kernel⟩, rfl, _, _, rfl⟩

/-- The tick clauses: a first tick and a later one; a tone edge with and without ringmod.sync; and an EXP2 that is
constantly 1, with which the phase is finite and at least 0, and so is its whole part. -/
theorem witness_RingModStepsCompose :
    (((0, .up) : Fin 8 × RmDir) ≠ (7, .up) ∧ ((0, .up) : Fin 8 × RmDir) ≠ (0, .down) ∧
      ((7, .down) : Fin 8 × RmDir) ≠ (7, .up) ∧ ((7, .down) : Fin 8 × RmDir) ≠ (0, .down)) ∧
    (0 < (1 : Fin 8).val ∧ (6 : Fin 8).val < 7) ∧
    (∃ w after, voiceTick (view [] [] []) (voiceAt 60 0) ready.chip = (w, after)) ∧
    ((voiceAt 60 0).first = false ∧ (Voice.create 0 0 60 100 60 false).first = true) ∧
    (let c : Chip := { ready.chip with tones := { c0 := { bit := true } } }
     (tickSync (view [(PatchId.ringmodSync, 1)] [] []) (voiceAt 60 0) c &&
        !tickBuzz (view [(PatchId.ringmodSync, 1)] [] []) (voiceAt 60 0)) = true ∧
      (tickSync (view [] [] []) (voiceAt 60 0) c && !tickBuzz (view [] [] []) (voiceAt 60 0)) = false) ∧
    ∀ pitch, ∃ ph : F64, ph = (voiceAt 60 0).rmPhase.add (ringmodAdvance
      { view [] [] [] with par := { params with exp2 := fun _ => F64.one } } pitch) ∧
        0 ≤ ph.floor ∧ ph.isFinite = true ∧ F64.zero.le ph = true := by
  refine ⟨by decide, by decide, ⟨_, _, rfl⟩, by decide, by decide +kernel, fun pitch => ⟨_, rfl, ?_⟩⟩
  have h : 0 ≤ ((voiceAt 60 0).rmPhase.add (ringmodAdvance
        { view [] [] [] with par := { params with exp2 := fun _ => F64.one } } F64.zero)).floor ∧
      ((voiceAt 60 0).rmPhase.add (ringmodAdvance
        { view [] [] [] with par := { params with exp2 := fun _ => F64.one } } F64.zero)).isFinite = true ∧
      F64.zero.le ((voiceAt 60 0).rmPhase.add (ringmodAdvance
        { view [] [] [] with par := { params with exp2 := fun _ => F64.one } } F64.zero)) = true := by decide +kernel
  exact h

/-- E = 16; one pitch and three pitches; a previous position at the top of the range. The draw from two pitches: a
previous position just past them and one far past them, and both positions in range. The tick clauses: every play mode
with a held pitch, a random position that is kept and one that is drawn. -/
theorem witness_SequencerAndArpeggioPositions :
    (16 ≤ 16 ∧ 0 < 1 ∧ (2 < 3 ∧ min 255 (3 - 1) ≤ 2) ∧ (some 2 = some 2 ∧ 2 < 3 ∧ 1 < 3)) ∧
    (1 < 2 ∧ (2 ≤ 2 ∧ 2 ≤ 255) ∧ 0 < 2 ∧ 1 < 2) ∧
    (∃ w after, voiceTick (view [(0, 4)] [] [60]) (voiceAt 60 0) ready.chip = (w, after)) ∧
    ((playMode (view [(0, 1)] [] [60]).patch).isArp = false ∧ playMode (view [(0, 2)] [] [60]).patch = .arpUp ∧
      playMode (view [(0, 3)] [] [60]).patch = .arpDown ∧ playMode (view [(0, 4)] [] [60]).patch = .arpRandom ∧
      0 < (view [(0, 4)] [] [60]).eng.held.length ∧ (view [(0, 4)] [] []).eng.held.length = 0) ∧
    (rawStep (view [(0, 4)] [] [60]) (voiceAt 60 0) = 0 ∧ 0 < 2 ^ 64 ∧ (voiceAt 60 0).arpLastR = none ∧
      ({ voiceAt 60 0 with arpPrev := some 0, arpLastR := some 0 } : Voice).arpLastR.map BitVec.toNat = some 0 ∧
      ∃ q, ({ voiceAt 60 0 with arpPrev := some 0, arpLastR := some 0 } : Voice).arpPrev = some q ∧ q < 1) := by
  refine ⟨by decide, by decide, ⟨_, _, rfl⟩, by decide +kernel, by decide +kernel, by decide, rfl, rfl, 0, rfl, by decide⟩

end Sys2Proof.Tests
end

/-! # Scope: the ranges and the emitted samples (00_scope.md R11)

What a step can do is said once, by `stepWith_cases`, and what a command appends to the output port once, by
`execState_out` for the commands that make no sample and by the sample lemmas of Laws/Levels.lean for the others. -/

namespace Sys2Proof.Machine

/-! ## What a step can do -/

/-- A step waits for two words, or runs the decoded command, or refuses an illegal one (20_memory.md R81,
30_encoding.md R111, R112). -/
theorem stepWith_cases (p : Params) (s : State) :
    (s.cmd.length < 2 ∧ stepWith p s = .next s) ∨
    ∃ h d rest, s.cmd = h :: d :: rest ∧
      ((∃ i, decode h d = .legal i ∧ stepWith p s = .next (execState p i { s with cmd := rest })) ∨
        ∃ why, decode h d = .illegal why ∧ stepWith p s = .next (({ s with cmd := rest } : State).raise .illegal)) := by
  rcases hc : s.cmd with _ | ⟨h, _ | ⟨d, rest⟩⟩
  · exact .inl ⟨by simp, runNext_of_short _ (by simp [hc])⟩
  · exact .inl ⟨by simp, runNext_of_short _ (by simp [hc])⟩
  · refine .inr ⟨h, d, rest, rfl, ?_⟩
    have hstep : stepWith p s = _ := runNext_of_cmd (execWith p) hc
    cases hd : decode h d with
    | legal i => exact .inl ⟨i, rfl, by rw [hstep, hd]; exact execWith_eq p i _⟩
    | illegal why => exact .inr ⟨why, rfl, by rw [hstep, hd]⟩

/-! ## The ranges -/

/-- The ranges do not speak of the command port. -/
theorem State.Bounded.withCmd {s : State} (h : s.Bounded) (ws : List Word) : ({ s with cmd := ws } : State).Bounded :=
  ⟨h.patch, h.chip, h.voices⟩

/-- Settles O50: in each of the cases of a step the ranges hold after it, since they hold after every command. -/
theorem stepKeepsTheRanges : Obligations.StepKeepsTheRanges := by
  unfold Obligations.StepKeepsTheRanges
  intro s t hinv hb hs
  rw [step_eq_stepWith] at hs
  obtain ⟨-, h⟩ | ⟨_, _, rest, -, ⟨i, -, h⟩ | ⟨_, -, h⟩⟩ := stepWith_cases params s <;>
    obtain rfl := Host.Outcome.next.inj (h.symm.trans hs)
  · exact hb
  · exact (hb.withCmd rest).execState hinv.cfg hinv.patch i
  · exact (hb.withCmd rest).raise .illegal

/-! ## The output port -/

theorem State.onChannel_out (s : State) (ch : BitVec 4) (f : ToneChannel → ToneChannel) :
    (s.onChannel ch f).out = s.out := by
  obtain ⟨c, h⟩ | h := s.onChannel_cases ch f <;> simp [h]

theorem State.onChannelReal_out (s : State) (ch : BitVec 4) (w : F32) (f : F64 → ToneChannel → ToneChannel) :
    (s.onChannelReal ch w f).out = s.out := by
  obtain ⟨c, x, h⟩ | h | h := s.onChannelReal_cases ch w f <;> simp [h]

theorem State.configure_out (p : Params) (mode : ChipMode) (sr : BitVec 18) (clock : BitVec 32) (s : State) :
    (s.configure p mode sr clock).out = s.out := by
  obtain ⟨-, h⟩ | ⟨-, -, h⟩ := s.configure_cases p mode sr clock <;> simp [h]

theorem State.noteOn_out (p : Params) (pitch vel : BitVec 7) (s : State) : (s.noteOn p pitch vel).out = s.out := by
  unfold State.noteOn
  split
  · rfl
  · split <;> rfl

theorem State.patchStore_out (s : State) (id : Nat) (w : Word) : (s.patchStore id w).out = s.out := by
  rw [s.patchStore_eq]

/-- No command but PROCESS and RENDER writes the output port, under any parameters (20_memory.md R84). -/
theorem execState_out (p : Params) {i : Instr} (hp : i ≠ .process) (hr : ∀ n, i ≠ .render n) (s : State) :
    (execState p i s).out = s.out := by
  cases i with
  | process => exact absurd rfl hp
  | render n => exact absurd rfl (hr n)
  | configure mode sr clock => exact s.configure_out p mode sr clock
  | setTone ch _ | setMixer ch _ _ _ | setVolume ch _ => exact s.onChannel_out ch _
  | setPan ch _ w | tonePhase ch w => exact s.onChannelReal_out ch w _
  | noteOn _ pitch vel => exact s.noteOn_out p pitch vel
  | patchWr id value =>
    unfold execState
    dsimp only
    split
    · rfl
    · split
      · rfl
      · exact s.patchStore_out _ _
  | patchRd id =>
    unfold execState
    dsimp only
    split <;> rfl
  | nop | reset | rdStatus | setNoise | setEnvPeriod | setEnvShape | envSync | envLoad | noteOff | allNotesOff
  | pitchWheel | control => rfl

/-- t has the output port of s with pairs of finite binary32 values appended. -/
def State.EmitsFinite (s t : State) : Prop :=
  ∃ o, t.out = s.out ++ o ∧ ∀ lr ∈ o, F32.finite lr.1 ∧ F32.finite lr.2

theorem State.EmitsFinite.of_out_eq {s t : State} (h : t.out = s.out) : s.EmitsFinite t := ⟨[], by simp [h], by simp⟩

/-- PROCESS appends nothing or the one pair of a chip sample (R160). -/
theorem State.Bounded.process_emitsFinite {s : State} (h : s.Bounded) (hi : s.cfg.Inv) :
    s.EmitsFinite (s.process params) := by
  unfold State.process
  split
  · rename_i hc
    obtain ⟨-, l, r, ho, hl, hr⟩ := h.chipSample (hi.step_between hc).2
    exact ⟨[(l, r)], ho, by simp [hl, hr]⟩
  · exact .of_out_eq (s.raise_out _)

/-- RENDER appends nothing or the pairs of its samples (R275). -/
theorem State.Bounded.render_emitsFinite {s : State} (h : s.Bounded) (hi : s.cfg.Inv) (n : Nat) :
    s.EmitsFinite (s.render params n) := by
  unfold State.render
  split
  · rename_i hc
    exact (h.renderSamples hi hc n).2
  · exact .of_out_eq (s.raise_out _)

/-- Every command appends finite pairs only. -/
theorem State.Bounded.execState_emitsFinite {s : State} (h : s.Bounded) (hi : s.cfg.Inv) (i : Instr) :
    s.EmitsFinite (Machine.execState params i s) := by
  cases i with
  | process => exact h.process_emitsFinite hi
  | render n => exact h.render_emitsFinite hi n.toNat
  | _ => exact .of_out_eq (execState_out params (by simp) (by simp) s)

/-- Settles O52: a step that waits or refuses appends nothing, and a command appends finite pairs only. -/
theorem emittedSamplesAreFinite : Obligations.EmittedSamplesAreFinite := by
  unfold Obligations.EmittedSamplesAreFinite
  intro s hinv hb
  suffices ∃ t, step s = .next t ∧ s.EmitsFinite t by
    obtain ⟨t, hs, o, ho, hf⟩ := this
    exact ⟨t, o, hs, ho, hf⟩
  rw [step_eq_stepWith]
  obtain ⟨-, h⟩ | ⟨_, _, rest, -, ⟨i, -, h⟩ | ⟨_, -, h⟩⟩ := stepWith_cases params s
  · exact ⟨s, h, .of_out_eq rfl⟩
  · exact ⟨_, h, (hb.withCmd rest).execState_emitsFinite hinv.cfg i⟩
  · exact ⟨_, h, .of_out_eq rfl⟩

end Sys2Proof.Machine

/-! # State: the step, the ports, the patch and the invariant (10_state.md)

Two facts about a command are proved once for every constructor of `Instr`: that other port contents pass through it
(`execState_behindPorts`), and that it keeps the invariant (`State.InvWith.execState`). The statements about a step
follow by the cases of a step. -/

namespace Sys2Proof.Machine

/-! ## The machine and its records -/

/-- Settles O7: a step on two words is their decoded command, and the machine of the host is the parametric one at the
defaults. -/
theorem stepRunsTheDecodedCommand : Obligations.StepRunsTheDecodedCommand := by
  unfold Obligations.StepRunsTheDecodedCommand
  refine ⟨fun p s h d rest i hc hd => ⟨?_, ?_⟩, exec_eq_execWith, congrFun step_eq_stepWith, ?_⟩
  · rw [step_of_cmd hc, hd]
  · rw [stepWith, runNext_of_cmd (execWith p) hc, hd]
  · rw [core, coreWith, ← step_eq_stepWith]
    rfl

/-- Settles O44: each record is the one that its definition writes out. -/
theorem voiceRecordsAreAsListed : Obligations.VoiceRecordsAreAsListed := by
  unfold Obligations.VoiceRecordsAreAsListed
  exact ⟨fun _ _ _ _ _ _ => rfl, fun _ => rfl, fun _ _ => rfl⟩

/-! ## The ports -/

/-- The state with the command port c, the words r in front of its responses and the pairs o in front of its samples. -/
def State.behindPorts (c r : List Word) (o : List (F32 × F32)) (s : State) : State :=
  { s with cmd := c, resp := r ++ s.resp, out := o ++ s.out }

theorem State.behindPorts_self (s : State) : s.behindPorts s.cmd [] [] = s := rfl

section
variable (c r : List Word) (o : List (F32 × F32)) (s : State)

theorem State.raise_behindPorts (b : ErrorBit) :
    (s.behindPorts c r o).raise b = (s.raise b).behindPorts c r o := rfl

theorem State.respond_behindPorts (w : Word) :
    (s.behindPorts c r o).respond w = (s.respond w).behindPorts c r o := by
  simp [State.respond, State.behindPorts]

theorem State.emit_behindPorts (x y : F64) :
    (s.behindPorts c r o).emit x y = (s.emit x y).behindPorts c r o := by
  simp [State.emit, State.behindPorts]

theorem State.onChannel_behindPorts (ch : BitVec 4) (f : ToneChannel → ToneChannel) :
    (s.behindPorts c r o).onChannel ch f = (s.onChannel ch f).behindPorts c r o := by
  unfold State.onChannel
  cases chanOf ch <;> rfl

theorem State.onChannelReal_behindPorts (ch : BitVec 4) (w : F32) (f : F64 → ToneChannel → ToneChannel) :
    (s.behindPorts c r o).onChannelReal ch w f = (s.onChannelReal ch w f).behindPorts c r o := by
  unfold State.onChannelReal
  cases chanOf ch <;> cases realPayload w <;> rfl

theorem State.configure_behindPorts (p : Params) (mode : ChipMode) (sr : BitVec 18) (clock : BitVec 32) :
    (s.behindPorts c r o).configure p mode sr clock = (s.configure p mode sr clock).behindPorts c r o := by
  unfold State.configure
  split <;> rfl

theorem State.noteOn_behindPorts (p : Params) (pitch vel : BitVec 7) :
    (s.behindPorts c r o).noteOn p pitch vel = (s.noteOn p pitch vel).behindPorts c r o := by
  have he : (s.behindPorts c r o).eng = s.eng := rfl
  unfold State.noteOn
  rw [he]
  split
  · rfl
  · split <;> rfl

theorem State.patchStore_behindPorts (id : Nat) (w : Word) :
    (s.behindPorts c r o).patchStore id w = (s.patchStore id w).behindPorts c r o := by
  rw [State.patchStore_eq, State.patchStore_eq]
  rfl

theorem State.chipSample_behindPorts (p : Params) :
    (s.behindPorts c r o).chipSample p = (s.chipSample p).behindPorts c r o :=
  State.emit_behindPorts c r o { s with chip := (Machine.chipSample p s.cfg s.chip).2 } _ _

theorem State.process_behindPorts (p : Params) :
    (s.behindPorts c r o).process p = (s.process p).behindPorts c r o := by
  have hcfg : (s.behindPorts c r o).cfg = s.cfg := rfl
  unfold State.process
  rw [hcfg]
  split
  · exact s.chipSample_behindPorts c r o p
  · rfl

theorem State.renderSample_behindPorts (p : Params) :
    (s.behindPorts c r o).renderSample p = (s.renderSample p).behindPorts c r o := by
  have ht : (s.behindPorts c r o).tickPhase p = (s.tickPhase p).behindPorts c r o := rfl
  have he : ((s.tickPhase p).behindPorts c r o).eng = (s.tickPhase p).eng := rfl
  unfold State.renderSample
  dsimp only
  rw [ht, he]
  split
  · exact (s.tickPhase p).emit_behindPorts c r o _ _
  · exact (s.tickPhase p).chipSample_behindPorts c r o p

theorem State.renderSamples_behindPorts (p : Params) (n : Nat) :
    (s.behindPorts c r o).renderSamples p n = (s.renderSamples p n).behindPorts c r o := by
  induction n generalizing s with
  | zero => rfl
  | succ n ih => rw [State.renderSamples, State.renderSamples, s.renderSample_behindPorts, ih]

theorem State.render_behindPorts (p : Params) (n : Nat) :
    (s.behindPorts c r o).render p n = (s.render p n).behindPorts c r o := by
  have hcfg : (s.behindPorts c r o).cfg = s.cfg := rfl
  unfold State.render
  rw [hcfg]
  split
  · exact s.renderSamples_behindPorts c r o p n
  · rfl

/-- A command does the same whatever the ports hold: it leaves the command port as it is and appends to the two others
(R24, R25). -/
theorem execState_behindPorts (p : Params) (i : Instr) :
    execState p i (s.behindPorts c r o) = (execState p i s).behindPorts c r o := by
  cases i with
  | rdStatus => exact congrArg State.clearErrors (s.respond_behindPorts c r o s.status)
  | configure mode sr clock => exact s.configure_behindPorts c r o p mode sr clock
  | setTone ch _ | setMixer ch _ _ _ | setVolume ch _ => exact s.onChannel_behindPorts c r o ch _
  | setPan ch _ w | tonePhase ch w => exact s.onChannelReal_behindPorts c r o ch w _
  | process => exact s.process_behindPorts c r o p
  | noteOn _ pitch vel => exact s.noteOn_behindPorts c r o p pitch vel
  | render n => exact s.render_behindPorts c r o p n.toNat
  | patchWr id value =>
    unfold execState
    dsimp only
    split
    · rfl
    · split
      · rfl
      · exact s.patchStore_behindPorts c r o _ _
  | patchRd id =>
    unfold execState
    dsimp only
    split
    · exact s.respond_behindPorts c r o _
    · rfl
  | nop | reset | setNoise | setEnvPeriod | setEnvShape | envSync | envLoad | noteOff | allNotesOff | pitchWheel
  | control => rfl

end

/-- No command writes the command port (R24). -/
theorem execState_cmd (p : Params) (i : Instr) (s : State) : (execState p i s).cmd = s.cmd := by
  have h := congrArg State.cmd (execState_behindPorts s.cmd [] [] s p i)
  rw [State.behindPorts_self] at h
  exact h

/-- Settles O9: the port is moved past the two words before the command runs, and no command writes it. -/
theorem everyCommandMovesPastItsTwoWords : Obligations.EveryCommandMovesPastItsTwoWords := by
  unfold Obligations.EveryCommandMovesPastItsTwoWords
  intro s h d rest hc
  rw [step_of_cmd hc]
  cases decode h d with
  | legal i => exact ⟨_, exec_eq i _, execState_cmd params i _⟩
  | illegal why => exact ⟨_, rfl, rfl⟩

/-- Settles O11: a step that waits or refuses leaves the two ports alone, and a command passes their contents on. -/
theorem portContentsNeverMatter : Obligations.PortContentsNeverMatter := by
  unfold Obligations.PortContentsNeverMatter
  intro s r o
  rcases Nat.lt_or_ge s.cmd.length 2 with hshort | hlong
  · exact ⟨s, runNext_of_short exec hshort, runNext_of_short exec hshort⟩
  · obtain ⟨h, d, rest, hc⟩ : ∃ h d rest, s.cmd = h :: d :: rest := by
      match hc : s.cmd, hlong with
      | h :: d :: rest, _ => exact ⟨h, d, rest, rfl⟩
    have hc' : (s.behindPorts s.cmd r o).cmd = h :: d :: rest := hc
    show ∃ t, step s = .next t ∧ step (s.behindPorts s.cmd r o) = .next (t.behindPorts t.cmd r o)
    rw [step_of_cmd hc, step_of_cmd hc']
    cases decode h d with
    | legal i =>
      refine ⟨_, exec_eq i _, (exec_eq i _).trans (congrArg _ ?_)⟩
      rw [execState_cmd]
      exact execState_behindPorts rest r o { s with cmd := rest } params i
    | illegal why => exact ⟨_, rfl, rfl⟩

/-! ## The patch -/

theorem State.onChannel_patch (s : State) (ch : BitVec 4) (f : ToneChannel → ToneChannel) :
    (s.onChannel ch f).patch = s.patch := by
  obtain ⟨c, h⟩ | h := s.onChannel_cases ch f <;> simp [h]

theorem State.onChannelReal_patch (s : State) (ch : BitVec 4) (w : F32) (f : F64 → ToneChannel → ToneChannel) :
    (s.onChannelReal ch w f).patch = s.patch := by
  obtain ⟨c, x, h⟩ | h | h := s.onChannelReal_cases ch w f <;> simp [h]

theorem State.configure_patch (p : Params) (mode : ChipMode) (sr : BitVec 18) (clock : BitVec 32) (s : State) :
    (s.configure p mode sr clock).patch = s.patch := by
  obtain ⟨-, h⟩ | ⟨-, -, h⟩ := s.configure_cases p mode sr clock <;> simp [h]

theorem State.noteOn_patch (p : Params) (pitch vel : BitVec 7) (s : State) :
    (s.noteOn p pitch vel).patch = s.patch := by
  unfold State.noteOn
  split
  · rfl
  · split <;> rfl

theorem State.process_patch (p : Params) (s : State) : (s.process p).patch = s.patch := by
  unfold State.process
  split <;> rfl

theorem State.renderSamples_patch (p : Params) (n : Nat) (s : State) : (s.renderSamples p n).patch = s.patch := by
  obtain ⟨chip, o, vs, -, h⟩ := s.renderSamples_spec p n
  rw [h]

theorem State.renderSamples_cfg (p : Params) (n : Nat) (s : State) : (s.renderSamples p n).cfg = s.cfg := by
  obtain ⟨chip, o, vs, -, h⟩ := s.renderSamples_spec p n
  rw [h]

theorem State.render_patch (p : Params) (n : Nat) (s : State) : (s.render p n).patch = s.patch := by
  unfold State.render
  split
  · exact s.renderSamples_patch p n
  · rfl

/-- No command but PATCH_WR and RESET writes the patch, under any parameters (R42). -/
theorem execState_patch (p : Params) {i : Instr} (hw : ∀ id v, i ≠ .patchWr id v) (hr : i ≠ .reset) (s : State) :
    (execState p i s).patch = s.patch := by
  cases i with
  | patchWr id v => exact absurd rfl (hw id v)
  | reset => exact absurd rfl hr
  | configure mode sr clock => exact s.configure_patch p mode sr clock
  | setTone ch _ | setMixer ch _ _ _ | setVolume ch _ => exact s.onChannel_patch ch _
  | setPan ch _ w | tonePhase ch w => exact s.onChannelReal_patch ch w _
  | process => exact s.process_patch p
  | noteOn _ pitch vel => exact s.noteOn_patch p pitch vel
  | render n => exact s.render_patch p n.toNat
  | patchRd id =>
    unfold execState
    dsimp only
    split <;> rfl
  | nop | rdStatus | setNoise | setEnvPeriod | setEnvShape | envSync | envLoad | noteOff | allNotesOff | pitchWheel
  | control => rfl

/-- Settles O40: every command answers a next state, and only the two that are left out write the patch. -/
theorem onlyPatchWritesChangeThePatch : Obligations.OnlyPatchWritesChangeThePatch := by
  unfold Obligations.OnlyPatchWritesChangeThePatch
  intro i s hw hr
  exact ⟨_, exec_eq i s, execState_patch params hw hr s⟩

/-- A write that does not change the payload of `play_mode` leaves the play mode (R302). -/
theorem playMode_memWrite {m : Patch} (hm : Memory.wf m = true) {id : Nat} {w : Word}
    (h : ¬ (id = PatchId.playMode ∧ w ≠ memRead m PatchId.playMode)) : playMode (memWrite m id w) = playMode m := by
  unfold playMode int
  rw [memRead_memWrite (Memory.wf_iff.mp hm).1]
  split
  · rename_i hid
    rw [not_not.mp fun hw => h ⟨hid, hw⟩]
  · rfl

/-! ## The invariant -/

section
variable {p : Params}

/-- The invariant does not speak of the envelope generator. -/
theorem Chip.Inv.withEnv {chip : Chip} (h : chip.Inv p) (e : EnvGen) : ({ chip with env := e } : Chip).Inv p :=
  ⟨h.firL, h.firR, h.dcL, h.dcR, h.counters, h.noiseCounter, h.lfsr⟩

/-- SET_NOISE leaves the counter and the shift register (R145). -/
theorem Chip.Inv.setNoisePeriod {chip : Chip} (h : chip.Inv p) (np : BitVec 5) :
    ({ chip with noise := chip.noise.setPeriod np } : Chip).Inv p :=
  ⟨h.firL, h.firR, h.dcL, h.dcR, h.counters, h.noiseCounter, h.lfsr⟩

variable {s : State} (h : s.InvWith p)
include h

/-- The invariant does not speak of the command port. -/
theorem State.InvWith.withCmd (ws : List Word) : ({ s with cmd := ws } : State).InvWith p :=
  ⟨h.cfg, h.chip, h.patch, h.eng⟩

theorem State.InvWith.raise (b : ErrorBit) : (s.raise b).InvWith p := ⟨h.cfg, h.chip, h.patch, h.eng⟩

theorem State.InvWith.withChip {c : Chip} (hc : c.Inv p) : ({ s with chip := c } : State).InvWith p :=
  ⟨h.cfg, hc, h.patch, h.eng⟩

theorem State.InvWith.withEng {e : Engine} (he : e.Inv p.heldCap (playMode s.patch)) :
    ({ s with eng := e } : State).InvWith p := ⟨h.cfg, h.chip, h.patch, he⟩

/-- A channel command that keeps the bound on the tone counter keeps the invariant. -/
theorem State.InvWith.onChannel (ch : BitVec 4) {f : ToneChannel → ToneChannel}
    (hf : ∀ t, t.counter.toNat ≤ 4094 → (f t).counter.toNat ≤ 4094) : (s.onChannel ch f).InvWith p := by
  obtain ⟨c, hc⟩ | hc := s.onChannel_cases ch f <;> rw [hc]
  · exact h.withChip (h.chip.onTone c f (hf _ (h.chip.counters c)))
  · exact h.raise .illegal

theorem State.InvWith.onChannelReal (ch : BitVec 4) (w : F32) {f : F64 → ToneChannel → ToneChannel}
    (hf : ∀ x t, t.counter.toNat ≤ 4094 → (f x t).counter.toNat ≤ 4094) : (s.onChannelReal ch w f).InvWith p := by
  obtain ⟨c, x, hc⟩ | hc | hc := s.onChannelReal_cases ch w f <;> rw [hc]
  · exact h.withChip (h.chip.onTone c (f x) (hf x _ (h.chip.counters c)))
  · exact h.raise .illegal
  · exact h.raise .value

theorem State.InvWith.configure (hp : p.Ok) (mode : ChipMode) (sr : BitVec 18) (clock : BitVec 32) :
    (s.configure p mode sr clock).InvWith p := by
  obtain ⟨-, hc⟩ | ⟨hsr, hclock, hc⟩ := s.configure_cases p mode sr clock <;> rw [hc]
  · exact h.raise .value
  · exact ⟨⟨hsr, hclock, rfl⟩, .reset hp.noiseDiv, h.patch, h.eng⟩

theorem State.InvWith.process (hp : p.Ok) : (s.process p).InvWith p := by
  unfold State.process
  split
  · exact ⟨h.cfg, h.chip.chipSample hp s.cfg, h.patch, h.eng⟩
  · exact h.raise .unconfigured

theorem State.InvWith.render (hp : p.Ok) (n : Nat) : (s.render p n).InvWith p := by
  unfold State.render
  split
  · exact {
      cfg := (s.renderSamples_cfg p n).symm ▸ h.cfg
      chip := State.renderSamples_chipInv hp n h.chip
      patch := (s.renderSamples_patch p n).symm ▸ h.patch
      eng := (s.renderSamples_patch p n).symm ▸ State.renderSamples_engInv n h.eng }
  · exact h.raise .unconfigured

theorem State.InvWith.noteOn (pitch vel : BitVec 7) : (s.noteOn p pitch vel).InvWith p := by
  unfold State.noteOn
  split
  · exact h.withEng (h.eng.noteOff pitch)
  · rename_i hvel
    split
    · exact h.raise .value
    · rename_i hroom
      exact h.withEng (h.eng.noteOn p s.chip pitch vel hvel hroom)

/-- A store of an assigned field keeps the invariant: one that changes the play mode releases every voice first, which
meets the Engine invariant in every mode, and any other leaves the mode (R302). -/
theorem State.InvWith.patchStore {id : Nat} (hid : assigned id = true) (w : Word) : (s.patchStore id w).InvWith p := by
  rw [s.patchStore_eq]
  refine ⟨h.cfg, h.chip, Memory.wf_memWrite h.patch hid w, ?_⟩
  dsimp only
  split
  · exact h.eng.allNotesOff _
  · rename_i hsame
    rw [playMode_memWrite h.patch hsame]
    exact h.eng

/-- Every command keeps the invariant. -/
theorem State.InvWith.execState (hp : p.Ok) (i : Instr) : (execState p i s).InvWith p := by
  cases i with
  | nop => exact h
  | reset => exact ⟨rfl, .reset hp.noiseDiv, rfl, .init⟩
  | configure mode sr clock => exact h.configure hp mode sr clock
  | rdStatus => exact ⟨h.cfg, h.chip, h.patch, h.eng⟩
  | setTone ch _ | setMixer ch _ _ _ | setVolume ch _ => exact h.onChannel ch fun _ ht => ht
  | setPan ch eqp w => exact h.onChannelReal ch w fun x t ht => by rwa [setPan_counter]
  | tonePhase ch w => exact h.onChannelReal ch w fun x t _ => setPhase_counter_le t x
  | setNoise np => exact h.withChip (h.chip.setNoisePeriod np)
  | setEnvPeriod | setEnvShape | envSync | envLoad => exact h.withChip (h.chip.withEnv _)
  | process => exact h.process hp
  | noteOn _ pitch vel => exact h.noteOn pitch vel
  | noteOff _ pitch _ => exact h.withEng (h.eng.noteOff pitch)
  | allNotesOff => exact h.withEng (h.eng.allNotesOff _)
  | pitchWheel => exact h.withEng { h.eng with }
  | control _ num val => exact h.withEng (h.eng.controller num val)
  | patchWr id value =>
    unfold Machine.execState
    dsimp only
    split
    · exact h.raise .illegal
    · rename_i f hf
      split
      · exact h.raise .value
      · exact h.patchStore (by rw [assigned, hf]; rfl) _
  | patchRd id =>
    unfold Machine.execState
    dsimp only
    split
    · exact ⟨h.cfg, h.chip, h.patch, h.eng⟩
    · exact h.raise .illegal
  | render n => exact h.render hp n.toNat

/-- A step waits, runs a command or refuses one, and each keeps the invariant. -/
theorem State.InvWith.stepWith (hp : p.Ok) {t : State} (hs : stepWith p s = .next t) : t.InvWith p := by
  obtain ⟨-, hw⟩ | ⟨_, _, rest, -, ⟨i, -, hw⟩ | ⟨_, -, hw⟩⟩ := stepWith_cases p s <;>
    obtain rfl := Host.Outcome.next.inj (hw.symm.trans hs)
  · exact h
  · exact (h.withCmd rest).execState hp i
  · exact (h.withCmd rest).raise .illegal

end

/-- Settles O49: the machine under any parameters in range keeps the invariant, and the defaults are in range. -/
theorem stepKeepsTheInvariant : Obligations.StepKeepsTheInvariant := by
  unfold Obligations.StepKeepsTheInvariant
  refine ⟨fun s t hinv hs => ?_, fun p s t hp hinv hs => hinv.stepWith hp hs⟩
  rw [step_eq_stepWith] at hs
  exact hinv.stepWith params_ok hs

end Sys2Proof.Machine

/-! # Memory: the ports and the command files (20_memory.md)

What the decoder answers is said once, by `decode_eq_legal_iff`, and what it reads back from the encoder by
`decode_encode`. -/

namespace Sys2Proof

/-! ## The decoder -/

/-- The row that the decoder finds for the code of a row is that row: no opcode has two (30_encoding.md R110). -/
theorem find?_code : ∀ row ∈ opcodeTable, (opcodeTable.find? fun r => r.code == row.code) = some row := by decide

/-- The operands of a row make a well-formed command exactly when they pass the row's checks of CH and ID (R110). -/
theorem wellFormed_operands {row : OpRow} (hrow : row ∈ opcodeTable) (h d : Word) :
    (operands row.op h d).wellFormed = true ↔
      (row.format = .fc → channelOk (chField h) = true) ∧ (row.format = .fp → idOk (idField h) = true) := by
  fin_cases hrow <;> simp [operands, Instr.wellFormed]

/-- The decoder answers a command exactly when it is well-formed and made of the operands of a row whose code and
reserved bits the header has (R111). -/
theorem decode_eq_legal_iff {h d : Word} {i : Instr} :
    decode h d = .legal i ↔ i.wellFormed = true ∧
      ∃ row ∈ opcodeTable, opField h = row.code ∧ h &&& row.mask = row.pattern ∧ operands row.op h d = i := by
  constructor
  · intro hd
    unfold decode at hd
    split at hd
    · cases hd
    · rename_i row hfind
      have hrow := List.mem_of_find?_eq_some hfind
      have hcode : row.code = opField h := by simpa using List.find?_some hfind
      split_ifs at hd with hmask hch hid
      obtain rfl := Decoded.legal.inj hd
      refine ⟨(wellFormed_operands hrow h d).mpr ⟨?_, ?_⟩, row, hrow, hcode.symm, not_not.mp hmask, rfl⟩
      · exact fun hf => by simpa [hf] using hch
      · exact fun hf => by simpa [hf] using hid
  · rintro ⟨hwf, row, hrow, hcode, hmask, rfl⟩
    obtain ⟨hch, hid⟩ := (wellFormed_operands hrow h d).mp hwf
    unfold decode
    rw [hcode, find?_code row hrow]
    dsimp only
    rw [if_neg (not_not.mpr hmask), if_neg fun hc => by simp [hch hc.1] at hc,
      if_neg fun hc => by simp [hid hc.1] at hc]

/-! ## The encoder -/

/-- The row of the opcode map that a command belongs to. -/
def Instr.op : Instr → Op
  | .nop => .nop
  | .reset => .reset
  | .configure _ _ _ => .configure
  | .rdStatus => .rdStatus
  | .setTone _ _ => .setTone
  | .setMixer _ _ _ _ => .setMixer
  | .setVolume _ _ => .setVolume
  | .setPan _ _ _ => .setPan
  | .setNoise _ => .setNoise
  | .setEnvPeriod _ => .setEnvPeriod
  | .setEnvShape _ => .setEnvShape
  | .tonePhase _ _ => .tonePhase
  | .envSync => .envSync
  | .envLoad _ _ _ => .envLoad
  | .process => .process
  | .noteOn _ _ _ => .noteOn
  | .noteOff _ _ _ => .noteOff
  | .allNotesOff _ => .allNotesOff
  | .pitchWheel _ _ => .pitchWheel
  | .control _ _ _ => .control
  | .patchWr _ _ => .patchWr
  | .patchRd _ => .patchRd
  | .render _ => .render

theorem modeOfBit_bit (mode : ChipMode) : modeOfBit mode.bit = mode := by cases mode <;> rfl

/-- Every operand is read from where the encoder puts it (R103 to R109). -/
theorem operands_encode (i : Instr) : operands i.op (encode i).1 (encode i).2 = i := by
  cases i <;> unfold operands encode Instr.op <;>
    simp (disch := decide) only [chField, idField, BitVec.extractLsb'_append_eq_of_le,
      BitVec.extractLsb'_append_eq_of_add_le, BitVec.extractLsb'_setWidth_of_le, BitVec.getLsbD_append] <;>
    simp [modeOfBit_bit]

/-- A row with the opcode of a command's header is the row of the command (R110). -/
theorem op_of_opField_encode (i : Instr) :
    ∀ row ∈ opcodeTable, opField (encode i).1 = row.code → row.op = i.op := by
  cases i <;> unfold opField encode Instr.op <;>
    simp (disch := decide) only [BitVec.extractLsb'_append_eq_of_le] <;> decide

section
open Laws.HeaderMatch

/-- The header of every command matches a row of the opcode map. -/
theorem headerMatch : ∀ i : Instr, Statement i
  | .nop => nop
  | .reset => reset
  | .configure mode sr clock => configure mode sr clock
  | .rdStatus => rdStatus
  | .setTone ch period => setTone ch period
  | .setMixer ch tOff nOff eOn => setMixer ch tOff nOff eOn
  | .setVolume ch vol => setVolume ch vol
  | .setPan ch eqp pan => setPan ch eqp pan
  | .setNoise np => setNoise np
  | .setEnvPeriod ep => setEnvPeriod ep
  | .setEnvShape shape => setEnvShape shape
  | .tonePhase ch phase => tonePhase ch phase
  | .envSync => envSync
  | .envLoad seg level counter => envLoad seg level counter
  | .process => process
  | .noteOn mch pitch vel => noteOn mch pitch vel
  | .noteOff mch pitch rvel => noteOff mch pitch rvel
  | .allNotesOff mch => allNotesOff mch
  | .pitchWheel mch wheel => pitchWheel mch wheel
  | .control mch num val => control mch num val
  | .patchWr id value => patchWr id value
  | .patchRd id => patchRd id
  | .render n => render n

end

/-- A well-formed command is decoded from its own words (R115). -/
theorem decode_encode {i : Instr} (hwf : i.wellFormed = true) : decode (encode i).1 (encode i).2 = .legal i := by
  obtain ⟨row, hrow, hcode, hmask⟩ := headerMatch i
  have hop := op_of_opField_encode i row hrow hcode
  exact decode_eq_legal_iff.mpr ⟨hwf, row, hrow, hcode, hmask, hop ▸ operands_encode i⟩

/-! ## The command files -/

/-- Byte k of a word holds its bits 8k to 8k+7 (20_memory.md R85). -/
theorem getLsbD_bytesOfWord (w : Word) {k j : Nat} (hk : k < 4) (hj : j < 8) :
    ((bytesOfWord w).getD k 0).getLsbD j = w.getLsbD (8 * k + j) := by
  have hbyte : (bytesOfWord w).getD k 0 = w.extractLsb' (8 * k) 8 := by interval_cases k <;> rfl
  rw [hbyte, BitVec.getLsbD_extractLsb', decide_eq_true hj, Bool.true_and]

/-- The four bytes of a word serialise it. -/
theorem wordOfBytes_extractLsb' (w : Word) :
    wordOfBytes (w.extractLsb' 0 8) (w.extractLsb' 8 8) (w.extractLsb' 16 8) (w.extractLsb' 24 8) = w := by
  unfold wordOfBytes
  iterate 3 rw [BitVec.extractLsb'_append_extractLsb'_eq_extractLsb' (by decide)]
  exact BitVec.extractLsb'_eq_self

/-- Two serialised words in front of a command file are its first command. -/
theorem decodeBytes_bytesOfWord_append (h d : Word) (rest : List Byte) :
    decodeBytes (bytesOfWord h ++ bytesOfWord d ++ rest) = some (decode h d, rest) := by
  simp only [bytesOfWord, List.cons_append, List.nil_append, decodeBytes, wordOfBytes_extractLsb']

/-- Settles O6: the bytes of a command give its two words back, and the decoder gives the command back from these. -/
theorem commandFilesAreLittleEndian : Obligations.CommandFilesAreLittleEndian := by
  unfold Obligations.CommandFilesAreLittleEndian
  refine ⟨fun w k j hk hj => getLsbD_bytesOfWord w hk hj, fun i rest hwf => ?_⟩
  rw [encodeBytes, decodeBytes_bytesOfWord_append, decode_encode hwf]

namespace Machine

/-! ## The command port -/

theorem State.hostWrite_eq_behindPorts (s : State) (ws : List Word) :
    s.hostWrite ws = s.behindPorts (s.cmd ++ ws) [] [] := rfl

/-- Words that the host writes behind a command pass through it (20_memory.md R91). -/
theorem execState_hostWrite (p : Params) (i : Instr) (s : State) (ws : List Word) :
    execState p i (s.hostWrite ws) = (execState p i s).hostWrite ws := by
  rw [State.hostWrite_eq_behindPorts, State.hostWrite_eq_behindPorts, execState_cmd, execState_behindPorts]

/-- Settles O10: the step takes the same two words, and the others pass through the command. -/
theorem laterCommandsHaveNoEffect : Obligations.LaterCommandsHaveNoEffect := by
  unfold Obligations.LaterCommandsHaveNoEffect
  intro s ws hlen
  rcases hc : s.cmd with _ | ⟨h, _ | ⟨d, rest⟩⟩
  · simp [hc] at hlen
  · simp [hc] at hlen
  · have hc' : (s.hostWrite ws).cmd = h :: d :: (rest ++ ws) := by simp [hc]
    rw [step_of_cmd hc, step_of_cmd hc']
    cases decode h d with
    | legal i =>
      exact ⟨_, exec_eq i _,
        (exec_eq i _).trans (congrArg _ (execState_hostWrite params i { s with cmd := rest } ws))⟩
    | illegal why => exact ⟨_, rfl, rfl⟩

/-! ## The response port -/

theorem State.onChannel_resp (s : State) (ch : BitVec 4) (f : ToneChannel → ToneChannel) :
    (s.onChannel ch f).resp = s.resp := by
  obtain ⟨c, h⟩ | h := s.onChannel_cases ch f <;> simp [h]

theorem State.onChannelReal_resp (s : State) (ch : BitVec 4) (w : F32) (f : F64 → ToneChannel → ToneChannel) :
    (s.onChannelReal ch w f).resp = s.resp := by
  obtain ⟨c, x, h⟩ | h | h := s.onChannelReal_cases ch w f <;> simp [h]

theorem State.configure_resp (p : Params) (mode : ChipMode) (sr : BitVec 18) (clock : BitVec 32) (s : State) :
    (s.configure p mode sr clock).resp = s.resp := by
  obtain ⟨-, h⟩ | ⟨-, -, h⟩ := s.configure_cases p mode sr clock <;> simp [h]

theorem State.noteOn_resp (p : Params) (pitch vel : BitVec 7) (s : State) : (s.noteOn p pitch vel).resp = s.resp := by
  unfold State.noteOn
  split
  · rfl
  · split <;> rfl

theorem State.patchStore_resp (s : State) (id : Nat) (w : Word) : (s.patchStore id w).resp = s.resp := by
  rw [s.patchStore_eq]

theorem State.process_resp (p : Params) (s : State) : (s.process p).resp = s.resp := by
  unfold State.process
  split <;> rfl

theorem State.render_resp (p : Params) (n : Nat) (s : State) : (s.render p n).resp = s.resp := by
  unfold State.render
  split
  · obtain ⟨chip, o, vs, -, h⟩ := s.renderSamples_spec p n
    rw [h]
  · rfl

/-- No command but RD_STATUS and PATCH_RD writes the response port, under any parameters (20_memory.md R83). -/
theorem execState_resp (p : Params) {i : Instr} (hs : i ≠ .rdStatus) (hr : ∀ id, i ≠ .patchRd id) (s : State) :
    (execState p i s).resp = s.resp := by
  cases i with
  | rdStatus => exact absurd rfl hs
  | patchRd id => exact absurd rfl (hr id)
  | configure mode sr clock => exact s.configure_resp p mode sr clock
  | setTone ch _ | setMixer ch _ _ _ | setVolume ch _ => exact s.onChannel_resp ch _
  | setPan ch _ w | tonePhase ch w => exact s.onChannelReal_resp ch w _
  | process => exact s.process_resp p
  | noteOn _ pitch vel => exact s.noteOn_resp p pitch vel
  | render n => exact s.render_resp p n.toNat
  | patchWr id value =>
    unfold execState
    dsimp only
    split
    · rfl
    · split
      · rfl
      · exact s.patchStore_resp _ _
  | nop | reset | setNoise | setEnvPeriod | setEnvShape | envSync | envLoad | noteOff | allNotesOff | pitchWheel
  | control => rfl

/-- PATCH_RD of an assigned id responds the payload that it holds (20_memory.md R83). -/
theorem execState_patchRd (p : Params) {id : BitVec 12} (hid : assigned id.toNat = true) (s : State) :
    execState p (.patchRd id) s = s.respond (memRead s.patch id.toNat) := if_pos hid

/-! ## The output port -/

/-- PROCESS appends one pair if the chip is configured and none if not (R84). -/
theorem State.process_out (p : Params) (s : State) :
    ∃ o, (s.process p).out = s.out ++ o ∧ o.length = if s.cfg.configured then 1 else 0 := by
  unfold State.process
  split
  · exact ⟨[_], rfl, rfl⟩
  · exact ⟨[], (List.append_nil _).symm, rfl⟩

/-- RENDER appends as many pairs as its count if the chip is configured and none if not (R84). -/
theorem State.render_out (p : Params) (n : Nat) (s : State) :
    ∃ o, (s.render p n).out = s.out ++ o ∧ o.length = if s.cfg.configured then n else 0 := by
  unfold State.render
  split
  · obtain ⟨chip, o, vs, hlen, h⟩ := s.renderSamples_spec p n
    exact ⟨o, by rw [h], hlen⟩
  · exact ⟨[], (List.append_nil _).symm, rfl⟩

/-- Settles O12: an illegal command writes neither port, and a legal one what its constructor writes. -/
theorem portsGrowAsStated : Obligations.PortsGrowAsStated := by
  unfold Obligations.PortsGrowAsStated
  intro s h d rest hc
  rw [step_of_cmd hc]
  cases hd : decode h d with
  | illegal why => exact ⟨_, rfl, rfl, [], (List.append_nil _).symm, rfl⟩
  | legal i =>
    obtain ⟨hwf, -⟩ := decode_eq_legal_iff.mp hd
    refine ⟨_, exec_eq i _, ?_, ?_⟩
    · cases i with
      | rdStatus => rfl
      | patchRd id =>
        rw [execState_patchRd params hwf]
        rfl
      | _ => exact execState_resp params (by simp) (by simp) _
    · cases i with
      | process => exact State.process_out params { s with cmd := rest }
      | render n => exact State.render_out params n.toNat { s with cmd := rest }
      | _ =>
        rw [execState_out params (by simp) (by simp)]
        exact ⟨[], (List.append_nil _).symm, rfl⟩

end Machine

end Sys2Proof

/-! # Encoding: the opcode map, the decoder and the encoder (30_encoding.md)

A row of the opcode map is chosen by its mask alone, since every mask covers the opcode, so legality is a statement
about the rows that H matches (`exists_decode_eq_legal_iff`). -/

namespace Sys2Proof

/-! ## The rows of the opcode map -/

/-- A field that the mask covers whole holds what the pattern holds there. -/
theorem extractLsb'_of_mask {h mask pattern : Word} (hmask : h &&& mask = pattern) {start len : Nat}
    (hones : mask.extractLsb' start len = BitVec.allOnes len) :
    h.extractLsb' start len = pattern.extractLsb' start len := by
  rw [← hmask, BitVec.extractLsb'_and, hones, BitVec.and_allOnes]

/-- A header that matches a row under its mask has the row's opcode: the mask covers H[31:24] (30_encoding.md R110). -/
theorem opField_of_mask {row : OpRow} (hrow : row ∈ opcodeTable) {h : Word} (hmask : h &&& row.mask = row.pattern) :
    opField h = row.code := by
  have htable : ∀ r ∈ opcodeTable, opField r.mask = BitVec.allOnes 8 ∧ opField r.pattern = r.code := by decide
  obtain ⟨hones, hcode⟩ := htable row hrow
  exact (extractLsb'_of_mask hmask hones).trans hcode

/-- A pair of words is legal exactly when H matches a row and passes the row's checks of CH and ID (R111). -/
theorem exists_decode_eq_legal_iff {h d : Word} :
    (∃ i, decode h d = .legal i) ↔ ∃ row ∈ opcodeTable, h &&& row.mask = row.pattern ∧
      (row.format = .fc → channelOk (chField h) = true) ∧ (row.format = .fp → idOk (idField h) = true) := by
  constructor
  · rintro ⟨i, hd⟩
    obtain ⟨hwf, row, hrow, -, hmask, rfl⟩ := decode_eq_legal_iff.mp hd
    exact ⟨row, hrow, hmask, (wellFormed_operands hrow h d).mp hwf⟩
  · rintro ⟨row, hrow, hmask, hchecks⟩
    exact ⟨_, decode_eq_legal_iff.mpr
      ⟨(wellFormed_operands hrow h d).mpr hchecks, row, hrow, opField_of_mask hrow hmask, hmask, rfl⟩⟩

/-! ## The legal headers -/

/-- Mask and pattern of the rows of the opcode map whose format passes a test. -/
def headersOf (test : Format → Bool) : List (Word × Word) :=
  (opcodeTable.filter fun row => test row.format).map fun row => (row.mask, row.pattern)

theorem exists_mem_headersOf {test : Format → Bool} {P : Word × Word → Prop} :
    (∃ r ∈ headersOf test, P r) ↔
      ∃ row ∈ opcodeTable, test row.format = true ∧ P (row.mask, row.pattern) := by
  simp [headersOf, and_assoc]

theorem plainHeaders_eq : plainHeaders = headersOf fun f => f != .fc && f != .fp := by decide

theorem channelHeaders_eq : channelHeaders = headersOf (· == .fc) := by decide

theorem patchHeaders_eq : patchHeaders = headersOf (· == .fp) := by decide

/-- The assigned ids are those of the ranges of 20_memory.md R89. -/
theorem assigned_iff_mem_assignedRanges (id : Nat) :
    Machine.assigned id = true ↔ ∃ a ∈ assignedRanges, a.1 ≤ id ∧ id ≤ a.2 := by
  constructor
  · have hfield : ∀ f ∈ Machine.patchFields, ∃ a ∈ assignedRanges, a.1 ≤ f.id ∧ f.id ≤ a.2 := by decide +kernel
    intro hid
    obtain ⟨f, hf, rfl⟩ := (Machine.assigned_iff id).mp hid
    exact hfield f hf
  · have hrange : ∀ a ∈ assignedRanges, ∀ k < a.2 + 1 - a.1, Machine.assigned (a.1 + k) = true := by decide +kernel
    rintro ⟨a, ha, hlo, hhi⟩
    have hk := hrange a ha (id - a.1) (by omega)
    rwa [Nat.add_sub_cancel' hlo] at hk

theorem channelOk_iff (ch : BitVec 4) : channelOk ch = true ↔ ch.toNat ≤ 2 := decide_eq_true_iff

/-- Settles O3: each of the three lists holds the rows of its formats, so a row's checks are those of its list. -/
theorem legalHeadersAreThoseOfTheOpcodeMap : Obligations.LegalHeadersAreThoseOfTheOpcodeMap := by
  unfold Obligations.LegalHeadersAreThoseOfTheOpcodeMap
  intro h d
  rw [exists_decode_eq_legal_iff, legalHeader, plainHeaders_eq, channelHeaders_eq, patchHeaders_eq,
    exists_mem_headersOf, exists_mem_headersOf, exists_mem_headersOf]
  simp only [← assigned_iff_mem_assignedRanges, ← exists_or]
  refine exists_congr fun row => ?_
  cases row.format <;> simp [channelOk_iff, idOk, chField, idField]

/-! ## The encoder -/

/-- Settles O1: a command's header is of the command's row, and every operand is read from where it was written. -/
theorem decodeOfEncodeIsTheCommand : Obligations.DecodeOfEncodeIsTheCommand := by
  unfold Obligations.DecodeOfEncodeIsTheCommand
  exact fun i hwf => decode_encode hwf

theorem bit_modeOfBit (b : Bool) : (modeOfBit b).bit = b := by cases b <;> rfl

theorem ofBool_getLsbD (h : Word) (k : Nat) : BitVec.ofBool (h.getLsbD k) = h.extractLsb' k 1 := by
  ext i hi
  obtain rfl : i = 0 := by omega
  simp

/-- Two parts that stand at their places in a word make up the field that spans them. -/
theorem append_eq_extractLsb' {n v w start : Nat} {x : BitVec v} {y : BitVec w} {z : BitVec n}
    (hx : x = z.extractLsb' (start + w) v) (hy : y = z.extractLsb' start w) :
    x ++ y = z.extractLsb' start (v + w) := by
  rw [hx, hy, BitVec.extractLsb'_append_extractLsb'_eq_extractLsb' rfl]

/-- A header that matches a row is written again from the operands read from it. Field by field: an operand comes from
its own place in H, and the mask fixes the opcode and every reserved field (30_encoding.md R103 to R110). -/
theorem encode_operands_header {row : OpRow} (hrow : row ∈ opcodeTable) {h : Word}
    (hmask : h &&& row.mask = row.pattern) (d : Word) : (encode (operands row.op h d)).1 = h := by
  refine Eq.trans ?_ BitVec.extractLsb'_eq_self
  fin_cases hrow <;> simp only [operands, encode, chField, idField, bit_modeOfBit, ofBool_getLsbD] <;>
    repeat' apply append_eq_extractLsb'
  all_goals simp (disch := decide) [extractLsb'_of_mask hmask]

/-- Settles O2: the operands of a matched header write it again, and they are well-formed where they are decoded. -/
theorem legalHeaderIsTheHeaderOfItsCommand : Obligations.LegalHeaderIsTheHeaderOfItsCommand := by
  unfold Obligations.LegalHeaderIsTheHeaderOfItsCommand
  intro h d i hd
  obtain ⟨hwf, row, hrow, -, hmask, rfl⟩ := decode_eq_legal_iff.mp hd
  exact ⟨hwf, encode_operands_header hrow hmask d⟩

/-- The words that the encoder writes for a well-formed command decode to it. -/
theorem decode_of_encode_eq {i : Instr} {h d : Word} (he : encode i = (h, d)) (hwf : i.wellFormed = true) :
    decode h d = .legal i := by
  simpa [he] using decode_encode hwf

/-- Settles O5: the printed words are what the encoder writes, and the decoder gives the command back from these. -/
theorem workedEncodingsAgree : Obligations.WorkedEncodingsAgree := by
  unfold Obligations.WorkedEncodingsAgree
  have hpan : encode (.setPan 1 false (F64.dec 1 4).toF32) = (0x13100000, 0x3E800000) := by decide +kernel
  have htime : encode (.patchWr (BitVec.ofNat 12 Machine.PatchId.toneTime) (F64.ofInt (-1)).toF32) =
    (0x30000010, 0xBF800000) := by decide +kernel
  have hwf : (Instr.patchWr (BitVec.ofNat 12 Machine.PatchId.toneTime) (F64.ofInt (-1)).toF32).wellFormed = true := by
    decide +kernel
  exact ⟨rfl, decode_of_encode_eq rfl rfl, rfl, decode_of_encode_eq rfl rfl, rfl, decode_of_encode_eq rfl rfl,
    hpan, decode_of_encode_eq hpan rfl, htime, decode_of_encode_eq htime hwf, rfl, decode_of_encode_eq rfl rfl⟩

/-! ## The data word -/

/-- The decoder's answer depends on D only through the operands of the row that has the opcode of H (R102). -/
theorem decode_congr_data {h d d' : Word}
    (hops : ∀ row ∈ opcodeTable, row.code = opField h → operands row.op h d = operands row.op h d') :
    decode h d = decode h d' := by
  unfold decode
  split
  · rfl
  · rename_i row hfind
    rw [hops row (List.mem_of_find?_eq_some hfind) (by simpa using List.find?_some hfind)]

/-- The rows with another opcode than CONFIGURE, SET_PAN, TONE_PHASE, ENV_LOAD and PATCH_WR take no operand from D
(R102). -/
theorem operands_of_code_notMem {row : OpRow} (hrow : row ∈ opcodeTable)
    (hcode : row.code ∉ [0x02#8, 0x13#8, 0x17#8, 0x19#8, 0x30#8]) (h d d' : Word) :
    operands row.op h d = operands row.op h d' := by
  have htable : ∀ r ∈ opcodeTable, r.code ∉ [0x02#8, 0x13#8, 0x17#8, 0x19#8, 0x30#8] →
      r.op ∉ [.configure, .setPan, .tonePhase, .envLoad, .patchWr] := by decide
  have hop := htable row hrow hcode
  generalize row.op = op at hop ⊢
  cases op with
  | configure | setPan | tonePhase | envLoad | patchWr => simp at hop
  | _ => rfl

/-- Settles O4: legality is told by H alone, and the operands by D only in the five rows that use it. -/
theorem unusedDataIsIgnored : Obligations.UnusedDataIsIgnored := by
  unfold Obligations.UnusedDataIsIgnored
  intro h d d'
  refine ⟨?_, fun hcode => ?_, fun hcode hlow => ?_⟩
  · rw [exists_decode_eq_legal_iff, exists_decode_eq_legal_iff]
  · exact decode_congr_data fun row hrow hrc => operands_of_code_notMem hrow (hrc ▸ hcode) h d d'
  · have hload : ∀ r ∈ opcodeTable, r.code = 0x19#8 → r.op = .envLoad := by decide
    refine decode_congr_data fun row hrow hrc => ?_
    rw [hload row hrow (hrc.trans hcode), operands, operands, hlow]

/-! ## The illegal commands -/

/-- Settles O8: the decoder refuses a header that is not legal, and the refusal raises the one bit (R112). -/
theorem illegalCommandOnlySetsItsBit : Obligations.IllegalCommandOnlySetsItsBit := by
  unfold Obligations.IllegalCommandOnlySetsItsBit
  intro s h d rest hc hillegal
  rw [Machine.step_of_cmd hc]
  cases hd : decode h d with
  | legal i => exact absurd ((legalHeadersAreThoseOfTheOpcodeMap h d).mp ⟨i, hd⟩) hillegal
  | illegal why => rfl

end Sys2Proof

/-! # The system commands (40_system.md)

CONFIGURE has two answers, told apart by a rate of 0. STATUS is a word put together from fields, so each field is read
from the part of the word that holds it. -/

namespace Sys2Proof.Machine

/-! ## NOP -/

/-- Settles O16: the row of opcode 0x00 takes no operand from D, and the encoder writes NOP as two zero words. -/
theorem nopChangesNothing : Obligations.NopChangesNothing := by
  unfold Obligations.NopChangesNothing
  refine ⟨fun d => ?_, fun s => exec_eq .nop s⟩
  obtain ⟨-, hsame, -⟩ := unusedDataIsIgnored 0x00000000 d 0x00000000
  calc decode 0x00000000 d
    _ = decode 0x00000000 0x00000000 := hsame (by decide)
    _ = .legal .nop := decode_of_encode_eq rfl rfl

/-! ## CONFIGURE -/

section
variable {mode : ChipMode} {sr : BitVec 18} {clock : Word}

/-- CONFIGURE refuses a rate of 0 (40_system.md R132). -/
theorem State.configure_of_rate_zero (p : Params) (s : State) (h : sr = 0 ∨ clock = 0) :
    s.configure p mode sr clock = s.raise .value := if_pos h

/-- CONFIGURE takes two rates that are not 0 (40_system.md R132). -/
theorem State.configure_of_rate_ne_zero (p : Params) (s : State) (h : ¬ (sr = 0 ∨ clock = 0)) :
    s.configure p mode sr clock =
      { s with chip := Chip.reset p, cfg := ⟨true, mode, clock, sr, stepOf clock sr⟩ } := if_neg h

/-- The parameters enter a CONFIGURE through the chip at power-on only (70_reset_and_hazards.md R332). -/
theorem State.configure_eq_with_chip (p q : Params) (s : State) :
    s.configure p mode sr clock = if sr = 0 ∨ clock = 0 then s.configure q mode sr clock
      else { s.configure q mode sr clock with chip := (State.resetWith p).chip } := by
  split
  next h => rw [configure_of_rate_zero p s h, configure_of_rate_zero q s h]
  next h =>
    rw [configure_of_rate_ne_zero p s h, configure_of_rate_ne_zero q s h]
    rfl

end

/-- Settles O19: the two answers of a CONFIGURE, and what other parameters change in them. -/
theorem configureResetsTheChipOnly : Obligations.ConfigureResetsTheChipOnly := by
  unfold Obligations.ConfigureResetsTheChipOnly
  intro mode sr clock s
  refine ⟨fun hzero => ?_, fun hsr hclock => ?_, fun p => ⟨_, exec_eq _ s, ?_⟩⟩
  · exact (exec_eq _ s).trans (congrArg _ (s.configure_of_rate_zero params hzero))
  · exact (exec_eq _ s).trans (congrArg _ (s.configure_of_rate_ne_zero params (not_or.mpr ⟨hsr, hclock⟩)))
  · exact (execWith_eq p _ s).trans (congrArg _ (s.configure_eq_with_chip p params))

/-! ## RD_STATUS -/

theorem ChipMode.bit_eq_decide (mode : ChipMode) : mode.bit = decide (mode = .ay8910) := by cases mode <;> rfl

/-- VOICES is the number of voices, which a run keeps at most three (10_state.md R21, R50). -/
theorem Engine.toNat_voicesField {e : Engine} (h : e.voices.length ≤ 3) :
    e.voicesField.toNat = e.voices.length := by
  rw [Engine.voicesField, BitVec.toNat_ofNat, Nat.mod_eq_of_lt (by omega)]

/-- HELD saturates at 255 (10_state.md R21). -/
theorem Engine.toNat_heldField (e : Engine) : e.heldField.toNat = min e.held.length 255 := by
  rw [Engine.heldField, BitVec.toNat_ofNat, Nat.mod_eq_of_lt (by omega)]

section
variable (s : State)

/-- STATUS bits 0 to 5 (10_state.md R21). -/
theorem State.status_bits :
    s.status.getLsbD 0 = s.cfg.configured ∧ s.status.getLsbD 1 = (s.cfg.configured && s.cfg.mode.bit) ∧
      s.status.getLsbD 2 = s.err.illegal ∧ s.status.getLsbD 3 = s.err.unconfigured ∧
      s.status.getLsbD 4 = s.err.value ∧ s.status.getLsbD 5 = s.eng.sustain := by
  simp only [State.status, BitVec.getLsbD_append]
  simp

/-- STATUS bits 31:6: HELD and VOICES between the reserved fields (10_state.md R21). -/
theorem State.status_fields :
    s.status.extractLsb' 6 2 = 0 ∧ s.status.extractLsb' 8 2 = s.eng.voicesField ∧
      s.status.extractLsb' 10 6 = 0 ∧ s.status.extractLsb' 16 8 = s.eng.heldField ∧
      s.status.extractLsb' 24 8 = 0 := by
  simp (disch := decide) only [State.status, BitVec.extractLsb'_append_eq_of_le,
    BitVec.extractLsb'_append_eq_of_add_le]
  simp

end

/-- Settles O20: the answer is the one of R134, and STATUS is read field by field. -/
theorem rdStatusRespondsThenClears : Obligations.RdStatusRespondsThenClears := by
  unfold Obligations.RdStatusRespondsThenClears
  intro s
  refine ⟨exec_eq .rdStatus s, fun hvoices => ?_⟩
  obtain ⟨hconfigured, hmode, hillegal, hunconfigured, hvalue, hsustain⟩ := s.status_bits
  obtain ⟨hlow, hvoicesField, hmid, hheldField, hhigh⟩ := s.status_fields
  refine ⟨hconfigured, ?_, hillegal, hunconfigured, hvalue, hsustain, hlow, ?_, hmid, ?_, hhigh⟩
  · rw [hmode, ChipMode.bit_eq_decide]
  · rw [hvoicesField, Engine.toNat_voicesField hvoices]
  · rw [hheldField, Engine.toNat_heldField]

end Sys2Proof.Machine

/-! # The chip setters (41_chip_setters.md)

A setter writes one channel (`onlyChannel_onTone`), writes a shared generator, or raises an error bit. Each register
operation is then said by one equation: what a pan is clamped to, and where in the square period a phase stands. -/

namespace Sys2Proof.Machine

/-! ## One channel -/

/-- An operation on channel c writes the record of c and nothing else. -/
theorem onlyChannel_onTone (s : State) (c : Fin 3) (f : ToneChannel → ToneChannel) :
    OnlyChannel s { s with chip := s.chip.onTone c f } c (f (s.chip.tones.get c)) :=
  ⟨Tones.get_set_same _ c _, fun k hk => Tones.get_set_other _ c k _ hk, rfl⟩

/-- A setter without a real payload writes the channel that it addresses (R141 to R143). -/
theorem State.onChannel_onlyChannel (s : State) (c : Fin 3) (f : ToneChannel → ToneChannel) :
    OnlyChannel s (s.onChannel (BitVec.ofNat 4 c) f) c (f (s.chip.tones.get c)) := by
  rw [s.onChannel_ofNat]
  exact onlyChannel_onTone s c f

section
variable (s : State) (c : Fin 3) {w : F32} (f : F64 → ToneChannel → ToneChannel)

/-- A setter with a real payload refuses one that is not finite (R144, R148). -/
theorem State.onChannelReal_of_not_finite (h : ¬ F32.finite w) :
    s.onChannelReal (BitVec.ofNat 4 c) w f = s.raise .value := by
  rw [s.onChannelReal_ofNat, if_pos (not_not.mp h)]

/-- A setter with a finite real payload writes the channel that it addresses (R144, R148). -/
theorem State.onChannelReal_onlyChannel (h : F32.finite w) :
    OnlyChannel s (s.onChannelReal (BitVec.ofNat 4 c) w f) c (f (F64.ofF32 w) (s.chip.tones.get c)) := by
  rw [s.onChannelReal_ofNat, if_neg h]
  exact onlyChannel_onTone s c _

end

/-- Settles O21: each setter is a channel command, which writes its channel or, above channel 2, raises one bit. -/
theorem channelSettersWriteOneChannel : Obligations.ChannelSettersWriteOneChannel := by
  unfold Obligations.ChannelSettersWriteOneChannel
  refine ⟨fun s c _ => ⟨_, exec_eq _ s, s.onChannel_onlyChannel c _⟩,
    fun s c _ _ _ => ⟨_, exec_eq _ s, s.onChannel_onlyChannel c _⟩,
    fun s c _ => ⟨_, exec_eq _ s, s.onChannel_onlyChannel c _⟩, fun s ch hch i hi => (exec_eq i s).trans ?_⟩
  obtain ⟨_, rfl⟩ | ⟨_, _, _, rfl⟩ | ⟨_, rfl⟩ | ⟨_, w, rfl⟩ | ⟨w, rfl⟩ := hi
  · exact congrArg _ (s.onChannel_illegal hch _)
  · exact congrArg _ (s.onChannel_illegal hch _)
  · exact congrArg _ (s.onChannel_illegal hch _)
  · exact congrArg _ (s.onChannelReal_illegal hch w _)
  · exact congrArg _ (s.onChannelReal_illegal hch w _)

end Sys2Proof.Machine

/-! ## The pan -/

namespace Sys2Proof.F64

/-- On finite reals the comparison for equality is that of the numbers they denote. -/
theorem eq_iff {a b : F64} (ha : a.isFinite = true) (hb : b.isFinite = true) :
    a.eq b = true ↔ a.toRat = b.toRat := by
  rw [le_antisymm_iff (a := a.toRat), ← le_iff ha hb, ← le_iff hb ha]
  simp [eq, le, isNaN_of_isFinite ha, isNaN_of_isFinite hb, le_antisymm_iff (a := a.key)]

end Sys2Proof.F64

namespace Sys2Proof.Machine

/-- The pan that SET_PAN uses: +0.0 up to 0, for -0.0 too, 1 from 1 on, and between as given (R144). -/
theorem plusZero_clamp {x : F64} (hx : x.isFinite = true) : plusZero (x.clamp F64.zero F64.one) =
    if x.le F64.zero then F64.zero else if F64.one.le x then F64.one else x := by
  have hone : F64.one.isFinite = true := by decide
  have hlt : 0 < F64.one.toRat := F64.toRat_zero ▸ (F64.lt_iff F64.isFinite_zero hone).mp (by decide)
  have hplus : plusZero x = if x.toRat = 0 then F64.zero else x := by
    simp only [plusZero, F64.eq_iff hx F64.isFinite_zero, F64.toRat_zero]
  rw [F64.clamp_eq (by decide)]
  simp only [F64.lt_iff hx F64.isFinite_zero, F64.le_iff hx F64.isFinite_zero, F64.lt_iff hone hx,
    F64.le_iff hone hx, F64.toRat_zero]
  rcases lt_trichotomy x.toRat 0 with hneg | hnull | hpos
  · rw [if_pos hneg, if_pos hneg.le]
    decide
  · rw [if_neg hnull.not_lt, if_neg (hnull ▸ hlt.not_gt), if_pos hnull.le, hplus, if_pos hnull]
  · rw [if_neg hpos.not_gt, if_neg hpos.not_ge]
    rcases lt_trichotomy F64.one.toRat x.toRat with habove | hsame | hbelow
    · rw [if_pos habove, if_pos habove.le]
      decide
    · rw [if_neg hsame.not_lt, if_pos hsame.le, hplus, if_neg hpos.ne']
      exact F64.eq_of_toRat hx hone (F64.sign_of_pos hx hpos) hsame.symm
    · rw [if_neg hbelow.not_gt, if_neg hbelow.not_ge, hplus, if_neg hpos.ne']

/-- Settles O22: the pan is refused, or it is cut to [0, 1] as `plusZero_clamp` says and split by either law. -/
theorem setPanClampsAndSplitsTheGain : Obligations.SetPanClampsAndSplitsTheGain := by
  unfold Obligations.SetPanClampsAndSplitsTheGain
  intro s c eqp w
  refine ⟨fun hw => (exec_eq _ s).trans (congrArg _ (s.onChannelReal_of_not_finite c _ hw)),
    fun hw p hzero hone hbetween => ⟨_, exec_eq _ s, ?_⟩⟩
  have hx : (F64.ofF32 w).isFinite = true := (F64.isFinite_ofF32 w).trans (decide_eq_true hw)
  have hp : plusZero ((F64.ofF32 w).clamp F64.zero F64.one) = p := by
    rw [plusZero_clamp hx]
    split
    next h => exact (hzero h).symm
    next h0 =>
      split
      next h => exact (hone h).symm
      next h1 =>
        rw [F64.le_eq_not_lt hx (by decide)] at h0
        rw [F64.le_eq_not_lt (by decide) hx] at h1
        exact (hbetween (by simpa using h0) (by simpa using h1)).symm
  rw [← hp]
  exact s.onChannelReal_onlyChannel c _ hw

/-! ## The phase -/

/-- TONE_PHASE puts the tick position of a square period into the bit, which tells the half, and the counter (R148). -/
theorem ToneChannel.setPhase_eq (t : ToneChannel) (x : F64) {pos : Nat}
    (hpos : phasePosition t.effPeriod (x.clamp F64.zero F64.one) = pos) :
    t.setPhase x = { t with
      bit := decide (t.effPeriod ≤ pos), counter := BitVec.ofNat 12 (pos % t.effPeriod) } := by
  have hlt := phasePosition_lt t.effPeriod_pos (x.clamp F64.zero F64.one)
  rw [hpos] at hlt
  unfold ToneChannel.setPhase
  dsimp only
  rw [hpos]
  split
  next h => rw [Nat.mod_eq_of_lt h, decide_eq_false h.not_ge]
  next h =>
    rw [Nat.mod_eq_sub_mod (not_lt.mp h), Nat.mod_eq_of_lt (by omega), decide_eq_true (not_lt.mp h)]

/-- Settles O23: the phase is refused, or `ToneChannel.setPhase_eq` says the bit and the counter, which holds every
position below the period. -/
theorem tonePhaseSetsThePosition : Obligations.TonePhaseSetsThePosition := by
  unfold Obligations.TonePhaseSetsThePosition
  intro s c w period pos
  refine ⟨fun hw => (exec_eq _ s).trans (congrArg _ (s.onChannelReal_of_not_finite c _ hw)), ?_⟩
  rintro hw rfl hpos
  have hchan := s.onChannelReal_onlyChannel c (fun x t => t.setPhase x) hw
  rw [ToneChannel.setPhase_eq _ _ hpos.symm] at hchan
  have hcut : pos % (s.chip.tones.get c).effPeriod < 2 ^ 12 := by
    have hlt := Nat.mod_lt pos (s.chip.tones.get c).effPeriod_pos
    have hle := (s.chip.tones.get c).effPeriod_le
    omega
  obtain ⟨hget, hframe⟩ := hchan
  exact ⟨_, exec_eq _ s, ⟨hget, hframe⟩, (congrArg (·.counter.toNat) hget).trans (Nat.mod_eq_of_lt hcut)⟩

/-! ## The envelope shape -/

/-- The data word of SET_ENV_SHAPE is not used (30_encoding.md R102). -/
theorem decode_encode_setEnvShape (shape : BitVec 4) (d : Word) :
    decode (encode (.setEnvShape shape)).1 d = .legal (.setEnvShape shape) := by
  obtain ⟨row, hrow, hcode, hmask⟩ := headerMatch (.setEnvShape shape)
  have hop := op_of_opField_encode _ row hrow hcode
  exact decode_eq_legal_iff.mpr ⟨rfl, row, hrow, hcode, hmask, hop ▸ operands_encode (.setEnvShape shape)⟩

/-- Settles O25: every write of a shape puts slot 0 at its start level, whatever the envelope was. -/
theorem setEnvShapeRestartsTheEnvelope : Obligations.SetEnvShapeRestartsTheEnvelope := by
  unfold Obligations.SetEnvShapeRestartsTheEnvelope
  intro s shape
  refine ⟨decode_encode_setEnvShape shape, (exec_eq _ s).trans ?_⟩
  rw [← startLevel_eq]
  rfl

/-! ## The shared generators -/

/-- Settles O24: each of the four writes the fields that its definition names. -/
theorem sharedSettersWriteTheGenerators : Obligations.SharedSettersWriteTheGenerators := by
  unfold Obligations.SharedSettersWriteTheGenerators
  exact fun s => ⟨fun _ => exec_eq _ s, fun _ => exec_eq _ s, exec_eq _ s, fun _ _ _ => exec_eq _ s⟩

/-! ## What no setter touches -/

/-- t differs from s in the chip and the error bits only, and the chip has not run (R140). -/
def State.SameButRegisters (s t : State) : Prop :=
  t = { s with chip := t.chip, err := t.err } ∧
    t.chip.acc = s.chip.acc ∧ t.chip.firL = s.chip.firL ∧ t.chip.firR = s.chip.firR ∧
    t.chip.dcL = s.chip.dcL ∧ t.chip.dcR = s.chip.dcR ∧
    t.chip.noise.lfsr = s.chip.noise.lfsr ∧ t.chip.noise.counter = s.chip.noise.counter

namespace State.SameButRegisters

variable (s : State)

theorem raise (b : ErrorBit) : s.SameButRegisters (s.raise b) := ⟨rfl, rfl, rfl, rfl, rfl, rfl, rfl, rfl⟩

theorem withTones (ts : Tones) : s.SameButRegisters { s with chip := { s.chip with tones := ts } } :=
  ⟨rfl, rfl, rfl, rfl, rfl, rfl, rfl, rfl⟩

theorem withNoisePeriod (np : BitVec 5) :
    s.SameButRegisters { s with chip := { s.chip with noise := s.chip.noise.setPeriod np } } :=
  ⟨rfl, rfl, rfl, rfl, rfl, rfl, rfl, rfl⟩

theorem withEnv (e : EnvGen) : s.SameButRegisters { s with chip := { s.chip with env := e } } :=
  ⟨rfl, rfl, rfl, rfl, rfl, rfl, rfl, rfl⟩

theorem onChannel (ch : BitVec 4) (f : ToneChannel → ToneChannel) : s.SameButRegisters (s.onChannel ch f) := by
  obtain ⟨c, h⟩ | h := s.onChannel_cases ch f <;> rw [h]
  · exact withTones s _
  · exact raise s .illegal

theorem onChannelReal (ch : BitVec 4) (w : F32) (f : F64 → ToneChannel → ToneChannel) :
    s.SameButRegisters (s.onChannelReal ch w f) := by
  obtain ⟨c, x, h⟩ | h | h := s.onChannelReal_cases ch w f <;> rw [h]
  · exact withTones s _
  · exact raise s .illegal
  · exact raise s .value

/-- A chip setter is a channel command or writes a shared generator (R141 to R150). -/
theorem execState (p : Params) {i : Instr} (hi : i.isChipSetter = true) :
    s.SameButRegisters (Machine.execState p i s) := by
  cases i with
  | setTone ch _ | setMixer ch _ _ _ | setVolume ch _ => exact onChannel s ch _
  | setPan ch _ w | tonePhase ch w => exact onChannelReal s ch w _
  | setNoise np => exact withNoisePeriod s np
  | setEnvPeriod | setEnvShape | envSync | envLoad => exact withEnv s _
  | _ => cases hi

end State.SameButRegisters

/-- Settles O26: channel commands and writes of a shared generator leave all that a running chip moves on, but for the
tone and envelope registers that they load. -/
theorem settersNeverRunTheChip : Obligations.SettersNeverRunTheChip := by
  unfold Obligations.SettersNeverRunTheChip
  exact fun i s hi => ⟨_, exec_eq i s, State.SameButRegisters.execState s params hi⟩

end Sys2Proof.Machine

/-! # The chip process (42_chip_process.md)

A generator is told by the two cases of its tick, iterated. The noise register has period 2^17 - 1 because its shift is
linear and 2^17 shifts do what one does (`doubleShifts_seventeen`). The envelope is told slot by slot
(`EnvSlot.level`). A chip whose gains and histories are zero stays so over a sample (`Chip.Silent`). -/

namespace Sys2Proof.Machine

/-! ## The tone generator -/

namespace ToneChannel

variable {t : ToneChannel}

theorem tick_of_lt (h : t.counter.toNat + 1 < t.effPeriod) : t.tick = { t with counter := t.counter + 1 } :=
  (t.tick_cases.resolve_right fun hroll => hroll.1.not_gt h).2

theorem tick_of_le (h : t.effPeriod ≤ t.counter.toNat + 1) : t.tick = { t with counter := 0, bit := !t.bit } :=
  (t.tick_cases.resolve_left fun hcount => h.not_gt hcount.1).2

/-- The counter holds every tick number of a period (10_state.md R26). -/
theorem toNat_ofNat_of_lt_effPeriod {k : Nat} (hk : k < t.effPeriod) : (BitVec.ofNat 12 k).toNat = k :=
  Nat.mod_eq_of_lt (by have := t.effPeriod_le; omega)

/-- From counter 0 a tone generator counts up to the end of its period (R163). -/
theorem iterate_tick_of_lt (h0 : t.counter = 0) {k : Nat} (hk : k < t.effPeriod) :
    tick^[k] t = { t with counter := BitVec.ofNat 12 k } := by
  induction k with
  | zero => exact congrArg (fun c => ({ t with counter := c } : ToneChannel)) h0
  | succ k ih =>
    have hcut : (BitVec.ofNat 12 k).toNat = k := toNat_ofNat_of_lt_effPeriod (t := t) (by omega)
    rw [Function.iterate_succ_apply', ih (by omega), tick_of_lt (hcut.symm ▸ hk), BitVec.ofNat_add]
    rfl

/-- From counter 0 a tone generator toggles after one period and starts again (R163). -/
theorem iterate_tick_effPeriod (h0 : t.counter = 0) : tick^[t.effPeriod] t = { t with bit := !t.bit } := by
  obtain ⟨k, hk⟩ := Nat.exists_eq_add_of_le' t.effPeriod_pos
  have hcut : (BitVec.ofNat 12 k).toNat = k := toNat_ofNat_of_lt_effPeriod (t := t) (by omega)
  rw [hk, Function.iterate_succ_apply', iterate_tick_of_lt h0 (by omega), tick_of_le (hcut.symm ▸ hk.le), ← h0]

/-- Two periods of a tone generator are a whole square (R163). -/
theorem iterate_tick_two_mul_effPeriod (h0 : t.counter = 0) : tick^[2 * t.effPeriod] t = t := by
  have hsecond := iterate_tick_effPeriod (t := { t with bit := !t.bit }) h0
  rw [Bool.not_not] at hsecond
  rw [two_mul, Function.iterate_add_apply, iterate_tick_effPeriod h0]
  exact hsecond

end ToneChannel

/-- Settles O27: from counter 0 each half of the square is one count to the period. -/
theorem toneIsASquareWave : Obligations.ToneIsASquareWave := by
  unfold Obligations.ToneIsASquareWave
  rintro t _ rfl
  exact ⟨ToneChannel.tick_of_le, ToneChannel.tick_of_lt, t.tick_counter_lt, fun h0 =>
    ⟨fun _ => ToneChannel.iterate_tick_of_lt h0, ToneChannel.iterate_tick_effPeriod h0,
      ToneChannel.iterate_tick_two_mul_effPeriod h0⟩⟩

/-! ## The noise generator -/

namespace NoiseGen

variable {p : Params} {g : NoiseGen}

theorem tick_of_lt (h : g.counter.toNat + 1 < p.noiseDiv * max g.period.toNat 1) :
    g.tick p = { g with counter := BitVec.ofNat 8 (g.counter.toNat + 1) } :=
  ((g.tick_cases p).resolve_right fun hroll => hroll.1.not_gt h).2

theorem tick_of_le (h : p.noiseDiv * max g.period.toNat 1 ≤ g.counter.toNat + 1) :
    g.tick p = { g with counter := 0, lfsr := lfsrShift g.lfsr } :=
  ((g.tick_cases p).resolve_left fun hcount => h.not_gt hcount.1).2

/-- A NOISE_DIV of at most 8 leaves the counter room for every count (R164). -/
theorem toNat_counter_tick_of_lt (h8 : p.noiseDiv ≤ 8) (h : g.counter.toNat + 1 < p.noiseDiv * max g.period.toNat 1) :
    (g.tick p).counter.toNat = g.counter.toNat + 1 := by
  have hper := g.period.isLt
  have hmul : p.noiseDiv * max g.period.toNat 1 ≤ 8 * 31 := Nat.mul_le_mul h8 (by omega)
  rw [tick_of_lt h]
  exact Nat.mod_eq_of_lt (by omega)

end NoiseGen

/-! ## The shift register -/

theorem getLsbD_lfsrShift_of_lt (l : BitVec 17) {k : Nat} (hk : k < 16) :
    (lfsrShift l).getLsbD k = l.getLsbD (k + 1) := by
  simp [lfsrShift, hk, Nat.add_comm 1 k]

theorem getLsbD_lfsrShift_sixteen (l : BitVec 17) :
    (lfsrShift l).getLsbD 16 = xor (l.getLsbD 0) (l.getLsbD 3) := by
  simp [lfsrShift]

theorem lfsrShift_zero : lfsrShift 0 = 0 := by decide

/-- A shift is linear over the bits. -/
theorem lfsrShift_xor (a b : BitVec 17) : lfsrShift (a ^^^ b) = lfsrShift a ^^^ lfsrShift b := by
  apply BitVec.eq_of_getLsbD_eq
  intro k hk
  rw [BitVec.getLsbD_xor]
  obtain h | rfl : k < 16 ∨ k = 16 := by omega
  · simp only [getLsbD_lfsrShift_of_lt _ h, BitVec.getLsbD_xor]
  · simp only [getLsbD_lfsrShift_sixteen, BitVec.getLsbD_xor, Bool.xor_assoc, Bool.xor_left_comm]

theorem lfsrShift_injective : Function.Injective lfsrShift := by
  intro a b hab
  by_contra hne
  refine lfsrShift_ne_zero (l := a ^^^ b) (fun h => hne (BitVec.xor_eq_zero_iff.mp h)) ?_
  rw [lfsrShift_xor, hab, BitVec.xor_self, BitVec.ofNat_eq_ofNat]

/-- The sum over the bits of those shifts of l that the list selects, l itself first: a polynomial in the shift,
applied to l. -/
def shiftSum : List Bool → BitVec 17 → BitVec 17
  | [], _ => 0
  | b :: bs, l => (if b then l else 0) ^^^ lfsrShift (shiftSum bs l)

/-- Polynomials in the shift commute with the shift. -/
theorem shiftSum_lfsrShift (bs : List Bool) (l : BitVec 17) :
    shiftSum bs (lfsrShift l) = lfsrShift (shiftSum bs l) := by
  induction bs with
  | nil => exact lfsrShift_zero.symm
  | cons b bs ih =>
    rw [shiftSum, shiftSum, ih, lfsrShift_xor]
    cases b
    · exact congrArg (· ^^^ _) lfsrShift_zero.symm
    · rfl

theorem shiftSum_iterate_lfsrShift (bs : List Bool) (l : BitVec 17) (m : Nat) :
    shiftSum bs (lfsrShift^[m] l) = lfsrShift^[m] (shiftSum bs l) :=
  Function.Semiconj.iterate_right (shiftSum_lfsrShift bs) m l

theorem getLsbD_shiftSum_nil (l : BitVec 17) (k : Nat) : (shiftSum [] l).getLsbD k = false := BitVec.getLsbD_zero

theorem getLsbD_shiftSum_cons_one (b : Bool) (bs : List Bool) (k : Nat) : (shiftSum (b :: bs) 1#17).getLsbD k =
    ((b && decide (k = 0)) ^^ (lfsrShift (shiftSum bs 1#17)).getLsbD k) := by
  cases b <;> simp [shiftSum]

/-- The shifts of 1 that add up to the register l: shift n of 1, for n from 1 to 16, has its lowest bit at 17 - n, and
the shifts 15 and 16 have the fed back bits 16 and 15 too. -/
def shiftsOfOne (l : BitVec 17) : List Bool :=
  [l.getLsbD 0, l.getLsbD 16 ^^ l.getLsbD 2, l.getLsbD 15 ^^ l.getLsbD 1, l.getLsbD 14, l.getLsbD 13, l.getLsbD 12,
    l.getLsbD 11, l.getLsbD 10, l.getLsbD 9, l.getLsbD 8, l.getLsbD 7, l.getLsbD 6, l.getLsbD 5, l.getLsbD 4,
    l.getLsbD 3, l.getLsbD 2, l.getLsbD 1]

/-- Every register is a sum of shifts of 1. -/
theorem shiftSum_shiftsOfOne (l : BitVec 17) : shiftSum (shiftsOfOne l) 1 = l := by
  apply BitVec.eq_of_getLsbD_eq
  intro k hk
  rw [shiftsOfOne]
  interval_cases k <;> simp [getLsbD_shiftSum_cons_one, getLsbD_shiftSum_nil, getLsbD_lfsrShift_of_lt,
    getLsbD_lfsrShift_sixteen, -BitVec.getLsbD_eq_getElem]

/-- The register after twice as many shifts from 1 as give l. -/
def doubleShifts (l : BitVec 17) : BitVec 17 := shiftSum (shiftsOfOne l) l

/-- As a sum of shifts of 1, the register after m shifts says which sum of shifts m more of them are. -/
theorem iterate_lfsrShift_two_mul (m : Nat) : lfsrShift^[2 * m] 1 = doubleShifts (lfsrShift^[m] 1) := by
  rw [doubleShifts, shiftSum_iterate_lfsrShift, shiftSum_shiftsOfOne, ← Function.iterate_add_apply, two_mul]

theorem iterate_lfsrShift_two_pow (k : Nat) : lfsrShift^[2 ^ k] 1 = doubleShifts^[k] (lfsrShift 1) := by
  induction k with
  | zero => rfl
  | succ k ih => rw [pow_succ', iterate_lfsrShift_two_mul, ih, Function.iterate_succ_apply']

theorem doubleShifts_seventeen : doubleShifts^[17] (lfsrShift 1) = lfsrShift 1 := by decide +kernel

/-- 131071 shifts bring 1 back, as 2^17 of them do what one does. -/
theorem lfsrShift_isPeriodicPt : Function.IsPeriodicPt lfsrShift 131071 1 := by
  apply lfsrShift_injective
  have hsucc : lfsrShift^[131072] 1 = lfsrShift (lfsrShift^[131071] 1) := Function.iterate_succ_apply' _ _ _
  exact hsucc.symm.trans ((iterate_lfsrShift_two_pow 17).trans doubleShifts_seventeen)

/-- No smaller number of shifts brings 1 back, since 131071 is a prime (R164). -/
theorem lfsrShift_minimalPeriod : Function.minimalPeriod lfsrShift 1 = 131071 := by
  have hprime : Fact (Nat.Prime 131071) := ⟨by norm_num⟩
  have hmoves : ¬ Function.IsFixedPt lfsrShift 1 := by
    unfold Function.IsFixedPt
    decide
  exact Function.minimalPeriod_eq_prime lfsrShift_isPeriodicPt hmoves

/-- Settles O28: the cases of a tick, the bits of a shift, and its period from 1. -/
theorem noiseRegisterIsMaximalLength : Obligations.NoiseRegisterIsMaximalLength := by
  unfold Obligations.NoiseRegisterIsMaximalLength
  refine ⟨fun p g => ⟨NoiseGen.tick_of_le, fun hcount => ⟨NoiseGen.tick_of_lt hcount, fun h8 =>
    NoiseGen.toNat_counter_tick_of_lt h8 hcount⟩, rfl⟩, fun l k hk => getLsbD_lfsrShift_of_lt l hk,
    getLsbD_lfsrShift_sixteen, fun _ => lfsrShift_ne_zero, fun k => ?_⟩
  rw [← lfsrShift_minimalPeriod]
  exact Function.isPeriodicPt_iff_minimalPeriod_dvd

/-! ## The envelope generator: periods -/

namespace EnvGen

variable {e : EnvGen}

theorem tick_of_lt (h : e.counter.toNat + 1 < max e.period.toNat 1) :
    e.tick = { e with counter := BitVec.ofNat 16 (e.counter.toNat + 1) } :=
  (e.tick_cases.resolve_right fun hroll => hroll.1.not_gt h).2

theorem tick_of_le (h : max e.period.toNat 1 ≤ e.counter.toNat + 1) :
    e.tick = ({ e with counter := 0 } : EnvGen).action :=
  (e.tick_cases.resolve_left fun hcount => h.not_gt hcount.1).2

/-- The counter holds every tick number of a period (10_state.md R28). -/
theorem toNat_ofNat_of_lt_period {k : Nat} (hk : k < max e.period.toNat 1) : (BitVec.ofNat 16 k).toNat = k :=
  Nat.mod_eq_of_lt (by have := e.period.isLt; omega)

/-- From counter 0 an envelope generator counts up to the end of its period (R165). -/
theorem iterate_tick_of_lt (h0 : e.counter = 0) {j : Nat} (hj : j < max e.period.toNat 1) :
    tick^[j] e = { e with counter := BitVec.ofNat 16 j } := by
  induction j with
  | zero => exact congrArg (fun c => ({ e with counter := c } : EnvGen)) h0
  | succ j ih =>
    have hcut : (BitVec.ofNat 16 j).toNat = j := toNat_ofNat_of_lt_period (e := e) (by omega)
    rw [Function.iterate_succ_apply', ih (by omega), tick_of_lt (hcut.symm ▸ hj), hcut]

/-- From counter 0 the level steps after one period, and the count starts again (R165). -/
theorem iterate_tick_period (h0 : e.counter = 0) : tick^[max e.period.toNat 1] e = e.action := by
  obtain ⟨k, hk⟩ := Nat.exists_eq_add_of_le' (le_max_right e.period.toNat 1)
  have hcut : (BitVec.ofNat 16 k).toNat = k := toNat_ofNat_of_lt_period (e := e) (by omega)
  rw [hk, Function.iterate_succ_apply', iterate_tick_of_lt h0 (by omega), tick_of_le (hcut.symm ▸ hk.le), ← h0]

@[simp] theorem action_period (e : EnvGen) : e.action.period = e.period := by
  obtain ⟨_, _, h⟩ := e.action_frame
  rw [h]

@[simp] theorem action_counter (e : EnvGen) : e.action.counter = e.counter := by
  obtain ⟨_, _, h⟩ := e.action_frame
  rw [h]

theorem iterate_action_frame (e : EnvGen) (n : Nat) :
    (action^[n] e).period = e.period ∧ (action^[n] e).counter = e.counter := by
  induction n with
  | zero => exact ⟨rfl, rfl⟩
  | succ n ih => rwa [Function.iterate_succ_apply', action_period, action_counter]

/-- From counter 0, n periods are n level steps (R165). -/
theorem iterate_tick_mul (h0 : e.counter = 0) (n : Nat) : tick^[n * max e.period.toNat 1] e = action^[n] e := by
  induction n with
  | zero => rw [Nat.zero_mul, Function.iterate_zero, Function.iterate_zero]
  | succ n ih =>
    obtain ⟨hperiod, hcounter⟩ := iterate_action_frame e n
    have hlast := iterate_tick_period (hcounter.trans h0)
    rw [hperiod] at hlast
    rw [Nat.succ_mul, Nat.add_comm, Function.iterate_add_apply, ih, hlast, Function.iterate_succ_apply']

/-- Between two level steps the level stays. -/
theorem iterate_tick_level (h0 : e.counter = 0) (n : Nat) {j : Nat} (hj : j < max e.period.toNat 1) :
    (tick^[n * max e.period.toNat 1 + j] e).level = (action^[n] e).level := by
  obtain ⟨hperiod, hcounter⟩ := iterate_action_frame e n
  rw [← hperiod] at hj
  rw [Nat.add_comm, Function.iterate_add_apply, iterate_tick_mul h0, iterate_tick_of_lt (hcounter.trans h0) hj]

end EnvGen

/-! ## The envelope generator: slots -/

/-- The level of a slot after k level steps in it (R166). -/
def EnvSlot.level : EnvSlot → Nat → Nat
  | .up, k => k
  | .down, k => 31 - k
  | .holdTop, _ => 31
  | .holdBottom, _ => 0

/-- The slots that end and lead to the other one (R166). -/
def EnvSlot.isRamp : EnvSlot → Bool
  | .up | .down => true
  | .holdTop | .holdBottom => false

theorem startLevel_eq_level (shape : BitVec 4) (b : Bool) :
    startLevel shape b = BitVec.ofNat 5 ((envSeg shape b).level 0) := by
  unfold startLevel
  cases envSeg shape b <;> rfl

/-- Slot 0 of every shape is a ramp (R166). -/
theorem envSeg_false_isRamp (shape : BitVec 4) : (envSeg shape false).isRamp = true := by
  revert shape
  decide

namespace EnvGen

section
variable {e : EnvGen}

/-- The active slot. -/
def slot (e : EnvGen) : EnvSlot := envSeg e.shape e.segment

/-- The level is the one at which the active slot starts. -/
def AtStart (e : EnvGen) : Prop := e.level = BitVec.ofNat 5 (e.slot.level 0)

theorem setShape_atStart (e : EnvGen) (shape : BitVec 4) : (e.setShape shape).AtStart :=
  startLevel_eq_level shape false

theorem nextSlot_atStart (e : EnvGen) : e.nextSlot.AtStart := startLevel_eq_level e.shape !e.segment

/-- One level step within a slot (R168). -/
theorem action_withLevel {k : Nat} (hk : k < 31) :
    action { e with level := BitVec.ofNat 5 (e.slot.level k) } =
      { e with level := BitVec.ofNat 5 (e.slot.level (k + 1)) } := by
  have hcut : ∀ x < 32, (BitVec.ofNat 5 x).toNat = x := by decide
  have hdown : ∀ k < 31, BitVec.ofNat 5 (31 - k) - 1#5 = BitVec.ofNat 5 (30 - k) := by decide
  unfold action slot
  cases envSeg e.shape e.segment with
  | up => simp [EnvSlot.level, hcut k (by omega), hk, BitVec.ofNat_add]
  | down => simp [EnvSlot.level, hcut (31 - k) (by omega), hk, hdown k hk]
  | holdTop | holdBottom => simp [EnvSlot.level]

theorem iterate_action_of_lt (hs : e.AtStart) {k : Nat} (hk : k < 32) :
    action^[k] e = { e with level := BitVec.ofNat 5 (e.slot.level k) } := by
  induction k with
  | zero => exact congrArg (fun l => ({ e with level := l } : EnvGen)) hs
  | succ k ih => rw [Function.iterate_succ_apply', ih (by omega), action_withLevel (by omega)]

/-- A ramp leads to the other slot in 32 level steps (R168). -/
theorem iterate_action_of_isRamp (hs : e.AtStart) (hr : e.slot.isRamp = true) : action^[32] e = e.nextSlot := by
  rw [Function.iterate_succ_apply', iterate_action_of_lt hs (by omega)]
  unfold action
  unfold slot at hr ⊢
  cases h : envSeg e.shape e.segment with
  | up | down => simp [EnvSlot.level, nextSlot]
  | holdTop | holdBottom => simp [h, EnvSlot.isRamp] at hr

/-- A slot that holds stays as it is (R168). -/
theorem iterate_action_of_not_isRamp (hr : e.slot.isRamp = false) (k : Nat) : action^[k] e = e := by
  refine Function.iterate_fixed ?_ k
  unfold action
  unfold slot at hr
  cases h : envSeg e.shape e.segment with
  | up | down => simp [h, EnvSlot.isRamp] at hr
  | holdTop | holdBottom => rfl

/-- The level within a slot, which a slot that holds has for ever. -/
theorem toNat_level_iterate_action (hs : e.AtStart) {k : Nat} (hk : k < 32 ∨ e.slot.isRamp = false) :
    (action^[k] e).level.toNat = e.slot.level k := by
  cases hr : e.slot.isRamp with
  | false =>
    rw [iterate_action_of_not_isRamp hr, hs]
    cases h : e.slot with
    | up | down => simp [h, EnvSlot.isRamp] at hr
    | holdTop | holdBottom => rfl
  | true =>
    have hlt : k < 32 := hk.resolve_right (by simp [hr])
    rw [iterate_action_of_lt hs hlt]
    refine Nat.mod_eq_of_lt ?_
    cases e.slot <;> simp only [EnvSlot.level] <;> omega

end

/-! The two slots after a shape write. -/

variable (e : EnvGen) (shape : BitVec 4)

theorem iterate_action_setShape : action^[32] (e.setShape shape) = (e.setShape shape).nextSlot :=
  iterate_action_of_isRamp (e.setShape_atStart shape) (envSeg_false_isRamp shape)

/-- Two ramps take turns (R168). -/
theorem setShape_isPeriodicPt (h : (envSeg shape true).isRamp = true) :
    Function.IsPeriodicPt action 64 (e.setShape shape) := by
  show action^[32 + 32] _ = _
  rw [Function.iterate_add_apply, iterate_action_setShape]
  exact iterate_action_of_isRamp (e := (e.setShape shape).nextSlot) (nextSlot_atStart _) h

/-- The level in slot 0, and then in slot 1, from which only a ramp returns. -/
theorem toNat_level_setShape {n : Nat} (hn : n < 64 ∨ (envSeg shape true).isRamp = false) :
    (action^[n] (e.setShape shape)).level.toNat =
      if n < 32 then (envSeg shape false).level n else (envSeg shape true).level (n - 32) := by
  split
  next h => exact toNat_level_iterate_action (e.setShape_atStart shape) (.inl h)
  next h =>
    obtain ⟨k, rfl⟩ := Nat.exists_eq_add_of_le' (not_lt.mp h)
    rw [Function.iterate_add_apply, iterate_action_setShape, Nat.add_sub_cancel]
    exact toNat_level_iterate_action (nextSlot_atStart _) (hn.imp_left (by omega))

theorem toNat_level_setShape_of_isRamp (n : Nat) (h : (envSeg shape true).isRamp = true) :
    (action^[n] (e.setShape shape)).level.toNat =
      if n % 64 < 32 then (envSeg shape false).level (n % 64) else (envSeg shape true).level (n % 64 - 32) := by
  rw [← (setShape_isPeriodicPt e shape h).iterate_mod_apply n]
  exact toNat_level_setShape e shape (.inl (Nat.mod_lt n (by omega)))

end EnvGen

/-- The level sequence of a shape whose slot 1 holds. -/
theorem envelopeLevel_of_not_isRamp {shape : BitVec 4} (n : Nat) (h : (envSeg shape true).isRamp = false) :
    envelopeLevel shape.toNat n =
      if n < 32 then (envSeg shape false).level n else (envSeg shape true).level (n - 32) := by
  have hshape := shape.isLt
  revert h
  unfold envSeg envelopeLevel
  generalize shape.toNat = m at *
  interval_cases m <;> simp [EnvSlot.level, EnvSlot.isRamp] <;> omega

/-- The level sequence of a shape whose slot 1 is a ramp. -/
theorem envelopeLevel_of_isRamp {shape : BitVec 4} (n : Nat) (h : (envSeg shape true).isRamp = true) :
    envelopeLevel shape.toNat n =
      if n % 64 < 32 then (envSeg shape false).level (n % 64) else (envSeg shape true).level (n % 64 - 32) := by
  have hshape := shape.isLt
  revert h
  unfold envSeg envelopeLevel
  generalize shape.toNat = m at *
  by_cases hn : n % 64 < 32
  · interval_cases m <;> simp [EnvSlot.level, EnvSlot.isRamp, hn] <;> omega
  · interval_cases m <;> simp [EnvSlot.level, EnvSlot.isRamp, hn] <;> omega

/-- Settles O29: a period is one level step, and the level steps go through the two slots of the shape. -/
theorem envelopeFollowsItsShape : Obligations.EnvelopeFollowsItsShape := by
  unfold Obligations.EnvelopeFollowsItsShape
  intro e shape n j hj
  have hlevel := EnvGen.iterate_tick_level (e := e.setShape shape) rfl n hj
  refine (congrArg BitVec.toNat hlevel).trans ?_
  cases h : (envSeg shape true).isRamp with
  | false => rw [envelopeLevel_of_not_isRamp n h, e.toNat_level_setShape shape (.inr h)]
  | true => rw [envelopeLevel_of_isRamp n h, e.toNat_level_setShape_of_isRamp shape n h]

/-! ## Ticks and sub-samples -/

theorem Chip.ticks_eq_iterate (p : Params) (n : Nat) (chip : Chip) :
    Chip.ticks p n chip = (Chip.tick p)^[n] chip := by
  induction n generalizing chip with
  | zero => rfl
  | succ n ih => exact ih _

/-- Settles O34: `advance_spec` at the step of a configuration. -/
theorem accumulatorLoopTakesTheWholePart : Obligations.AccumulatorLoopTakesTheWholePart := by
  unfold Obligations.AccumulatorLoopTakesTheWholePart
  refine ⟨fun _ _ => rfl, ?_⟩
  rintro chip clock sr _ hsr hlow hhigh rfl
  obtain ⟨n, hn, hadvance, hfrac⟩ := advance_spec params hlow hhigh (stepOf_between clock hsr)
  rw [Chip.ticks_eq_iterate] at hadvance
  rw [← hn]
  exact ⟨Int.natCast_nonneg n, hadvance, hfrac⟩

section
variable (p : Params) (cfg : Cfg) (chip : Chip)

/-- The generators run without the histories. -/
theorem advance_histories (step : F64) :
    (chip.advance p step).firL = chip.firL ∧ (chip.advance p step).firR = chip.firR ∧
      (chip.advance p step).dcL = chip.dcL ∧ (chip.advance p step).dcR = chip.dcR := by
  obtain ⟨n, a, h⟩ := Chip.advance_eq p step chip
  rw [h]
  exact (ticks_histories p n chip).2

theorem advance_pans (step : F64) (k : Fin 3) :
    ((chip.advance p step).tones.get k).panL = (chip.tones.get k).panL ∧
      ((chip.advance p step).tones.get k).panR = (chip.tones.get k).panR := by
  obtain ⟨n, a, h⟩ := Chip.advance_eq p step chip
  rw [h]
  exact ticks_pans p n chip k

/-- One round of R161. -/
theorem Chip.subSample_eq : chip.subSample p cfg = { Chip.advance p cfg.step chip with
    firL := (mix p cfg.mode (Chip.advance p cfg.step chip)).1 :: chip.firL.dropLast
    firR := (mix p cfg.mode (Chip.advance p cfg.step chip)).2 :: chip.firR.dropLast } := by
  obtain ⟨hL, hR, -⟩ := advance_histories p chip cfg.step
  rw [← hL, ← hR]
  rfl

theorem Chip.subSamples_eq_iterate (n : Nat) : chip.subSamples p cfg n = (Chip.subSample p cfg)^[n] chip := by
  induction n generalizing chip with
  | zero => rfl
  | succ n ih => exact ih _

end

/-- Settles O32: the sub-samples of a sample, each as `Chip.subSample_eq` writes it. -/
theorem sampleIsEightSubSamples : Obligations.SampleIsEightSubSamples := by
  unfold Obligations.SampleIsEightSubSamples
  intro p cfg chip
  refine ⟨chip.subSamples p cfg 8, ?_, rfl, rfl⟩
  rw [Chip.subSamples_eq_iterate, funext (Chip.subSample_eq p cfg)]

/-! ## The mixer, the filter and the DC blocker -/

/-- The index is 0 where the gate is closed (R169, R170). -/
theorem dacIndex_eq (t : ToneChannel) (noise : Bool) (level : BitVec 5) : dacIndex t noise level =
    if (t.bit = true ∨ t.tOff = true) ∧ (noise = true ∨ t.nOff = true) then
      (if t.eOn then level.toNat else 2 * t.volume.toNat + 1)
    else 0 := by
  have hgate : gate t noise = true ↔ (t.bit = true ∨ t.tOff = true) ∧ (noise = true ∨ t.nOff = true) := by
    simp only [gate, Bool.and_eq_true, Bool.or_eq_true]
  simp only [dacIndex, ← hgate]
  cases gate t noise <;> rfl

theorem dacIndex_lt (t : ToneChannel) (noise : Bool) (level : BitVec 5) : dacIndex t noise level < 32 := by
  have hvolume := t.volume.isLt
  have hlevel := level.isLt
  rw [dacIndex_eq]
  split
  · split <;> omega
  · omega

section
variable {p : Params} (hym : p.dacYm.length = 32) (hay : p.dacAy.length = 32) (mode : ChipMode)
include hym hay

theorem dacTable_length : (dacTable p mode).length = 32 := by
  cases mode
  · exact hym
  · exact hay

/-- The index stays in a table of 32 entries (R171, R172). -/
theorem getElem?_dacTable_dacIndex (chip : Chip) (c : Fin 3) :
    (dacTable p mode)[dacIndex (chip.tones.get c) chip.noise.out chip.env.level]? =
      some (amplitude p mode chip c) := by
  have hlt := dacIndex_lt (chip.tones.get c) chip.noise.out chip.env.level
  rw [← dacTable_length hym hay mode] at hlt
  rw [amplitude, List.getD_eq_getElem _ _ hlt]
  exact List.getElem?_eq_getElem hlt

end

/-- Settles O30: `dacIndex_eq` and `dacIndex_lt` say the index, and the default tables are read entry by entry. -/
theorem dacIndexAndTables : Obligations.DacIndexAndTables := by
  unfold Obligations.DacIndexAndTables
  refine ⟨dacIndex_eq, dacIndex_lt, fun mode => ⟨dacTable_length params_ok.dacYm params_ok.dacAy mode, ?entries⟩,
    ?pairs, coeffs_length, ?symmetric, ?centre, ?sum⟩
  case entries =>
    cases mode
    · decide +kernel
    · decide +kernel
  case pairs => decide +kernel
  case symmetric => decide +kernel
  case centre => decide +kernel
  case sum => decide +kernel

/-- Each side of the mixer adds channels 0, 1 and 2 to 0.0 (R172). -/
theorem mix_eq_foldl (p : Params) (mode : ChipMode) (chip : Chip) : mix p mode chip =
    (([0, 1, 2] : List (Fin 3)).foldl (fun y c => y.add ((amplitude p mode chip c).mul (chip.tones.get c).panL))
        F64.zero,
      ([0, 1, 2] : List (Fin 3)).foldl (fun y c => y.add ((amplitude p mode chip c).mul (chip.tones.get c).panR))
        F64.zero) := rfl

/-- The filter adds coefficient times sub-sample from the newest to the oldest (R175). -/
theorem firSum_eq_foldl (y : F64) (hs xs : List F64) :
    firSum y hs xs = (hs.zip xs).foldl (fun y hx => y.add (hx.1.mul hx.2)) y := by
  induction hs generalizing y xs with
  | nil => rfl
  | cons h hs ih =>
    cases xs with
    | nil => rfl
    | cons x xs => exact ih _ xs

/-- The DC blocker on a delay line of DC_N inputs (R176). -/
theorem DcSide.step_eq {p : Params} {d : DcSide} {oldest : F64} (hlen : d.x.length = p.dcN)
    (hlast : d.x.getLast? = some oldest) (x : F64) :
    d.step p x = ((x.sub oldest).add (p.dcLeak.mul d.y),
      ⟨x :: d.x.dropLast, (x.sub oldest).add (p.dcLeak.mul d.y)⟩) := by
  rw [List.getLast?_eq_getElem?, hlen] at hlast
  rw [DcSide.step, List.getD_eq_getElem?_getD, hlast]
  rfl

/-- Settles O35: the amplitude and the two sums are as written, and the DC blocker is `DcSide.step_eq`, whose delay
line has one input at the default. -/
theorem mixerFilterAndDcBlockerCompute : Obligations.MixerFilterAndDcBlockerCompute := by
  unfold Obligations.MixerFilterAndDcBlockerCompute
  refine ⟨fun _ => ⟨rfl, rfl⟩, fun p mode chip c hym hay => getElem?_dacTable_dacIndex hym hay mode chip c,
    mix_eq_foldl, fun p => firSum_eq_foldl F64.zero p.firCoeffs, ?_, fun _ x _ => DcSide.step_eq rfl rfl x⟩
  rintro p d x oldest _ hlen hlast rfl
  exact DcSide.step_eq hlen hlast x

/-! ## PROCESS -/

/-- PROCESS is refused before a CONFIGURE (R160). -/
theorem State.process_of_not_configured (p : Params) {s : State} (h : s.cfg.configured = false) :
    s.process p = s.raise .unconfigured := if_neg (by simp [h])

/-- PROCESS runs the chip for one sample after a CONFIGURE (R160). -/
theorem State.process_of_configured (p : Params) {s : State} (h : s.cfg.configured = true) :
    s.process p = s.chipSample p := if_pos h

/-- Settles O31: the two answers of PROCESS, with the sample as `State.chipSample_eq` writes it. -/
theorem processRunsOneSample : Obligations.ProcessRunsOneSample := by
  unfold Obligations.ProcessRunsOneSample
  refine fun s => ⟨fun h => ?_, fun h => ?_, fun p => execWith_eq p .process s⟩
  · exact (exec_eq .process s).trans (congrArg _ (s.process_of_not_configured params h))
  · exact (exec_eq .process s).trans (congrArg _ (s.process_of_configured params h))

end Sys2Proof.Machine

/-! ## Silence -/

namespace Sys2Proof.F64

/-- A finite real times +0.0 is the zero with its sign. -/
theorem mul_zero_eq {a : F64} (ha : a.isFinite = true) : a.mul zero = ofMag a.sign 0 := by
  obtain ⟨_, _, hv, -, -⟩ := canon ha
  have hzero : zero.value = .fin false 0 (-1074) := by decide
  simp [mul, hv, hzero, ofDyadic, ofRatio, fpRound]

/-- A sum that starts from +0.0 stays there over products with +0.0, whatever their sign. -/
theorem zero_add_mul_zero {a : F64} (ha : a.isFinite = true) : zero.add (a.mul zero) = zero := by
  rw [mul_zero_eq ha]
  cases a.sign <;> decide

end Sys2Proof.F64

namespace Sys2Proof.Machine

theorem firSum_of_zeros {hs xs : List F64} (hh : ∀ h ∈ hs, h.isFinite = true) (hx : ∀ x ∈ xs, x = F64.zero) :
    firSum F64.zero hs xs = F64.zero := by
  induction hs generalizing xs with
  | nil => rfl
  | cons h hs ih =>
    cases xs with
    | nil => rfl
    | cons x xs =>
      obtain ⟨hhead, htail⟩ := List.forall_mem_cons.mp hh
      obtain ⟨rfl, hzeros⟩ := List.forall_mem_cons.mp hx
      rw [firSum, F64.zero_add_mul_zero hhead]
      exact ih htail hzeros

theorem fir_of_zeros {xs : List F64} (hx : ∀ x ∈ xs, x = F64.zero) : fir params xs = F64.zero :=
  firSum_of_zeros (fun h hh => ((F64.between_iff (by decide) (by decide) h).mp (coeffs_between h hh)).1) hx

/-- A DC blocker that has seen +0.0 only. -/
structure DcSide.Silent (d : DcSide) : Prop where
  x : ∀ x ∈ d.x, x = F64.zero
  y : d.y = F64.zero

theorem DcSide.Silent.step {d : DcSide} (h : d.Silent) : (d.step params F64.zero).1 = F64.zero := by
  have hold : d.x.getD (params.dcN - 1) F64.zero = F64.zero := by
    rw [List.getD_eq_getElem?_getD]
    cases hx : d.x[params.dcN - 1]? with
    | none => rfl
    | some x => exact h.x x (List.mem_of_getElem? hx)
  have hsub : F64.zero.sub F64.zero = F64.zero := by decide
  rw [DcSide.step, hold, h.y, hsub, F64.zero_add_mul_zero dcLeak_range.1]

/-- A chip whose gains and histories are +0.0, whatever its generators do. -/
structure Chip.Silent (c : Chip) : Prop where
  panL : ∀ k, (c.tones.get k).panL = F64.zero
  panR : ∀ k, (c.tones.get k).panR = F64.zero
  firL : ∀ x ∈ c.firL, x = F64.zero
  firR : ∀ x ∈ c.firR, x = F64.zero
  dcL : c.dcL.Silent
  dcR : c.dcR.Silent

namespace Chip.Silent

theorem reset (p : Params) : (Chip.reset p).Silent where
  panL k := by fin_cases k <;> rfl
  panR k := by fin_cases k <;> rfl
  firL _ hx := List.eq_of_mem_replicate hx
  firR _ hx := List.eq_of_mem_replicate hx
  dcL := ⟨fun _ hx => List.eq_of_mem_replicate hx, rfl⟩
  dcR := ⟨fun _ hx => List.eq_of_mem_replicate hx, rfl⟩

variable {c : Chip} (h : c.Silent) (cfg : Cfg)
include h

theorem mix (mode : ChipMode) : Machine.mix params mode c = (F64.zero, F64.zero) := by
  have hfinite (k : Fin 3) : (amplitude params mode c k).isFinite = true :=
    ((F64.between_iff (by decide) (by decide) _).mp (amplitude_between mode c k)).1
  simp only [mix_eq_foldl, h.panL, h.panR, List.foldl_cons, List.foldl_nil, F64.zero_add_mul_zero (hfinite _)]

theorem advance (p : Params) (step : F64) : (c.advance p step).Silent := by
  obtain ⟨hfirL, hfirR, hdcL, hdcR⟩ := advance_histories p c step
  exact {
    panL := fun k => (advance_pans p c step k).1.trans (h.panL k)
    panR := fun k => (advance_pans p c step k).2.trans (h.panR k)
    firL := hfirL ▸ h.firL
    firR := hfirR ▸ h.firR
    dcL := hdcL ▸ h.dcL
    dcR := hdcR ▸ h.dcR }

theorem firPush : (c.firPush (F64.zero, F64.zero)).Silent where
  panL := h.panL
  panR := h.panR
  firL x hx := (mem_shiftIn hx).elim id (h.firL x)
  firR x hx := (mem_shiftIn hx).elim id (h.firR x)
  dcL := h.dcL
  dcR := h.dcR

theorem subSample : (c.subSample params cfg).Silent := by
  have hadvance := h.advance params cfg.step
  rw [Chip.subSample, hadvance.mix cfg.mode]
  exact hadvance.firPush

theorem subSamples (n : Nat) : (c.subSamples params cfg n).Silent := by
  induction n generalizing c with
  | zero => exact h
  | succ n ih => exact ih (h.subSample cfg)

theorem chipSample : (Machine.chipSample params cfg c).1 = (F64.zero, F64.zero) := by
  have hsub := h.subSamples cfg 8
  rw [Machine.chipSample, fir_of_zeros hsub.firL, fir_of_zeros hsub.firR, hsub.dcL.step, hsub.dcR.step]

end Chip.Silent

/-- Settles O33: the chip that a CONFIGURE leaves is silent, so the pair of its first sample is. -/
theorem firstSampleAfterConfigureIsSilent : Obligations.FirstSampleAfterConfigureIsSilent := by
  unfold Obligations.FirstSampleAfterConfigureIsSilent
  intro s mode sr clock hsr hclock
  have hconfigure : exec (.configure mode sr clock) s = _ :=
    (exec_eq _ s).trans (congrArg _ (s.configure_of_rate_ne_zero params (not_or.mpr ⟨hsr, hclock⟩)))
  have hzero : F64.zero.toF32 = 0 := by decide
  refine ⟨_, _, hconfigure, (exec_eq .process _).trans (congrArg _ (State.process_of_configured params rfl)), ?_⟩
  rw [State.chipSample_eq, (Chip.Silent.reset params).chipSample, hzero]

end Sys2Proof.Machine

/-! # The voice tick (43_voice.md)

A tick is read off two lemmas, `voiceTick_voice` for the voice and `voiceTick_whole` for the chip. What they write is
said by one rule for each part, in terms of the voice that the tick finds. -/

namespace Sys2Proof.Machine

/-! ## What a tick leaves of the voice -/

section
variable (x : TickEnv) (v : Voice) (chip : Chip)

/-- The step of the sequencer that a tick plays (R204, R205). -/
def tickSeqIdx : Option (Fin 16) := seqIndex (x.int PatchId.seqEnd).toNat (x.int PatchId.seqLoop).toNat (rawStep x v)

/-- The voice that a tick leaves, as the one it finds with each field that it writes (R200). -/
theorem voiceTick_voice : (voiceTick x v chip).1 = { v with
    first := false
    onSmp := satSucc v.onSmp
    pitchSmp := satSucc v.pitchSmp
    envSmp := if v.noteOn then v.envSmp else satSucc v.envSmp
    envLevel := envelope x v (voiceTime x v) (tickBuzz x v)
    lastBit := (tickChannel x v chip).bit
    seqIdx := tickSeqIdx x v
    arpSel := (tickSeqVoice x v).arpSel
    arpPrev := (tickSeqVoice x v).arpPrev
    arpLastR := (tickSeqVoice x v).arpLastR
    rmIdx := (tickRingmod x v chip).rmIdx
    rmDir := (tickRingmod x v chip).rmDir
    rmPhase := (tickRingmod x v chip).rmPhase
    lastShape := if tickBuzz x v && v.noteOn then some (buzzerShape x) else v.lastShape
    buzzPeriod := if tickBuzz x v then buzzerPeriod x (tickPitch x v) else v.buzzPeriod } := by
  obtain ⟨sel, prev, last, hseq⟩ := tickSeqVoice_frame x v
  rw [voiceTick_whole, tickVoice, tickEnvelope, hseq]
  rfl

end

/-! ## The pitch

The pitch of a tick reads the sequencer step and the arpeggio selection that the tick leaves (R206, R207). -/

section
variable (x : TickEnv) (v : Voice)

theorem TickEnv.lnf_eq : x.lnf = if x.cfg.mode = .ym2149 then x.par.lnfYm else x.par.lnfAy := by
  unfold TickEnv.lnf
  cases x.cfg.mode <;> rfl

theorem arpOffset_tickSeqVoice : arpOffset x (tickSeqVoice x v) =
    if (playMode x.patch).isArp then (F64.ofNat (tickSeqVoice x v).arpSel.toNat).sub (F64.ofNat v.pitch.toNat)
    else F64.zero := by
  rw [arpOffset, show (tickSeqVoice x v).pitch = v.pitch from (tickSequencer_sameNote x v).pitch]

theorem tickSequencer_snd : (tickSequencer x v).2 = seqTerms x (tickSeqIdx x v) :=
  congrArg Prod.snd (tickSequencer_eq x v)

theorem tickPitch_eq : tickPitch x v =
    finalPitch x v (voiceTime x v) (arpOffset x (tickSeqVoice x v)) (seqTerms x (tickSeqIdx x v)).pitch := by
  obtain ⟨sel, prev, last, hseq⟩ := tickSeqVoice_frame x v
  rw [tickPitch, tickSequencer_snd, hseq]
  rfl

end

/-! ## Silence after ALL_NOTES_OFF -/

/-- A released voice has level 0 when the release time is 0, in buzzer mode or not (R220, R221). -/
theorem envelope_of_released {x : TickEnv} (hrel : x.real PatchId.envRelease = F64.zero) {v : Voice}
    (hv : v.noteOn = false) (t : F64) (buzz : Bool) : envelope x v t buzz = F64.zero := by
  have hlt : F64.zero.lt F64.zero = false := by decide
  cases buzz with
  | true => simp [envelope, hv]
  | false => simp [envelope, hv, releaseEnvelope, hrel, hlt]

theorem voiceTick_silent {x : TickEnv} (hrel : x.real PatchId.envRelease = F64.zero) {v : Voice}
    (hv : v.noteOn = false) (chip : Chip) : (voiceTick x v chip).1.silent = true := by
  have hzero : F64.zero.eq F64.zero = true := by decide
  rw [voiceTick_voice]
  simp only [Voice.silent, hv, envelope_of_released hrel hv, hzero, Bool.not_false, Bool.and_self]

/-- The tick phase frees every voice of a list of released ones (R276). -/
theorem tickVoices_silent_of_released {x : TickEnv} (hrel : x.real PatchId.envRelease = F64.zero) {vs : List Voice}
    (hvs : ∀ v ∈ vs, v.noteOn = false) (chip : Chip) : ∀ w ∈ (tickVoices x vs chip).1, w.silent = true := by
  induction vs generalizing chip with
  | nil => exact List.forall_mem_nil _
  | cons v vs ih =>
    obtain ⟨hv, hrest⟩ := List.forall_mem_cons.mp hvs
    exact List.forall_mem_cons.mpr ⟨voiceTick_silent hrel hv chip, ih hrest _⟩

section
variable {s : State} (p : Params)

theorem State.tickedVoices_of_released (hrel : real s.patch PatchId.envRelease = F64.zero)
    (hvs : ∀ v ∈ s.eng.voices, v.noteOn = false) : s.tickedVoices p = [] :=
  List.filter_eq_nil_iff.mpr fun w hw => by
    rw [tickVoices_silent_of_released (x := s.tickEnv p) hrel hvs s.chip w hw]
    decide

/-- With no voices n samples are n silent pairs and nothing else (R275). -/
theorem State.renderSamples_idle (h : s.eng.voices = []) (n : Nat) :
    s.renderSamples p n = { s with out := s.out ++ List.replicate n (0, 0) } := by
  have hzero : F64.zero.toF32 = 0 := by decide
  induction n generalizing s with
  | zero => simp [State.renderSamples]
  | succ n ih =>
    rw [State.renderSamples, State.renderSample_idle p h, ih (by exact h)]
    simp [State.emit, hzero, List.replicate_succ]

/-- The sample that frees the last voice is already silent, and so are those after it (R275). -/
theorem State.renderSamples_of_tickedVoices_nil (h : s.tickedVoices p = []) (n : Nat) :
    s.renderSamples p (n + 1) = { s.tickPhase p with out := s.out ++ List.replicate (n + 1) (0, 0) } := by
  have hzero : F64.zero.toF32 = 0 := by decide
  have hsample : s.renderSample p = (s.tickPhase p).emit F64.zero F64.zero := by
    rw [State.renderSample, State.tickPhase_eq, h]
    rfl
  rw [State.renderSamples, hsample, State.renderSamples_idle p (by exact h)]
  simp [State.emit, State.tickPhase_eq, hzero, List.replicate_succ]

/-- A render of at least one sample frees a list of released voices when the release time is 0, and is silent. -/
theorem State.render_of_released (hconf : s.cfg.configured = true)
    (hrel : real s.patch PatchId.envRelease = F64.zero) (hvs : ∀ v ∈ s.eng.voices, v.noteOn = false) {n : Nat}
    (hn : n ≠ 0) : s.render p n = { s.tickPhase p with out := s.out ++ List.replicate n (0, 0) } := by
  obtain ⟨m, rfl⟩ := Nat.exists_eq_succ_of_ne_zero hn
  rw [State.render, if_pos hconf]
  exact State.renderSamples_of_tickedVoices_nil p (State.tickedVoices_of_released p hrel hvs) m

end

/-- Settles O55: `releaseAll` leaves no voice held, so `State.render_of_released` says what the render does. -/
theorem allNotesOffThenSilence : Obligations.AllNotesOffThenSilence := by
  unfold Obligations.AllNotesOffThenSilence
  intro s mch n hconf hn hrel
  have hvs : ∀ v ∈ s.eng.allNotesOff.voices, v.noteOn = false := fun _ hv => releaseAll_noteOn hv
  have hn0 : n.toNat ≠ 0 := fun h => hn (BitVec.eq_of_toNat_eq h)
  have hrender := State.render_of_released (s := { s with eng := s.eng.allNotesOff }) params hconf hrel hvs hn0
  exact ⟨_, _, exec_eq (.allNotesOff mch) s, (exec_eq (.render n) _).trans (congrArg _ hrender),
    State.tickedVoices_of_released params hrel hvs, rfl, rfl⟩

/-! ## The commit

`tickCommit_eq` says what a tick writes to its channel and to the noise generator, the rules of `tickEnvGen` what it
writes to the shared envelope. -/

section
variable (x : TickEnv) (v : Voice) (chip : Chip)

/-- The time of the glide and the fraction of it that has passed (R214). -/
def glideTime : F64 :=
  (x.real PatchId.portaTime).add (((F64.ofNat x.eng.ccPorta.toNat).div (F64.dec 127)).mul x.par.portaCcMax)

def glidePhase : F64 := ((smp v.pitchSmp).div x.sr).div (glideTime x)

/-- The glide while it runs (R214). -/
theorem portamento_eq : portamento x v =
    if F64.zero.lt (glideTime x) && (glidePhase x v).lt F64.one then
      (v.portaSrc.sub (F64.ofNat v.pitch.toNat)).mul (F64.one.sub
        (glide x.par.exp ((x.real PatchId.portaSmoothness).mul x.par.portaKMax) (glidePhase x v)))
    else F64.zero := by
  simp only [Bool.and_eq_true, ite_and]
  rfl

theorem toNat_noisePeriod (t arp : F64) (sn : Int) : ((noisePeriod x v t arp sn).toNat : Int) = max 0 (min 31
    (((noiseBase x t).add ((x.real PatchId.noisePitchSensitivity).mul ((F64.dec 60).sub
      ((F64.ofNat v.pitch.toNat).add arp)))).add (F64.ofInt sn)).roundh) :=
  toNat_ofInt_clamp (n := 5) (by decide) (by decide) _

theorem toNat_tonePeriod (pitch : F64) : ((tonePeriod x pitch).toNat : Int) = max 0 (min 4095
    (((x.clk.div (F64.dec 16)).div x.lnf).mul (x.par.exp2 (pitch.neg.div (F64.dec 12)))).roundh) :=
  toNat_ofInt_clamp (n := 12) (by decide) (by decide) _

theorem toNat_buzzerPeriod (pitch : F64) : ((buzzerPeriod x pitch).toNat : Int) = max 0 (min 65535
    ((x.clk.div (F64.dec 256)).div (x.lnf.mul (x.par.exp2
      ((pitch.add (x.real PatchId.buzzerDetune)).div (F64.dec 12))))).roundh) :=
  toNat_ofInt_clamp (n := 16) (by decide) (by decide) _

theorem toNat_chipVolume (level : F64) : ((chipVolume level).toNat : Int) = max 0 (min 15 level.roundh) :=
  toNat_ofInt_clamp (n := 4) (by decide) (by decide) _

theorem finalPitch_eq (t arp sp : F64) : finalPitch x v t arp sp =
    (((((((((F64.ofNat v.pitch.toNat).add (x.real PatchId.toneDetune)).add (if v.chan = 0 then F64.zero
      else if v.chan = 1 then (x.real PatchId.toneSpread).neg else x.real PatchId.toneSpread)).add
        (pitchEnvelope x t)).add (portamento x v)).add (lfoOffset x v t)).add arp).add sp).add (wheelOffset x)) := by
  rw [finalPitch, spread_eq]

/-- The level of a tick, at the ring-mod index that it leaves (R228 to R230). -/
def tickLevel : F64 :=
  finalLevel x v (ringmodLevel x { v with rmIdx := (tickRingmod x v chip).rmIdx } (seqTerms x (tickSeqIdx x v)).depth)
    (envelope x v (voiceTime x v) (tickBuzz x v)) (seqTerms x (tickSeqIdx x v)).level

/-- What a tick commits, from the voice that it finds (R231). -/
theorem tickCommit_eq : tickCommit x v chip =
    { tonePeriod := tonePeriod x (tickPitch x v)
      noisePeriod := noisePeriod x v (voiceTime x v) (arpOffset x (tickSeqVoice x v)) (seqTerms x (tickSeqIdx x v)).noise
      toneOff := (gates x (voiceTime x v)).toneOff
      noiseOff := (gates x (voiceTime x v)).noiseOff
      eOn := tickBuzz x v && v.noteOn
      volume := chipVolume (tickLevel x v chip) } := by
  obtain ⟨sel, prev, last, hseq⟩ := tickSeqVoice_frame x v
  rw [tickLevel, ← tickSequencer_snd, tickCommit, tickVoice, tickEnvelope, hseq]
  rfl

/-! The shared envelope (R226, R227, R231, R232). -/

/-- The fraction of a ramp at which the first tick of a buzzer voice starts (R232). -/
def buzzerStart : F64 :=
  if x.flag PatchId.buzzerReset then x.real PatchId.buzzerPhase else u01 (rnd x.par .buzz v.serial)

def buzzerStartStep : Nat := min ((buzzerStart x v).mul (F64.dec 32)).floor.toNat 31

theorem buzzerReset_env : (buzzerReset x v chip).env = { chip.env with
    segment := false
    counter := 0
    level := BitVec.ofNat 5 (if chip.env.shape.toNat < 4 ∨ 8 ≤ chip.env.shape.toNat ∧ chip.env.shape.toNat < 12
      then 31 - buzzerStartStep x v else buzzerStartStep x v) } := by
  have hdec : F64.dec 32 = F64.ofNat 32 := by decide
  have hstart : startLevel chip.env.shape false = 31 ↔
      chip.env.shape.toNat < 4 ∨ 8 ≤ chip.env.shape.toNat ∧ chip.env.shape.toNat < 12 := by
    rw [startLevel_eq]
    split <;> simp [*]
  simp only [← hstart, buzzerStartStep, hdec]
  rfl

/-- The envelope that the commit of a tick finds: a sync in buzzer mode has restarted its count (R226). -/
def tickSyncedEnv : EnvGen := if tickSync x v chip && tickBuzz x v then { chip.env with counter := 0 } else chip.env

theorem tickEnvGen_of_not_eOn (h : (tickBuzz x v && v.noteOn) = false) :
    tickEnvGen x v chip = tickSyncedEnv x v chip := by
  have hcommit : (tickCommit x v chip).eOn = false := h
  rw [tickEnvGen, hcommit]
  rfl

theorem tickEnvGen_of_not_buzz (h : tickBuzz x v = false) : tickEnvGen x v chip = chip.env := by
  rw [tickEnvGen_of_not_eOn x v chip (by rw [h, Bool.false_and]), tickSyncedEnv, h, Bool.and_false]
  rfl

/-- The writes of a held buzzer voice (R231): the period, and the shape where it changes. -/
def tickBuzzEnv : EnvGen := buzzEnvelope x (tickVoice x v chip) (tickSyncedEnv x v chip)

theorem tickEnvGen_of_eOn (h : (tickBuzz x v && v.noteOn) = true) : tickEnvGen x v chip =
    if v.first then (buzzerReset x v { chip with env := tickBuzzEnv x v chip }).env else tickBuzzEnv x v chip := by
  have hcommit : (tickCommit x v chip).eOn = true := h
  rw [tickEnvGen, hcommit]
  rfl

theorem tickBuzzEnv_eq : tickBuzzEnv x v chip =
    if v.lastShape = some (buzzerShape x) then
      { tickSyncedEnv x v chip with period := (tickVoice x v chip).buzzPeriod }
    else { tickSyncedEnv x v chip with
      period := (tickVoice x v chip).buzzPeriod, shape := buzzerShape x, counter := 0, segment := false
      level := if (buzzerShape x).toNat < 4 ∨ 8 ≤ (buzzerShape x).toNat ∧ (buzzerShape x).toNat < 12
        then 31 else 0 } := by
  obtain ⟨sel, prev, last, hseq⟩ := tickSeqVoice_frame x v
  rw [← startLevel_eq, tickBuzzEnv, tickVoice, hseq]
  rfl

end

/-- The salt of the LFO is 0 (00_scope.md R15). -/
theorem rnd_lfo (p : Params) : rnd p .lfo = p.hash32 := funext fun n => congrArg p.hash32 (BitVec.add_zero n)

/-- Settles O57: the tick is `voiceTick_voice` and `voiceTick_whole`, and each quantity of the statement is a function of
the model on the voice that the tick finds, in the order of the steps of R200. -/
theorem voiceTickWritesOnlyItsChannel : Obligations.VoiceTickWritesOnlyItsChannel := by
  unfold Obligations.VoiceTickWritesOnlyItsChannel
  intro x v w chip after h
  obtain rfl : (voiceTick x v chip).1 = w := congrArg Prod.fst h
  obtain rfl : (voiceTick x v chip).2 = after := congrArg Prod.snd h
  rw [show (voiceTick x v chip).2 = _ from congrArg Prod.snd (voiceTick_whole x v chip), voiceTick_voice, tickCommit_eq]
  dsimp only
  have hchannel := Tones.get_set_same chip.tones v.chan (tickChannel x v chip)
  refine ⟨⟨rfl, rfl, rfl, rfl, rfl, rfl, rfl, rfl⟩, fun k hk => Tones.get_set_other _ _ _ _ hk, rfl, satSucc_toNat _,
    satSucc_toNat _, ?envSmp, voiceTime x v, x.sr, x.clk, x.lnf, F64.ofNat v.pitch.toNat, rfl, rfl, rfl, x.lnf_eq, rfl,
    ?_⟩
  case envSmp => rw [apply_ite BitVec.toNat, satSucc_toNat]
  -- the gates (R209)
  refine ⟨_, _, tickBuzz x v, tickBuzz x v && v.noteOn, timedOff (voiceTime x v), rfl, rfl, rfl, rfl, rfl, ?_⟩
  -- the sequencer and the arpeggio (R206, R207)
  refine ⟨(seqTerms x (tickSeqIdx x v)).pitch, (seqTerms x (tickSeqIdx x v)).depth, (seqTerms x (tickSeqIdx x v)).level,
    arpOffset x (tickSeqVoice x v), (seqTerms x (tickSeqIdx x v)).noise, ?terms, arpOffset_tickSeqVoice x v, ?_⟩
  case terms => cases tickSeqIdx x v <;> rfl
  -- the noise period (R210)
  refine ⟨noiseBase x (voiceTime x v), rfl, toNat_noisePeriod x v _ _ _, ?_⟩
  -- the pitch (R212 to R216)
  refine ⟨pitchEnvelope x (voiceTime x v), portamento x v, lfoOffset x v (voiceTime x v), glideTime x, glidePhase x v, _,
    _, _, _, _, _, lfoWave x v, rfl, rfl, rfl, rfl, rfl, rfl, portamento_eq x v, rfl, rfl, ?wave, rfl, rfl, ?_⟩
  case wave =>
    unfold lfoWave
    rw [rnd_lfo]
    cases lfoShape x.patch <;> rfl
  refine ⟨tickPitch x v, _, (tickPitch_eq x v).trans (finalPitch_eq x v _ _ _), tickPitch_eq x v,
    toNat_tonePeriod x (tickPitch x v), ?_⟩
  -- the level (R228 to R230)
  refine ⟨velocityGain v.velocity, _, ringmodLevel x { v with rmIdx := (tickRingmod x v chip).rmIdx }
    (seqTerms x (tickSeqIdx x v)).depth, tickLevel x v chip, _, rfl, rfl, rfl, rfl, toNat_chipVolume _, ?_⟩
  -- the channel (R203, R231, R232)
  refine ⟨_, firstPhase x v, _, rfl, rfl, rfl, hchannel.trans ?channel, congrArg ToneChannel.bit hchannel.symm, ?_⟩
  case channel =>
    rw [tickChannel, tickCommit_eq]
    rfl
  -- the shared envelope (R226, R227, R231, R232)
  refine ⟨tickSync x v chip, tickSyncedEnv x v chip, rfl, rfl, fun heOn => ⟨tickEnvGen_of_not_eOn x v chip heOn, ?_⟩,
    fun hbuzz => ⟨tickEnvGen_of_not_buzz x v chip hbuzz, ?_⟩, fun hbuzz => ?_, fun heOn => ?_⟩
  · rw [heOn]
    rfl
  · rw [hbuzz]
    rfl
  · rw [if_pos hbuzz]
    exact toNat_buzzerPeriod x (tickPitch x v)
  · refine ⟨buzzerShape x, tickBuzzEnv x v chip, buzzerStart x v, buzzerStartStep x v, rfl, if_pos heOn,
      tickBuzzEnv_eq x v chip, rfl, rfl, ?_⟩
    rw [tickEnvGen_of_eOn x v chip heOn, buzzerReset_env]

end Sys2Proof.Machine

/-! ## The envelope -/

namespace Sys2Proof.F64

/-- An interpolation towards 0 stays at or below its start, rounding included. -/
theorem lerp_zero_le {a u : F64} (ha : a.Between 0 15) (hu : u.Between 0 1) : (lerp a zero u).le a = true := by
  obtain ⟨fa, a0, a1⟩ := (between_iff (by decide) (by decide) _).mp ha
  obtain ⟨fu, u0, u1⟩ := (between_iff (by decide) (by decide) _).mp hu
  push_cast at a0 a1 u0 u1
  obtain ⟨fd, d0, d1⟩ := (between_iff (by decide) (by decide) _).mp
    (sub_between isFinite_zero fa (lo := -15) (hi := 0) (by rw [toRat_zero]; push_cast; linarith)
      (by rw [toRat_zero]; push_cast; linarith) (by decide) (by decide))
  push_cast at d0 d1
  obtain ⟨fp, p0, p1⟩ := (between_iff (by decide) (by decide) _).mp
    (mul_between fd fu (lo := -15) (hi := 0) (by push_cast; nlinarith) (by push_cast; nlinarith) (by decide) (by decide))
  push_cast at p0 p1
  obtain ⟨C, hC, hbound⟩ := exists_bound (lo := -15) (hi := 15) (by decide) (by decide)
  have hsum := add_rounds fa fp hC (hbound _ (by push_cast; linarith) (by push_cast; linarith))
  exact (le_iff hsum.finite fa).mpr (hsum.le a fa (by linarith))

end Sys2Proof.F64

namespace Sys2Proof.Machine

/-- A released voice is never above the level that the release captured (R220). -/
theorem releaseEnvelope_le {x : TickEnv} (hp : Patch.InRange x.patch) (hsr : x.cfg.sr ≠ 0) {v : Voice}
    (hv : v.relLevel.Between 0 15) : (releaseEnvelope x v).le v.relLevel = true := by
  obtain ⟨ft, t0, t1⟩ := seconds_spec v.envSmp hsr
  have hrelease : (x.real PatchId.envRelease).Between 0 3600 := real_between hp (by decide +kernel)
  have frl := finite_of_between hrelease (by decide) (by decide)
  unfold releaseEnvelope
  dsimp only
  split
  · rename_i h
    obtain ⟨hpos, -⟩ := Bool.and_eq_true_iff.mp h
    have hsub := time_sub_finite ft t0 t1 (t0 := F64.zero) ⟨by decide, by decide +kernel⟩
    rw [F64.lerpSeg, if_pos hpos]
    exact F64.lerp_zero_le hv (F64.clamp_between (F64.div_not_nan hsub frl ((F64.lt_zero_iff frl).mp hpos).ne'))
  · have hzero : F64.ofInt 0 = F64.zero := by decide
    exact hzero ▸ hv.1

/-- Settles O58: the range by `envelope_between`, the captured level by `releaseEnvelope_le`, and the level that a tick
leaves by `voiceTick_voice`, whose envelope is written out segment by segment in the statement. -/
theorem envelopeStaysInItsRange : Obligations.EnvelopeStaysInItsRange := by
  unfold Obligations.EnvelopeStaysInItsRange
  constructor
  · intro x v hp hsr hv buzz
    obtain ⟨ft, t0, t1⟩ := seconds_spec v.onSmp hsr
    refine ⟨envelope_between hp hsr hv ft t0 t1 buzz, ?_, ?_⟩
    · rintro rfl
      rfl
    · rintro rfl hoff
      have hrelease : envelope x v (voiceTime x v) false = releaseEnvelope x v := by simp [envelope, hoff]
      exact hrelease ▸ releaseEnvelope_le hp hsr hv
  · intro x v w chip after h
    have hlevel : w.envLevel = envelope x v (voiceTime x v) (tickBuzz x v) := by
      obtain rfl : (voiceTick x v chip).1 = w := congrArg Prod.fst h
      rw [voiceTick_voice]
    exact ⟨_, _, _, _, _, _, _, _, _, _, _, _, _, _, _, _, rfl, rfl, rfl, rfl, rfl, rfl, rfl, rfl, rfl, rfl, rfl, rfl,
      rfl, rfl, rfl, rfl, hlevel, hlevel⟩

/-! ## The ring modulation -/

/-! The loop policies (R225, R238). -/

theorem pingPongs_eq_iterate (n : Nat) (s : Fin 8 × RmDir) : pingPongs n s = pingPong^[n] s := by
  induction n generalizing s with
  | zero => rfl
  | succ n ih => exact ih (pingPong s)

/-- 14 PingPong steps come back to every state but the two that turn without having moved (R238). -/
theorem pingPongs_fourteen : ∀ s : Fin 8 × RmDir, s ≠ (7, .up) → s ≠ (0, .down) → pingPongs 14 s = s
  | (i, .up) => by revert i; decide +kernel
  | (i, .down) => by revert i; decide +kernel

theorem pingPong_ne : ∀ s : Fin 8 × RmDir, pingPong s ≠ (7, .up) ∧ pingPong s ≠ (0, .down)
  | (i, .up) => by revert i; decide
  | (i, .down) => by revert i; decide

/-- After one step every state is on the cycle of 14. -/
theorem pingPong_isPeriodicPt (s : Fin 8 × RmDir) : Function.IsPeriodicPt pingPong 14 (pingPong s) := by
  rw [Function.IsPeriodicPt, Function.IsFixedPt, ← pingPongs_eq_iterate]
  exact pingPongs_fourteen _ (pingPong_ne s).1 (pingPong_ne s).2

theorem stepK_pingPong (s : Fin 8 × RmDir) (k : Nat) : stepK .pingPong s k = pingPong^[k] s := by
  cases k with
  | zero => rfl
  | succ k =>
    have hstep : stepK .pingPong s (k + 1) = pingPongs (1 + k % 14) s := rfl
    rw [hstep, pingPongs_eq_iterate, Nat.add_comm 1, Function.iterate_succ_apply,
      (pingPong_isPeriodicPt s).iterate_mod_apply, Function.iterate_succ_apply]

theorem stepK_off (i : Fin 8) (d : RmDir) (k : Nat) :
    ((stepK .off (i, d) k).1.val, (stepK .off (i, d) k).2) = (min (i.val + k) 7, d) :=
  congrArg (·, d) (Nat.mod_eq_of_lt (by omega))

/-- A step after k steps is the step k + 1. -/
theorem stepK_succ (loop : RmLoop) (s : Fin 8 × RmDir) (k : Nat) :
    stepK loop s (k + 1) = stepK loop (stepK loop s k) 1 := by
  cases loop with
  | off =>
    refine Prod.ext (Fin.ext ?_) rfl
    show min (s.1.val + (k + 1)) 7 % 8 = min (min (s.1.val + k) 7 % 8 + 1) 7 % 8
    omega
  | forward =>
    refine Prod.ext (Fin.ext ?_) rfl
    show (s.1.val + (k + 1)) % 8 % 8 = ((s.1.val + k) % 8 % 8 + 1) % 8 % 8
    omega
  | pingPong =>
    rw [stepK_pingPong, Function.iterate_succ_apply', ← stepK_pingPong]
    rfl

theorem stepK_zero (loop : RmLoop) (s : Fin 8 × RmDir) : stepK loop s 0 = s := by
  obtain ⟨i, d⟩ := s
  cases loop with
  | off => exact Prod.ext (Fin.ext (by show min i.val 7 % 8 = i.val; omega)) rfl
  | forward => exact Prod.ext (Fin.ext (by show i.val % 8 % 8 = i.val; omega)) rfl
  | pingPong => rfl

theorem stepK_eq_iterate (loop : RmLoop) (s : Fin 8 × RmDir) (k : Nat) :
    stepK loop s k = (fun s => stepK loop s 1)^[k] s := by
  induction k with
  | zero => exact stepK_zero loop s
  | succ k ih => rw [stepK_succ, ih, Function.iterate_succ_apply']

theorem stepK_forward_eight (s : Fin 8 × RmDir) : stepK .forward s 8 = s := by
  refine Prod.ext (Fin.ext ?_) rfl
  show (s.1.val + 8) % 8 % 8 = s.1.val
  omega

/-- Inside the table a PingPong step moves in its direction. -/
theorem stepK_pingPong_one : ∀ (i : Fin 8) (d : RmDir), 0 < i.val → i.val < 7 → (stepK .pingPong (i, d) 1).1.val =
    match d with | .up => i.val + 1 | .down => i.val - 1
  | i, .up => by revert i; decide
  | i, .down => by revert i; decide

/-! The phase of a tick (R202, R222 to R226). -/

/-- The fraction of the table at which a first tick starts (R202). -/
def ringmodStart (x : TickEnv) (v : Voice) : F64 :=
  if x.flag PatchId.ringmodReset then x.real PatchId.ringmodPhase else u01 (rnd x.par .rm v.serial)

theorem ringmodReset_val_rmIdx (x : TickEnv) (v : Voice) :
    (ringmodReset x v).rmIdx.val = min ((ringmodStart x v).mul (F64.dec 8)).floor.toNat 7 := by
  have hdec : F64.dec 8 = F64.ofNat 8 := by decide
  rw [hdec]
  exact Nat.mod_eq_of_lt (Nat.lt_succ_of_le (Nat.min_le_right _ _))

theorem ringmodReset_rmPhase (x : TickEnv) (v : Voice) : (ringmodReset x v).rmPhase =
    ((ringmodStart x v).mul (F64.dec 8)).sub (F64.ofNat (ringmodReset x v).rmIdx.val) := by
  have hdec : F64.dec 8 = F64.ofNat 8 := by decide
  rw [ringmodReset_val_rmIdx, hdec]
  rfl

theorem ringmodStep_of_floor_nonneg (x : TickEnv) (adv : F64) (v : Voice) (h : 0 ≤ (v.rmPhase.add adv).floor) :
    ((ringmodStep x adv v).rmIdx, (ringmodStep x adv v).rmDir) =
      stepK (rmLoop x.patch) (v.rmIdx, v.rmDir) (v.rmPhase.add adv).floor.toNat := by
  rw [← show stepCount (v.rmPhase.add adv).floor = _ from if_pos h]
  rfl

/-- Settles O59: the policies are iterates of their single step, and a tick is `tickRingmod`, from `tickStart`. -/
theorem ringModStepsCompose : Obligations.RingModStepsCompose := by
  unfold Obligations.RingModStepsCompose
  refine ⟨stepK_eq_iterate, stepK_forward_eight, pingPongs_fourteen, stepK_off, stepK_pingPong_one, ?_⟩
  intro x v w chip after h
  obtain rfl : (voiceTick x v chip).1 = w := congrArg Prod.fst h
  rw [voiceTick_voice]
  dsimp only
  refine ⟨arpOffset x (tickSeqVoice x v), (seqTerms x (tickSeqIdx x v)).pitch, tickPitch x v, ringmodStart x v, _, _, _,
    ringmodAdvance x (tickPitch x v), _, (tickStart x v).rmIdx, (tickStart x v).rmDir, (tickStart x v).rmPhase,
    tickSync x v chip && !tickBuzz x v, arpOffset_tickSeqVoice x v, ?terms, tickPitch_eq x v, rfl, ?first, ?later, rfl,
    rfl, rfl, rfl, rfl, rfl, ?synced, ?stepped⟩
  case terms => cases tickSeqIdx x v <;> rfl
  case first =>
    intro hf
    rw [tickStart, if_pos hf]
    exact ⟨ringmodReset_val_rmIdx x v, rfl, ringmodReset_rmPhase x v⟩
  case later =>
    intro hf
    rw [tickStart, hf]
    exact ⟨rfl, rfl, rfl⟩
  case synced =>
    intro hs
    rw [tickRingmod, if_pos hs]
    exact ⟨rfl, rfl, rfl⟩
  case stepped =>
    intro hs
    rw [tickRingmod, hs]
    exact ⟨rfl, ringmodStep_of_floor_nonneg x _ _, fun hfin h0 => F64.frac_unit hfin h0⟩

/-! ## The sequencer and the arpeggio -/

/-- The index plays the steps below E once, then those from L on (R205). -/
theorem map_val_seqIndex {e : Nat} (he : e ≤ 16) (l r : Nat) : (seqIndex e l r).map Fin.val =
    if r < e then some r else if l < e then some (l + (r - l) % (e - l)) else none := by
  unfold seqIndex
  split
  · exact congrArg some (Nat.mod_eq_of_lt (by omega))
  · split
    · have hlt : (r - l) % (e - l) < e - l := Nat.mod_lt _ (by omega)
      exact congrArg some (Nat.mod_eq_of_lt (by omega))
    · rfl

section
variable {n : Nat}

theorem arpPosition_of_lt {r : Nat} (q : Nat) (hr : r < n) : arpPosition n q r = r := if_pos hr

theorem arpPosition_of_le {r : Nat} (q : Nat) (hr : n ≤ r) :
    arpPosition n q r = min q (n - 1) + (r - n) % (n - min q (n - 1)) := if_neg (Nat.not_lt.mpr hr)

theorem arpPosition_lt (hn : 0 < n) (q r : Nat) : arpPosition n q r < n := by
  rcases Nat.lt_or_ge r n with hr | hr
  · rwa [arpPosition_of_lt q hr]
  · have hmod : (r - n) % (n - min q (n - 1)) < n - min q (n - 1) := Nat.mod_lt _ (by omega)
    rw [arpPosition_of_le q hr]
    omega

theorem arpPosition_zero (r : Nat) : arpPosition n 0 r = r % n := by
  rcases Nat.lt_or_ge r n with hr | hr
  · rw [arpPosition_of_lt 0 hr, Nat.mod_eq_of_lt hr]
  · rw [arpPosition_of_le 0 hr, Nat.mod_eq_sub_mod hr]
    simp

/-- From the repeat point on the positions repeat (R207). -/
theorem arpPosition_add_period {q r : Nat} (hr : min q (n - 1) ≤ r) :
    arpPosition n q (r + (n - min q (n - 1))) = arpPosition n q r := by
  rw [arpPosition_of_le q (by omega)]
  rcases Nat.lt_or_ge r n with hlt | hge
  · rw [arpPosition_of_lt q hlt, show r + (n - min q (n - 1)) - n = r - min q (n - 1) by omega,
      Nat.mod_eq_of_lt (by omega)]
    omega
  · rw [arpPosition_of_le q hge, Nat.sub_add_comm hge, Nat.add_mod_right]

end

/-! The random position (R208). -/

/-- The hash of a raw step, from which a random position is drawn (R208, 00_scope.md R15). -/
def arpHash (p : Params) (r : Nat) : Nat := (p.hash32 (BitVec.ofNat 32 r + 0x9E3779B9)).toNat

section
variable (p : Params) (r : Nat)

theorem arpDraw_one (prev : Option Nat) : arpDraw p 1 prev r = 0 := by
  unfold arpDraw
  exact if_pos rfl

variable {n : Nat}

theorem arpDraw_none (hn : n ≠ 1) : arpDraw p n none r = arpHash p r % n := if_neg hn

theorem arpDraw_of_le (hn : n ≠ 1) {q : Nat} (hq : n ≤ q) : arpDraw p n (some q) r = arpHash p r % n :=
  (if_neg hn).trans (if_pos hq)

theorem arpDraw_of_lt (hn : n ≠ 1) {q : Nat} (hq : q < n) : arpDraw p n (some q) r =
    if arpHash p r % (n - 1) < q then arpHash p r % (n - 1) else arpHash p r % (n - 1) + 1 :=
  (if_neg hn).trans (if_neg (Nat.not_le.mpr hq))

theorem arpDraw_lt (hn : 0 < n) (prev : Option Nat) : arpDraw p n prev r < n := by
  rcases eq_or_ne n 1 with rfl | h1
  · exact (arpDraw_one p r prev).trans_lt hn
  · cases prev with
    | none => exact (arpDraw_none p r h1).trans_lt (Nat.mod_lt _ hn)
    | some q =>
      rcases Nat.lt_or_ge q n with hq | hq
      · have hmod : arpHash p r % (n - 1) < n - 1 := Nat.mod_lt _ (by omega)
        rw [arpDraw_of_lt p r h1 hq]
        split <;> omega
      · exact (arpDraw_of_le p r h1 hq).trans_lt (Nat.mod_lt _ hn)

theorem arpDraw_ne (hn : 1 < n) {q : Nat} (hq : q < n) : arpDraw p n (some q) r ≠ q := by
  rw [arpDraw_of_lt p r hn.ne' hq]
  split <;> omega

end

/-! The selection of a tick (R207, R208). -/

section
variable {x : TickEnv} (r : Nat) (v : Voice)

theorem arpeggiate_of_keep (h : (playMode x.patch).isArp = false ∨ x.eng.held.length = 0) : arpeggiate x r v = v := by
  rcases h with hmode | hheld
  · cases hm : playMode x.patch with
    | mono | poly => simp [arpeggiate, hm]
    | arpUp | arpDown | arpRandom =>
      rw [hm] at hmode
      cases hmode
  · simp [arpeggiate, hheld]

/-- Only Random remembers a position (R208). -/
theorem arpeggiate_of_ne_random (h : playMode x.patch ≠ .arpRandom ∨ x.eng.held.length = 0) :
    (arpeggiate x r v).arpPrev = v.arpPrev ∧ (arpeggiate x r v).arpLastR = v.arpLastR := by
  rcases h with hmode | hheld
  · cases hm : playMode x.patch with
    | mono | poly | arpUp | arpDown =>
      simp only [arpeggiate, hm]
      split <;> exact ⟨rfl, rfl⟩
    | arpRandom => exact absurd hm hmode
  · rw [arpeggiate_of_keep r v (.inr hheld)]
    exact ⟨rfl, rfl⟩

variable (hn : 0 < x.eng.held.length)
include hn

theorem arpeggiate_of_arpUp (hm : playMode x.patch = .arpUp) :
    x.eng.held[arpPosition x.eng.held.length (x.int PatchId.seqArpRepeat).toNat r]? = some (arpeggiate x r v).arpSel := by
  have hlt := arpPosition_lt hn (x.int PatchId.seqArpRepeat).toNat r
  simp only [arpeggiate, hm, if_neg hn.ne', List.getD_eq_getElem _ _ hlt, List.getElem?_eq_getElem hlt]

theorem arpeggiate_of_arpDown (hm : playMode x.patch = .arpDown) :
    x.eng.held[x.eng.held.length - 1 - arpPosition x.eng.held.length (x.int PatchId.seqArpRepeat).toNat r]? =
      some (arpeggiate x r v).arpSel := by
  have hlt : x.eng.held.length - 1 - arpPosition x.eng.held.length (x.int PatchId.seqArpRepeat).toNat r <
    x.eng.held.length := by omega
  simp only [arpeggiate, hm, if_neg hn.ne', List.getD_eq_getElem _ _ hlt, List.getElem?_eq_getElem hlt]

end

/-- Random keeps its position while the raw step is the one it was drawn at and the position is still one of a held
pitch (R208). -/
theorem arpDraws_eq_false_iff {v : Voice} {n r : Nat} :
    arpDraws v n r = false ↔ v.arpLastR.map BitVec.toNat = some r ∧ ∃ q, v.arpPrev = some q ∧ q < n := by
  unfold arpDraws
  cases v.arpPrev <;> simp

theorem map_toNat_arpStep {r : Nat} (hr : r < 2 ^ 64) : (some (arpStep r)).map BitVec.toNat = some r := by
  rw [arpStep, if_pos hr]
  exact congrArg some ((BitVec.toNat_ofNat r 64).trans (Nat.mod_eq_of_lt hr))

section
variable {x : TickEnv} {r : Nat} {v : Voice} (hn : 0 < x.eng.held.length) (hm : playMode x.patch = .arpRandom)
include hn hm

theorem arpeggiate_of_draws (hd : arpDraws v x.eng.held.length r = true) :
    (arpeggiate x r v).arpPrev = some (arpDraw x.par x.eng.held.length v.arpPrev r) ∧
      x.eng.held[arpDraw x.par x.eng.held.length v.arpPrev r]? = some (arpeggiate x r v).arpSel ∧
      (arpeggiate x r v).arpLastR = some (arpStep r) := by
  have hlt := arpDraw_lt x.par r hn v.arpPrev
  simp [arpeggiate, hm, hn.ne', hd, List.getElem?_eq_getElem hlt]

theorem arpeggiate_of_not_draws (hd : arpDraws v x.eng.held.length r = false) {q : Nat} (hq : v.arpPrev = some q)
    (hlt : q < x.eng.held.length) : (arpeggiate x r v).arpPrev = some q ∧
      x.eng.held[q]? = some (arpeggiate x r v).arpSel ∧ (arpeggiate x r v).arpLastR = v.arpLastR := by
  simp [arpeggiate, hm, hn.ne', hd, hq, List.getElem?_eq_getElem hlt]

end

/-- The arpeggio of a tick starts from the selection that the voice has (R202 to R205 leave it). -/
theorem exists_tickSeqVoice_eq_arpeggiate (x : TickEnv) (v : Voice) :
    ∃ u, tickSeqVoice x v = arpeggiate x (rawStep x v) u ∧ u.arpSel = v.arpSel ∧ u.arpPrev = v.arpPrev ∧
      u.arpLastR = v.arpLastR := by
  obtain ⟨_, _, _, hstart⟩ := tickStart_frame x v
  refine ⟨_, congrArg Prod.fst (tickSequencer_eq x v), ?_⟩
  rw [hstart]
  exact ⟨rfl, rfl, rfl⟩

/-- Settles O60: the positions are arithmetic, and a tick reads them at its raw step, in each mode by the rule of
`arpeggiate` for it. -/
theorem sequencerAndArpeggioPositions : Obligations.SequencerAndArpeggioPositions := by
  unfold Obligations.SequencerAndArpeggioPositions
  refine ⟨fun _ l r he => map_val_seqIndex he l r,
    fun _ q r hn => ⟨arpPosition_lt hn q r, arpPosition_of_lt q, arpPosition_zero r, arpPosition_add_period⟩,
    fun p _ r prev hn => ⟨arpDraw_lt p r hn prev, ?_⟩, ?draw, ?tick⟩
  · rintro q rfl hq h1
    exact arpDraw_ne p r h1 hq
  case draw =>
    rintro p n r _ rfl
    exact ⟨arpDraw_one p r, fun h1 => ⟨arpDraw_none p r h1.ne', fun _ => arpDraw_of_le p r h1.ne',
      fun _ => arpDraw_of_lt p r h1.ne'⟩⟩
  case tick =>
    intro x v w chip after h
    obtain ⟨u, hseq, hsel, hprev, hlast⟩ := exists_tickSeqVoice_eq_arpeggiate x v
    obtain rfl : (voiceTick x v chip).1 = w := congrArg Prod.fst h
    rw [voiceTick_voice, hseq]
    dsimp only
    rw [← hsel, ← hprev, ← hlast]
    refine ⟨_, rawStep x v, x.eng.held.length, rfl, rfl, rfl, rfl, fun hkeep => ?_, arpeggiate_of_ne_random _ u,
      fun hm hn => arpeggiate_of_arpUp _ u hn hm, fun hm hn => arpeggiate_of_arpDown _ u hn hm, fun hm hn => ?random⟩
    · rw [arpeggiate_of_keep _ u hkeep]
    case random =>
      rw [← arpDraws_eq_false_iff]
      cases hd : arpDraws u x.eng.held.length (rawStep x v) with
      | true =>
        obtain ⟨hp, hs, hl⟩ := arpeggiate_of_draws hn hm hd
        exact ⟨_, hp, arpDraw_lt x.par _ hn _, hs, nofun, fun _ => ⟨rfl, fun hr => hl ▸ map_toNat_arpStep hr⟩⟩
      | false =>
        obtain ⟨-, q, hq, hlt⟩ := arpDraws_eq_false_iff.mp hd
        obtain ⟨hp, hs, hl⟩ := arpeggiate_of_not_draws hn hm hd hq hlt
        exact ⟨q, hp, hlt, hs, fun _ => ⟨hq, hl⟩, fun hnot => absurd rfl hnot⟩

end Sys2Proof.Machine

/-! # The Engine (44_engine.md)

Each event is one of a few answers, and each answer is said by one equation of the Engine operation behind it. The
sorted lists (`holdPitch`, `insertVoice`, the first of the quietest voices) are told by what they hold. A RENDER is its
samples, and one sample is its ticks followed by silence or by the chip. -/

namespace Sys2Proof.F64

theorem le_of_lt {a b : F64} (h : a.lt b = true) : a.le b = true := by
  simp only [lt, le, Bool.and_eq_true, decide_eq_true_eq] at h ⊢
  exact ⟨h.1, h.2.le⟩

theorem lt_of_lt_of_le {a b c : F64} (hab : a.lt b = true) (hbc : b.le c = true) : a.lt c = true := by
  simp only [lt, le, Bool.and_eq_true, decide_eq_true_eq] at hab hbc ⊢
  exact ⟨⟨hab.1.1, hbc.1.2⟩, hab.2.trans_le hbc.2⟩

theorem le_refl_of_isFinite {a : F64} (ha : a.isFinite = true) : a.le a = true := (le_iff ha ha).mpr le_rfl

end Sys2Proof.F64

namespace Sys2Proof.Machine

/-! ## The held pitches and the voice list -/

theorem count_holdPitch_eq_add (p q : BitVec 7) (h : List (BitVec 7)) :
    (holdPitch p h).count q = h.count q + if q = p then 1 else 0 :=
  (count_holdPitch p q h).trans (congrArg _ (if_congr eq_comm rfl rfl))

/-- After the pitch is added it is the only one exactly when none was held before. -/
theorem holdPitch_length_eq_one (p : BitVec 7) (h : List (BitVec 7)) : (holdPitch p h).length = 1 ↔ h = [] := by
  rw [holdPitch_length, Nat.add_eq_right, List.length_eq_zero_iff]

/-- The head of an ascending list is the lowest of its pitches. -/
theorem head_eq_of_lowest {q r : BitVec 7} {rs : List (BitVec 7)}
    (hsort : (r :: rs).Pairwise fun a b => a.toNat ≤ b.toNat) (hq : q ∈ r :: rs)
    (hlow : ∀ x ∈ r :: rs, q.toNat ≤ x.toNat) : r = q := by
  have hrq : r.toNat ≤ q.toNat :=
    (List.mem_cons.mp hq).elim (fun e => e ▸ le_rfl) fun hm => (List.pairwise_cons.mp hsort).1 q hm
  exact BitVec.eq_of_toNat_eq (hrq.antisymm (hlow r List.mem_cons_self))

/-- In a list in pitch order a new voice stands behind the voices up to its pitch and before the others (R277). -/
theorem insertVoice_eq_filter {v : Voice} {vs : List Voice}
    (h : vs.Pairwise fun a b => a.pitch.toNat ≤ b.pitch.toNat) :
    insertVoice v vs = (vs.filter fun w => decide (w.pitch.toNat ≤ v.pitch.toNat)) ++
      v :: vs.filter fun w => decide (v.pitch.toNat < w.pitch.toNat) := by
  induction vs with
  | nil => rfl
  | cons w ws ih =>
    obtain ⟨hw, hws⟩ := List.pairwise_cons.mp h
    rw [insertVoice, ih hws]
    split
    next hle => simp [hle]
    next hgt =>
      have habove (u : Voice) (hu : u ∈ w :: ws) : v.pitch.toNat < u.pitch.toNat :=
        (List.mem_cons.mp hu).elim (fun e => e ▸ not_le.mp hgt) fun hm => (not_le.mp hgt).trans_le (hw u hm)
      have hnone : (w :: ws).filter (fun u => decide (u.pitch.toNat ≤ v.pitch.toNat)) = [] :=
        List.filter_eq_nil_iff.mpr fun u hu => by simpa using habove u hu
      have hall : (w :: ws).filter (fun u => decide (v.pitch.toNat < u.pitch.toNat)) = w :: ws :=
        List.filter_eq_self.mpr fun u hu => by simpa using habove u hu
      rw [hnone, hall]
      rfl

/-! ## Stealing -/

/-- The voice v at place j is the first of those with the lowest level (R263). -/
structure FirstQuietest (vs : List Voice) (j : Nat) (v : Voice) : Prop where
  get : vs[j]? = some v
  lowest : ∀ w ∈ vs, v.envLevel.le w.envLevel = true
  first : ∀ (k : Nat) (w : Voice), k < j → vs[k]? = some w → v.envLevel.lt w.envLevel = true

section
variable {vs : List Voice} {j : Nat} {v w : Voice}

theorem FirstQuietest.lt_length (h : FirstQuietest vs j v) : j < vs.length :=
  (List.getElem?_eq_some_iff.mp h.get).1

/-- A quieter voice behind the list takes the place of the first quietest. -/
theorem FirstQuietest.append_lt (h : FirstQuietest vs j v) (hlt : w.envLevel.lt v.envLevel = true)
    (hw : w.envLevel.isFinite = true) : FirstQuietest (vs ++ [w]) vs.length w where
  get := by simp
  lowest u hu := by
    obtain hu | hu := List.mem_append.mp hu
    · exact F64.le_of_lt (F64.lt_of_lt_of_le hlt (h.lowest u hu))
    · obtain rfl := List.mem_singleton.mp hu
      exact F64.le_refl_of_isFinite hw
  first k u hk hu := by
    rw [List.getElem?_append_left hk] at hu
    exact F64.lt_of_lt_of_le hlt (h.lowest u (List.mem_of_getElem? hu))

/-- A voice behind the list that is not quieter leaves the first quietest. -/
theorem FirstQuietest.append_le (h : FirstQuietest vs j v) (hle : v.envLevel.le w.envLevel = true) :
    FirstQuietest (vs ++ [w]) j v where
  get := (List.getElem?_append_left h.lt_length).trans h.get
  lowest u hu := (List.mem_append.mp hu).elim (h.lowest u) fun hu => List.mem_singleton.mp hu ▸ hle
  first k u hk hu := by
    rw [List.getElem?_append_left (hk.trans h.lt_length)] at hu
    exact h.first k u hk hu

/-- The search goes through the rest of the list with the first quietest of the part before it. -/
theorem quietestFrom_spec (ws : List Voice) (hvs : ∀ u ∈ vs, u.envLevel.isFinite = true)
    (hws : ∀ u ∈ ws, u.envLevel.isFinite = true) (h : FirstQuietest vs j v) :
    ∃ u, FirstQuietest (vs ++ ws) (quietestFrom v j vs.length ws) u := by
  induction ws generalizing vs j v with
  | nil => exact ⟨v, by rwa [List.append_nil]⟩
  | cons w ws ih =>
    obtain ⟨hw, hrest⟩ := List.forall_mem_cons.mp hws
    have hseen : ∀ u ∈ vs ++ [w], u.envLevel.isFinite = true :=
      List.forall_mem_append.mpr ⟨hvs, List.forall_mem_singleton.mpr hw⟩
    have hlen : (vs ++ [w]).length = vs.length + 1 := by simp
    rw [List.append_cons, quietestFrom, ← hlen]
    split
    next hlt => exact ih hseen hrest (h.append_lt hlt hw)
    next hge =>
      have hv := hvs v (List.mem_of_getElem? h.get)
      exact ih hseen hrest (h.append_le (by rw [F64.le_eq_not_lt hv hw]; simpa using hge))

/-- A Poly allocation takes out the first of the quietest voices (R263). -/
theorem stealQuietest_spec (hne : vs ≠ []) (hvs : ∀ u ∈ vs, u.envLevel.isFinite = true) :
    ∃ j v, FirstQuietest vs j v ∧ stealQuietest vs = vs.eraseIdx j := by
  obtain ⟨v, ws, rfl⟩ := List.exists_cons_of_ne_nil hne
  obtain ⟨hv, hws⟩ := List.forall_mem_cons.mp hvs
  have hone : FirstQuietest [v] 0 v :=
    ⟨rfl, List.forall_mem_singleton.mpr (F64.le_refl_of_isFinite hv), fun k _ hk => absurd hk k.not_lt_zero⟩
  obtain ⟨u, hu⟩ := quietestFrom_spec ws (List.forall_mem_singleton.mpr hv) hws hone
  exact ⟨_, u, hu, rfl⟩

end

/-! ## NOTE_ON -/

section
variable (par : Params) (pitch : BitVec 7) {vel : BitVec 7} (s : State)

/-- NOTE_ON of velocity 0 is a NOTE_OFF (R261). -/
theorem State.noteOn_zero :
    s.noteOn par pitch 0 = { s with eng := s.eng.noteOff (playMode s.patch) pitch } := if_pos rfl

/-- NOTE_ON is refused with HELD_CAP pitches held (R261). -/
theorem State.noteOn_of_full (hvel : vel ≠ 0) (hfull : s.eng.held.length = par.heldCap) :
    s.noteOn par pitch vel = s.raise .value := (if_neg hvel).trans (if_pos hfull)

/-- NOTE_ON with a velocity and room is an Engine event (R261). -/
theorem State.noteOn_of_room (hvel : vel ≠ 0) (hroom : s.eng.held.length ≠ par.heldCap) :
    s.noteOn par pitch vel = { s with eng := s.eng.noteOn par (playMode s.patch) s.chip pitch vel } :=
  (if_neg hvel).trans (if_neg hroom)

end

/-- NOTE_ON with a velocity and room in the 256 held pitches of the default HELD_CAP (R261). -/
theorem exec_noteOn_of_room {s : State} {vel : BitVec 7} (mch : BitVec 4) (pitch : BitVec 7) (hvel : vel ≠ 0)
    (hroom : s.eng.held.length ≠ 256) : exec (.noteOn mch pitch vel) s =
      .next { s with eng := s.eng.noteOn params (playMode s.patch) s.chip pitch vel } :=
  (exec_eq _ s).trans (congrArg _ (s.noteOn_of_room params pitch hvel hroom))

section
variable (e : Engine) (par : Params) (chip : Chip) (p vel : BitVec 7)

/-- The voice that a note-on makes on a channel: it glides from the last pitch and starts at the channel's tone bit
(R265, 43_voice.md R235). -/
def Engine.newVoiceOn (ch : Fin 3) : Voice :=
  Voice.create e.serialCtr ch p vel (e.lastPitch.getD p) (chip.tones.get ch).bit

/-- NOTE_ON in Mono (R262, R265). -/
theorem Engine.noteOn_mono : e.noteOn par .mono chip p vel = { e with
    voices := [e.newVoiceOn chip p vel 0]
    held := holdPitch p e.held
    lastPitch := some p
    serialCtr := e.serialCtr + 1 } := rfl

theorem Engine.alloc_of_isArp {mode : PlayMode} (h : mode.isArp = true) (src : BitVec 7) :
    e.alloc par mode chip p vel src = e.allocArp chip p vel src := by
  cases mode with
  | mono | poly => cases h
  | arpUp | arpDown | arpRandom => rfl

/-- NOTE_ON in the arpeggio modes (R264, R265). -/
theorem Engine.noteOn_of_isArp {mode : PlayMode} (h : mode.isArp = true) : e.noteOn par mode chip p vel = { e with
    voices := if e.held = [] then [e.newVoiceOn chip p vel 0] else e.voices
    held := holdPitch p e.held
    lastPitch := some p
    serialCtr := if e.held = [] then e.serialCtr + 1 else e.serialCtr } := by
  rw [Engine.noteOn, Engine.alloc_of_isArp _ par chip p vel h, Engine.allocArp]
  simp only [holdPitch_length_eq_one]
  split <;> rfl

/-- NOTE_ON in Poly: the new voice is put into the voices that stealing leaves, on a channel that they leave free
(R263, R265). -/
theorem Engine.noteOn_poly (h : VoicesOk e.voices) : ∃ vs ch,
    vs = (if e.voices.length = 3 then stealQuietest e.voices else e.voices) ∧
      (freeChannels vs)[(rnd par .chan e.serialCtr).toNat % (freeChannels vs).length]? = some ch ∧
      e.noteOn par .poly chip p vel = { e with
        voices := insertVoice (e.newVoiceOn chip p vel ch) vs
        held := holdPitch p e.held
        lastPitch := some p
        serialCtr := e.serialCtr + 1 } := by
  obtain ⟨vs, ch, hvs, -, -, hch, halloc⟩ :=
    Engine.allocPoly_spec (e := { e with held := holdPitch p e.held }) h par chip p vel (e.lastPitch.getD p)
  exact ⟨vs, ch, hvs, hch, congrArg (fun a : Engine => { a with lastPitch := some p }) halloc⟩

end

/-- Settles O41: `Engine.noteOn_mono`, and the pitch that `holdPitch` adds. -/
theorem monoNoteOnReplacesTheVoice : Obligations.MonoNoteOnReplacesTheVoice := by
  unfold Obligations.MonoNoteOnReplacesTheVoice
  intro s mch pitch vel hmode hvel hroom
  have hexec := exec_noteOn_of_room mch pitch hvel hroom
  rw [hmode, Engine.noteOn_mono] at hexec
  exact ⟨_, hexec, rfl, fun q => count_holdPitch_eq_add pitch q _⟩

/-- Settles O43: `Engine.noteOn_of_isArp`, and the pitch that `holdPitch` adds. -/
theorem arpNoteOnMakesOneVoice : Obligations.ArpNoteOnMakesOneVoice := by
  unfold Obligations.ArpNoteOnMakesOneVoice
  intro s mch pitch vel hmode hvel hroom
  have hexec := exec_noteOn_of_room mch pitch hvel hroom
  rw [Engine.noteOn_of_isArp _ _ _ _ _ hmode] at hexec
  exact ⟨_, hexec, rfl, fun q => count_holdPitch_eq_add pitch q _⟩

/-- Settles O42: the voices that stay are those of `stealQuietest_spec`, and the new one stands among them as
`insertVoice_eq_filter` says. -/
theorem polyNoteOnTakesAFreeChannel : Obligations.PolyNoteOnTakesAFreeChannel := by
  unfold Obligations.PolyNoteOnTakesAFreeChannel
  intro s mch pitch vel hinv hbounded hmode hvel hroom
  have hexec := exec_noteOn_of_room mch pitch hvel hroom
  obtain ⟨kept, ch, hkept, hch, hon⟩ := s.eng.noteOn_poly params s.chip pitch vel hinv.eng.voices
  have horder : kept.Pairwise fun a b => a.pitch.toNat ≤ b.pitch.toNat := by
    rw [hkept]
    split
    · exact hinv.eng.order.sublist (stealQuietest_sublist _)
    · exact hinv.eng.order
  rw [hmode, hon, insertVoice_eq_filter horder] at hexec
  refine ⟨_, kept, freeChannels kept, ch, hexec, fun hfew => ?few, fun hthree => ?three, rfl, hch, rfl,
    fun q => count_holdPitch_eq_add pitch q _⟩
  case few => rw [hkept, if_neg hfew.ne]
  case three =>
    have hfinite : ∀ v ∈ s.eng.voices, v.envLevel.isFinite = true := fun v hv =>
      finite_of_between (hbounded.voices v hv).envLevel (by decide) (by decide)
    have hne : s.eng.voices ≠ [] := List.ne_nil_of_length_eq_add_one hthree
    obtain ⟨j, v, hquiet, hsteal⟩ := stealQuietest_spec hne hfinite
    exact ⟨j, v, hquiet.get, by rw [hkept, if_pos hthree, hsteal], hquiet.lowest, hquiet.first⟩

/-! ## NOTE_OFF -/

section
variable {e : Engine} {p : BitVec 7} (mode : PlayMode)

/-- NOTE_OFF of a pitch that is not held is ignored (R266). -/
theorem Engine.noteOff_of_not_mem (h : p ∉ e.held) : e.noteOff mode p = e := if_pos (by simpa using h)

/-- With the pedal down a NOTE_OFF is deferred while the pitch is held more often than deferred (R266, R267). -/
theorem Engine.noteOff_of_pedal_down (h : p ∈ e.held) (hs : e.sustain = true) : e.noteOff mode p =
    if e.deferred.count p < e.held.count p then { e with deferred := e.deferred ++ [p] } else e :=
  (if_neg (by simpa using h)).trans (if_pos hs)

/-- With the pedal up a NOTE_OFF of a held pitch is carried out (R266). -/
theorem Engine.noteOff_of_pedal_up (h : p ∈ e.held) (hs : e.sustain = false) :
    e.noteOff mode p = e.noteOffNow mode p := (if_neg (by simpa using h)).trans (if_neg (by simp [hs]))

end

/-- NOTE_OFF answers the Engine that its rule gives (R266); the MIDI channel and RVEL are ignored (R260). -/
theorem exec_noteOff_of_eq {s : State} {e : Engine} {pitch : BitVec 7}
    (h : s.eng.noteOff (playMode s.patch) pitch = e) (mch : BitVec 4) (rvel : BitVec 7) :
    exec (.noteOff mch pitch rvel) s = .next { s with eng := e } := h ▸ exec_eq _ s

/-- Settles O45: the two short answers of NOTE_ON and the two of NOTE_OFF. -/
theorem noteEventsRefusedIgnoredOrDeferred : Obligations.NoteEventsRefusedIgnoredOrDeferred := by
  unfold Obligations.NoteEventsRefusedIgnoredOrDeferred
  intro s mch mch' pitch vel rvel
  refine ⟨(exec_eq _ s).trans (congrArg _ (s.noteOn_zero params pitch)),
    fun hvel hfull => (exec_eq _ s).trans (congrArg _ (s.noteOn_of_full params pitch hvel hfull)),
    fun p hvel hfull => (execWith_eq p _ s).trans (congrArg _ (s.noteOn_of_full p pitch hvel hfull)),
    fun hfree => exec_noteOff_of_eq (Engine.noteOff_of_not_mem _ hfree) mch rvel, fun hheld hdown => ?_⟩
  rw [exec_noteOff_of_eq (Engine.noteOff_of_pedal_down _ hheld hdown) mch rvel]
  split <;> rfl

/-! In Mono and Poly (R268). -/

/-- With no held voice of the pitch none is released (R268). -/
theorem releaseFirst_of_forall {p : BitVec 7} {vs : List Voice} (h : ∀ v ∈ vs, v.pitch = p → v.noteOn = false) :
    releaseFirst p vs = vs := by
  induction vs with
  | nil => rfl
  | cons v vs ih =>
    obtain ⟨hv, hvs⟩ := List.forall_mem_cons.mp h
    rw [releaseFirst, if_neg fun hm => by simp [hv hm.1] at hm, ih hvs]

/-- The first held voice of the pitch is released (R268). -/
theorem releaseFirst_append {p : BitVec 7} {vs : List Voice} (h : ∀ w ∈ vs, w.pitch = p → w.noteOn = false)
    {v : Voice} (hp : v.pitch = p) (hon : v.noteOn = true) (ws : List Voice) :
    releaseFirst p (vs ++ v :: ws) = vs ++ v.release :: ws := by
  induction vs with
  | nil => exact if_pos ⟨hp, hon⟩
  | cons w vs ih =>
    obtain ⟨hw, hvs⟩ := List.forall_mem_cons.mp h
    rw [List.cons_append, releaseFirst, if_neg fun hm => by simp [hw hm.1] at hm, ih hvs]
    rfl

section
variable (e : Engine) (p : BitVec 7) {mode : PlayMode}

theorem Engine.noteOffNow_of_not_isArp (h : mode.isArp = false) :
    e.noteOffNow mode p = { e with held := e.held.erase p, voices := releaseFirst p e.voices } := if_neg (by simp [h])

/-! In the arpeggio modes (R269). -/

/-- The last pitch gone, every voice is released (R269). -/
theorem Engine.noteOffNow_of_erase_eq_nil (h : mode.isArp = true) (hnil : e.held.erase p = []) :
    e.noteOffNow mode p = { e with held := e.held.erase p, voices := releaseAll e.voices } := by
  rw [Engine.noteOffNow, if_pos h, Engine.noteOffArp, hnil]

/-- While a pitch is left, the voices whose pitch is not are repointed to the lowest (R269). -/
theorem Engine.noteOffNow_of_lowest (h : mode.isArp = true)
    (hsort : e.held.Pairwise fun a b => a.toNat ≤ b.toNat) {q : BitVec 7} (hq : q ∈ e.held.erase p)
    (hlow : ∀ x ∈ e.held.erase p, q.toNat ≤ x.toNat) : e.noteOffNow mode p =
      { e with held := e.held.erase p, voices := repointAll (e.held.erase p) q e.voices } := by
  have hleft := sorted_erase hsort p
  rw [Engine.noteOffNow, if_pos h, Engine.noteOffArp]
  cases hheld : e.held.erase p with
  | nil => simp [hheld] at hq
  | cons r rs =>
    rw [hheld] at hleft hq hlow
    rw [head_eq_of_lowest hleft hq hlow]

/-- In every mode a note-off takes the pitch out of the held ones and writes the voices, nothing else (R268, R269). -/
theorem Engine.noteOffNow_frame (mode : PlayMode) : e.noteOffNow mode p =
    { e with held := e.held.erase p, voices := (e.noteOffNow mode p).voices } := by
  cases hmode : mode.isArp with
  | false => rw [e.noteOffNow_of_not_isArp p hmode]
  | true =>
    rw [Engine.noteOffNow, if_pos hmode, Engine.noteOffArp]
    cases e.held.erase p <;> rfl

end

theorem repointAll_eq_map (held : List (BitVec 7)) (q : BitVec 7) (vs : List Voice) : repointAll held q vs =
    vs.map fun v => if v.noteOn = true ∧ v.pitch ∉ held then v.repoint q else v :=
  List.map_congr_left fun v _ => if_congr (by simp) rfl rfl

/-- Settles O46: with the pedal up the note-off is carried out, in each mode by the rule for it. -/
theorem noteOffReleasesOrRepoints : Obligations.NoteOffReleasesOrRepoints := by
  unfold Obligations.NoteOffReleasesOrRepoints
  intro s mch pitch rvel hheld hup hsort
  refine ⟨_, exec_noteOff_of_eq (Engine.noteOff_of_pedal_up _ hheld hup) mch rvel,
    congrArg (fun e => { s with eng := e }) (s.eng.noteOffNow_frame pitch _), fun hplain => ?plain, fun harp => ?arp⟩
  case plain =>
    rw [s.eng.noteOffNow_of_not_isArp pitch hplain]
    refine ⟨releaseFirst_of_forall, fun a v b hvs ha hpitch hon => ?_⟩
    rw [hvs]
    exact releaseFirst_append ha hpitch hon b
  case arp =>
    refine ⟨fun hnil => ?_, fun q hq hlow => ?_⟩
    · rw [s.eng.noteOffNow_of_erase_eq_nil pitch harp hnil]
      rfl
    · rw [s.eng.noteOffNow_of_lowest pitch harp hsort hq hlow]
      exact repointAll_eq_map _ q _

/-! ## The other events -/

/-- A controller number that is not mapped has no effect (R272, 30_encoding.md R113). -/
theorem Engine.controller_of_not_mem {num : BitVec 7} (h : num ∉ [1#7, 5#7, 7#7, 10#7, 11#7, 64#7]) (e : Engine)
    (mode : PlayMode) (val : BitVec 7) : e.controller mode num val = e := by
  simp only [List.mem_cons, List.not_mem_nil, or_false, not_or] at h
  obtain ⟨h1, h5, h7, h10, h11, h64⟩ := h
  exact (if_neg h1).trans <| (if_neg h5).trans <| (if_neg h7).trans <| (if_neg h10).trans <| (if_neg h11).trans <|
    if_neg h64

/-- CONTROL answers the Engine that its rule gives (R272). -/
theorem exec_control_of_eq {s : State} {e : Engine} {num val : BitVec 7}
    (h : s.eng.controller (playMode s.patch) num val = e) (mch : BitVec 4) :
    exec (.control mch num val) s = .next { s with eng := e } := h ▸ exec_eq _ s

/-- Settles O47: each event writes the field that its definition names. -/
theorem eventsWriteTheirRegister : Obligations.EventsWriteTheirRegister := by
  unfold Obligations.EventsWriteTheirRegister
  intro s mch val
  exact ⟨exec_eq _ s, fun _ => exec_eq _ s, exec_control_of_eq rfl mch, exec_control_of_eq rfl mch,
    exec_control_of_eq rfl mch, exec_control_of_eq rfl mch, exec_control_of_eq rfl mch,
    fun _ hnum => exec_control_of_eq (Engine.controller_of_not_mem hnum s.eng _ val) mch⟩

/-! ## The pedal -/

section
variable (e : Engine) (mode : PlayMode) {val : BitVec 7}

/-- Controller 64 is the pedal, down from 64 on (R272, R274). -/
theorem Engine.controller_pedal (down : Bool) (h : decide (64 ≤ val.toNat) = down) :
    e.controller mode 64 val = e.setSustain mode down := by
  rw [← h]
  rfl

/-- Letting up a pedal that is down runs what it deferred (R274). -/
theorem Engine.setSustain_false_of_down (h : e.sustain = true) : e.setSustain mode false =
    Engine.runDeferred mode e.deferred { e with sustain := false, deferred := [] } := if_pos h

/-- Letting up a pedal that is up has no effect (R274). -/
theorem Engine.setSustain_false_of_up (h : e.sustain = false) : e.setSustain mode false = e := by
  rw [Engine.setSustain, h]
  rfl

end

/-- With the pedal up, and no pitch in the list more often than it is held, the deferred note-offs are NOTE_OFF commands
one after the other (R274): each finds its pitch still held. -/
theorem foldl_noteOff_eq_runDeferred (mch : BitVec 4)
    {f : Host.Outcome State Fault Refusal → BitVec 7 → Host.Outcome State Fault Refusal}
    (hf : ∀ u p, f (.next u) p = exec (.noteOff mch p 0) u) (ps : List (BitVec 7)) (s : State)
    (hup : s.eng.sustain = false) (hheld : ∀ p, ps.count p ≤ s.eng.held.count p) :
    ps.foldl f (.next s) = .next { s with eng := Engine.runDeferred (playMode s.patch) ps s.eng } := by
  induction ps generalizing s with
  | nil => rfl
  | cons p ps ih =>
    have hmem : p ∈ s.eng.held := by
      have hp := hheld p
      rw [List.count_cons_self] at hp
      exact List.count_pos_iff.mp (by omega)
    have hframe := s.eng.noteOffNow_frame p (playMode s.patch)
    rw [List.foldl_cons, hf, exec_noteOff_of_eq (Engine.noteOff_of_pedal_up _ hmem hup),
      ih { s with eng := s.eng.noteOffNow (playMode s.patch) p }]
    · rfl
    · rw [hframe]
      exact hup
    · intro q
      have hq := hheld q
      rw [hframe]
      show ps.count q ≤ (s.eng.held.erase p).count q
      rw [List.count_erase]
      rw [List.count_cons] at hq
      omega

/-- Settles O48: the pedal by its value and its place, and the deferred note-offs by `foldl_noteOff_eq_runDeferred`,
whose premise the invariant gives. -/
theorem pedalRunsTheDeferredNoteOffs : Obligations.PedalRunsTheDeferredNoteOffs := by
  unfold Obligations.PedalRunsTheDeferredNoteOffs
  intro s mch val hinv
  have hexec (down : Bool) (h : decide (64 ≤ val.toNat) = down) :
      exec (.control mch 64 val) s = .next { s with eng := s.eng.setSustain (playMode s.patch) down } :=
    exec_control_of_eq (s.eng.controller_pedal _ down h) mch
  refine ⟨fun hhigh => hexec true (decide_eq_true hhigh), fun hlow hup => ?up, fun hlow hdown => ?down⟩
  case up => rw [hexec false (decide_eq_false hlow.not_ge), s.eng.setSustain_false_of_up _ hup]
  case down =>
    rw [hexec false (decide_eq_false hlow.not_ge), s.eng.setSustain_false_of_down _ hdown]
    exact (foldl_noteOff_eq_runDeferred mch (fun _ _ => rfl) s.eng.deferred
      { s with eng := { s.eng with sustain := false, deferred := [] } } rfl hinv.eng.deferred).symm

/-! ## RENDER -/

section
variable (p : Params) {s : State}

/-- RENDER is refused before a CONFIGURE (R275). -/
theorem State.render_of_not_configured (h : s.cfg.configured = false) (n : Nat) :
    s.render p n = s.raise .unconfigured := if_neg (by simp [h])

/-- RENDER runs its samples after a CONFIGURE (R275). -/
theorem State.render_of_configured (h : s.cfg.configured = true) (n : Nat) :
    s.render p n = s.renderSamples p n := if_pos h

/-- A render may be split anywhere (70_reset_and_hazards.md R337). -/
theorem State.render_add (h : s.cfg.configured = true) (n m : Nat) :
    s.render p (n + m) = (s.render p n).render p m := by
  have hcfg : (s.renderSamples p n).cfg.configured = true := (s.renderSamples_cfg p n).symm ▸ h
  rw [State.render_of_configured p h, State.render_of_configured p h, State.render_of_configured p hcfg,
    State.renderSamples_add]

/-- With every voice removed by the ticks, a sample is silent and the chip does not run (R275). -/
theorem State.renderSample_of_tickedVoices_nil (h : s.tickedVoices p = []) :
    s.renderSample p = (s.tickPhase p).emit F64.zero F64.zero := by
  rw [State.renderSample, State.tickPhase_eq, h]
  rfl

/-- With a voice left by the ticks, a sample is the chip's (R275). -/
theorem State.renderSample_of_tickedVoices_ne_nil (h : s.tickedVoices p ≠ []) :
    s.renderSample p = (s.tickPhase p).chipSample p := if_neg (by simpa [State.tickPhase_eq] using h)

end

/-- The voices left are those that are held or have a level other than 0 (R276). -/
theorem State.tickedVoices_eq_filter (p : Params) (s : State) : s.tickedVoices p =
    (tickVoices (s.tickEnv p) s.eng.voices s.chip).1.filter fun v => v.noteOn || !v.envLevel.eq F64.zero :=
  List.filter_congr fun v _ => by simp [Voice.silent]

/-- Settles O53: the two answers of RENDER, its split, and one sample as its ticks and the cases of what they leave. -/
theorem renderIsItsSamplesInOrder : Obligations.RenderIsItsSamplesInOrder := by
  unfold Obligations.RenderIsItsSamplesInOrder
  intro s
  refine ⟨fun n h => (exec_eq _ s).trans (congrArg _ (State.render_of_not_configured params h _)),
    fun h => ⟨(exec_eq _ s).trans (congrArg _ (State.render_of_configured params h 0)), fun n m hnm => ?split,
      fun p => ?sample⟩⟩
  case split =>
    have hsum : (n + m).toNat = n.toNat + m.toNat := (BitVec.toNat_add n m).trans (Nat.mod_eq_of_lt hnm)
    refine ⟨_, exec_eq _ s, ?_⟩
    rw [exec_eq, exec_eq]
    exact congrArg _ ((congrArg (s.render params) hsum).trans (State.render_add params h _ _))
  case sample =>
    have hzero : F64.zero.toF32 = 0 := by decide
    have hrender : s.render p 1 = s.renderSample p := State.render_of_configured p h 1
    refine ⟨_, _, _, s.renderSample p, (tickVoices_foldl (s.tickEnv p) s.eng.voices [] s.chip).symm,
      s.tickedVoices_eq_filter p, fun hnil => ?_, fun hleft => ?_, (execWith_eq p _ s).trans (congrArg _ hrender), ?_⟩
    · rw [State.renderSample_of_tickedVoices_nil p hnil, State.tickPhase_eq, hnil, State.emit, hzero]
    · exact (State.renderSample_of_tickedVoices_ne_nil p hleft).trans (State.chipSample_eq p _)
    · rintro rfl
      exact (exec_eq _ s).trans (congrArg _ hrender)

/-- Settles O54: `State.renderSamples_idle` at the count of the command. -/
theorem idleRenderKeepsTheChip : Obligations.IdleRenderKeepsTheChip := by
  unfold Obligations.IdleRenderKeepsTheChip
  intro s n hconf hidle
  rw [exec_eq]
  exact congrArg _ ((State.render_of_configured params hconf _).trans (State.renderSamples_idle params hidle _))

/-! ## The channel of a removed voice -/

section
variable (p : Params) (cfg : Cfg) (chip : Chip) (k : Fin 3)

/-- Ticks move the counter and the tone bit of a channel and leave its registers (42_chip_process.md R163). -/
theorem ticks_channel (n : Nat) : ∃ c b,
    (Chip.ticks p n chip).tones.get k = { chip.tones.get k with counter := c, bit := b } := by
  induction n generalizing chip with
  | zero => exact ⟨_, _, rfl⟩
  | succ n ih =>
    obtain ⟨_, _, hone⟩ := (chip.tones.get k).tick_frame
    obtain ⟨c, b, hrest⟩ := ih (chip.tick p)
    exact ⟨c, b, hrest.trans (by rw [Chip.tick_tones, Tones.get_map, hone])⟩

theorem subSamples_channel (n : Nat) : ∃ c b,
    (chip.subSamples p cfg n).tones.get k = { chip.tones.get k with counter := c, bit := b } := by
  induction n generalizing chip with
  | zero => exact ⟨_, _, rfl⟩
  | succ n ih =>
    obtain ⟨m, _, hadvance⟩ := Chip.advance_eq p cfg.step chip
    obtain ⟨_, _, hone⟩ := ticks_channel p chip k m
    obtain ⟨c, b, hrest⟩ := ih (chip.subSample p cfg)
    exact ⟨c, b, hrest.trans (by rw [Chip.subSample, Chip.firPush_tones, hadvance, hone])⟩

/-- The registers of a channel are the same after a sample (42_chip_process.md R161). -/
theorem chipSample_channel : ∃ c b,
    (chipSample p cfg chip).2.tones.get k = { chip.tones.get k with counter := c, bit := b } :=
  subSamples_channel p cfg chip k 8

end

/-- After the ticks a sample of RENDER leaves the registers of every channel (R275). -/
theorem State.renderSample_channel (p : Params) (s : State) (k : Fin 3) : ∃ c b,
    (s.renderSample p).chip.tones.get k = { (s.tickPhase p).chip.tones.get k with counter := c, bit := b } := by
  by_cases h : s.tickedVoices p = []
  · exact ⟨_, _, by rw [State.renderSample_of_tickedVoices_nil p h]; rfl⟩
  · rw [State.renderSample_of_tickedVoices_ne_nil p h]
    exact chipSample_channel p _ _ k

/-- A sample keeps the voices that the ticks leave (R275). -/
theorem State.renderSample_voices (p : Params) (s : State) : (s.renderSample p).eng.voices = s.tickedVoices p := by
  obtain ⟨_, _, h⟩ := s.renderSample_spec p
  rw [h]

/-- Settles O56: the voice of the channel is one that the ticks found silent, so `tickVoices_silent` says what they left
in the registers of the channel, which the sample keeps. -/
theorem removedVoiceLeavesItsChannelSilent : Obligations.RemovedVoiceLeavesItsChannelSilent := by
  unfold Obligations.RemovedVoiceLeavesItsChannelSilent
  intro s v hinv hbounded hconf hv
  have hrender : s.render params 1 = s.renderSample params := State.render_of_configured params hconf 1
  refine ⟨s.renderSample params, (exec_eq _ s).trans (congrArg _ hrender), fun hgone => ?_⟩
  rw [State.renderSample_voices] at hgone
  have hkey : v.key ∈ (tickVoices (s.tickEnv params) s.eng.voices s.chip).1.map Voice.key := by
    rw [tickVoices_keys]
    exact List.mem_map_of_mem hv
  obtain ⟨w, hw, hwv⟩ := List.mem_map.mp hkey
  have hchan : w.chan = v.chan := congrArg Prod.fst hwv
  have hsilent : w.silent = true := by
    by_contra hsounds
    exact hgone w (List.mem_filter.mpr ⟨hw, by simpa using hsounds⟩) hchan
  obtain ⟨hsr, -⟩ := hinv.cfg.step_between hconf
  obtain ⟨hvolume, heOn⟩ := tickVoices_silent (x := s.tickEnv params) hbounded.patch hsr _ s.chip hinv.eng.channels
    (fun u hu => (hbounded.voices u hu).relLevel) w hw hsilent
  rw [hchan] at hvolume heOn
  obtain ⟨c, b, hchannel⟩ := s.renderSample_channel params v.chan
  rw [hchannel]
  exact ⟨hvolume, heOn⟩

end Sys2Proof.Machine

/-! # The patch commands (45_patch.md)

What a write stores is said once for each type of field (`storedPayload_of_real`, `storedPayload_of_int`,
`storedPayload_of_bool`), and what storing a payload does to the state once, by the lemmas of `State.patchStore`. Writing
back what a field holds stores that payload again (`storedPayload_of_payloadOk`), and a canonical register file is not
changed by that (`memWrite_memRead`). -/

namespace Sys2Proof.Machine

/-! ## What a write stores -/

section
variable {f : PatchField} {v w : Word}

theorem storedPayload_of_not_finite (hr : f.type = .real) (hv : ¬ F32.finite v) : storedPayload f v = none := by
  unfold storedPayload
  rw [hr, realPayload_eq, if_pos (not_not.mp hv)]
  rfl

/-- -0.0 becomes +0.0, and every other finite payload is stored as it is (R300). -/
theorem toF32_plusZero_ofF32 (hv : F32.finite v) :
    (plusZero (F64.ofF32 v)).toF32 = if v = 0x80000000 then 0 else v := by
  have hback := F64.toF32_ofF32 hv
  split
  next hneg =>
    subst hneg
    decide
  next hneg =>
    have hstorable : Storable (F64.ofF32 v) := ⟨by rwa [hback], by rw [hback], by rwa [hback]⟩
    rw [plusZero_of_storable hstorable, hback]

/-- A finite payload of a real field is stored clamped to the range of the field (R300). -/
theorem storedPayload_of_real (hf : f ∈ patchFields) (hr : f.type = .real) (hv : F32.finite v) :
    storedPayload f v = some (if (F64.ofF32 v).lt (F64.ofInt f.lo) then (F64.ofInt f.lo).toF32
      else if (F64.ofInt f.hi).lt (F64.ofF32 v) then (F64.ofInt f.hi).toF32
      else if v = 0x80000000 then 0 else v) := by
  obtain ⟨y, hstored, -, -, -, rfl⟩ := storedPayload_real hf hr hv
  rw [hstored, ← toF32_plusZero_ofF32 hv, apply_ite F64.toF32, apply_ite F64.toF32]

/-- A payload of an integer field, or of an enumeration, is stored clamped to the range of the field (R300). -/
theorem storedPayload_of_int (hf : f ∈ patchFields) (hi : f.type = .int ∨ f.type = .enum)
    (hw : w.toInt = max f.lo (min f.hi v.toInt)) : storedPayload f v = some w := by
  obtain ⟨hle, -, -⟩ := intBounds f hf hi
  have hclamp : BitVec.ofInt 32 (clampInt v.toInt f.lo f.hi) = w := by
    refine BitVec.eq_of_toInt_eq ?_
    rw [toInt_clampInt hf hi, hw]
    unfold clampInt
    omega
  rw [← hclamp]
  unfold storedPayload
  rcases hi with hi | hi <;> rw [hi]

theorem storedPayload_of_bool (hb : f.type = .bool) : storedPayload f v = some (if v = 0 then 0 else 1) := by
  unfold storedPayload
  rw [hb]

/-- A payload that a write can leave is stored as it is (R300). -/
theorem storedPayload_of_payloadOk (hf : f ∈ patchFields) (hw : payloadOk f w) : storedPayload f w = some w := by
  unfold payloadOk at hw
  cases ht : f.type with
  | real =>
    rw [ht] at hw
    obtain ⟨hneg, hfin, hlo, hhi⟩ := hw
    obtain ⟨hslo, hshi, -⟩ := bounds_storable f hf ht
    have hv : w.extractLsb' 23 8 ≠ 0xFF#8 := by simpa [F64.isFinite_ofF32] using hfin
    rw [F64.le_eq_not_lt hslo.finite hfin] at hlo
    rw [F64.le_eq_not_lt hfin hshi.finite] at hhi
    rw [storedPayload_of_real hf ht hv, if_neg (by simpa using hlo), if_neg (by simpa using hhi), if_neg hneg]
  | int | enum =>
    rw [ht] at hw
    obtain ⟨hlo, hhi⟩ := hw
    exact storedPayload_of_int hf (by simp [ht]) (by omega)
  | bool =>
    rw [ht] at hw
    rw [storedPayload_of_bool ht]
    rcases hw with rfl | rfl <;> rfl

end

/-! ## What storing does -/

/-- Writing what an assigned id of a canonical register file holds leaves the file the same data (R300). -/
theorem memWrite_memRead {m : Patch} (hm : Memory.wf m = true) {id : Nat} (hid : assigned id = true) :
    memWrite m id (memRead m id) = m := by
  refine Memory.ext_of_wf (Memory.wf_memWrite hm hid _) hm fun a => ?_
  rw [memRead_memWrite (Memory.wf_iff.mp hm).1]
  split
  next h => rw [h]
  next => rfl

namespace State
variable {s : State} {id : Nat} {w : Word}

@[simp] theorem patchStore_patch : (s.patchStore id w).patch = memWrite s.patch id w := rfl

theorem patchStore_frame : s.patchStore id w =
    { s with patch := (s.patchStore id w).patch, eng := (s.patchStore id w).eng } := by
  rw [s.patchStore_eq]

theorem memRead_patchStore_same (hm : Memory.wf s.patch = true) : memRead (s.patchStore id w).patch id = w := by
  rw [patchStore_patch, memRead_memWrite (Memory.wf_iff.mp hm).1, if_pos rfl]

theorem memRead_patchStore_of_ne (hm : Memory.wf s.patch = true) {a : Nat} (ha : a ≠ id) :
    memRead (s.patchStore id w).patch a = memRead s.patch a := by
  rw [patchStore_patch, memRead_memWrite (Memory.wf_iff.mp hm).1, if_neg ha.symm]

theorem patchStore_eng_of_ne (hid : id ≠ PatchId.playMode) : (s.patchStore id w).eng = s.eng := by
  rw [s.patchStore_eq]
  exact if_neg fun h => hid h.1

/-- A store that changes `play_mode` performs ALL_NOTES_OFF (R302). -/
theorem patchStore_eng_of_change (hw : memRead s.patch PatchId.playMode ≠ w) :
    (s.patchStore PatchId.playMode w).eng = s.eng.allNotesOff := by
  rw [s.patchStore_eq]
  exact if_pos ⟨rfl, hw.symm⟩

/-- Storing what a field holds changes nothing, on `play_mode` too (R300, R302). -/
theorem patchStore_memRead (hm : Memory.wf s.patch = true) (hid : assigned id = true) :
    s.patchStore id (memRead s.patch id) = s := by
  have hsame : ¬ (id = PatchId.playMode ∧ memRead s.patch id ≠ memRead s.patch PatchId.playMode) :=
    fun ⟨h, hne⟩ => hne (h ▸ rfl)
  rw [s.patchStore_eq, memWrite_memRead hm hid, if_neg hsame]

end State

/-! ## PATCH_WR -/

section
variable {f : PatchField} {id : BitVec 12} {v w : Word}

/-- A payload that the field refuses raises ERR_VALUE and nothing else (R300). -/
theorem exec_patchWr_of_refused (hf : f ∈ patchFields) (hid : f.id = id.toNat) (hv : storedPayload f v = none)
    (s : State) : exec (.patchWr id v) s = .next (s.raise .value) := by
  rw [exec_patchWr (hid ▸ fieldAt_self f hf), hv]

/-- A payload that the field accepts is stored (R300). -/
theorem exec_patchWr_of_stored (hf : f ∈ patchFields) (hid : f.id = id.toNat) (hv : storedPayload f v = some w)
    (s : State) : exec (.patchWr id v) s = .next (s.patchStore id.toNat w) := by
  rw [exec_patchWr (hid ▸ fieldAt_self f hf), hv]

end

/-- Settles O36: the payload is refused, or stored as the type of the field says, and `State.patchStore` writes its field
and, for `play_mode` only, the Engine. -/
theorem patchWriteClampsAndStores : Obligations.PatchWriteClampsAndStores := by
  unfold Obligations.PatchWriteClampsAndStores
  intro s id f v w hm hf hid
  refine ⟨fun hr hv => exec_patchWr_of_refused hf hid (storedPayload_of_not_finite hr hv) s, fun hw => ?_⟩
  have hstored : storedPayload f v = some w := by
    rcases hw with ⟨hr, hv, rfl⟩ | ⟨hi, hw⟩ | ⟨hb, rfl⟩
    · exact storedPayload_of_real hf hr hv
    · exact storedPayload_of_int hf hi hw
    · exact storedPayload_of_bool hb
  exact ⟨_, exec_patchWr_of_stored hf hid hstored s, State.memRead_patchStore_same hm,
    fun _ ha => State.memRead_patchStore_of_ne hm ha, Memory.wf_memWrite hm (hid ▸ assigned_self hf) w,
    State.patchStore_frame, fun hne => State.patchStore_eng_of_ne (hid ▸ hne)⟩

/-- Settles O37: the field stores the payload again, and storing what it holds changes nothing. -/
theorem rewritingAFieldChangesNothing : Obligations.RewritingAFieldChangesNothing := by
  unfold Obligations.RewritingAFieldChangesNothing
  intro s id hm hrange hid
  obtain ⟨f, hf, hfid⟩ := (assigned_iff _).mp hid
  have hstored : storedPayload f (memRead s.patch id.toNat) = some (memRead s.patch id.toNat) :=
    storedPayload_of_payloadOk hf (hfid ▸ hrange f hf)
  rw [exec_patchWr_of_stored hf hfid hstored, State.patchStore_memRead hm hid]

/-- The row of `play_mode` in the patch field table (10_state.md R40). -/
def playModeField : PatchField := ⟨PatchId.playMode, .enum, 0, 4, 0⟩

theorem playModeField_mem : playModeField ∈ patchFields := by decide

/-- A PATCH_WR of `play_mode` stores its payload clamped to [0, 4] (R300). -/
theorem exec_patchWr_playMode {v w : Word} (hw : w.toInt = max 0 (min 4 v.toInt)) (s : State) :
    exec (.patchWr 0 v) s = .next (s.patchStore PatchId.playMode w) :=
  exec_patchWr_of_stored playModeField_mem rfl (storedPayload_of_int playModeField_mem (.inr rfl) hw) s

/-- Settles O38: the clamped payload is stored, which is ALL_NOTES_OFF when it changes the field and nothing when it
does not. -/
theorem playModeChangeReleasesEveryNote : Obligations.PlayModeChangeReleasesEveryNote := by
  unfold Obligations.PlayModeChangeReleasesEveryNote
  intro s v w hm hw
  refine ⟨?same, fun hchange => ⟨_, exec_patchWr_playMode hw s, State.patchStore_frame,
    State.memRead_patchStore_same hm, fun _ ha => State.memRead_patchStore_of_ne hm ha, ?eng, ?voices⟩⟩
  case same =>
    rintro rfl
    exact (exec_patchWr_playMode hw s).trans
      (congrArg _ (State.patchStore_memRead hm (assigned_self playModeField_mem)))
  case eng =>
    rw [State.patchStore_eng_of_change hchange]
    rfl
  case voices =>
    rw [State.patchStore_eng_of_change hchange]
    rfl

/-! ## PATCH_RD -/

/-- The data word of PATCH_RD is not used (R301, 30_encoding.md R102). -/
theorem decode_patchRd {id : BitVec 12} (hid : assigned id.toNat = true) (d : Word) :
    decode (0x31#8 ++ 0#12 ++ id) d = .legal (.patchRd id) := by
  have hencode : encode (.patchRd id) = (0x31#8 ++ 0#12 ++ id, 0) := rfl
  have hop : (0x31#8 ++ 0#12 ++ id : Word).extractLsb' 24 8 = 0x31#8 := by
    simp (disch := decide) only [BitVec.extractLsb'_append_eq_of_le]
    decide
  obtain ⟨-, hsame, -⟩ := unusedDataIsIgnored (0x31#8 ++ 0#12 ++ id) d 0
  rw [hsame (by rw [hop]; decide)]
  exact decode_of_encode_eq hencode hid

/-- Every field of the reset state holds its reset payload (70_reset_and_hazards.md R330). -/
theorem memRead_reset {f : PatchField} (hf : f ∈ patchFields) : memRead State.reset.patch f.id = f.reset :=
  resetPayload_self hf

/-- Settles O39: the decoder gives the command back whatever D is, and the two printed words are reset payloads. -/
theorem patchReadRespondsThePayload : Obligations.PatchReadRespondsThePayload := by
  unfold Obligations.PatchReadRespondsThePayload
  refine ⟨fun s id hid => ⟨decode_patchRd hid, (exec_eq _ s).trans (congrArg _ (execState_patchRd params hid s))⟩,
    ?_, ?_, ?_, ?_⟩
  · exact decode_patchRd (id := BitVec.ofNat 12 PatchId.controlPitchwheel) (by decide) 0
  · exact memRead_reset (f := ⟨PatchId.controlPitchwheel, .int, 0, 48, 2⟩) (by decide)
  · exact decode_patchRd (id := BitVec.ofNat 12 PatchId.envSustainLevel) (by decide) 0
  · exact memRead_reset (f := ⟨PatchId.envSustainLevel, .real, 0, 15, 0x41700000⟩) (by decide)

end Sys2Proof.Machine

/-! # The refusals (60_exceptions.md)

The list of R311 is one relation, `Refused`, between what is decoded and an error bit. A refused command is `raise`
(`stepWith_of_refused`), and every other command but RD_STATUS and RESET runs past the error bits without reading or
writing them (`execState_withErr`). -/

namespace Sys2Proof.Machine

/-! ## The error bits -/

/-- The value of a sticky bit. -/
def Errors.has (e : Errors) : ErrorBit → Bool
  | .illegal => e.illegal
  | .unconfigured => e.unconfigured
  | .value => e.value

/-- Setting a bit sets that bit and keeps the others (R312). -/
theorem Errors.has_set (e : Errors) (b c : ErrorBit) : (e.set b).has c = true ↔ e.has c = true ∨ b = c := by
  cases b <;> cases c <;> simp [Errors.set, Errors.has]

/-- The state with other error bits. -/
def State.withErr (e : Errors) (s : State) : State := { s with err := e }

/-! ## The list of R311 -/

/-- The rows of R311: the commands that are refused in a configuration and an Engine state, each with the bit that
records it. -/
inductive Refused (p : Params) (cfg : Cfg) (eng : Engine) : Decoded → ErrorBit → Prop
  | illegal (why : Illegal) : Refused p cfg eng (.illegal why) .illegal
  | process (h : cfg.configured = false) : Refused p cfg eng (.legal .process) .unconfigured
  | render (n : BitVec 20) (h : cfg.configured = false) : Refused p cfg eng (.legal (.render n)) .unconfigured
  | configure (mode : ChipMode) {sr : BitVec 18} {clock : Word} (h : sr = 0 ∨ clock = 0) :
      Refused p cfg eng (.legal (.configure mode sr clock)) .value
  | setPan (ch : BitVec 4) (eqp : Bool) {pan : F32} (h : ¬ F32.finite pan) :
      Refused p cfg eng (.legal (.setPan ch eqp pan)) .value
  | tonePhase (ch : BitVec 4) {phase : F32} (h : ¬ F32.finite phase) :
      Refused p cfg eng (.legal (.tonePhase ch phase)) .value
  | patchWr {id : BitVec 12} {v : Word} {f : PatchField} (hf : f ∈ patchFields) (hid : f.id = id.toNat)
      (hreal : f.type = .real) (h : ¬ F32.finite v) : Refused p cfg eng (.legal (.patchWr id v)) .value
  | noteOn (mch : BitVec 4) (pitch : BitVec 7) {vel : BitVec 7} (hvel : vel ≠ 0)
      (h : eng.held.length = p.heldCap) : Refused p cfg eng (.legal (.noteOn mch pitch vel)) .value

namespace Refused
variable {p : Params} {cfg : Cfg} {eng : Engine} {x : Decoded} {b c : ErrorBit}

/-- A command is refused with one bit at most (R313). -/
theorem unique (hb : Refused p cfg eng x b) (hc : Refused p cfg eng x c) : b = c := by
  cases hb <;> cases hc <;> rfl

theorem ne_rdStatus (hb : Refused p cfg eng x b) : x ≠ .legal .rdStatus := by
  rintro rfl
  cases hb

theorem ne_reset (hb : Refused p cfg eng x b) : x ≠ .legal .reset := by
  rintro rfl
  cases hb

/-- ERR_ILLEGAL records an illegal header (R112). -/
theorem illegal_iff {h d : Word} : Refused p cfg eng (decode h d) .illegal ↔ ¬ legalHeader h := by
  rw [← legalHeadersAreThoseOfTheOpcodeMap h d]
  cases decode h d with
  | illegal why => exact iff_of_true (.illegal why) (by simp)
  | legal i => exact iff_of_false (fun hr => by cases hr) (by simp)

/-- ERR_UNCONFIGURED records a PROCESS or a RENDER before a CONFIGURE (R160, R275). -/
theorem unconfigured_iff : Refused p cfg eng x .unconfigured ↔
    cfg.configured = false ∧ (x = .legal .process ∨ ∃ n, x = .legal (.render n)) := by
  constructor
  · intro hr
    cases hr with
    | process h => exact ⟨h, .inl rfl⟩
    | render n h => exact ⟨h, .inr ⟨n, rfl⟩⟩
  · rintro ⟨h, rfl | ⟨n, rfl⟩⟩
    · exact .process h
    · exact .render n h

/-- ERR_VALUE records one of the five causes of its rows (R311). -/
theorem value_iff : Refused p cfg eng x .value ↔
    (∃ mode sr clock, x = .legal (.configure mode sr clock) ∧ (sr = 0 ∨ clock = 0)) ∨
    (∃ ch eqp pan, x = .legal (.setPan ch eqp pan) ∧ ¬ F32.finite pan) ∨
    (∃ ch phase, x = .legal (.tonePhase ch phase) ∧ ¬ F32.finite phase) ∨
    (∃ id v f, x = .legal (.patchWr id v) ∧ f ∈ patchFields ∧ f.id = id.toNat ∧ f.type = .real ∧ ¬ F32.finite v) ∨
    (∃ mch pitch vel, x = .legal (.noteOn mch pitch vel) ∧ vel ≠ 0 ∧ eng.held.length = p.heldCap) := by
  constructor
  · intro hr
    cases hr with
    | configure mode h => exact .inl ⟨mode, _, _, rfl, h⟩
    | setPan ch eqp h => exact .inr (.inl ⟨ch, eqp, _, rfl, h⟩)
    | tonePhase ch h => exact .inr (.inr (.inl ⟨ch, _, rfl, h⟩))
    | patchWr hf hid hreal h => exact .inr (.inr (.inr (.inl ⟨_, _, _, rfl, hf, hid, hreal, h⟩)))
    | noteOn mch pitch hvel h => exact .inr (.inr (.inr (.inr ⟨mch, pitch, _, rfl, hvel, h⟩)))
  · rintro (⟨mode, _, _, rfl, h⟩ | ⟨ch, eqp, _, rfl, h⟩ | ⟨ch, _, rfl, h⟩ | ⟨_, _, _, rfl, hf, hid, hreal, h⟩ |
      ⟨mch, pitch, _, rfl, hvel, h⟩)
    · exact .configure mode h
    · exact .setPan ch eqp h
    · exact .tonePhase ch h
    · exact .patchWr hf hid hreal h
    · exact .noteOn mch pitch hvel h

end Refused

/-! ## A refused command -/

section
variable (p : Params) {f : PatchField} {id : BitVec 12} {v w : Word} (hf : f ∈ patchFields) (hid : f.id = id.toNat)
include hf hid

/-- PATCH_WR of a payload that the field refuses, under any parameters (R300). -/
theorem execState_patchWr_of_refused (hv : storedPayload f v = none) (s : State) :
    execState p (.patchWr id v) s = s.raise .value :=
  Host.Outcome.next.inj ((execWith_eq p _ s).symm.trans (exec_patchWr_of_refused hf hid hv s))

/-- PATCH_WR of a payload that the field accepts, under any parameters (R300). -/
theorem execState_patchWr_of_stored (hv : storedPayload f v = some w) (s : State) :
    execState p (.patchWr id v) s = s.patchStore id.toNat w :=
  Host.Outcome.next.inj ((execWith_eq p _ s).symm.trans (exec_patchWr_of_stored hf hid hv s))

end

/-- A refused command sets its bit and does nothing else (R314). -/
theorem execState_of_refused {p : Params} {i : Instr} {b : ErrorBit} (hwf : i.wellFormed = true) {s : State}
    (hr : Refused p s.cfg s.eng (.legal i) b) : execState p i s = s.raise b := by
  cases hr with
  | process h => exact s.process_of_not_configured p h
  | render n h => exact s.render_of_not_configured p h n.toNat
  | configure mode h => exact s.configure_of_rate_zero p h
  | setPan ch eqp h | tonePhase ch h =>
    obtain ⟨c, rfl⟩ := (channelOk_iff ch).mp hwf
    exact s.onChannelReal_of_not_finite c _ h
  | patchWr hf hid hreal h => exact execState_patchWr_of_refused p hf hid (storedPayload_of_not_finite hreal h) s
  | noteOn mch pitch hvel h => exact s.noteOn_of_full p pitch hvel h

/-! ## A command that is not refused -/

section
variable (e : Errors) (p : Params) (s : State)

theorem State.renderSample_withErr : (s.withErr e).renderSample p = (s.renderSample p).withErr e := by
  have hticked : (s.withErr e).tickedVoices p = s.tickedVoices p := rfl
  by_cases hnil : s.tickedVoices p = []
  · rw [renderSample_of_tickedVoices_nil p hnil, renderSample_of_tickedVoices_nil p (hticked.trans hnil)]
    rfl
  · rw [renderSample_of_tickedVoices_ne_nil p hnil, renderSample_of_tickedVoices_ne_nil p (hticked ▸ hnil)]
    rfl

theorem State.renderSamples_withErr (n : Nat) :
    (s.withErr e).renderSamples p n = (s.renderSamples p n).withErr e := by
  induction n generalizing s with
  | zero => rfl
  | succ n ih => rw [renderSamples, renderSamples, renderSample_withErr, ih]

/-- A setter with a finite real payload, on a channel of the chip (R144, R148). -/
theorem State.onChannelReal_withErr {ch : BitVec 4} {w : F32} (hch : channelOk ch = true) (hw : F32.finite w)
    (f : F64 → ToneChannel → ToneChannel) :
    (s.withErr e).onChannelReal ch w f = (s.onChannelReal ch w f).withErr e := by
  obtain ⟨c, rfl⟩ := (channelOk_iff ch).mp hch
  rw [onChannelReal_ofNat, onChannelReal_ofNat, if_neg hw, if_neg hw]
  rfl

theorem State.patchStore_withErr (id : Nat) (w : Word) :
    (s.withErr e).patchStore id w = (s.patchStore id w).withErr e := by
  rw [patchStore_eq, patchStore_eq]
  rfl

end

/-- A payload is refused only by a real field, and only when it is not finite (R300). -/
theorem storedPayload_eq_none {f : PatchField} {v : Word} (h : storedPayload f v = none) :
    f.type = .real ∧ ¬ F32.finite v := by
  unfold storedPayload at h
  cases ht : f.type with
  | real =>
    refine ⟨rfl, fun hv => ?_⟩
    rw [ht, realPayload_eq, if_neg hv] at h
    cases h
  | int | enum | bool =>
    rw [ht] at h
    cases h

/-- A command that is not refused does the same whatever the error bits are, and passes them on; RD_STATUS and RESET
clear them (R312). -/
theorem execState_withErr {p : Params} {i : Instr} (hwf : i.wellFormed = true) (hrd : i ≠ .rdStatus)
    (hreset : i ≠ .reset) {s : State} (hok : ∀ b, ¬ Refused p s.cfg s.eng (.legal i) b) (e : Errors) :
    execState p i (s.withErr e) = (execState p i s).withErr e := by
  cases i with
  | rdStatus => exact absurd rfl hrd
  | reset => exact absurd rfl hreset
  | configure mode sr clock =>
    have hrate : ¬ (sr = 0 ∨ clock = 0) := fun h => hok .value (.configure mode h)
    simp only [execState, State.configure_of_rate_ne_zero p _ hrate]
    rfl
  | setTone ch _ | setMixer ch _ _ _ | setVolume ch _ =>
    obtain ⟨c, rfl⟩ := (channelOk_iff ch).mp hwf
    simp only [execState, State.onChannel_ofNat]
    rfl
  | setPan ch eqp w =>
    have hfin : F32.finite w := not_not.mp fun h => hok .value (.setPan ch eqp h)
    exact s.onChannelReal_withErr e hwf hfin _
  | tonePhase ch w =>
    have hfin : F32.finite w := not_not.mp fun h => hok .value (.tonePhase ch h)
    exact s.onChannelReal_withErr e hwf hfin _
  | process =>
    have hconf : s.cfg.configured = true := by simpa using fun h => hok .unconfigured (.process h)
    simp only [execState, State.process_of_configured p (s := s.withErr e) hconf, State.process_of_configured p hconf]
    rfl
  | noteOn mch pitch vel =>
    by_cases hvel : vel = 0
    · subst hvel
      simp only [execState, State.noteOn_zero]
      rfl
    · have hroom : s.eng.held.length ≠ p.heldCap := fun h => hok .value (.noteOn mch pitch hvel h)
      simp only [execState, State.noteOn_of_room p pitch (s.withErr e) hvel hroom, s.noteOn_of_room p pitch hvel hroom]
      rfl
  | patchWr id value =>
    obtain ⟨f, hf, hid⟩ := (assigned_iff id.toNat).mp hwf
    cases hv : storedPayload f value with
    | none =>
      obtain ⟨hreal, hfin⟩ := storedPayload_eq_none hv
      exact absurd (.patchWr hf hid hreal hfin) (hok .value)
    | some w =>
      rw [execState_patchWr_of_stored p hf hid hv, execState_patchWr_of_stored p hf hid hv]
      exact s.patchStore_withErr e id.toNat w
  | patchRd id =>
    rw [execState_patchRd p hwf, execState_patchRd p hwf]
    rfl
  | render n =>
    have hconf : s.cfg.configured = true := by simpa using fun h => hok .unconfigured (.render n h)
    simp only [execState, State.render_of_configured p (s := s.withErr e) hconf, State.render_of_configured p hconf]
    exact s.renderSamples_withErr e p n.toNat
  | nop | setNoise | setEnvPeriod | setEnvShape | envSync | envLoad | noteOff | allNotesOff | pitchWheel
  | control => rfl

/-- A command that is not refused, and is not RD_STATUS or RESET, keeps the error bits (R312). -/
theorem execState_err {p : Params} {i : Instr} (hwf : i.wellFormed = true) (hrd : i ≠ .rdStatus)
    (hreset : i ≠ .reset) {s : State} (hok : ∀ b, ¬ Refused p s.cfg s.eng (.legal i) b) :
    (execState p i s).err = s.err := by
  have hself : s.withErr s.err = s := rfl
  rw [← hself, execState_withErr hwf hrd hreset hok]
  rfl

/-! ## The step -/

/-- Every step answers a next state, under any parameters (R310). -/
theorem exists_stepWith_eq_next (p : Params) (s : State) : ∃ t, stepWith p s = .next t := by
  obtain ⟨-, hs⟩ | ⟨_, _, _, -, ⟨_, -, hs⟩ | ⟨_, -, hs⟩⟩ := stepWith_cases p s <;> exact ⟨_, hs⟩

section
variable {p : Params} {s : State} {h d : Word} {rest : List Word} (hc : s.cmd = h :: d :: rest)
include hc

theorem stepWith_of_legal {i : Instr} (hd : decode h d = .legal i) :
    stepWith p s = .next (execState p i { s with cmd := rest }) := by
  rw [stepWith, runNext_of_cmd _ hc, hd]
  exact execWith_eq p i _

/-- A refused pair of words is taken from the port and sets its bit (R310, R314). -/
theorem stepWith_of_refused {b : ErrorBit} (hr : Refused p s.cfg s.eng (decode h d) b) :
    stepWith p s = .next (({ s with cmd := rest } : State).raise b) := by
  cases hd : decode h d with
  | illegal why =>
    rw [hd] at hr
    cases hr
    rw [stepWith, runNext_of_cmd _ hc, hd]
  | legal i =>
    rw [hd] at hr
    rw [stepWith_of_legal hc hd]
    exact congrArg _ (execState_of_refused (decode_eq_legal_iff.mp hd).1 hr)

end

/-- Two words are refused, or they are a command that is not. -/
theorem refused_or_legal (p : Params) (s : State) (h d : Word) :
    (∃ b, Refused p s.cfg s.eng (decode h d) b) ∨
      ∃ i, decode h d = .legal i ∧ i.wellFormed = true ∧ ∀ b, ¬ Refused p s.cfg s.eng (.legal i) b := by
  by_cases hr : ∃ b, Refused p s.cfg s.eng (decode h d) b
  · exact .inl hr
  · cases hd : decode h d with
    | illegal why => exact absurd ⟨.illegal, hd ▸ .illegal why⟩ hr
    | legal i =>
      rw [hd] at hr
      exact .inr ⟨i, rfl, (decode_eq_legal_iff.mp hd).1, not_exists.mp hr⟩

section
variable {p : Params} {s t : State} {h d : Word} {rest : List Word} (hc : s.cmd = h :: d :: rest)
  (hs : stepWith p s = .next t)
include hc hs

/-- RD_STATUS and RESET clear the bits (R312). -/
theorem stepWith_err_of_clearing (hd : decode h d = .legal .rdStatus ∨ decode h d = .legal .reset) : t.err = {} := by
  rcases hd with hd | hd <;> obtain rfl := Host.Outcome.next.inj ((stepWith_of_legal hc hd).symm.trans hs)
  · rfl
  · rfl

/-- After any other command a bit is set exactly if it was or the command is refused with it (R311, R312). -/
theorem stepWith_has_iff (hrd : decode h d ≠ .legal .rdStatus) (hreset : decode h d ≠ .legal .reset) (b : ErrorBit) :
    t.err.has b = true ↔ s.err.has b = true ∨ Refused p s.cfg s.eng (decode h d) b := by
  obtain ⟨c, hr⟩ | ⟨i, hd, hwf, hok⟩ := refused_or_legal p s h d
  · obtain rfl := Host.Outcome.next.inj ((stepWith_of_refused hc hr).symm.trans hs)
    refine (Errors.has_set s.err c b).trans (or_congr_right ⟨?_, hr.unique⟩)
    rintro rfl
    exact hr
  · obtain rfl := Host.Outcome.next.inj ((stepWith_of_legal hc hd).symm.trans hs)
    rw [hd] at hrd hreset ⊢
    have herr : (execState p i { s with cmd := rest }).err = s.err :=
      execState_err (s := { s with cmd := rest }) hwf (fun hi => hrd (hi ▸ rfl)) (fun hi => hreset (hi ▸ rfl)) hok
    rw [herr, or_iff_left (hok b)]

end

/-- Settles O13: the rows of R311 are the ways in which a command is refused, and only a refusal sets a bit. -/
theorem refusalsAreExactlyTheListed : Obligations.RefusalsAreExactlyTheListed := by
  unfold Obligations.RefusalsAreExactlyTheListed
  intro p s h d rest hc
  obtain ⟨t, hs⟩ := exists_stepWith_eq_next p s
  refine ⟨t, hs, fun hp => by rw [step_eq_stepWith, ← hp, hs], stepWith_err_of_clearing hc hs, fun hrd hreset => ?_⟩
  have hbit := stepWith_has_iff hc hs hrd hreset
  exact ⟨(hbit .illegal).trans (or_congr_right Refused.illegal_iff),
    (hbit .unconfigured).trans (or_congr_right Refused.unconfigured_iff),
    (hbit .value).trans (or_congr_right Refused.value_iff)⟩

/-- Settles O14: a bit that is newly set is one that the command is refused with, so the step is `raise`. -/
theorem refusedCommandChangesOnlyItsBit : Obligations.RefusedCommandChangesOnlyItsBit := by
  unfold Obligations.RefusedCommandChangesOnlyItsBit
  intro s h d rest t hc hs hnew
  rw [step_eq_stepWith] at hs
  obtain ⟨b, hset, hclear⟩ : ∃ b, t.err.has b = true ∧ s.err.has b ≠ true := by
    simp only [Bool.or_eq_true, Bool.and_eq_true, Bool.not_eq_true'] at hnew
    obtain (⟨hset, hclear⟩ | ⟨hset, hclear⟩) | ⟨hset, hclear⟩ := hnew
    · exact ⟨.illegal, hset, ne_true_of_eq_false hclear⟩
    · exact ⟨.unconfigured, hset, ne_true_of_eq_false hclear⟩
    · exact ⟨.value, hset, ne_true_of_eq_false hclear⟩
  have hnone : t.err ≠ {} := by
    intro herr
    rw [herr] at hset
    cases b <;> cases hset
  have hkeep := not_or.mp fun hd => hnone (stepWith_err_of_clearing hc hs hd)
  have hr := ((stepWith_has_iff hc hs hkeep.1 hkeep.2 b).mp hset).resolve_left hclear
  obtain rfl := Host.Outcome.next.inj ((stepWith_of_refused hc hr).symm.trans hs)
  refine ⟨s.err.set b, ?_, rfl⟩
  cases b with
  | illegal => exact .inl rfl
  | unconfigured => exact .inr (.inl rfl)
  | value => exact .inr (.inr rfl)

/-- A step but that of RD_STATUS does the same, up to the error bits after it, whatever the error bits are (R312). -/
theorem stepWith_withErr {p : Params} {s t : State} {h d : Word} {rest : List Word} (hc : s.cmd = h :: d :: rest)
    (hs : stepWith p s = .next t) (hrd : decode h d ≠ .legal .rdStatus) (e : Errors) :
    ∃ e', stepWith p (s.withErr e) = .next (t.withErr e') := by
  have hc' : (s.withErr e).cmd = h :: d :: rest := hc
  obtain ⟨b, hr⟩ | ⟨i, hd, hwf, hok⟩ := refused_or_legal p s h d
  · obtain rfl := Host.Outcome.next.inj ((stepWith_of_refused hc hr).symm.trans hs)
    exact ⟨e.set b, stepWith_of_refused hc' hr⟩
  · obtain rfl := Host.Outcome.next.inj ((stepWith_of_legal hc hd).symm.trans hs)
    rw [stepWith_of_legal hc' hd]
    by_cases hreset : i = .reset
    · subst hreset
      exact ⟨{}, rfl⟩
    · exact ⟨e, congrArg _ (execState_withErr (s := { s with cmd := rest }) hwf (fun hi => hrd (hi ▸ hd)) hreset hok e)⟩

/-- Settles O15: a bit that is set meets the condition of `stepWith_has_iff`, and other bits pass through the step. -/
theorem errorBitsAreStickyAndInert : Obligations.ErrorBitsAreStickyAndInert := by
  unfold Obligations.ErrorBitsAreStickyAndInert
  intro s h d rest hc hrd
  rw [step_eq_stepWith]
  obtain ⟨t, hs⟩ := exists_stepWith_eq_next params s
  refine ⟨t, hs, fun hreset => ?_, stepWith_withErr hc hs hrd⟩
  have hbit := stepWith_has_iff hc hs hrd hreset
  exact ⟨fun hset => (hbit .illegal).mpr (.inl hset), fun hset => (hbit .unconfigured).mpr (.inl hset),
    fun hset => (hbit .value).mpr (.inl hset)⟩

end Sys2Proof.Machine

/-! # Power-on and RESET (70_reset_and_hazards.md)

RESET is the power-on state with the ports put back, by the definition of the command. The power-on state of any
machine is the same but for the histories of the chip, whose lengths are parameters; with the defaults they hold 191
sub-samples and 1 input. -/

namespace Sys2Proof.Machine

/-! ## RESET -/

/-- Settles O17: what RESET answers is the definition of `State.resetKeepingPorts` (R331). -/
theorem resetKeepsOnlyThePorts : Obligations.ResetKeepsOnlyThePorts := by
  unfold Obligations.ResetKeepsOnlyThePorts
  exact fun s => ⟨exec_eq .reset s, fun p => execWith_eq p .reset s⟩

/-! ## Power-on -/

/-- Each of the three channels holds the record with every register cleared (10_state.md R26). -/
theorem Chip.reset_tones_get (p : Params) (k : Fin 3) :
    (Chip.reset p).tones.get k = ⟨0, 0, false, false, false, false, 0, F64.zero, F64.zero⟩ := by
  fin_cases k <;> rfl

/-- The filter histories hold 191 sub-samples with the default coefficients (10_state.md R30; log entry 1). -/
theorem Chip.reset_fir :
    (Chip.reset params).firL = List.replicate 191 F64.zero ∧ (Chip.reset params).firR = List.replicate 191 F64.zero := by
  simp only [Chip.reset, Params.firTaps, coeffs_length, and_self]

/-- No voice sounds, no pitch is held and nothing is configured, so every field of STATUS is 0 (10_state.md R21). -/
theorem State.status_reset : State.reset.status = 0 := by decide

/-- The parameters enter the power-on state through the lengths of the histories only (10_state.md R30, R31). -/
theorem State.resetWith_eq_with_histories (p : Params) :
    State.resetWith p = { State.reset with chip := { State.reset.chip with
      firL := List.replicate p.firTaps F64.zero, firR := List.replicate p.firTaps F64.zero
      dcL := ⟨List.replicate p.dcN F64.zero, F64.zero⟩, dcR := ⟨List.replicate p.dcN F64.zero, F64.zero⟩ } } := rfl

/-- Settles O18: the elements are read off the power-on state, the patch fields by the field table
(`memRead_reset`). -/
theorem powerOnStateIsAsListed : Obligations.PowerOnStateIsAsListed := by
  unfold Obligations.PowerOnStateIsAsListed
  obtain ⟨hfirL, hfirR⟩ := Chip.reset_fir
  exact ⟨State.status_reset, rfl, rfl, rfl, rfl, rfl, Chip.reset_tones_get params, rfl, rfl, rfl, hfirL, hfirR, rfl,
    rfl, fun _ => memRead_reset, rfl, State.resetWith_eq_with_histories⟩

/-! ## The invariants -/

/-- The unconfigured block with an empty register file and an idle Engine meets the invariant, under any parameters
in their ranges: the noise counter starts below the longest noise period, whose divider is not 0 (10_state.md R27). -/
theorem State.InvWith.reset {p : Params} (hp : p.Ok) : (State.resetWith p).InvWith p where
  cfg := rfl
  chip := .reset hp.noiseDiv
  patch := Memory.wf_reset
  eng := .init

/-- Settles O51: the defaults are parameters in range. -/
theorem powerOnMeetsTheInvariants : Obligations.PowerOnMeetsTheInvariants := by
  unfold Obligations.PowerOnMeetsTheInvariants
  exact ⟨.reset params_ok, .reset, fun _ => .reset⟩

end Sys2Proof.Machine
